-- ==== Sys2Proof/Word.lean ====
section
/-! DEFINITION. The word, byte and field types of the Flefeub architecture (R9). -/

namespace Sys2Proof

/-- A 32-bit word: one register of one lane, one instruction word, one word of memory (R9). -/
abbrev Word := BitVec 32

/-- A byte (R9). -/
abbrev Byte := BitVec 8

/-- A register-field code: 0-123 name `v0`-`v123`, 124-127 name `y0`-`y3` (R66). -/
abbrev Reg := BitVec 7

/-- A set of lanes of one wave: bit l stands for lane l (R7). -/
abbrev Mask := BitVec 32

end Sys2Proof
end

