-- ==== Sys2Proof/Syntax.lean ====
section
/-! DEFINITION. The instructions and events of the opcode table: one constructor of `Instr` for each of its 271 rows.
206 rows are instruction words (R64-R78); the other 65 are steps that the device takes by itself or on an outside input, and
carry what the step acts on. -/

namespace Sys2Proof

/-- Full/empty qualifier of `ld` (R71, R161): none, wait-full, wait-full-and-take. -/
inductive LdFe | none | wf | wft
  deriving DecidableEq, Repr

/-- Full/empty qualifier of `st` (R71, R161): none, set-full, wait-empty-then-fill. -/
inductive StFe | none | sf | wef
  deriving DecidableEq, Repr

/-- Ordering qualifier of `ld` (R71). -/
inductive LdOrd | plain | sr | acq | pacq
  deriving DecidableEq, Repr

/-- Ordering qualifier of `st` (R71). -/
inductive StOrd | plain | sr | rel
  deriving DecidableEq, Repr

/-- Memory scope (R71, R256), in increasing order of reach. -/
inductive Scope | core | clu | dev | sys
  deriving DecidableEq, Repr

/-- Function of an atomic (R183). -/
inductive AtomFn | add | and | or | xor | mins | maxs | minz | maxz | xchg | cas | fadd
  deriving DecidableEq, Repr

/-- Kind of a fence (R187). -/
inductive FenceKind | ar | rel | acq
  deriving DecidableEq, Repr

/-- Reduction operator of `crsc` and `cred` (R241). -/
inductive RedOp | add | fadd | mins | maxs | minz | maxz | and | or | xor | fmin | fmax
  deriving DecidableEq, Repr

/-- Destination of `cpy` and `cpyg` (R200): a shape slot, FIFO A or FIFO B. -/
inductive CopyDest | slot (t : BitVec 5) | fifoA | fifoB
  deriving DecidableEq, Repr

/-- Special registers (R61). -/
inductive SReg
  | lane | wave | group | role | core | cluster | die | det | coord (k : BitVec 3)
  | iter | prop | acpt | pstate | wbase | clock | clockh | ptpl | ptph
  | progress | fair | gkeyl | gkeyh | dkeyl | dkeyh | evtc (k : BitVec 3) | shape (s : BitVec 5) (j : BitVec 3)
  deriving DecidableEq, Repr

/-- Privileged registers (R294). -/
inductive PReg
  | priv | tkind | tseq | hmask | hfwd | hagg | hwd | svwd | tslice | part | fwbell | nev (k : BitVec 3)
  deriving DecidableEq, Repr

/-- The session and tag of a management command (R348, R371, R372). `key` is the key id under which the session reaches memory
(R344, log 12); `node` and `session` are the fabric node and the management session (gt.conn, R365) that a reply goes to, and `pins` says
that the command came over the management pins. -/
structure Req where
  pins : Bool
  firmware : Bool
  part : Nat
  key : Nat
  node : Nat
  session : Nat
  tag : Nat
  deriving DecidableEq, Repr

/-- A transport frame as it arrives (R365): the header's fields and the payload after its tag, still sealed. -/
structure TFrame where
  ver : Nat
  type : Nat
  src : Nat
  dst : Nat
  keyid : Nat
  conn : Nat
  seq : Word
  ack : Word
  sack : Word
  len : Nat
  addr : BitVec 64
  payload : List Byte
  tag : List Byte
  /-- The reserved bits 215:208 and 79:64 of the header. -/
  res0 : Nat := 0
  res1 : Nat := 0
  deriving DecidableEq, Repr

/-- The rows of the opcode table: those with operands first, and last the rows without any. -/
inductive Instr
  /-- ADD (R110): Writes A + B mod 2^32 in each active lane. -/
  | add (d a b : Reg)
  /-- SUB (R110): Writes A - B mod 2^32 in each active lane. -/
  | sub (d a b : Reg)
  /-- MUL (R110): Writes bits 31:0 of A × B. -/
  | mul (d a b : Reg)
  /-- MULHS (R110): Writes bits 63:32 of the signed product. -/
  | mulhs (d a b : Reg)
  /-- MULHZ (R110): Writes bits 63:32 of the unsigned product. -/
  | mulhz (d a b : Reg)
  /-- AND (R110): Writes the bitwise and of A and B. -/
  | and (d a b : Reg)
  /-- OR (R110): Writes the bitwise or of A and B. -/
  | or (d a b : Reg)
  /-- XOR (R110): Writes the bitwise xor of A and B. -/
  | xor (d a b : Reg)
  /-- ANDN (R110): Writes A and not B. -/
  | andn (d a b : Reg)
  /-- SHL (R110): Shifts A left by the whole 32-bit B, giving 0 for counts of 32 or more. -/
  | shl (d a b : Reg)
  /-- SHRZ (R110): Shifts A right logically by B. -/
  | shrz (d a b : Reg)
  /-- SHRS (R110): Shifts A right arithmetically by B. -/
  | shrs (d a b : Reg)
  /-- MINS (R110): Writes the signed minimum of A and B. -/
  | mins (d a b : Reg)
  /-- MAXS (R110): Writes the signed maximum of A and B. -/
  | maxs (d a b : Reg)
  /-- MINZ (R110): Writes the unsigned minimum of A and B. -/
  | minz (d a b : Reg)
  /-- MAXZ (R110): Writes the unsigned maximum of A and B. -/
  | maxz (d a b : Reg)
  /-- SEQ (R111): Writes 1 if A equals B, else 0. -/
  | seq (d a b : Reg)
  /-- SNE (R111): Writes 1 if A differs from B, else 0. -/
  | sne (d a b : Reg)
  /-- SLTS (R111): Writes 1 if A < B signed. -/
  | slts (d a b : Reg)
  /-- SLTZ (R111): Writes 1 if A < B unsigned. -/
  | sltz (d a b : Reg)
  /-- SLES (R111): Writes 1 if A ≤ B signed. -/
  | sles (d a b : Reg)
  /-- SLEZ (R111): Writes 1 if A ≤ B unsigned. -/
  | slez (d a b : Reg)
  /-- SEL (R111): Writes B if the predicate A is non-zero, otherwise keeps d. -/
  | sel (d a b : Reg)
  /-- CLZ (R111): Writes the number of leading zero bits of A. -/
  | clz (d a : Reg)
  /-- POPC (R111): Writes the number of one bits of A. -/
  | popc (d a : Reg)
  /-- BREV (R111): Writes A with its bits reversed. -/
  | brev (d a : Reg)
  /-- BFXS (R112): Extracts a sign-extended bit field of A selected by the control word B. -/
  | bfxs (d a b : Reg)
  /-- BFXZ (R112): Extracts a zero-extended bit field of A selected by B. -/
  | bfxz (d a b : Reg)
  /-- BFI (R112): Inserts the low bits of A into a field of d selected by B. -/
  | bfi (d a b : Reg)
  /-- ADDSS (R111): Writes the saturating signed sum, raising a saturation event when clamped. -/
  | addss (d a b : Reg)
  /-- SUBSS (R111): Writes the saturating signed difference. -/
  | subss (d a b : Reg)
  /-- MAC (R111): Writes Dv + A × B, bits 31:0. -/
  | mac (d a b : Reg)
  /-- ADDMIN (R113): Writes min(Dv, A + B) over exact integers, clamped to the s32 range. -/
  | addmin (d a b : Reg)
  /-- ADDMAX (R113): Writes max(Dv, A + B) exactly, clamped to the s32 range. -/
  | addmax (d a b : Reg)
  /-- ABSD (R113): Writes the exact absolute signed difference as an unsigned value. -/
  | absd (d a b : Reg)
  /-- DIVS (R113): Signed division truncated toward zero, with defined zero-divisor and overflow results. -/
  | divs (d a b : Reg)
  /-- DIVZ (R113): Unsigned division. -/
  | divz (d a b : Reg)
  /-- REMS (R113): Signed remainder whose sign follows A. -/
  | rems (d a b : Reg)
  /-- REMZ (R113): Unsigned remainder. -/
  | remz (d a b : Reg)
  /-- FADD (R116): Binary32 addition rounded once. -/
  | fadd (d a b : Reg)
  /-- FSUB (R116): Binary32 subtraction rounded once. -/
  | fsub (d a b : Reg)
  /-- FMUL (R116): Binary32 multiplication rounded once. -/
  | fmul (d a b : Reg)
  /-- FFMA (R116): Fused A × B + Dv with one rounding. -/
  | ffma (d a b : Reg)
  /-- FFMS (R116): Fused Dv - A × B with one rounding. -/
  | ffms (d a b : Reg)
  /-- FMIN (R117): Returns the smaller operand, with NaN and signed-zero rules. -/
  | fmin (d a b : Reg)
  /-- FMAX (R117): Returns the larger operand, with NaN and signed-zero rules. -/
  | fmax (d a b : Reg)
  /-- FABS (R120): Clears bit 31 of A. -/
  | fabs (d a : Reg)
  /-- FNEG (R120): Inverts bit 31 of A. -/
  | fneg (d a : Reg)
  /-- FSEQ (R118): Writes 1 if A equals B as floating-point values. -/
  | fseq (d a b : Reg)
  /-- FSLT (R118): Writes 1 if A < B. -/
  | fslt (d a b : Reg)
  /-- FSLE (R118): Writes 1 if A ≤ B. -/
  | fsle (d a b : Reg)
  /-- FSUN (R118): Writes 1 if either operand is a NaN. -/
  | fsun (d a b : Reg)
  /-- FCLASS (R119): Writes a one-hot class word of A. -/
  | fclass (d a : Reg)
  /-- FADDMIN (R121): Folds the exact sum A + B into the running minimum Dv, rounding only a chosen sum. -/
  | faddmin (d a b : Reg)
  /-- FCOPYSIGN (R120): Writes A with bit 31 taken from B. -/
  | fcopysign (d a b : Reg)
  /-- FSQRT (R122): Correctly rounded square root. -/
  | fsqrt (d a : Reg)
  /-- FRCP (R122): Correctly rounded reciprocal. -/
  | frcp (d a : Reg)
  /-- FRSQ (R122): Correctly rounded reciprocal square root. -/
  | frsq (d a : Reg)
  /-- FEXP2 (R122): Correctly rounded 2^A. -/
  | fexp2 (d a : Reg)
  /-- FLOG2 (R122): Correctly rounded log2 A. -/
  | flog2 (d a : Reg)
  /-- FDIV (R122): Correctly rounded A / B. -/
  | fdiv (d a b : Reg)
  /-- CVTFS (R123): Converts f32 to s32, nearest even, saturating. -/
  | cvtfs (d a : Reg)
  /-- CVTFZ (R123): Converts f32 to z32, nearest even, saturating. -/
  | cvtfz (d a : Reg)
  /-- CVTSF_RZ (R123): Converts s32 to f32 toward zero. -/
  | cvtsfRz (d a : Reg)
  /-- CVTZF_RZ (R123): Converts z32 to f32 toward zero. -/
  | cvtzfRz (d a : Reg)
  /-- CVTSF_RN (R123): Converts s32 to f32, nearest even. -/
  | cvtsfRn (d a : Reg)
  /-- CVTZF_RN (R123): Converts z32 to f32, nearest even. -/
  | cvtzfRn (d a : Reg)
  /-- FRINT_RN (R124): Rounds A to an integral value, nearest even. -/
  | frintRn (d a : Reg)
  /-- FRINT_RZ (R124): Rounds A to an integral value toward zero. -/
  | frintRz (d a : Reg)
  /-- FRINT_DN (R124): Rounds A to an integral value toward -∞. -/
  | frintDn (d a : Reg)
  /-- FRINT_UP (R124): Rounds A to an integral value toward +∞. -/
  | frintUp (d a : Reg)
  /-- CVTBF2 (R125): Packs A and B narrowed to bf16. -/
  | cvtbf2 (d a b : Reg)
  /-- CVTH2 (R125): Packs A and B narrowed to f16. -/
  | cvth2 (d a b : Reg)
  /-- CVTBFL (R125): Widens the low bf16 half of A to f32. -/
  | cvtbfl (d a : Reg)
  /-- CVTBFH (R125): Widens the high bf16 half of A to f32. -/
  | cvtbfh (d a : Reg)
  /-- CVTHL (R125): Widens the low f16 half of A to f32. -/
  | cvthl (d a : Reg)
  /-- CVTHH (R125): Widens the high f16 half of A to f32. -/
  | cvthh (d a : Reg)
  /-- BFADD2 (R126): Packed bf16 addition per half. -/
  | bfadd2 (d a b : Reg)
  /-- BFMUL2 (R126): Packed bf16 multiplication per half. -/
  | bfmul2 (d a b : Reg)
  /-- BFFMA2 (R126): Packed bf16 fused multiply-add per half. -/
  | bffma2 (d a b : Reg)
  /-- BFMIN2 (R126): Packed bf16 minimum per half. -/
  | bfmin2 (d a b : Reg)
  /-- BFMAX2 (R126): Packed bf16 maximum per half. -/
  | bfmax2 (d a b : Reg)
  /-- HADD2 (R126): Packed f16 addition per half. -/
  | hadd2 (d a b : Reg)
  /-- HMUL2 (R126): Packed f16 multiplication per half. -/
  | hmul2 (d a b : Reg)
  /-- HFMA2 (R126): Packed f16 fused multiply-add per half. -/
  | hfma2 (d a b : Reg)
  /-- LSHUP (R127): Moves A from lane i - n into lane i among active lanes. -/
  | lshup (d a b : Reg)
  /-- LSHDN (R127): Moves A from lane i + n into lane i. -/
  | lshdn (d a b : Reg)
  /-- LROT (R127): Rotates A across lanes by n. -/
  | lrot (d a b : Reg)
  /-- LBC (R127): Broadcasts A of lane n. -/
  | lbc (d a b : Reg)
  /-- LPERM (R127): Permutes A by each lane's own source index B. -/
  | lperm (d a b : Reg)
  /-- LSUM (R128): Writes the sum of A over active lanes. -/
  | lsum (d a : Reg)
  /-- LMIN (R128): Writes the signed minimum of A over active lanes. -/
  | lmin (d a : Reg)
  /-- LMAX (R128): Writes the signed maximum of A over active lanes. -/
  | lmax (d a : Reg)
  /-- LFSUM (R129): Writes the exact binary32 sum over active lanes, rounded once. -/
  | lfsum (d a : Reg)
  /-- LSCAN (R128): Writes the inclusive prefix sum over active lanes. -/
  | lscan (d a : Reg)
  /-- BALLOT (R128): Writes the mask of active lanes whose A is non-zero. -/
  | ballot (d a : Reg)
  /-- VANY (R128): Writes 1 if any active lane's A is non-zero. -/
  | vany (d a : Reg)
  /-- VALL (R128): Writes 1 if every active lane's A is non-zero. -/
  | vall (d a : Reg)
  /-- LFIRST (R128): Writes the lowest lane whose A is non-zero, or 32. -/
  | lfirst (d a : Reg)
  /-- LCOUNT (R128): Writes the count of active lanes whose A is non-zero. -/
  | lcount (d a : Reg)
  /-- LMATCH (R128): Writes the mask of active lanes holding the same A. -/
  | lmatch (d a : Reg)
  /-- QPUSH (R193): Pushes one beat of A into a queue, waiting while it is full. -/
  | qpush (a : Reg) (q : BitVec 4)
  /-- QPOP (R193): Pops one beat into d, waiting while the queue is empty. -/
  | qpop (d : Reg) (q : BitVec 4)
  /-- QTRY (R193): Pops a beat if one is held and writes the success flag to a, never waiting. -/
  | qtry (d a : Reg) (q : BitVec 4)
  /-- QLEN (R193): Writes the number of beats held in a queue. -/
  | qlen (d : Reg) (q : BitVec 4)
  /-- ACCEPT (R154): Closes each lane's proposal, committing the shadow when ln(Draw) ≤ A exactly. -/
  | accept (d a b : Reg)
  /-- RNGU (R155): Writes the raw beadmix word at counter (%iter, B). -/
  | rngu (d b : Reg)
  /-- RNGF (R155): Writes Draw at counter (%iter, B) as FP32. -/
  | rngf (d b : Reg)
  /-- GKEY (R155): Writes beadmix of the group key at counter (A, B). -/
  | gkey (d a b : Reg)
  /-- RBEGIN (R146): Opens a refill region, handing out indices to lanes up to the cap and parking the rest. -/
  | rbegin (d a b : Reg)
  /-- RINDEX (R149): Writes a selected refill value of the wave. -/
  | rindex (d : Reg) (sel : BitVec 7)
  /-- POPEN (R153): Opens a proposal on bank k, copying the bank into the shadow. -/
  | popen (k : BitVec 11)
  /-- TGET (R232): Reads a register of the twin thread's window. -/
  | tget (d a : Reg)
  /-- TSET (R232): Writes a register of the twin thread's window. -/
  | tset (d a : Reg)
  /-- LICENCE_GRANT (R230): A waiting licence request is granted in wait order once the licence frees. -/
  | licenceGrant (pair : Nat)
  /-- MLICTRY (R230): Takes the licence if free and writes 1, else writes 0, never waiting. -/
  | mlictry (d : Reg)
  /-- MCFG (R216): Makes the group's tile configuration from five registers, waiting for another group's release. -/
  | mcfg (a : Reg)
  /-- MMA (R219): Issues a matrix multiply-accumulate into a tile from the operand FIFOs. -/
  | mma (t : BitVec 2) (zero pair alane blane : Bool) (a : Reg)
  /-- MMA_OPERATION_END (R220): The array finishes consuming operands and writing the tile of an mma. -/
  | mmaOperationEnd (core : Nat)
  /-- MDRAIN (R223): Issues a drain of a tile into scratchpad with optional dropout and residual. -/
  | mdrain (t : BitVec 2) (res : Option (BitVec 2)) (drop clr : Bool) (slot : BitVec 5) (b : Reg)
  /-- MDRAIN_OPERATION_END (R225): A drain ends and pushes its status beat into q3. -/
  | mdrainOperationEnd (core : Nat)
  /-- MZERO (R226): Issues an operation that zeroes the tiles of a mask. -/
  | mzero (mask : BitVec 4)
  /-- MWAIT (R226): Waits for matrix operations to drop to a count and writes the failure count. -/
  | mwait (d a : Reg)
  /-- MSTAT (R226): Writes a selected matrix status value. -/
  | mstat (d : Reg) (sel : BitVec 7)
  /-- CPY (R201): Adds this fragment's row-copy jobs to a copy operation. -/
  | cpy (d : Reg) (sparse solo : Bool) (src : BitVec 5) (dst : CopyDest)
  /-- CPYG (R201): Adds gather jobs whose source rows come from an index list. -/
  | cpyg (d : Reg) (solo : Bool) (idx : BitVec 5) (dst : CopyDest)
  /-- CPYS (R201): Adds scatter jobs whose destination rows come from an index list. -/
  | cpys (d : Reg) (solo : Bool) (src idx : BitVec 5)
  /-- COPY_OPERATION_START (R202): A copy operation whose slices have all arrived starts when earlier operations of the group have ended, running its jobs in order. -/
  | copyOperationStart (core slot : Nat)
  /-- COPY_OPERATION_END (R208): A copy operation ends and pushes its status beat into q2. -/
  | copyOperationEnd (core slot : Nat)
  /-- CWAIT (R209): Waits for copy operations to drop to a count and writes the failure count. -/
  | cwait (d a : Reg)
  /-- PUBLISH (R211): Waits for earlier copies, then swaps the publish entry's front as a system-scope release. -/
  | publish (d : Reg) (slot : BitVec 5)
  /-- LD (R177): Loads one unit per lane through a buffer record, with optional full/empty and ordering. -/
  | ld (d a : Reg) (slot : BitVec 5) (fe : LdFe) (ord : LdOrd) (scope : Scope)
  /-- ST (R178): Stores one unit per lane through a buffer record, with optional full/empty and ordering. -/
  | st (d a : Reg) (slot : BitVec 5) (fe : StFe) (ord : StOrd) (scope : Scope)
  /-- LDM (R181): Loads count consecutive words into consecutive registers, restartable. -/
  | ldm (d a : Reg) (slot : BitVec 5) (count : BitVec 6)
  /-- STM (R181): Stores count consecutive registers to consecutive words, restartable. -/
  | stm (d a : Reg) (slot : BitVec 5) (count : BitVec 6)
  /-- ATOM (R182): Strong relaxed atomic read-modify-write of one word per lane. -/
  | atom (d a : Reg) (slot : BitVec 5) (fn : AtomFn) (scope : Scope)
  /-- ATOMA (R182): Acquire-release atomic read-modify-write of one word per lane. -/
  | atoma (d a : Reg) (slot : BitVec 5) (fn : AtomFn) (scope : Scope)
  /-- FESET (R185): Sets a granule full as a release that writes no bytes. -/
  | feset (a : Reg) (slot : BitVec 5) (scope : Scope)
  /-- FECLR (R185): Sets a granule empty without waiting. -/
  | feclr (a : Reg) (slot : BitVec 5) (scope : Scope)
  /-- FETEST (R185): Writes 1 if the granule is full. -/
  | fetest (d a : Reg) (slot : BitVec 5) (scope : Scope)
  /-- WNE (R186): Waits until the word differs from the lane's expected value, then writes it. -/
  | wne (d a : Reg) (slot : BitVec 5) (scope : Scope)
  /-- WNE_TIMEOUT (R186): The timeslice-long timeout of a waiting wne passes and the fragment resumes. -/
  | wneTimeout (core slot wave : Nat) (lanes : Mask)
  /-- RDSR (R195): Reads a special register into d. -/
  | rdsr (d : Reg) (r : SReg)
  /-- WRSR (R195): Writes a special register from A, with the clamps of %fair and %progress. -/
  | wrsr (r : SReg) (a : Reg)
  /-- BARS_ARRIVE (R189): Arrives at the group barrier without waiting and writes the generation. -/
  | barsArrive (d : Reg)
  /-- BARS_WAIT (R189): Waits until the barrier has completed generation g, then writes G. -/
  | barsWait (d a : Reg)
  /-- PHASE (R190): Sets the end flag and arrives at the phase boundary. -/
  | phase (a : Reg)
  /-- FENCE (R187): Acquire, release or both at a scope for the active lanes. -/
  | fence (kind : FenceKind) (scope : Scope)
  /-- SETPERF (R192): Records the group's frequency request and recomputes the cluster target. -/
  | setperf (a : Reg)
  /-- SCALL (R192): Raises the system-call trap after the instruction. -/
  | scall (a : Reg)
  /-- TRAP (R192): Raises the software trap with a code. -/
  | trap (a : Reg)
  /-- LAUNCH (R247): Appends a launch record to the pending-launch queue or returns 0 when full. -/
  | launch (d a : Reg)
  /-- PHASEW (R191): Arrives at the phase boundary with a wait condition on a counter word. -/
  | phasew (slot : BitVec 5) (a b : Reg)
  /-- CFETCH (R137): Starts a load of a code segment into its store segment. -/
  | cfetch (a : Reg)
  /-- CODE_LOAD_END (R137): A code load ends, sets the tag and pushes its beat into q6. -/
  | codeLoadEnd (core seg : Nat)
  /-- CWAITS (R138): Waits while a code segment is loading and writes whether it is resident. -/
  | cwaits (d a : Reg)
  /-- JR (R135): Jumps to the code address in A. -/
  | jr (a : Reg)
  /-- FJR (R135): Performs an instruction fence and jumps to the code address in A. -/
  | fjr (a : Reg)
  /-- CALLR (R135): Writes the return address to d and jumps to A. -/
  | callr (d a : Reg)
  /-- WBASE (R47): Sets the register window base in each active lane. -/
  | wbase (imm : BitVec 11)
  /-- RGIVE (R196): Waits while a hand-off cell is full, then fills it with A. -/
  | rgive (a : Reg) (c : BitVec 4)
  /-- CAGAT (R240): Joins an all-gather call at a level. -/
  | cagat (lev : BitVec 3) (src dst : BitVec 5)
  /-- CRSC (R240): Joins a reduce-scatter call at a level. -/
  | crsc (lev : BitVec 3) (op : RedOp) (src dst : BitVec 5)
  /-- CA2A (R240): Joins an all-to-all call at a level. -/
  | ca2a (lev : BitVec 3) (src dst : BitVec 5)
  /-- CBAR (R242): Joins a tree barrier of a level unit. -/
  | cbar (lev : BitVec 3)
  /-- CRED (R242): Contributes a register to a tree all-reduce. -/
  | cred (lev : BitVec 3) (op : RedOp) (a : Reg)
  /-- CWAITC (R243): Waits for collective calls to drop to a count and writes the failure count. -/
  | cwaitc (d a : Reg)
  /-- COLLECTIVE_RUN (R238): A collective runs once every group of the unit has made or ended its call. -/
  | collectiveRun (launch unit level call : Nat)
  /-- COLLECTIVE_END (R243): A collective ends and pushes a beat into q4 of each participant. -/
  | collectiveEnd (core slot level : Nat)
  /-- RCLAIM (R196): Waits while a hand-off cell is empty, then takes its word. -/
  | rclaim (d : Reg) (c : BitVec 4)
  /-- ADDI (R114): Adds a signed immediate. -/
  | addi (d a : Reg) (imm : BitVec 11)
  /-- MULI (R114): Multiplies by a signed immediate. -/
  | muli (d a : Reg) (imm : BitVec 11)
  /-- ANDI (R114): Ands with an unsigned immediate. -/
  | andi (d a : Reg) (imm : BitVec 11)
  /-- ORI (R114): Ors with an unsigned immediate. -/
  | ori (d a : Reg) (imm : BitVec 11)
  /-- XORI (R114): Xors with an unsigned immediate. -/
  | xori (d a : Reg) (imm : BitVec 11)
  /-- SHLI (R114): Shifts left by a 5-bit immediate. -/
  | shli (d a : Reg) (imm : BitVec 5)
  /-- SHRZI (R114): Shifts right logically by a 5-bit immediate. -/
  | shrzi (d a : Reg) (imm : BitVec 5)
  /-- SHRSI (R114): Shifts right arithmetically by a 5-bit immediate. -/
  | shrsi (d a : Reg) (imm : BitVec 5)
  /-- SLTSI (R114): Signed less-than against a signed immediate. -/
  | sltsi (d a : Reg) (imm : BitVec 11)
  /-- SLTZI (R114): Unsigned less-than against an unsigned immediate. -/
  | sltzi (d a : Reg) (imm : BitVec 11)
  /-- SEQI (R114): Equality against a signed immediate. -/
  | seqi (d a : Reg) (imm : BitVec 11)
  /-- MINSI (R114): Signed minimum with an immediate. -/
  | minsi (d a : Reg) (imm : BitVec 11)
  /-- MAXSI (R114): Signed maximum with an immediate. -/
  | maxsi (d a : Reg) (imm : BitVec 11)
  /-- ADDMINI (R114): addmin with an immediate, d also read. -/
  | addmini (d a : Reg) (imm : BitVec 11)
  /-- LI (R115): Writes a sign-extended 18-bit immediate. -/
  | li (d : Reg) (imm : BitVec 18)
  /-- LIH (R115): Replaces bits 31:14 of d with an 18-bit immediate. -/
  | lih (d : Reg) (imm : BitVec 18)
  /-- BR (R134): Branches unconditionally. -/
  | br (disp : BitVec 18)
  /-- BNZ (R134): Branches in lanes whose predicate is non-zero, splitting fragments. -/
  | bnz (a : Reg) (disp : BitVec 18)
  /-- BZ (R134): Branches in lanes whose predicate is zero. -/
  | bz (a : Reg) (disp : BitVec 18)
  /-- CALL (R134): Writes the return address to a and branches. -/
  | call (a : Reg) (disp : BitVec 18)
  /-- FJMP (R134): Performs an instruction fence and branches. -/
  | fjmp (disp : BitVec 18)
  /-- HLOOP (R141): Opens a hardware loop level or skips the body for a zero count. -/
  | hloop (a : Reg) (disp : BitVec 18)
  /-- REFILL (R147): Hands each lane the next refill index or parks it. -/
  | refill (a : Reg) (disp : BitVec 18)
  /-- RDPR (R294): Reads a privileged register. -/
  | rdpr (d : Reg) (r : PReg)
  /-- WRPR (R294): Writes a privileged register subject to its access class. -/
  | wrpr (r : PReg) (d : Reg)
  /-- CTXSV (R310): Saves a slot's group to a save area with generation and seal. -/
  | ctxsv (d a : Reg)
  /-- CTXLD (R310): Restores a group from a sealed save area into a slot. -/
  | ctxld (d a : Reg)
  /-- TLBINV (R311): Invalidates translations of a page or the partition and waits for completion. -/
  | tlbinv (a b : Reg)
  /-- MLICGV (R311): Revokes the licence of a core's twin pair from its holder. -/
  | mlicgv (a : Reg)
  /-- SLOTCLR (R311): Clears an unoccupied slot to its start state. -/
  | slotclr (a : Reg)
  /-- HWR (R302): Writes a selected register or record word of the trapped lane. -/
  | hwr (a b : Reg)
  /-- HRD (R302): Reads a selected register or record word of the trapped lane. -/
  | hrd (d a : Reg)
  /-- HANG_WATCHDOG_EXPIRY (R308): A fragment's age reaches the watchdog limit, making a wave-class trap pending. -/
  | hangWatchdogExpiry (core slot wave : Nat)
  /-- SCALL_AGGREGATION_EXPIRY (R304): The aggregation window closes and the held system-call trap is taken. -/
  | scallAggregationExpiry (core slot wave : Nat)
  /-- SAVE_WATCHDOG_EXPIRY (R310): A save runs past the save watchdog, stopping it unsealed and resuming the group. -/
  | saveWatchdogExpiry (core slot : Nat)
  /-- PENDING_LAUNCH_ACCEPT (R248): The device accepts the next entry of a group's pending-launch queue once the launch queue has room. -/
  | pendingLaunchAccept (launch group : Nat)
  /-- GROUP_ADMISSION (R315): A free slot admits the next waiting group, clearing the slot. -/
  | groupAdmission (core slot : Nat)
  /-- PHASE_BOUNDARY (R32): Once all threads have arrived and operations end, the group checks, records its carry set and releases its slot. -/
  | phaseBoundary (core slot : Nat)
  /-- GROUP_READMISSION (R34): A phased group is readmitted with its carry set restored. -/
  | groupReadmission (core slot : Nat)
  /-- PHASEW_EVALUATION (R191): The phasew condition is evaluated after a write to its line or each timeslice. -/
  | phasewEvaluation (launch group : Nat)
  /-- LAUNCH_COMPLETION (R37): A launch whose groups have all ended performs stores, writes stamps and status, bumps the counter and pushes a beat. -/
  | launchCompletion (launch : Nat)
  /-- ACTIVE_SET_SWAP (R317): A stalled active group is exchanged for a pending group with an eligible wave. -/
  | activeSetSwap (core : Nat)
  /-- PENDING_LIMIT_EXPIRY (R317): A group pending for one timeslice enters the active set, displacing the oldest active group. -/
  | pendingLimitExpiry (core slot : Nat)
  /-- PREEMPTION_SAVE (R319): An eligible group is saved after its timeslice and its slot goes to the competitor. -/
  | preemptionSave (core slot : Nat)
  /-- CONTEXT_RESTORE (R320): A saved group is restored into a free slot of its domain instance. -/
  | contextRestore (core slot : Nat)
  /-- DET_PREEMPTION_FOLD (R328): Under det = 1, chosen cores' groups are saved between rounds and logical cores fold onto survivors. -/
  | detPreemptionFold (launch lcore : Nat)
  /-- STEELYARD_GRANT (R356): Each cluster cycle the Steelyard grants at most one waiting current reservation. -/
  | steelyardGrant (cluster : Nat)
  /-- OPERATING_POINT_STEP_END (R353): A ratio or frequency step of an operating-point move completes and clk.cur changes. -/
  | operatingPointStepEnd (cluster : Nat)
  /-- PACKET_LANDING (R252): A steered frame lands in the next ring entry, sets granules full and pushes a notification. -/
  | packetLanding (port core slot rule skip : Nat) (stampNs : BitVec 64) (stampFrac : BitVec 16) (bytes : List Byte)
  /-- TRANSPORT_FRAME_RECEIVE (R367): A Graura transport frame is authenticated and performed in sequence order. -/
  | transportFrameReceive (frame : TFrame)
  /-- TRANSPORT_ACK_TIMER (R367): The receiver's 2 µs acknowledge timer expires with frames unacknowledged. -/
  | transportAckTimer (node conn : Nat)
  /-- TRANSPORT_RETRY_TIMEOUT (R367): The retry timer expires and unacknowledged frames are resent. -/
  | transportRetryTimeout (node conn : Nat)
  /-- PTP_EVENT_MESSAGE (R364): A PTP event message arrives and is timestamped. -/
  | ptpEventMessage (port : Nat) (bytes : List Byte)
  /-- MGMT_SUBMIT_LAUNCH (R372): Command 0x01 submits a launch record by address. -/
  | mgmtSubmitLaunch (req : Req) (addr : BitVec 64)
  /-- MGMT_READ (R372): Command 0x02 reads words at a management address. -/
  | mgmtRead (req : Req) (addr : BitVec 64) (count : Nat)
  /-- MGMT_WRITE (R373): Command 0x03 writes words at a management address without behaviour of their own. -/
  | mgmtWrite (req : Req) (addr : BitVec 64) (data : List Word)
  /-- MGMT_RESUME (R297): Command 0x04 resumes a held fragment as hret does. -/
  | mgmtResume (req : Req) (addr : BitVec 64)
  /-- MGMT_KILL (R297): Command 0x05 kills a held fragment as hkill then hret. -/
  | mgmtKill (req : Req) (addr : BitVec 64)
  /-- MGMT_SPATIAL_PREEMPTION (R320): Command 0x06 vacates n cores of a victim launch by saving its groups. -/
  | mgmtSpatialPreemption (req : Req) (victim : BitVec 64) (count prio : Nat)
  /-- MGMT_SCRUB (R344): Command 0x07 rewrites the lines that carry a key id. -/
  | mgmtScrub (req : Req) (keyid : Nat)
  /-- MGMT_EXTEND (R346): Command 0x08 extends one of m4–m7 with a digest. -/
  | mgmtExtend (req : Req) (reg : Nat) (digest : List Word)
  /-- MGMT_ATTESTATION_REPORT (R347): Command 0x09 returns a signed attestation report over a nonce. -/
  | mgmtAttestationReport (req : Req) (nonce : List Word)
  /-- MGMT_DOORBELL (R371): Command 0x0A sets %fwbell on listed cores. -/
  | mgmtDoorbell (req : Req) (cores : List Word)
  /-- MGMT_LOAD_FIRMWARE_IMAGE (R345): Command 0x0B loads an image chunk, and an empty chunk starts the signature checks. -/
  | mgmtLoadFirmwareImage (req : Req) (offset : BitVec 64) (data : List Word)
  /-- MGMT_LOAD_TRANSPORT_KEY (R366): Command 0x0C loads a transport key into the key store. -/
  | mgmtLoadTransportKey (req : Req) (keyid : Nat) (key : BitVec 256)
  /-- PARTITION_VALID_SET (R344): Setting part.valid fills the partition's key slot and extends m3. -/
  | partitionValidSet (part : Nat)
  /-- UNIT_OWNER_CHANGE (R343): A change of a unit's owner clears its cores' slots, tiles, tags, translations and bindings. -/
  | unitOwnerChange (unit owner : Nat)
  /-- MATRIX_PASS_END (R235): The array finishes one pass of 16 values of k over a tile, consuming that pass's beats from q0 and q1 and releasing its current reservation. -/
  | matrixPassEnd (core : Nat)
  /-- MZERO_OPERATION_END (R226): An accepted mzero operation runs in array order, writes +0 to the masked tiles and ends. -/
  | mzeroOperationEnd (core : Nat)
  /-- VECTOR_PIPE_WINDOW_END (R354): A vector pipe's 64-cycle reservation window runs out and its 3 quanta are released. -/
  | vectorPipeWindowEnd (core : Nat)
  /-- ILLEGAL_INSTRUCTION_WORD (R72): A fetched word of a reserved or illegal major, or of a reserved function code, raises the illegal-instruction trap. -/
  | illegalInstructionWord (w : Word)
  /-- FETCH_FAULT (R132): A fetch from a code segment that is not resident raises the fetch fault, with no instruction executed. -/
  | fetchFault (detail : Nat)
  /-- MALFORMED_COMMAND (R375): A management command whose CRC fails or whose code or layout is unknown is not-acknowledged or answered with status 4. Operands: the session, the
  bytes as they arrive (header byte, length and payload of a transaction on the pins, or the payload of a frame), and the CRC that ends a
  transaction. -/
  | malformedCommand (req : Req) (raw : List Byte) (crc : Word)
  /-- GANG_WAIT_TIMESLICE (R316): An unplaced gang unit's launch-queue entry reaches one timeslice of waiting (lq.age ≥ 1, lq.state 2), and the partition begins reserving instances for it. -/
  | gangWaitTimeslice (part launch : Nat)
  /-- THROTTLE_ASSERT (R358): An enabled throttle source asserts and every cluster clock is divided by four. -/
  | throttleAssert (source : BitVec 2)
  /-- FRAME_RECEIVE (R363): A frame arrives on a port and is dropped on a bad FCS or passed on. -/
  | frameReceive (port : Nat) (bytes : List Byte) (fcsOk : Bool)
  /-- CLOCK_CONTROL_WRITE (R350): A write of a cluster's clock control register sets limits and recomputes the target. -/
  | clockControlWrite (req : Req) (cluster : Nat) (value : Word)
  /-- STEELYARD_CONTROL_WRITE (R355): A write of Steelyard control clamps budget and age and restarts st.peak. -/
  | steelyardControlWrite (req : Req) (cluster : Nat) (value : Word)
  /-- THROTTLE_CONTROL_WRITE (R359): A write of the throttle register sets hold, limit and enables. -/
  | throttleControlWrite (req : Req) (value : Word)
  /-- HANDLER_STORE_WRITE (R373): A write of the handler store, completing an image at word 1,023, extends m2. -/
  | handlerStoreWrite (req : Req) (core word : Nat) (data : List Word)
  /-- LANDING_RING_BINDING_WRITE (R251): A write of a slot's ring binding restarts the ring and discards q7. -/
  | landingRingBindingWrite (req : Req) (core slot : Nat) (value : Word)
  /-- FULL_EMPTY_TABLE_WRITE (R373): A write of an unoccupied slot's full/empty bits sets them. -/
  | fullEmptyTableWrite (req : Req) (core slot word : Nat) (data : List Word)
  /-- TRAP_RECORD_WRITE (R373): A write of a held wave's trap record changes its DH fields. -/
  | trapRecordWrite (req : Req) (core slot wave word : Nat) (data : List Word)
  /-- THROTTLE_SOURCE_DEASSERT (R358): An enabled throttle source deasserts, starting the thr.hold interval after which the throttle may end. -/
  | throttleSourceDeassert (source : BitVec 2)
  /-- PCOMMIT (R155): Commits and closes each open proposal. -/
  | pcommit
  /-- PDROP (R155): Discards and closes each open proposal. -/
  | pdrop
  /-- TBAR (R233): Barrier of the group and its twin group at device scope. -/
  | tbar
  /-- MLIC (R230): Acquires the twin pair's matrix licence, waiting while it is held. -/
  | mlic
  /-- MLICR (R230): Releases the licence after the group's array work ends. -/
  | mlicr
  /-- MRELC (R217): Abandons matrix work, empties q0 and q1, zeroes the tiles and releases the configuration. -/
  | mrelc
  /-- BAR (R188): Arrives at the group barrier and waits for its generation to complete. -/
  | bar
  /-- YIELD (R26): Gives the next issue of the wave to another eligible fragment. -/
  | yield
  /-- NOP (R192): No effect. -/
  | nop
  /-- HRET (R303): Checks the lane blocks and leaves handler mode for every trapped lane. -/
  | hret
  /-- HSKIP (R302): Sets lane.pc past the trapping instruction. -/
  | hskip
  /-- HKILL (R302): Marks the lane's thread to end at hret. -/
  | hkill
  /-- IDLE (R311): Waits until the firmware doorbell bit is set. -/
  | idle
  /-- THROTTLE_HOLD_EXPIRY (R358): All enabled sources have stayed deasserted for thr.hold µs and the throttle ends. -/
  | throttleHoldExpiry
  /-- MGMT_PIN_REPLY_READ (R375): A reply transaction on the management pins reads the oldest waiting reply or notice. -/
  | mgmtPinReplyRead
  /-- RESET_RELEASE (R378): RESET_N rises and the boot ROM measures and verifies the firmware image. -/
  | resetRelease
  /-- RESET_ASSERT (R378): RESET_N is driven low, or the rails fall at power-down, and the device returns to its reset state. -/
  | resetAssert
  deriving DecidableEq, Repr

end Sys2Proof
end

