-- ==== Sys2Proof/WellFormed.lean ====
section
/-! DEFINITION. Which terms of `Instr` are instructions that some word encodes: the checks of R72 that a field's type does not make.
An event row has no word, so every event term is well formed. -/

namespace Sys2Proof

/-- Why a word of an assigned major and function is an illegal instruction (R72). -/
inductive IllFormed
  /-- A latch `y1`-`y3` as the destination of a producing instruction (R50). -/
  | latchDest
  /-- A latch where the description asks for a window register (R50, R135, R146, R147, R181, R193, R216, R247, R302). -/
  | latchField
  /-- A register list that reaches past code 123 (R72, R181, R182, R200, R214, R223, R247, R310, R311). -/
  | pastWindow
  /-- A scope on a plain access (R179). -/
  | plainScope
  /-- `.pacq.core` (R179). -/
  | promoteCore
  /-- An `ldm` whose index register lies in its destination (R181). -/
  | indexLoaded
  /-- A queue number 12-15 (R55). -/
  | noQueue
  /-- A `qtry` whose flag register is its destination (R193). -/
  | flagIsDest
  /-- A `popen` bank above 6 (R72). -/
  | noBank
  /-- A `wbase` immediate that is not a multiple of 4 or exceeds 124 (R47). -/
  | badBase
  /-- A write of a read-only register (R60, R294). -/
  | readOnly
  /-- A selector of `rindex` or `mstat` that names no value (R149, R226). -/
  | noSelector
  /-- A twin register code outside 116-123 (R232). -/
  | noTwinRegister
  /-- An `mzero` mask of 0 (R226). -/
  | noTile
  /-- A row record slot past slot 31, or a sparse gather (R200). -/
  | noRowSlot
  /-- Level field 0 of a collective (R237). -/
  | noLevel
  deriving DecidableEq, Repr

/-- Refuse with `r` unless `ok`. -/
def require (ok : Bool) (r : IllFormed) : Option IllFormed := if ok then none else some r

/-- The destination of a producing instruction: a window register or `y0` (R50). -/
def destOk (d : Reg) : Bool := d.toNat ≤ 124

/-- A window register (R66). -/
def windowOk (d : Reg) : Bool := d.toNat ≤ 123

/-- A special register that `wrsr` may write (R61). -/
def SReg.writable : SReg → Bool
  | .prop | .acpt | .progress | .fair | .gkeyl | .gkeyh | .dkeyl | .dkeyh | .shape _ _ => true
  | _ => false

/-- A privileged register that `wrpr` may write (R294). -/
def PReg.writable : PReg → Bool
  | .priv | .tkind | .tseq | .part => false
  | _ => true

/-- The first check of R72 that fails. -/
def Instr.illFormed : Instr → Option IllFormed
  | .add d _ _ | .sub d _ _ | .mul d _ _ | .mulhs d _ _ | .mulhz d _ _ | .and d _ _ | .or d _ _ | .xor d _ _ | .andn d _ _
  | .shl d _ _ | .shrz d _ _ | .shrs d _ _ | .mins d _ _ | .maxs d _ _ | .minz d _ _ | .maxz d _ _ | .seq d _ _ | .sne d _ _
  | .slts d _ _ | .sltz d _ _ | .sles d _ _ | .slez d _ _ | .sel d _ _ | .clz d _ | .popc d _ | .brev d _ | .bfxs d _ _
  | .bfxz d _ _ | .bfi d _ _ | .addss d _ _ | .subss d _ _ | .mac d _ _ | .addmin d _ _ | .addmax d _ _ | .absd d _ _
  | .divs d _ _ | .divz d _ _ | .rems d _ _ | .remz d _ _ | .fadd d _ _ | .fsub d _ _ | .fmul d _ _ | .ffma d _ _ | .ffms d _ _
  | .fmin d _ _ | .fmax d _ _ | .fabs d _ | .fneg d _ | .fseq d _ _ | .fslt d _ _ | .fsle d _ _ | .fsun d _ _ | .fclass d _
  | .faddmin d _ _ | .fcopysign d _ _ | .fsqrt d _ | .frcp d _ | .frsq d _ | .fexp2 d _ | .flog2 d _ | .fdiv d _ _ | .cvtfs d _
  | .cvtfz d _ | .cvtsfRz d _ | .cvtzfRz d _ | .cvtsfRn d _ | .cvtzfRn d _ | .frintRn d _ | .frintRz d _ | .frintDn d _
  | .frintUp d _ | .cvtbf2 d _ _ | .cvth2 d _ _ | .cvtbfl d _ | .cvtbfh d _ | .cvthl d _ | .cvthh d _ | .bfadd2 d _ _
  | .bfmul2 d _ _ | .bffma2 d _ _ | .bfmin2 d _ _ | .bfmax2 d _ _ | .hadd2 d _ _ | .hmul2 d _ _ | .hfma2 d _ _ | .lshup d _ _
  | .lshdn d _ _ | .lrot d _ _ | .lbc d _ _ | .lperm d _ _ | .lsum d _ | .lmin d _ | .lmax d _ | .lfsum d _ | .lscan d _
  | .ballot d _ | .vany d _ | .vall d _ | .lfirst d _ | .lcount d _ | .lmatch d _ => require (destOk d) .latchDest
  | .qpush _ q => require (q.toNat ≤ 11) .noQueue
  | .qpop d q | .qlen d q => (require (q.toNat ≤ 11) .noQueue).or (require (destOk d) .latchDest)
  | .qtry d a q => ((require (q.toNat ≤ 11) .noQueue).or (require (destOk d) .latchDest)).or
      ((require (windowOk a) .latchField).or (require (a ≠ d) .flagIsDest))
  | .accept d _ _ | .rngu d _ | .rngf d _ | .gkey d _ _ => require (destOk d) .latchDest
  | .rbegin d _ _ => require (windowOk d) .latchField
  | .rindex d v => (require (destOk d) .latchDest).or (require (v.toNat ≤ 3) .noSelector)
  | .popen k => require (k.toNat ≤ 6) .noBank
  | .tget d a => (require (destOk d) .latchDest).or (require (116 ≤ a.toNat && a.toNat ≤ 123) .noTwinRegister)
  | .tset d _ => require (116 ≤ d.toNat && d.toNat ≤ 123) .noTwinRegister
  | .mlictry d => require (destOk d) .latchDest
  | .mcfg a => (require (windowOk a) .latchField).or (require (a.toNat ≤ 119) .pastWindow)
  | .mdrain _ _ _ _ _ b => (require (windowOk b) .latchField).or (require (b.toNat ≤ 120) .pastWindow)
  | .mzero m => require (m ≠ 0) .noTile
  | .mwait d _ | .cwait d _ | .cwaits d _ | .cwaitc d _ => require (destOk d) .latchDest
  | .mstat d v => (require (destOk d) .latchDest).or (require (v.toNat ≤ 4) .noSelector)
  | .cpy d _ _ _ _ => (require (windowOk d) .latchField).or (require (d.toNat ≤ 122) .pastWindow)
  | .cpyg d _ idx _ => ((require (windowOk d) .latchField).or (require (d.toNat ≤ 122) .pastWindow)).or (require (idx ≠ 31) .noRowSlot)
  | .cpys d _ _ idx => ((require (windowOk d) .latchField).or (require (d.toNat ≤ 122) .pastWindow)).or (require (idx ≠ 31) .noRowSlot)
  | .publish d _ => require (destOk d) .latchDest
  | .ld d _ _ fe ord sc => (require (destOk d) .latchDest).or
      ((require (!(fe = .none && ord = .plain) || sc = .core) .plainScope).or (require (!(ord = .pacq && sc = .core)) .promoteCore))
  | .st _ _ _ fe ord sc => require (!(fe = .none && ord = .plain) || sc = .core) .plainScope
  | .ldm d a _ n => ((require (windowOk d) .latchField).or (require (d.toNat + n.toNat ≤ 123) .pastWindow)).or
      (require (!(d.toNat ≤ a.toNat && a.toNat ≤ d.toNat + n.toNat && windowOk a)) .indexLoaded)
  | .stm d _ _ n => (require (windowOk d) .latchField).or (require (d.toNat + n.toNat ≤ 123) .pastWindow)
  | .atom d _ _ fn _ | .atoma d _ _ fn _ => if fn = .cas then
      (require (windowOk d) .latchField).or (require (d.toNat ≤ 122) .pastWindow) else require (destOk d) .latchDest
  | .fetest d _ _ _ | .wne d _ _ _ => require (destOk d) .latchDest
  | .rdsr d _ => require (destOk d) .latchDest
  | .wrsr r _ => require r.writable .readOnly
  | .barsArrive d | .barsWait d _ => require (destOk d) .latchDest
  | .launch d a => (require (destOk d) .latchDest).or ((require (windowOk a) .latchField).or (require (a.toNat ≤ 122) .pastWindow))
  | .callr d _ => require (windowOk d) .latchField
  | .wbase imm => require (imm.toNat % 4 = 0 && imm.toNat ≤ 124) .badBase
  | .cagat lev _ _ | .crsc lev _ _ _ | .ca2a lev _ _ | .cbar lev | .cred lev _ _ => require (lev ≠ 0) .noLevel
  | .rclaim d _ => require (destOk d) .latchDest
  | .addi d _ _ | .muli d _ _ | .andi d _ _ | .ori d _ _ | .xori d _ _ | .shli d _ _ | .shrzi d _ _ | .shrsi d _ _ | .sltsi d _ _
  | .sltzi d _ _ | .seqi d _ _ | .minsi d _ _ | .maxsi d _ _ | .addmini d _ _ | .li d _ | .lih d _ => require (destOk d) .latchDest
  | .call a _ | .refill a _ => require (windowOk a) .latchField
  | .rdpr d _ => require (destOk d) .latchDest
  | .wrpr r _ => require r.writable .readOnly
  | .ctxsv d a | .ctxld d a => (require (destOk d) .latchDest).or ((require (windowOk a) .latchField).or (require (a.toNat ≤ 120) .pastWindow))
  | .tlbinv a _ => (require (windowOk a) .latchField).or (require (a.toNat ≤ 122) .pastWindow)
  | .hrd d _ => require (destOk d) .latchDest
  | .pcommit | .pdrop | .tbar | .mlic | .mlicr | .mma _ _ _ _ _ _ | .mrelc | .feset _ _ _ | .feclr _ _ _ | .bar | .phase _
  | .fence _ _ | .yield | .setperf _ | .scall _ | .trap _ | .phasew _ _ _ | .nop | .cfetch _ | .jr _ | .fjr _ | .rgive _ _
  | .br _ | .bnz _ _ | .bz _ _ | .fjmp _ | .hloop _ _ | .hret | .mlicgv _ | .slotclr _ | .hwr _ _ | .hskip | .hkill | .idle => none
  | .licenceGrant _ | .mmaOperationEnd _ | .mdrainOperationEnd _ | .copyOperationStart _ _ | .copyOperationEnd _ _
  | .wneTimeout _ _ _ _ | .codeLoadEnd _ _ | .collectiveRun _ _ _ _ | .collectiveEnd _ _ _ | .hangWatchdogExpiry _ _ _
  | .scallAggregationExpiry _ _ _ | .saveWatchdogExpiry _ _ | .pendingLaunchAccept _ _ | .groupAdmission _ _ | .phaseBoundary _ _
  | .groupReadmission _ _ | .phasewEvaluation _ _ | .launchCompletion _ | .activeSetSwap _ | .pendingLimitExpiry _ _
  | .preemptionSave _ _ | .contextRestore _ _ | .detPreemptionFold _ _ | .steelyardGrant _ | .operatingPointStepEnd _
  | .throttleAssert _ | .throttleHoldExpiry | .frameReceive _ _ _ | .packetLanding _ _ _ _ _ _ _ _ | .transportFrameReceive _
  | .transportAckTimer _ _ | .transportRetryTimeout _ _ | .ptpEventMessage _ _ | .mgmtSubmitLaunch _ _ | .mgmtRead _ _ _
  | .mgmtWrite _ _ _ | .mgmtResume _ _ | .mgmtKill _ _ | .mgmtSpatialPreemption _ _ _ _ | .mgmtScrub _ _ | .mgmtExtend _ _ _
  | .mgmtAttestationReport _ _ | .mgmtDoorbell _ _ | .mgmtLoadFirmwareImage _ _ _ | .mgmtLoadTransportKey _ _ _ | .mgmtPinReplyRead
  | .clockControlWrite _ _ _ | .steelyardControlWrite _ _ _ | .throttleControlWrite _ _ | .handlerStoreWrite _ _ _ _
  | .landingRingBindingWrite _ _ _ _ | .fullEmptyTableWrite _ _ _ _ _ | .trapRecordWrite _ _ _ _ _ _ | .partitionValidSet _
  | .unitOwnerChange _ _ | .resetRelease | .matrixPassEnd _ | .mzeroOperationEnd _ | .vectorPipeWindowEnd _
  | .throttleSourceDeassert _ | .resetAssert | .illegalInstructionWord _ | .fetchFault _ | .malformedCommand _ _ _
  | .gangWaitTimeslice _ _ => none

/-- An instruction that some word encodes, or an event. -/
def Instr.wellFormed (i : Instr) : Bool := i.illFormed.isNone

end Sys2Proof
end

