-- ==== Sys2Proof/Decode.lean ====
section
/-! DEFINITION. Decoding a 32-bit word (R67-R78), total and refusing by name, and the encoder of the same tables. -/

namespace Sys2Proof

/-- Why a word is no instruction (R72). -/
inductive Reject
  /-- Major 0x00, 0x7F or a reserved major (R75). -/
  | major
  /-- A reserved function code or a code of a sub-field that its description declares illegal (R72, R76). -/
  | function
  /-- A field that the instruction does not use is non-zero (R72). -/
  | unused
  /-- A register or special register number that no table lists (R60, R294). -/
  | number
  /-- A check of a field's value fails (R72). -/
  | ill (r : IllFormed)
  deriving DecidableEq, Repr

/-- Format A (R67). -/
def fmtA (op : BitVec 7) (d a b : Reg) (fn : BitVec 4) : Word := op ++ (d ++ (a ++ (b ++ fn)))
/-- Format I (R68). -/
def fmtI (op : BitVec 7) (d a : Reg) (imm : BitVec 11) : Word := op ++ (d ++ (a ++ imm))
/-- Formats L and B (R69, R70). -/
def fmtL (op : BitVec 7) (d : Reg) (imm : BitVec 18) : Word := op ++ (d ++ imm)
/-- Format M (R71). -/
def fmtM (op : BitVec 7) (d a : Reg) (slot : BitVec 5) (q : BitVec 6) : Word := op ++ (d ++ (a ++ (slot ++ q)))

/-- Major opcode, bits 31:25. -/
def opOf (w : Word) : BitVec 7 := w.extractLsb' 25 7
/-- Field d, bits 24:18 (field a of format B). -/
def dOf (w : Word) : Reg := w.extractLsb' 18 7
/-- Field a, bits 17:11. -/
def aOf (w : Word) : Reg := w.extractLsb' 11 7
/-- Field b, bits 10:4. -/
def bOf (w : Word) : Reg := w.extractLsb' 4 7
/-- Field fn, bits 3:0. -/
def fnOf (w : Word) : BitVec 4 := w.extractLsb' 0 4
/-- Field imm11, bits 10:0. -/
def immOf (w : Word) : BitVec 11 := w.extractLsb' 0 11
/-- Fields imm18 and disp18, bits 17:0. -/
def imm18Of (w : Word) : BitVec 18 := w.extractLsb' 0 18
/-- Field slot, bits 10:6. -/
def slotOf (w : Word) : BitVec 5 := w.extractLsb' 6 5
/-- Field q, bits 5:0. -/
def qOf (w : Word) : BitVec 6 := w.extractLsb' 0 6

/-- Code of a load's fe qualifier (R71). -/
def LdFe.code : LdFe → BitVec 2 | .none => 0 | .wf => 1 | .wft => 2
/-- Load fe qualifier of a code. -/
def LdFe.of (c : BitVec 2) : Option LdFe := match c.toNat with | 0 => some .none | 1 => some .wf | 2 => some .wft | _ => Option.none
/-- Code of a store's fe qualifier (R71). -/
def StFe.code : StFe → BitVec 2 | .none => 0 | .sf => 1 | .wef => 2
/-- Store fe qualifier of a code. -/
def StFe.of (c : BitVec 2) : Option StFe := match c.toNat with | 0 => some .none | 1 => some .sf | 2 => some .wef | _ => Option.none
/-- Code of a load's ordering (R71). -/
def LdOrd.code : LdOrd → BitVec 2 | .plain => 0 | .sr => 1 | .acq => 2 | .pacq => 3
/-- Load ordering of a code. -/
def LdOrd.of (c : BitVec 2) : LdOrd := match c.toNat with | 0 => .plain | 1 => .sr | 2 => .acq | _ => .pacq
/-- Code of a store's ordering (R71). -/
def StOrd.code : StOrd → BitVec 2 | .plain => 0 | .sr => 1 | .rel => 2
/-- Store ordering of a code. -/
def StOrd.of (c : BitVec 2) : Option StOrd := match c.toNat with | 0 => some .plain | 1 => some .sr | 2 => some .rel | _ => none
/-- Code of a scope (R71). -/
def Scope.code : Scope → BitVec 2 | .core => 0 | .clu => 1 | .dev => 2 | .sys => 3
/-- Scope of a code. -/
def Scope.of (c : BitVec 2) : Scope := match c.toNat with | 0 => .core | 1 => .clu | 2 => .dev | _ => .sys
/-- Code of an atomic function (R183). -/
def AtomFn.code : AtomFn → BitVec 4
  | .add => 0 | .and => 1 | .or => 2 | .xor => 3 | .mins => 4 | .maxs => 5 | .minz => 6 | .maxz => 7 | .xchg => 8 | .cas => 9 | .fadd => 10
/-- Atomic function of a code. -/
def AtomFn.of (c : BitVec 4) : Option AtomFn := match c.toNat with
  | 0 => some .add | 1 => some .and | 2 => some .or | 3 => some .xor | 4 => some .mins | 5 => some .maxs | 6 => some .minz
  | 7 => some .maxz | 8 => some .xchg | 9 => some .cas | 10 => some .fadd | _ => none
/-- Code of a fence kind (R187). -/
def FenceKind.code : FenceKind → BitVec 2 | .ar => 0 | .rel => 1 | .acq => 2
/-- Fence kind of a code. -/
def FenceKind.of (c : BitVec 2) : Option FenceKind := match c.toNat with | 0 => some .ar | 1 => some .rel | 2 => some .acq | _ => none
/-- Code of a reduction operator (R241). -/
def RedOp.code : RedOp → BitVec 4
  | .add => 0 | .fadd => 1 | .mins => 2 | .maxs => 3 | .minz => 4 | .maxz => 5 | .and => 6 | .or => 7 | .xor => 8 | .fmin => 9 | .fmax => 10
/-- Reduction operator of a code. -/
def RedOp.of (c : BitVec 4) : Option RedOp := match c.toNat with
  | 0 => some .add | 1 => some .fadd | 2 => some .mins | 3 => some .maxs | 4 => some .minz | 5 => some .maxz | 6 => some .and
  | 7 => some .or | 8 => some .xor | 9 => some .fmin | 10 => some .fmax | _ => none
/-- Field b of a copy's destination (R200). -/
def CopyDest.code : CopyDest → Reg | .slot t => 0#2 ++ t | .fifoA => 32 | .fifoB => 64
/-- Copy destination of field b. -/
def CopyDest.of (b : Reg) : Option CopyDest :=
  if b.extractLsb' 5 2 = 0#2 then some (.slot (b.extractLsb' 0 5)) else if b = 32 then some .fifoA else if b = 64 then some .fifoB else none

/-- Number of a special register (R61). -/
def SReg.code : SReg → BitVec 11
  | .lane => 0x000 | .wave => 0x001 | .group => 0x002 | .role => 0x003 | .core => 0x004 | .cluster => 0x005 | .die => 0x006
  | .det => 0x007 | .coord k => 1#8 ++ k | .iter => 0x010 | .prop => 0x011 | .acpt => 0x012 | .pstate => 0x013 | .wbase => 0x014
  | .clock => 0x018 | .clockh => 0x019 | .ptpl => 0x01A | .ptph => 0x01B | .progress => 0x020 | .fair => 0x021
  | .gkeyl => 0x028 | .gkeyh => 0x029 | .dkeyl => 0x02A | .dkeyh => 0x02B | .evtc k => 6#8 ++ k | .shape s j => 4#3 ++ (s ++ j)
/-- Special register of a number. -/
def SReg.of (n : BitVec 11) : Option SReg :=
  if n.extractLsb' 8 3 = 4#3 then some (.shape (n.extractLsb' 3 5) (n.extractLsb' 0 3))
  else if n.extractLsb' 3 8 = 1#8 then some (.coord (n.extractLsb' 0 3))
  else if n.extractLsb' 3 8 = 6#8 then some (.evtc (n.extractLsb' 0 3))
  else match n.toNat with
    | 0x000 => some .lane | 0x001 => some .wave | 0x002 => some .group | 0x003 => some .role | 0x004 => some .core
    | 0x005 => some .cluster | 0x006 => some .die | 0x007 => some .det | 0x010 => some .iter | 0x011 => some .prop
    | 0x012 => some .acpt | 0x013 => some .pstate | 0x014 => some .wbase | 0x018 => some .clock | 0x019 => some .clockh
    | 0x01A => some .ptpl | 0x01B => some .ptph | 0x020 => some .progress | 0x021 => some .fair | 0x028 => some .gkeyl
    | 0x029 => some .gkeyh | 0x02A => some .dkeyl | 0x02B => some .dkeyh | _ => none

/-- Bits 6:0 of a privileged register's number, all of them below 128 (R294). -/
def PReg.codeB : PReg → Reg
  | .priv => 0x00 | .tkind => 0x01 | .tseq => 0x02 | .hmask => 0x08 | .hfwd => 0x09 | .hagg => 0x0A | .hwd => 0x0B | .svwd => 0x0C
  | .tslice => 0x0D | .part => 0x0E | .fwbell => 0x0F | .nev k => 2#4 ++ k
/-- Bits 13:7 of a privileged register's number. -/
def PReg.codeA : PReg → Reg := fun _ => 0
/-- Privileged register of the two halves of a number. -/
def PReg.of (a b : Reg) : Option PReg :=
  if a ≠ 0 then none
  else if b.extractLsb' 3 4 = 2#4 then some (.nev (b.extractLsb' 0 3))
  else match b.toNat with
    | 0x00 => some .priv | 0x01 => some .tkind | 0x02 => some .tseq | 0x08 => some .hmask | 0x09 => some .hfwd | 0x0A => some .hagg
    | 0x0B => some .hwd | 0x0C => some .svwd | 0x0D => some .tslice | 0x0E => some .part | 0x0F => some .fwbell | _ => none

/-- Field d of `mma` (R219). -/
def mmaField (t : BitVec 2) (zero pair alane blane : Bool) : Reg :=
  0#1 ++ (BitVec.ofBool blane ++ (BitVec.ofBool alane ++ (BitVec.ofBool pair ++ (BitVec.ofBool zero ++ t))))
/-- Field d of `mdrain` (R223). -/
def drainField (t : BitVec 2) (res : Option (BitVec 2)) (drop clr : Bool) : Reg :=
  BitVec.ofBool clr ++ (BitVec.ofBool drop ++ (BitVec.ofBool res.isSome ++ (res.getD 0 ++ t)))
/-- Field a of a copy: sparse, solo and slot (R200). -/
def sourceField (sparse solo : Bool) (s : BitVec 5) : Reg := BitVec.ofBool sparse ++ (BitVec.ofBool solo ++ s)

/-- Accept `i` if the unused fields are zero. -/
def zeroIf (ok : Bool) (i : Instr) : Except Reject Instr := if ok then .ok i else .error .unused
/-- Accept what a sub-field's code names, if the unused fields are zero. -/
def named {α : Type} (r : Reject) (c : Option α) (ok : Bool) (k : α → Instr) : Except Reject Instr :=
  match c with | some x => zeroIf ok (k x) | none => .error r
/-- Fields "dab" and "d+ab" of R76. -/
def dab (w : Word) (k : Reg → Reg → Reg → Instr) : Except Reject Instr := .ok (k (dOf w) (aOf w) (bOf w))
/-- Fields "da" of R76: b is zero. -/
def da (w : Word) (k : Reg → Reg → Instr) : Except Reject Instr := zeroIf (bOf w = 0) (k (dOf w) (aOf w))
/-- Field a alone. -/
def aOnly (w : Word) (k : Reg → Instr) : Except Reject Instr := zeroIf (dOf w = 0 && bOf w = 0) (k (aOf w))
/-- No field. -/
def noField (w : Word) (i : Instr) : Except Reject Instr := zeroIf (dOf w = 0 && aOf w = 0 && bOf w = 0) i

/-- Function codes of INT1 (R76). -/
def decodeInt1 (w : Word) : Except Reject Instr :=
  match (fnOf w).toNat with
  | 0 => dab w .add
  | 1 => dab w .sub
  | 2 => dab w .mul
  | 3 => dab w .mulhs
  | 4 => dab w .mulhz
  | 5 => dab w .and
  | 6 => dab w .or
  | 7 => dab w .xor
  | 8 => dab w .andn
  | 9 => dab w .shl
  | 10 => dab w .shrz
  | 11 => dab w .shrs
  | 12 => dab w .mins
  | 13 => dab w .maxs
  | 14 => dab w .minz
  | 15 => dab w .maxz
  | _ => .error .function

/-- Function codes of INT2 (R76). -/
def decodeInt2 (w : Word) : Except Reject Instr :=
  match (fnOf w).toNat with
  | 0 => dab w .seq
  | 1 => dab w .sne
  | 2 => dab w .slts
  | 3 => dab w .sltz
  | 4 => dab w .sles
  | 5 => dab w .slez
  | 6 => dab w .sel
  | 7 => da w .clz
  | 8 => da w .popc
  | 9 => da w .brev
  | 10 => dab w .bfxs
  | 11 => dab w .bfxz
  | 12 => dab w .bfi
  | 13 => dab w .addss
  | 14 => dab w .subss
  | 15 => dab w .mac
  | _ => .error .function

/-- Function codes of INT3 (R76). -/
def decodeInt3 (w : Word) : Except Reject Instr :=
  match (fnOf w).toNat with
  | 0 => dab w .addmin
  | 1 => dab w .addmax
  | 2 => dab w .absd
  | 3 => dab w .divs
  | 4 => dab w .divz
  | 5 => dab w .rems
  | 6 => dab w .remz
  | _ => .error .function

/-- Function codes of FP1 (R76). -/
def decodeFp1 (w : Word) : Except Reject Instr :=
  match (fnOf w).toNat with
  | 0 => dab w .fadd
  | 1 => dab w .fsub
  | 2 => dab w .fmul
  | 3 => dab w .ffma
  | 4 => dab w .ffms
  | 5 => dab w .fmin
  | 6 => dab w .fmax
  | 7 => da w .fabs
  | 8 => da w .fneg
  | 9 => dab w .fseq
  | 10 => dab w .fslt
  | 11 => dab w .fsle
  | 12 => dab w .fsun
  | 13 => da w .fclass
  | 14 => dab w .faddmin
  | 15 => dab w .fcopysign
  | _ => .error .function

/-- Function codes of FP2 (R76). -/
def decodeFp2 (w : Word) : Except Reject Instr :=
  match (fnOf w).toNat with
  | 0 => da w .fsqrt
  | 1 => da w .frcp
  | 2 => da w .frsq
  | 3 => da w .fexp2
  | 4 => da w .flog2
  | 5 => dab w .fdiv
  | _ => .error .function

/-- Function codes of CVT (R76). -/
def decodeCvt (w : Word) : Except Reject Instr :=
  match (fnOf w).toNat with
  | 0 => da w .cvtfs
  | 1 => da w .cvtfz
  | 2 => da w .cvtsfRz
  | 3 => da w .cvtzfRz
  | 4 => da w .cvtsfRn
  | 5 => da w .cvtzfRn
  | 6 => da w .frintRn
  | 7 => da w .frintRz
  | 8 => da w .frintDn
  | 9 => da w .frintUp
  | 10 => dab w .cvtbf2
  | 11 => dab w .cvth2
  | 12 => da w .cvtbfl
  | 13 => da w .cvtbfh
  | 14 => da w .cvthl
  | 15 => da w .cvthh
  | _ => .error .function

/-- Function codes of PK (R76). -/
def decodePk (w : Word) : Except Reject Instr :=
  match (fnOf w).toNat with
  | 0 => dab w .bfadd2
  | 1 => dab w .bfmul2
  | 2 => dab w .bffma2
  | 3 => dab w .bfmin2
  | 4 => dab w .bfmax2
  | 5 => dab w .hadd2
  | 6 => dab w .hmul2
  | 7 => dab w .hfma2
  | _ => .error .function

/-- Function codes of LANE (R76). -/
def decodeLane (w : Word) : Except Reject Instr :=
  match (fnOf w).toNat with
  | 0 => dab w .lshup
  | 1 => dab w .lshdn
  | 2 => dab w .lrot
  | 3 => dab w .lbc
  | 4 => dab w .lperm
  | 5 => da w .lsum
  | 6 => da w .lmin
  | 7 => da w .lmax
  | 8 => da w .lfsum
  | 9 => da w .lscan
  | 10 => da w .ballot
  | 11 => da w .vany
  | 12 => da w .vall
  | 13 => da w .lfirst
  | 14 => da w .lcount
  | 15 => da w .lmatch
  | _ => .error .function
/-- Function codes of QUEUE (R193). -/
def decodeQueue (w : Word) : Except Reject Instr :=
  let q := (bOf w).extractLsb' 0 4
  let hi := (bOf w).extractLsb' 4 3 = 0#3
  match (fnOf w).toNat with
  | 0 => zeroIf (hi && dOf w = 0) (.qpush (aOf w) q)
  | 1 => zeroIf (hi && aOf w = 0) (.qpop (dOf w) q)
  | 2 => zeroIf hi (.qtry (dOf w) (aOf w) q)
  | 3 => zeroIf (hi && aOf w = 0) (.qlen (dOf w) q)
  | _ => .error .function

/-- Function codes of PROP (R154, R155, R146, R149). -/
def decodeProp (w : Word) : Except Reject Instr :=
  match (fnOf w).toNat with
  | 0 => dab w .accept
  | 1 => noField w .pcommit
  | 2 => noField w .pdrop
  | 3 => zeroIf (aOf w = 0) (.rngu (dOf w) (bOf w))
  | 4 => zeroIf (aOf w = 0) (.rngf (dOf w) (bOf w))
  | 5 => dab w .gkey
  | 6 => dab w .rbegin
  | 7 => da w .rindex
  | _ => .error .function

/-- Function codes of TWIN (R230, R232, R233). -/
def decodeTwin (w : Word) : Except Reject Instr :=
  match (fnOf w).toNat with
  | 0 => da w .tget
  | 1 => da w .tset
  | 2 => noField w .tbar
  | 3 => noField w .mlic
  | 4 => noField w .mlicr
  | 5 => zeroIf (aOf w = 0 && bOf w = 0) (.mlictry (dOf w))
  | _ => .error .function

/-- Bit k of a field. -/
def flag (r : Reg) (k : Nat) : Bool := r.getLsbD k

/-- Function codes of MATRIX (R216, R217, R219, R223, R226). -/
def decodeMatrix (w : Word) : Except Reject Instr :=
  let d := dOf w
  match (fnOf w).toNat with
  | 0 => aOnly w .mcfg
  | 1 => zeroIf (!flag d 6 && bOf w = 0) (.mma (d.extractLsb' 0 2) (flag d 2) (flag d 3) (flag d 4) (flag d 5) (aOf w))
  | 2 => zeroIf ((flag d 4 || d.extractLsb' 2 2 = 0#2) && (aOf w).extractLsb' 5 2 = 0#2)
      (.mdrain (d.extractLsb' 0 2) (if flag d 4 then some (d.extractLsb' 2 2) else none) (flag d 5) (flag d 6)
        ((aOf w).extractLsb' 0 5) (bOf w))
  | 3 => zeroIf (d.extractLsb' 4 3 = 0#3 && aOf w = 0 && bOf w = 0) (.mzero (d.extractLsb' 0 4))
  | 4 => da w .mwait
  | 5 => noField w .mrelc
  | 6 => da w .mstat
  | _ => .error .function

/-- Function codes of COPY (R200, R209, R211). -/
def decodeCopy (w : Word) : Except Reject Instr :=
  let a := aOf w
  let s := a.extractLsb' 0 5
  match (fnOf w).toNat with
  | 0 => named .function (CopyDest.of (bOf w)) true (.cpy (dOf w) (flag a 6) (flag a 5) s)
  | 1 => named .function (CopyDest.of (bOf w)) (!flag a 6) (.cpyg (dOf w) (flag a 5) s)
  | 2 => zeroIf (!flag a 6 && (bOf w).extractLsb' 5 2 = 0#2) (.cpys (dOf w) (flag a 5) s ((bOf w).extractLsb' 0 5))
  | 3 => da w .cwait
  | 4 => zeroIf (a.extractLsb' 5 2 = 0#2 && bOf w = 0) (.publish (dOf w) s)
  | _ => .error .function

/-- Function codes of SYNC (R187-R192, R247). -/
def decodeSync (w : Word) : Except Reject Instr :=
  let b := bOf w
  match (fnOf w).toNat with
  | 0 => noField w .bar
  | 1 => if b = 0 then zeroIf (aOf w = 0) (.barsArrive (dOf w)) else if b = 1 then .ok (.barsWait (dOf w) (aOf w)) else .error .function
  | 2 => aOnly w .phase
  | 3 => named .function (FenceKind.of (b.extractLsb' 2 2)) (dOf w = 0 && aOf w = 0 && b.extractLsb' 4 3 = 0#3)
      (fun k => .fence k (Scope.of (b.extractLsb' 0 2)))
  | 4 => noField w .yield
  | 5 => aOnly w .setperf
  | 6 => aOnly w .scall
  | 7 => aOnly w .trap
  | 8 => da w .launch
  | 9 => zeroIf ((dOf w).extractLsb' 5 2 = 0#2) (.phasew ((dOf w).extractLsb' 0 5) (aOf w) b)
  | 10 => noField w .nop
  | _ => .error .function

/-- Function codes of CODE (R135, R137, R138). -/
def decodeCode (w : Word) : Except Reject Instr :=
  match (fnOf w).toNat with
  | 0 => aOnly w .cfetch
  | 1 => da w .cwaits
  | 2 => aOnly w .jr
  | 3 => aOnly w .fjr
  | 4 => da w .callr
  | _ => .error .function

/-- Function codes of COLL (R237). -/
def decodeColl (w : Word) : Except Reject Instr :=
  let lev := (dOf w).extractLsb' 4 3
  let op := (dOf w).extractLsb' 0 4
  let s := (aOf w).extractLsb' 0 5
  let t := (bOf w).extractLsb' 0 5
  let high := (aOf w).extractLsb' 5 2 = 0#2 && (bOf w).extractLsb' 5 2 = 0#2
  match (fnOf w).toNat with
  | 0 => zeroIf (op = 0#4 && high) (.cagat lev s t)
  | 1 => named .function (RedOp.of op) high (fun o => .crsc lev o s t)
  | 2 => zeroIf (op = 0#4 && high) (.ca2a lev s t)
  | 3 => zeroIf (op = 0#4 && aOf w = 0 && bOf w = 0) (.cbar lev)
  | 4 => named .function (RedOp.of op) (bOf w = 0) (fun o => .cred lev o (aOf w))
  | 5 => da w .cwaitc
  | _ => .error .function

/-- Function codes of the privileged major (R76, R294, R302, R310, R311). -/
def decodePriv (w : Word) : Except Reject Instr :=
  match (fnOf w).toNat with
  | 0 => noField w .hret
  | 1 => named .number (PReg.of (aOf w) (bOf w)) true (fun r => .rdpr (dOf w) r)
  | 2 => named .number (PReg.of (aOf w) (bOf w)) true (fun r => .wrpr r (dOf w))
  | 3 => da w .ctxsv
  | 4 => da w .ctxld
  | 5 => zeroIf (dOf w = 0) (.tlbinv (aOf w) (bOf w))
  | 6 => aOnly w .mlicgv
  | 7 => aOnly w .slotclr
  | 8 => zeroIf (dOf w = 0) (.hwr (aOf w) (bOf w))
  | 9 => da w .hrd
  | 10 => noField w .hskip
  | 11 => noField w .hkill
  | 12 => noField w .idle
  | _ => .error .function

/-- The fe group (R185). -/
def decodeFe (w : Word) : Except Reject Instr :=
  let c := Scope.of ((qOf w).extractLsb' 0 2)
  match ((qOf w).extractLsb' 2 4).toNat with
  | 0 => zeroIf (dOf w = 0) (.feset (aOf w) (slotOf w) c)
  | 4 => zeroIf (dOf w = 0) (.feclr (aOf w) (slotOf w) c)
  | 8 => .ok (.fetest (dOf w) (aOf w) (slotOf w) c)
  | _ => .error .function

/-- `ld` (R78). -/
def decodeLd (w : Word) : Except Reject Instr :=
  let q := qOf w
  named .function (LdFe.of (q.extractLsb' 4 2)) true
    (fun f => .ld (dOf w) (aOf w) (slotOf w) f (LdOrd.of (q.extractLsb' 2 2)) (Scope.of (q.extractLsb' 0 2)))

/-- `st` (R78). -/
def decodeSt (w : Word) : Except Reject Instr :=
  let q := qOf w
  match StFe.of (q.extractLsb' 4 2), StOrd.of (q.extractLsb' 2 2) with
  | some f, some o => .ok (.st (dOf w) (aOf w) (slotOf w) f o (Scope.of (q.extractLsb' 0 2)))
  | _, _ => .error .function

/-- `atom` and `atoma` (R78). -/
def decodeAtom (w : Word) (k : Reg → Reg → BitVec 5 → AtomFn → Scope → Instr) : Except Reject Instr :=
  named .function (AtomFn.of ((qOf w).extractLsb' 2 4)) true
    (fun f => k (dOf w) (aOf w) (slotOf w) f (Scope.of ((qOf w).extractLsb' 0 2)))

/-- A format-I word whose d field is zero. -/
def imm (w : Word) (k : Reg → Reg → BitVec 11 → Instr) : Except Reject Instr := .ok (k (dOf w) (aOf w) (immOf w))
/-- A format-I word with a z5 immediate (R68). -/
def imm5 (w : Word) (k : Reg → Reg → BitVec 5 → Instr) : Except Reject Instr :=
  zeroIf ((immOf w).extractLsb' 5 6 = 0#6) (k (dOf w) (aOf w) ((immOf w).extractLsb' 0 5))

/-- The instruction that a word's fields name, before the checks of their values (R75-R78). -/
def decodeFields (w : Word) : Except Reject Instr :=
  match (opOf w).toNat with
  | 0x01 => decodeInt1 w
  | 0x02 => decodeInt2 w
  | 0x03 => decodeInt3 w
  | 0x04 => decodeFp1 w
  | 0x05 => decodeFp2 w
  | 0x06 => decodeCvt w
  | 0x07 => decodePk w
  | 0x08 => decodeLane w
  | 0x09 => decodeQueue w
  | 0x0A => decodeProp w
  | 0x0B => zeroIf (dOf w = 0 && aOf w = 0) (.popen (immOf w))
  | 0x0C => decodeTwin w
  | 0x0D => decodeMatrix w
  | 0x0E => decodeCopy w
  | 0x10 => decodeLd w
  | 0x11 => decodeSt w
  | 0x12 => .ok (.ldm (dOf w) (aOf w) (slotOf w) (qOf w))
  | 0x13 => .ok (.stm (dOf w) (aOf w) (slotOf w) (qOf w))
  | 0x14 => decodeAtom w .atom
  | 0x15 => decodeAtom w .atoma
  | 0x16 => decodeFe w
  | 0x17 => zeroIf ((qOf w).extractLsb' 2 4 = 0#4) (.wne (dOf w) (aOf w) (slotOf w) (Scope.of ((qOf w).extractLsb' 0 2)))
  | 0x18 => named .number (SReg.of (immOf w)) (aOf w = 0) (fun r => .rdsr (dOf w) r)
  | 0x19 => named .number (SReg.of (immOf w)) (dOf w = 0) (fun r => .wrsr r (aOf w))
  | 0x1A => decodeSync w
  | 0x1B => decodeCode w
  | 0x1C => zeroIf (dOf w = 0 && aOf w = 0) (.wbase (immOf w))
  | 0x1D => zeroIf (dOf w = 0 && (immOf w).extractLsb' 4 7 = 0#7) (.rgive (aOf w) ((immOf w).extractLsb' 0 4))
  | 0x1E => decodeColl w
  | 0x1F => zeroIf (aOf w = 0 && (immOf w).extractLsb' 4 7 = 0#7) (.rclaim (dOf w) ((immOf w).extractLsb' 0 4))
  | 0x20 => imm w .addi
  | 0x21 => imm w .muli
  | 0x22 => imm w .andi
  | 0x23 => imm w .ori
  | 0x24 => imm w .xori
  | 0x25 => imm5 w .shli
  | 0x26 => imm5 w .shrzi
  | 0x27 => imm5 w .shrsi
  | 0x28 => imm w .sltsi
  | 0x29 => imm w .sltzi
  | 0x2A => imm w .seqi
  | 0x2B => imm w .minsi
  | 0x2C => imm w .maxsi
  | 0x2D => imm w .addmini
  | 0x30 => .ok (.li (dOf w) (imm18Of w))
  | 0x31 => .ok (.lih (dOf w) (imm18Of w))
  | 0x38 => zeroIf (dOf w = 0) (.br (imm18Of w))
  | 0x39 => .ok (.bnz (dOf w) (imm18Of w))
  | 0x3A => .ok (.bz (dOf w) (imm18Of w))
  | 0x3B => .ok (.call (dOf w) (imm18Of w))
  | 0x3C => zeroIf (dOf w = 0) (.fjmp (imm18Of w))
  | 0x3D => .ok (.hloop (dOf w) (imm18Of w))
  | 0x3E => .ok (.refill (dOf w) (imm18Of w))
  | 0x40 => decodePriv w
  | _ => .error .major

/-- The instruction that a word is, or why it is an illegal instruction (R72). -/
def decode (w : Word) : Except Reject Instr :=
  match decodeFields w with
  | .ok i => match i.illFormed with
    | none => .ok i
    | some r => .error (.ill r)
  | .error r => .error r

/-- A word from its four bytes, lowest address first (R9). -/
def wordOfBytes (b0 b1 b2 b3 : Byte) : Word := b3 ++ (b2 ++ (b1 ++ b0))

/-- Decoding of a byte string: its first four bytes are one word (R9). -/
def decodeBytes : List Byte → Except Reject Instr
  | b0 :: b1 :: b2 :: b3 :: _ => decode (wordOfBytes b0 b1 b2 b3)
  | _ => .error .major

/-- The word of an instruction (R67-R78); an event has none. -/
def encode : Instr → Option Word
  | .add d a b => some (fmtA 1 d a b 0)
  | .sub d a b => some (fmtA 1 d a b 1)
  | .mul d a b => some (fmtA 1 d a b 2)
  | .mulhs d a b => some (fmtA 1 d a b 3)
  | .mulhz d a b => some (fmtA 1 d a b 4)
  | .and d a b => some (fmtA 1 d a b 5)
  | .or d a b => some (fmtA 1 d a b 6)
  | .xor d a b => some (fmtA 1 d a b 7)
  | .andn d a b => some (fmtA 1 d a b 8)
  | .shl d a b => some (fmtA 1 d a b 9)
  | .shrz d a b => some (fmtA 1 d a b 10)
  | .shrs d a b => some (fmtA 1 d a b 11)
  | .mins d a b => some (fmtA 1 d a b 12)
  | .maxs d a b => some (fmtA 1 d a b 13)
  | .minz d a b => some (fmtA 1 d a b 14)
  | .maxz d a b => some (fmtA 1 d a b 15)
  | .seq d a b => some (fmtA 2 d a b 0)
  | .sne d a b => some (fmtA 2 d a b 1)
  | .slts d a b => some (fmtA 2 d a b 2)
  | .sltz d a b => some (fmtA 2 d a b 3)
  | .sles d a b => some (fmtA 2 d a b 4)
  | .slez d a b => some (fmtA 2 d a b 5)
  | .sel d a b => some (fmtA 2 d a b 6)
  | .clz d a => some (fmtA 2 d a 0 7)
  | .popc d a => some (fmtA 2 d a 0 8)
  | .brev d a => some (fmtA 2 d a 0 9)
  | .bfxs d a b => some (fmtA 2 d a b 10)
  | .bfxz d a b => some (fmtA 2 d a b 11)
  | .bfi d a b => some (fmtA 2 d a b 12)
  | .addss d a b => some (fmtA 2 d a b 13)
  | .subss d a b => some (fmtA 2 d a b 14)
  | .mac d a b => some (fmtA 2 d a b 15)
  | .addmin d a b => some (fmtA 3 d a b 0)
  | .addmax d a b => some (fmtA 3 d a b 1)
  | .absd d a b => some (fmtA 3 d a b 2)
  | .divs d a b => some (fmtA 3 d a b 3)
  | .divz d a b => some (fmtA 3 d a b 4)
  | .rems d a b => some (fmtA 3 d a b 5)
  | .remz d a b => some (fmtA 3 d a b 6)
  | .fadd d a b => some (fmtA 4 d a b 0)
  | .fsub d a b => some (fmtA 4 d a b 1)
  | .fmul d a b => some (fmtA 4 d a b 2)
  | .ffma d a b => some (fmtA 4 d a b 3)
  | .ffms d a b => some (fmtA 4 d a b 4)
  | .fmin d a b => some (fmtA 4 d a b 5)
  | .fmax d a b => some (fmtA 4 d a b 6)
  | .fabs d a => some (fmtA 4 d a 0 7)
  | .fneg d a => some (fmtA 4 d a 0 8)
  | .fseq d a b => some (fmtA 4 d a b 9)
  | .fslt d a b => some (fmtA 4 d a b 10)
  | .fsle d a b => some (fmtA 4 d a b 11)
  | .fsun d a b => some (fmtA 4 d a b 12)
  | .fclass d a => some (fmtA 4 d a 0 13)
  | .faddmin d a b => some (fmtA 4 d a b 14)
  | .fcopysign d a b => some (fmtA 4 d a b 15)
  | .fsqrt d a => some (fmtA 5 d a 0 0)
  | .frcp d a => some (fmtA 5 d a 0 1)
  | .frsq d a => some (fmtA 5 d a 0 2)
  | .fexp2 d a => some (fmtA 5 d a 0 3)
  | .flog2 d a => some (fmtA 5 d a 0 4)
  | .fdiv d a b => some (fmtA 5 d a b 5)
  | .cvtfs d a => some (fmtA 6 d a 0 0)
  | .cvtfz d a => some (fmtA 6 d a 0 1)
  | .cvtsfRz d a => some (fmtA 6 d a 0 2)
  | .cvtzfRz d a => some (fmtA 6 d a 0 3)
  | .cvtsfRn d a => some (fmtA 6 d a 0 4)
  | .cvtzfRn d a => some (fmtA 6 d a 0 5)
  | .frintRn d a => some (fmtA 6 d a 0 6)
  | .frintRz d a => some (fmtA 6 d a 0 7)
  | .frintDn d a => some (fmtA 6 d a 0 8)
  | .frintUp d a => some (fmtA 6 d a 0 9)
  | .cvtbf2 d a b => some (fmtA 6 d a b 10)
  | .cvth2 d a b => some (fmtA 6 d a b 11)
  | .cvtbfl d a => some (fmtA 6 d a 0 12)
  | .cvtbfh d a => some (fmtA 6 d a 0 13)
  | .cvthl d a => some (fmtA 6 d a 0 14)
  | .cvthh d a => some (fmtA 6 d a 0 15)
  | .bfadd2 d a b => some (fmtA 7 d a b 0)
  | .bfmul2 d a b => some (fmtA 7 d a b 1)
  | .bffma2 d a b => some (fmtA 7 d a b 2)
  | .bfmin2 d a b => some (fmtA 7 d a b 3)
  | .bfmax2 d a b => some (fmtA 7 d a b 4)
  | .hadd2 d a b => some (fmtA 7 d a b 5)
  | .hmul2 d a b => some (fmtA 7 d a b 6)
  | .hfma2 d a b => some (fmtA 7 d a b 7)
  | .lshup d a b => some (fmtA 8 d a b 0)
  | .lshdn d a b => some (fmtA 8 d a b 1)
  | .lrot d a b => some (fmtA 8 d a b 2)
  | .lbc d a b => some (fmtA 8 d a b 3)
  | .lperm d a b => some (fmtA 8 d a b 4)
  | .lsum d a => some (fmtA 8 d a 0 5)
  | .lmin d a => some (fmtA 8 d a 0 6)
  | .lmax d a => some (fmtA 8 d a 0 7)
  | .lfsum d a => some (fmtA 8 d a 0 8)
  | .lscan d a => some (fmtA 8 d a 0 9)
  | .ballot d a => some (fmtA 8 d a 0 10)
  | .vany d a => some (fmtA 8 d a 0 11)
  | .vall d a => some (fmtA 8 d a 0 12)
  | .lfirst d a => some (fmtA 8 d a 0 13)
  | .lcount d a => some (fmtA 8 d a 0 14)
  | .lmatch d a => some (fmtA 8 d a 0 15)
  | .qpush a q => some (fmtA 9 0 a (0#3 ++ q) 0)
  | .qpop d q => some (fmtA 9 d 0 (0#3 ++ q) 1)
  | .qtry d a q => some (fmtA 9 d a (0#3 ++ q) 2)
  | .qlen d q => some (fmtA 9 d 0 (0#3 ++ q) 3)
  | .accept d a b => some (fmtA 10 d a b 0)
  | .pcommit => some (fmtA 10 0 0 0 1)
  | .pdrop => some (fmtA 10 0 0 0 2)
  | .rngu d b => some (fmtA 10 d 0 b 3)
  | .rngf d b => some (fmtA 10 d 0 b 4)
  | .gkey d a b => some (fmtA 10 d a b 5)
  | .rbegin d a b => some (fmtA 10 d a b 6)
  | .rindex d k => some (fmtA 10 d k 0 7)
  | .popen k => some (fmtI 11 0 0 k)
  | .tget d a => some (fmtA 12 d a 0 0)
  | .tset d a => some (fmtA 12 d a 0 1)
  | .tbar => some (fmtA 12 0 0 0 2)
  | .mlic => some (fmtA 12 0 0 0 3)
  | .mlicr => some (fmtA 12 0 0 0 4)
  | .mlictry d => some (fmtA 12 d 0 0 5)
  | .mcfg a => some (fmtA 13 0 a 0 0)
  | .mma t z p al bl a => some (fmtA 13 (mmaField t z p al bl) a 0 1)
  | .mdrain t r x k s b => some (fmtA 13 (drainField t r x k) (0#2 ++ s) b 2)
  | .mzero k => some (fmtA 13 (0#3 ++ k) 0 0 3)
  | .mwait d a => some (fmtA 13 d a 0 4)
  | .mrelc => some (fmtA 13 0 0 0 5)
  | .mstat d k => some (fmtA 13 d k 0 6)
  | .cpy d p o s t => some (fmtA 14 d (sourceField p o s) t.code 0)
  | .cpyg d o s t => some (fmtA 14 d (sourceField false o s) t.code 1)
  | .cpys d o s t => some (fmtA 14 d (sourceField false o s) (0#2 ++ t) 2)
  | .cwait d a => some (fmtA 14 d a 0 3)
  | .publish d s => some (fmtA 14 d (0#2 ++ s) 0 4)
  | .ld d a s f o c => some (fmtM 16 d a s (f.code ++ o.code ++ c.code))
  | .st d a s f o c => some (fmtM 17 d a s (f.code ++ o.code ++ c.code))
  | .ldm d a s n => some (fmtM 18 d a s n)
  | .stm d a s n => some (fmtM 19 d a s n)
  | .atom d a s f c => some (fmtM 20 d a s (f.code ++ c.code))
  | .atoma d a s f c => some (fmtM 21 d a s (f.code ++ c.code))
  | .feset a s c => some (fmtM 22 0 a s (0#4 ++ c.code))
  | .feclr a s c => some (fmtM 22 0 a s (4#4 ++ c.code))
  | .fetest d a s c => some (fmtM 22 d a s (8#4 ++ c.code))
  | .wne d a s c => some (fmtM 23 d a s (0#4 ++ c.code))
  | .rdsr d r => some (fmtI 24 d 0 r.code)
  | .wrsr r a => some (fmtI 25 0 a r.code)
  | .bar => some (fmtA 26 0 0 0 0)
  | .barsArrive d => some (fmtA 26 d 0 0 1)
  | .barsWait d a => some (fmtA 26 d a 1 1)
  | .phase a => some (fmtA 26 0 a 0 2)
  | .fence k c => some (fmtA 26 0 0 (0#3 ++ (k.code ++ c.code)) 3)
  | .yield => some (fmtA 26 0 0 0 4)
  | .setperf a => some (fmtA 26 0 a 0 5)
  | .scall a => some (fmtA 26 0 a 0 6)
  | .trap a => some (fmtA 26 0 a 0 7)
  | .launch d a => some (fmtA 26 d a 0 8)
  | .phasew s a b => some (fmtA 26 (0#2 ++ s) a b 9)
  | .nop => some (fmtA 26 0 0 0 10)
  | .cfetch a => some (fmtA 27 0 a 0 0)
  | .cwaits d a => some (fmtA 27 d a 0 1)
  | .jr a => some (fmtA 27 0 a 0 2)
  | .fjr a => some (fmtA 27 0 a 0 3)
  | .callr d a => some (fmtA 27 d a 0 4)
  | .wbase i => some (fmtI 28 0 0 i)
  | .rgive a k => some (fmtI 29 0 a (0#7 ++ k))
  | .rclaim d k => some (fmtI 31 d 0 (0#7 ++ k))
  | .cagat l s t => some (fmtA 30 (l ++ 0#4) (0#2 ++ s) (0#2 ++ t) 0)
  | .crsc l o s t => some (fmtA 30 (l ++ o.code) (0#2 ++ s) (0#2 ++ t) 1)
  | .ca2a l s t => some (fmtA 30 (l ++ 0#4) (0#2 ++ s) (0#2 ++ t) 2)
  | .cbar l => some (fmtA 30 (l ++ 0#4) 0 0 3)
  | .cred l o a => some (fmtA 30 (l ++ o.code) a 0 4)
  | .cwaitc d a => some (fmtA 30 d a 0 5)
  | .addi d a i => some (fmtI 32 d a i)
  | .muli d a i => some (fmtI 33 d a i)
  | .andi d a i => some (fmtI 34 d a i)
  | .ori d a i => some (fmtI 35 d a i)
  | .xori d a i => some (fmtI 36 d a i)
  | .sltsi d a i => some (fmtI 40 d a i)
  | .sltzi d a i => some (fmtI 41 d a i)
  | .seqi d a i => some (fmtI 42 d a i)
  | .minsi d a i => some (fmtI 43 d a i)
  | .maxsi d a i => some (fmtI 44 d a i)
  | .addmini d a i => some (fmtI 45 d a i)
  | .shli d a i => some (fmtI 37 d a (0#6 ++ i))
  | .shrzi d a i => some (fmtI 38 d a (0#6 ++ i))
  | .shrsi d a i => some (fmtI 39 d a (0#6 ++ i))
  | .li d i => some (fmtL 48 d i)
  | .lih d i => some (fmtL 49 d i)
  | .br x => some (fmtL 56 0 x)
  | .fjmp x => some (fmtL 60 0 x)
  | .bnz a x => some (fmtL 57 a x)
  | .bz a x => some (fmtL 58 a x)
  | .call a x => some (fmtL 59 a x)
  | .hloop a x => some (fmtL 61 a x)
  | .refill a x => some (fmtL 62 a x)
  | .hret => some (fmtA 64 0 0 0 0)
  | .rdpr d r => some (fmtA 64 d r.codeA r.codeB 1)
  | .wrpr r d => some (fmtA 64 d r.codeA r.codeB 2)
  | .ctxsv d a => some (fmtA 64 d a 0 3)
  | .ctxld d a => some (fmtA 64 d a 0 4)
  | .tlbinv a b => some (fmtA 64 0 a b 5)
  | .mlicgv a => some (fmtA 64 0 a 0 6)
  | .slotclr a => some (fmtA 64 0 a 0 7)
  | .hwr a b => some (fmtA 64 0 a b 8)
  | .hrd d a => some (fmtA 64 d a 0 9)
  | .hskip => some (fmtA 64 0 0 0 10)
  | .hkill => some (fmtA 64 0 0 0 11)
  | .idle => some (fmtA 64 0 0 0 12)
  | .licenceGrant _ | .mmaOperationEnd _ | .mdrainOperationEnd _ | .copyOperationStart _ _ | .copyOperationEnd _ _
  | .wneTimeout _ _ _ _ | .codeLoadEnd _ _ | .collectiveRun _ _ _ _ | .collectiveEnd _ _ _ | .hangWatchdogExpiry _ _ _
  | .scallAggregationExpiry _ _ _ | .saveWatchdogExpiry _ _ | .pendingLaunchAccept _ _ | .groupAdmission _ _ | .phaseBoundary _ _
  | .groupReadmission _ _ | .phasewEvaluation _ _ | .launchCompletion _ | .activeSetSwap _ | .pendingLimitExpiry _ _
  | .preemptionSave _ _ | .contextRestore _ _ | .detPreemptionFold _ _ | .steelyardGrant _ | .operatingPointStepEnd _
  | .throttleAssert _ | .throttleHoldExpiry | .frameReceive _ _ _ | .packetLanding _ _ _ _ _ _ _ _ | .transportFrameReceive _
  | .transportAckTimer _ _ | .transportRetryTimeout _ _ | .ptpEventMessage _ _ | .mgmtSubmitLaunch _ _ | .mgmtRead _ _ _
  | .mgmtWrite _ _ _ | .mgmtResume _ _ | .mgmtKill _ _ | .mgmtSpatialPreemption _ _ _ _ | .mgmtScrub _ _ | .mgmtExtend _ _ _
  | .mgmtAttestationReport _ _ | .mgmtDoorbell _ _ | .mgmtLoadFirmwareImage _ _ _ | .mgmtLoadTransportKey _ _ _ | .mgmtPinReplyRead
  | .clockControlWrite _ _ _ | .steelyardControlWrite _ _ _ | .throttleControlWrite _ _ | .handlerStoreWrite _ _ _ _
  | .landingRingBindingWrite _ _ _ _ | .fullEmptyTableWrite _ _ _ _ _ | .trapRecordWrite _ _ _ _ _ _ | .partitionValidSet _
  | .unitOwnerChange _ _ | .resetRelease | .matrixPassEnd _ | .mzeroOperationEnd _ | .vectorPipeWindowEnd _
  | .throttleSourceDeassert _ | .resetAssert | .illegalInstructionWord _ | .fetchFault _ | .malformedCommand _ _ _
  | .gangWaitTimeslice _ _ => none

/-- The instruction of an opcode-table word: one 32-bit word, its bytes at rising addresses (R9). -/
def decodeTableWord (nbits w : Nat) : Option Instr :=
  if nbits = 32 then
    match decodeBytes [BitVec.ofNat 8 w, BitVec.ofNat 8 (w / 2^8), BitVec.ofNat 8 (w / 2^16), BitVec.ofNat 8 (w / 2^24)] with
    | .ok i => some i
    | .error _ => none
  else none

end Sys2Proof
end

