-- ==== Sys2Proof/Config.lean ====
section
/-! DEFINITION. What one device fixes and what the spec leaves open: free values, fuses, and the primitives that the spec names by
another standard. Every constant here is opaque: no proof can see its value. -/

namespace Sys2Proof.Config

/-- A free 32-bit value for each use (log 2): the result of a read whose value the spec does not give. -/
opaque freeWord : Nat → Word

/-- The pick of a walk among the entries that its core may hold and the table's (R341): use, double word (log 22). -/
opaque heldPick (fresh d : Nat) : Nat

/-- A free natural number for each use (log 2): a pick among moves that the spec leaves open, or a number of cycles. -/
opaque freeNat : Nat → Nat

/-- Where a plain access comes among the writes that it races with: use, byte and agent (R259, R260, log 86). -/
opaque racePick (fresh place agent : Nat) : Nat

/-- A byte that a device other than this one returns: node, address and use (R338, log 14). -/
opaque remoteByte : Nat → Nat → Nat → Byte

/-- The usable top of the DRAM of the device at another node (R169, R339, log 15). -/
opaque remoteTop : Nat → Nat

/-- Where firmware keeps the phase records in the device reserve, in units of 4 KiB past its first, within 512 MiB (R314, log 38). -/
opaque phasePool : Nat

/-- The partition of a firmware session that comes over the transport (R348, R372, log 77). -/
opaque firmPart : Nat

/-- The connection of a remote read fails (R367, log 14). -/
opaque remoteFails : Nat → Bool

/-- Decision of `ln(j / 2^24) ≤ a` where the interval of Machine/Numeric.lean does not settle it (R101, log 10). -/
opaque openLn : Nat → Word → Bool

/-- Result of `fexp2` (false) or `flog2` (true) where the interval of Machine/Numeric.lean does not settle the rounding (R122, log 10). -/
opaque openReal : Bool → Word → Word

/-- SLH-DSA-SHA2-128s signature of a message by the device key pair (R347, FIPS 205; log 11). -/
opaque slhSign : List Byte → List Byte

/-- The fused digest of the Graura public key (R345). -/
opaque fusedKeyDigest : BitVec 256

/-- The fused minimum security version number (R345). -/
opaque fusedMinSvn : Word

/-- The digest of the boot ROM, which it extends m0 with (R346). -/
opaque romDigest : BitVec 256

/-- The device public key of the report (R347). -/
opaque devicePublicKey : List Byte

/-- Keys drawn from the hardware random generator when a key store slot is filled (R344). -/
opaque randomKey : Nat → BitVec 512

end Sys2Proof.Config
end

