-- ==== Sys2Proof/Machine/State.lean ====
section
/-! DEFINITION. The state of one Drutil: every piece of state the spec gives the machine, as plain data, the state after reset, and
the two ways a run can stop. Sparse maps are lists of (key, value) pairs with strictly rising keys and no entry that holds the
map's default (Machine/Ops.lean). Keys: `gk = 16 core + slot` for a slot, `4 gk + w` for a wave, `128 gk + 32 w + l` for a thread. -/

namespace Sys2Proof.Machine

/-- A sparse map from numbers: pairs of strictly rising keys. -/
abbrev SMap (α : Type) := List (Nat × α)

/-- A beat of 32 words, unlisted words 0 (R53). -/
abbrev Beat := SMap Word

/-- A buffer record (R162). -/
abbrev Rec := BitVec 256

/-- A code address: segment and word offset (R130). -/
structure CodeAddr where
  seg : BitVec 8
  off : BitVec 10
  deriving DecidableEq, Repr, Inhabited

/-- A hardware loop level (R141). -/
structure Loop where
  start : BitVec 10
  stop : BitVec 10
  count : Word
  deriving DecidableEq, Repr

/-- An agent of the memory model, or a place where a synchronisation leaves what agents know (R255, R262-R265): a thread by its key, an engine
operation of the group of a slot, the landing at a slot's ring, a queue, a generation of a barrier, a cell, a release or a fence by its number.
The device at no core comes after everything that has been performed. -/
inductive Agent
  | device
  | thread (tk : Nat)
  | copy (gk num : Nat)
  | array (gk num : Nat)
  | call (gk level num : Nat)
  | landing (gk : Nat)
  | queue (gk q : Nat)
  | barrier (gk : Nat) (complete : Bool)
  | twin (gk : Nat) (complete : Bool)
  | cell (gk key : Nat)
  | sync (num : Nat)
  deriving DecidableEq, Repr

/-- A release or a fence, as an acquire that meets it sees it (R256, R263): its number, and the thread, core, partition and scope of it. -/
structure Sync where
  num : Nat
  thread : Nat
  core : Nat
  part : Nat
  scope : Scope
  deriving DecidableEq, Repr

/-- One thread's own state (02, R45-R63). -/
structure Thread where
  /-- Bypass latches `y0`-`y3` (R49). -/
  y0 : Word
  y1 : Word
  y2 : Word
  y3 : Word
  /-- Chain depth D (R51). -/
  depth : Nat
  /-- `wbase` (R47). -/
  wbase : Nat
  /-- pstate.open, pstate.bank and the shadow (R56, R57). -/
  isOpen : Bool
  bank : BitVec 3
  shadow : SMap Word
  /-- `%iter`, `%prop`, `%acpt` (R61). -/
  iter : Word
  prop : Word
  acpt : Word
  /-- `%clockh` and `%ptph` (R61). -/
  clockh : Word
  ptph : Word
  /-- Active loop levels, inner first (R141). -/
  loops : List Loop
  /-- Collective copy instructions executed (R197). -/
  copyCount : Nat
  /-- Collective instructions executed at each level (R238). -/
  callCounts : SMap Nat
  /-- The thread has ended, and its end flag (R33). -/
  ended : Bool
  endFlag : Bool
  /-- Done in a waiting access, and the value it read (R180). -/
  done : Bool
  pend : Word
  /-- Arrived at the barrier generation, at the twin barrier and at the phase boundary (R188, R233, R32). -/
  barIn : Bool
  tbarIn : Bool
  atPhase : Bool
  /-- Waiting in `bar` or `tbar`, which it has executed (R188, R233). -/
  inBar : Bool
  inTbar : Bool
  /-- The last `fence.rel` or `fence.ar` of each scope that precedes: later strong writes are releases of its coverage (R263, R269). -/
  fences : List (Scope × Nat)
  /-- Releases whose values strong reads have returned: a later `fence.acq` or `fence.ar` makes those reads acquires (R263). -/
  reads : List Sync
  /-- Handler registers (R301) and the mark of `hkill` (R302). -/
  hregs : SMap Word
  killed : Bool
  /-- Code address at which its last trap found it: a lane that resumes there goes on with its wait (R180, R303). -/
  stood : Word := 0
  deriving DecidableEq, Repr

/-- A thread at its start (R22, R63). -/
def Thread.init : Thread :=
  { y0 := 0, y1 := 0, y2 := 0, y3 := 0, depth := 0, wbase := 0, isOpen := false, bank := 0, shadow := [], iter := 0, prop := 0,
    acpt := 0, clockh := 0, ptph := 0, loops := [], copyCount := 0, callCounts := [], ended := false, endFlag := false,
    done := false, pend := 0, barIn := false, tbarIn := false, atPhase := false, inBar := false, inTbar := false, fences := [], reads := [], hregs := [], killed := false }

/-- One byte that an access reaches: DRAM of this device, DRAM of another node, or byte `region` of a core's region of the on-chip
map (R157). -/
inductive Loc
  | dram (a : Nat)
  | remote (node a : Nat)
  | chip (core region : Nat)
  deriving DecidableEq, Repr

/-- A lane's located unit: lane, element index and bytes; none where Locate returns None. -/
structure Spot where
  lane : Nat
  locs : Option (List Loc)
  deriving DecidableEq, Repr

/-- Where a fragment runs: at user or firmware level, in handler mode (R301), or held for the management channel (R297). -/
inductive Mode | user | handler | held
  deriving DecidableEq, Repr

/-- What a fragment waits for. -/
inductive Wait
  /-- Nothing: its next instruction may issue. -/
  | none
  /-- A long-latency dependence of the instruction at its pc. -/
  | retry
  /-- A waiting access that has issued and not retired: it takes part in no merge (R25). -/
  | access
  /-- The group barrier (R188). -/
  | barrier
  /-- The twin barrier (R233). -/
  | tbarrier
  /-- The phase boundary (R32). -/
  | phase
  /-- An aggregated system call (R304). -/
  | agg
  /-- The `hret` of the trap's other handler fragments (R303). -/
  | hret
  deriving DecidableEq, Repr

/-- A fragment: the active lanes of a wave that share a program counter (R24). -/
structure Frag where
  lanes : Mask
  pc : CodeAddr
  /-- It goes past offset 1,023 of its segment (R132). -/
  past : Bool
  mode : Mode
  wait : Wait
  /-- Registers an interrupted `ldm` or `stm` has transferred (R181). -/
  xfer : Nat
  /-- Cycle of issue of a waiting `wne` (R186). -/
  t0 : Nat
  /-- Time of the last retirement (R308) and since when it has been eligible without issuing (R26); while its group is pending, for how long
  it was. -/
  retired : Nat
  since : Nat
  /-- A system-call or software trap that is due: its kind and code (R296). -/
  after : Option (Nat × Word)
  /-- Classes of a numeric-event trap that is due (R296). -/
  nev : BitVec 8
  /-- A trap that is due before the next instruction: 0 none, 1 or 2 the phase-wait fault of that detail (R191), 3 illegal-state,
  4 and 5 copy-fault of detail 0 and 1, raised at a phase boundary (R32, R210). -/
  phw : Nat
  /-- The buffer record of a waiting access as it stood at issue, and the units that its lanes located then (R174, R186). -/
  kept : Option (Rec × List Spot) := none
  /-- In a turn that another instruction's retirement takes, a waiting access tests its lanes and does not retire (R379). -/
  defer : Bool := false
  /-- Changes of instruction stores before the fragment's last instruction fence; none before its first instruction (R140). -/
  fence : Option Nat := none
  /-- Its next instruction has no unsatisfied dependence, as the device last found it (R26, R317). -/
  able : Bool := true
  deriving DecidableEq, Repr

/-- A system-call aggregation window (R304). -/
structure Agg where
  service : Word
  opened : Nat
  lead : Mask
  deriving DecidableEq, Repr

/-- One wave's own state. -/
structure Wave where
  frags : List Frag
  /-- `%fair` and `%progress` (R28). -/
  fair : BitVec 16
  progress : Bool
  /-- Refill state (R145). -/
  rfOpen : Bool
  rfNext : Word
  rfEnd : Word
  rfParked : Mask
  /-- The latest instruction fence of the fragments whose lanes have parked (R140). -/
  rfFence : Option Nat := some 0
  /-- `%tseq` and `%tkind` (R294). -/
  tseq : Word
  tkind : Nat
  /-- The trap record: header words 0-63, lane l's block at 64 + 64 l (R299, R300, R373). -/
  record : SMap Word
  /-- Lanes of the expired fragment of a pending hang-watchdog trap (R308). -/
  hang : Option Mask
  /-- Lanes of the fragment whose `yield` was the wave's last instruction (R26). -/
  yielded : Mask
  agg : Option Agg
  /-- Time of the last issue (R318) and turns taken under det = 1 (R308). -/
  issued : Nat
  turns : Nat
  deriving DecidableEq, Repr

/-- A wave with no fragment and the initial values of R28 and R145. -/
def Wave.init : Wave :=
  { frags := [], fair := 256, progress := true, rfOpen := false, rfNext := 0, rfEnd := 0, rfParked := 0, tseq := 0, tkind := 0,
    record := [], hang := none, yielded := 0, agg := none, issued := 0, turns := 0 }

/-- A copy job: the lane that gave it and its two words (R201). -/
structure Job where
  wave : Nat
  lane : Nat
  x : Word
  y : Word
  deriving DecidableEq, Repr

/-- A suspension on a translation fault: cause, address and access kind (R210), and the wave and lanes that took its trap. -/
structure Susp where
  cause : Nat
  va : BitVec 64
  acc : Nat
  told : Option (Nat × Mask)
  deriving DecidableEq, Repr

/-- How an engine operation ended (R208): status, completed jobs, step and address of the failure. -/
structure OpEnd where
  status : Nat
  done : Nat
  step : Nat
  addr : BitVec 64
  deriving DecidableEq, Repr

/-- A job whose source row has been read and whose destination row is being written (R201, R202, R213): the destination row, the index and
values of the units still to write, the scale offset and bytes still to write, the bytes of a FIFO row, the bytes of it that bursts have
passed, the granules written so far and the events. -/
structure RowBuf where
  row : Nat
  unit : Nat
  units : List Nat
  off : Nat
  scales : List Nat
  bytes : List Byte
  passed : Nat
  grs : List Nat
  ev : SMap Nat
  deriving DecidableEq, Repr

/-- A copy operation (R197-R212). -/
structure CopyOp where
  /-- Fields fn, a and b (R198), solo (R197) and the collective index k. -/
  fn : Nat
  a : Reg
  b : Reg
  solo : Bool
  k : Nat
  /-- Lanes of each wave that have joined, and the jobs in job order. -/
  joined : SMap Mask
  jobs : List Job
  /-- Started, the operation number, and the records taken at the start (R198, R208). -/
  started : Bool
  num : Word
  src : Rec
  idx : Rec
  dst : Rec
  /-- Restart point: job, step and fetched index (R210). -/
  job : Nat
  step : Nat
  index : Option Word
  susp : Option Susp
  /-- How it ended; the end is reported by its beat (R208). -/
  fin : Option OpEnd
  /-- Bytes of a FIFO stream not yet pushed (R206), and granules written that are not full yet (R205). -/
  stream : List Byte
  granules : List Nat
  /-- Numeric events to charge at the end (R203): class to count. -/
  events : SMap Nat
  /-- The job in hand, once its row is read (R202, R213). -/
  buf : Option RowBuf := none
  /-- It awaits bytes of another device (R367). -/
  stall : Bool := false
  deriving DecidableEq, Repr

/-- A matrix operation of one core's array (R220-R226). -/
inductive MatKind | mma | drain | zero
  deriving DecidableEq, Repr

/-- One operation of an array, with its progress. -/
structure MatOp where
  kind : MatKind
  /-- Slot of the group whose tile it updates, and the peer core of a paired `mma` (R221). -/
  slot : Nat
  peer : Option Nat
  lead : Bool
  num : Word
  /-- Its instruction word (R322). -/
  word : Word
  tile : Nat
  /-- `mma`: flags, K, groups done, consumed beats of A and B, running accumulators (R219, R220). -/
  zero : Bool
  alane : Bool
  blane : Bool
  k : Nat
  g : Nat
  abeats : List Beat
  bbeats : List Beat
  acc : SMap Word
  /-- `mdrain`: residual, flags, origin, threshold, factor and destination record (R223). -/
  res : Option Nat
  drop : Bool
  clr : Bool
  row0 : Word
  col0 : Word
  thr : Word
  f : Word
  dst : Rec
  /-- `mzero`: mask (R226). -/
  mask : BitVec 4
  /-- How a drain ended, while its beat waits for a place (R55, R225): elements written and offset of the failing one. -/
  fin : Option OpEnd
  events : SMap Nat
  /-- Progress of a drain: rows done, elements written, and granules written that are not full yet (R224, R225). -/
  row : Nat := 0
  wrote : Nat := 0
  grans : List Nat := []
  deriving DecidableEq, Repr

/-- A collective call of a group (R238-R243). -/
structure Call where
  level : Nat
  num : Nat
  fn : Nat
  d : Reg
  a : Reg
  b : Reg
  joined : SMap Mask
  made : Bool
  src : Rec
  dst : Rec
  /-- `cred` contributions of each lane (R242). -/
  contrib : SMap (List Word)
  susp : Option Susp
  /-- Beat of the end, whether the call failed, and events to charge (R241, R243). -/
  beat : Option Beat
  failed : Bool
  events : SMap Nat
  /-- Units of the destination that a running data collective has still to write, the elements that it has written, and its granules (R240,
  R244, R246). -/
  todo : Option (List (List Loc × Nat)) := none
  wrote : Nat := 0
  grs : List Nat := []
  deriving DecidableEq, Repr

/-- An entry of a pending-launch queue (R247, R248). -/
structure Pend where
  addr : BitVec 64
  seq : Word
  launch : Option Nat
  /-- A completion beat that waits for a place in `q5`. -/
  beat : Option Beat
  deriving DecidableEq, Repr

/-- A resident group (01, 02). -/
structure Group where
  launch : Nat
  gid : Nat
  /-- Logical core and slot under det = 1 (R41), the physical slot otherwise. -/
  lcore : Nat
  lslot : Nat
  /-- Group and dropout keys (R61). -/
  gkeyl : Word
  gkeyh : Word
  dkeyl : Word
  dkeyh : Word
  /-- Shape slots: word j of slot s at 8 s + j (R58). -/
  shape : SMap Word
  /-- Queues q2-q6 and q8-q11, oldest beat first (R54). -/
  queues : SMap (List Beat)
  /-- Hand-off cells and their full flags, cell c of lane l at 16 l + c (R196). -/
  cells : SMap Word
  cellFull : SMap Bool
  /-- Barrier generations (R188, R233). -/
  bgen : BitVec 16
  tbgen : BitVec 16
  /-- Group id of the twin group, as a `tbar` found it (R233). -/
  twin : Option Nat
  /-- `%evtc`, window bases, retired count, fired classes and `%nev` (R103-R105). -/
  evtc : SMap Word
  evbase : SMap Word
  nret : Nat
  fired : BitVec 8
  nev : SMap Word
  /-- Numeric-event classes due on the group's next issue (R105). -/
  nevDue : BitVec 8
  /-- Copy operations in start order, started count, failures since the last `cwait` (R197, R208, R209). -/
  copies : List CopyOp
  copyNum : Word
  copyFail : Nat
  /-- Matrix operations issued and failed since the last `mwait` (R225, R226). -/
  matNum : Word
  matFail : Nat
  /-- Collective calls outstanding and failures since the last `cwaitc` (R239, R243). -/
  calls : List Call
  callFail : Nat
  /-- Completion beats of `q3` of abandoned drains and of `q6` that wait for a place (R137, R228). -/
  held3 : List Beat
  held6 : List Beat
  /-- Pending launches and the launch sequence number (R247). -/
  pend : List Pend
  lseq : Word
  /-- Frequency request (R192, R351). -/
  perf : Option (BitVec 3)
  /-- Active or pending, since when, and since when resident, in PTP time (R317, R31); while pending, whether it has an eligible wave, and for
  how long it has had one: a time, or the time from which that counts. -/
  active : Bool
  moved : Nat
  resident : Nat
  hungry : Bool := false
  waited : Nat := 0
  /-- Tile configuration words (R214), and those of the earlier configurations that the group has replaced since its last release (R63, R216). -/
  cfg : Option (List Word)
  cfgOld : List (List Word) := []
  /-- Collective copy operations that a release of the configuration ended while slices were missing (R217, log 71). -/
  copyGone : List Nat := []
  /-- `phasew` conditions: record copy and target of each thread that arrived by it, at 32 w + l (R191). -/
  phasew : SMap (Rec × Word)
  /-- A context save under way since this cycle, and whether its watchdog expired (R310). -/
  saving : Option (Nat × Bool)
  /-- The device saves the group (R319, R320, R328): the area that it has chosen, and the generation that it has written there. -/
  evict : Bool
  saveArea : Option (Nat × Word) := none
  /-- A restored group whose licence `mlicgv` had revoked: its request is to join the grant order again (R231, R311). -/
  revokedLic : Bool := false
  /-- A restore that still waits for the configuration (words, tiles, the array's operations) or the licence (R321, R231). -/
  wantCfg : Option (List Word × SMap Word × List MatOp)
  wantLic : Bool
  deriving DecidableEq, Repr

/-- A code load under way (R137): the slot that asked, its launch and segment, the store segment (32: none), the entry as read,
whether it has set the tag, and whether it reports a beat. `code` is the status of a load that failed before it began. -/
structure Load where
  slot : Nat
  launch : Nat
  seg : Nat
  store : Nat
  entry : BitVec 128
  begun : Bool
  report : Bool
  code : Nat
  deriving DecidableEq, Repr

/-- One core's own state (R294, R317, R318). -/
structure Core where
  hmask : Word
  hfwd : Word
  hagg : Word
  hwd : Word
  svwd : Word
  tslice : Word
  fwbell : Word
  /-- The array's operations in acceptance order (R222). -/
  ops : List MatOp
  /-- The operand FIFOs (R54) and the slot that holds the tile configuration (R216). -/
  q0 : List Beat
  q1 : List Beat
  holder : Option Nat
  loads : List Load
  /-- Slot, wave and lanes of the fragment that issued last (R318). -/
  last : Option (Nat × Nat × Mask)
  /-- Since when the vector pipe holds its reservation (R354). -/
  pipe : Option Nat
  /-- The cycle in which the core last issued (R318). -/
  issuedAt : Option Nat := none
  deriving DecidableEq, Repr

/-- A core after reset (R294). -/
def Core.init : Core :=
  { hmask := 0, hfwd := 0, hagg := 64, hwd := 0x4000, svwd := 0x0100, tslice := 2000, fwbell := 0, ops := [],
    q0 := [], q1 := [], holder := none, loads := [], last := none, pipe := none }

/-- State of a store segment (R132). -/
inductive SegState | empty | loading | loaded
  deriving DecidableEq, Repr

/-- Tag of a store segment with its section table (R132, R137). -/
structure SegTag where
  state : SegState
  part : Nat
  va : BitVec 52
  sects : List Word
  deriving DecidableEq, Repr

/-- An empty store segment. -/
def SegTag.init : SegTag := { state := .empty, part := 0, va := 0, sects := [] }

/-- A landing ring with its `q7` (R251-R253). -/
structure Ring where
  binding : Word
  next : Nat
  drops : Word
  landed : Word
  q7 : List Beat
  deriving DecidableEq, Repr

/-- The licence of a twin pair: its holder, and the waiting groups by `gk` with the time at which each began to wait (R229, R230). -/
structure Licence where
  holder : Option Nat
  waiting : List (Nat × Nat)
  /-- Groups whose licence `mlicgv` revoked while their request stands (R311). -/
  revoked : List Nat
  deriving DecidableEq, Repr

/-- A free licence (R343). -/
def Licence.init : Licence := { holder := none, waiting := [], revoked := [] }

/-- A Steelyard requester of one core (R354). -/
inductive Requester | array | pipe | copy
  deriving DecidableEq, Repr

/-- A current request or reservation (R354, R356). -/
structure Current where
  core : Nat
  who : Requester
  amount : Nat
  arrived : Nat
  /-- The cycle of the grant. -/
  since : Nat := 0
  deriving DecidableEq, Repr

/-- One cluster: clock control (R350) and Steelyard (R355). -/
structure Cluster where
  cur : BitVec 4
  tgt : BitVec 4
  busy : Bool
  dflt : BitVec 4
  max : BitVec 4
  min : BitVec 4
  lock : Bool
  /-- The converter's ratio of a move under way (R353): the index whose ratio is in effect. -/
  ratio : BitVec 4
  /-- Target of the step in progress (R353). -/
  goal : BitVec 4
  share : Bool
  age : Nat
  budget : Nat
  peak : Nat
  /-- The cycle in which the Steelyard last granted (R356). -/
  granted : Option Nat := none
  waiting : List Current
  held : List Current
  /-- Reservations released in a cycle: that cycle and those, which count to its end (R356). -/
  freed : Option (Nat × List Current) := none
  deriving DecidableEq, Repr

/-- A cluster after reset (R350, R355). -/
def Cluster.init : Cluster :=
  { cur := 5, tgt := 5, busy := false, dflt := 5, max := 7, min := 0, lock := false, ratio := 5, goal := 5, share := false, age := 1024,
    budget := 256, peak := 0, waiting := [], held := [] }

/-- The fast throttle (R359). -/
structure Throttle where
  hold : BitVec 8
  tlim : BitVec 8
  en : BitVec 4
  src : BitVec 4
  on : Bool
  cnt : Word
  /-- PTP time since when every enabled source has been deasserted (R358). -/
  since : Nat
  deriving DecidableEq, Repr

/-- A launch that the device has accepted (R12-R39). -/
structure Launch where
  addr : BitVec 64
  part : Nat
  /-- Submitted with firmware rights (R293). -/
  firmware : Bool
  /-- The record as read at acceptance (R13). -/
  raw : BitVec 2048
  /-- It holds a launch-queue entry; lq.next, and PTP time since when its head group waits, from which lq.age counts (R313). -/
  queued : Bool
  next : Nat
  waits : Nat
  /-- Reserving instances for a gang unit (R316). -/
  gang : Bool
  /-- Groups that have ended, that were terminated, and that a chain skips (R35, R37). -/
  ended : List Nat
  dead : List Nat
  /-- A group was terminated or never admitted (R39). -/
  failed : Bool
  /-- Status with which it is refused, the chain's refusal (R36), and whether counter.addr broke R15 (R37). -/
  refused : Option Nat
  chainBad : Bool
  noCounter : Bool
  /-- Successor and predecessor (R35). -/
  succ : Option Nat
  pred : Option Nat
  chained : Bool
  /-- Launching group and sequence number (R249). -/
  parent : Option (Nat × Nat)
  /-- The launch's copies of code-table entries, and segments whose last load failed (R132). -/
  segs : SMap (BitVec 128)
  badSegs : List Nat
  /-- Instance of each placed unit, at 2^32 level + unit (R18). -/
  place : SMap Nat
  admitted : Bool
  done : Bool
  deriving DecidableEq, Repr

/-- A thread of a phase record (R314). -/
structure PThread where
  pc : CodeAddr
  past : Bool
  wbase : Nat
  carry : List Word
  /-- The fences and strong reads that precede, since program order goes on across the boundary (R262, R272). -/
  fences : List (Scope × Nat)
  reads : List Sync
  deriving DecidableEq, Repr

/-- A group of the phase queue: its phase record (R314), or a saved group (R319). -/
structure Phased where
  launch : Nat
  gid : Nat
  lcore : Nat
  lslot : Nat
  /-- ph.state and ph.fault. -/
  state : Nat
  fault : Nat
  threads : SMap PThread
  ended : SMap Mask
  waves : SMap (BitVec 16 × Bool)
  slots : SMap Word
  pend : List Pend
  lseq : Word
  wrec : Rec
  target : Word
  /-- Order in which it became ready (R315), or the round it entered (R41). -/
  order : Nat
  round : Nat
  /-- Save area and generation (R320). -/
  area : Nat
  gen : Word
  /-- Number of its record in the device reserve (log 38). -/
  num : Nat := 0
  deriving DecidableEq, Repr

/-- A group of a chained launch that is still to take the slot in which its predecessor's ended (R35, log 73): its launch and group, the slot, the
predecessor's launch and logical slot, and the words of the shape slots that it inherits. -/
structure Heir where
  launch : Nat
  gid : Nat
  core : Nat
  slot : Nat
  pred : Nat
  lslot : Nat
  shape : SMap Word
  deriving DecidableEq, Repr

/-- A logical core of a launch with det = 1 (R41, R326, R329). -/
structure LCore where
  launch : Nat
  num : Nat
  phys : Nat
  /-- Retired count of `%clock` (R43), rounds completed, and the next logical slot of the round (R42). -/
  retired : Nat
  round : Nat
  turn : Nat
  /-- Physical slot of each logical slot (R326), and each slot's next wave (R42). -/
  slots : SMap Nat
  rot : SMap Nat
  /-- Cores that a spatial pre-emption vacates while the logical core still stands on one of them, and whether it is suspended between
  rounds until its saved groups are placed (R328). -/
  vacate : List Nat
  folded : Bool
  /-- The digest of a checked logical core (R329). -/
  h0 : Word
  h1 : Word
  deriving DecidableEq, Repr

/-- A round of a checked logical core as its checker runs it (R329): the logical slots that took a turn, and for each write of a granule its
address over 16, its mask and its words. -/
structure CheckRound where
  turns : List Nat
  folds : List (Word × Word × List Word)
  deriving DecidableEq, Repr

/-- The checker of a logical core (R329): the core on which it runs, the physical slot of each logical slot that it holds there, the rounds of the
primary that it has still to run, oldest first, the round that the primary is in, its digest, and the primary's once its last group has ended. -/
structure Checker where
  launch : Nat
  num : Nat
  core : Nat
  slots : SMap Nat
  log : List CheckRound
  cur : CheckRound
  c0 : Word
  c1 : Word
  final : Option (Word × Word)
  deriving DecidableEq, Repr

/-- A buffered store: the number of its write, the core that holds it, its partition and key id, the address and the bytes (R166). -/
structure Buffered where
  id : Nat
  core : Nat
  part : Nat
  key : Nat
  addr : Nat
  bytes : List Byte
  deriving DecidableEq, Repr

/-- What a save area's layout does not hold of a saved group, kept with the area's address and generation (R322). -/
structure Saved where
  gen : Word
  /-- The slot from which it was saved. -/
  home : Nat
  group : Group
  waves : SMap Wave
  threads : SMap Thread
  ops : List MatOp
  deriving DecidableEq, Repr

/-- A frame that a connection keeps: type, address, payload, retries and the mark of gt.sack (R367). -/
structure Sent where
  seq : Word
  type : Nat
  addr : BitVec 64
  payload : List Byte
  retries : Nat
  marked : Bool
  /-- PTP time of its last sending, from which the retry timer runs. -/
  stamp : Nat
  deriving DecidableEq, Repr

/-- A transport connection with one node (R367). -/
structure Conn where
  key : Nat
  expect : Word
  early : List (Word × Nat × BitVec 64 × List Byte)
  /-- Frames performed and not acknowledged, and since when (PTP time). -/
  owed : Nat
  owedAt : Nat
  next : Word
  sent : List Sent
  deriving DecidableEq, Repr

/-- A read of bytes of another device that a consumer awaits (R338, R367): the connection's node and number, the address and the length, and once it
has come the answer: the bytes, or none where the connection failed or the read did. -/
structure Ask where
  node : Nat
  part : Nat
  addr : Nat
  len : Nat
  answer : Option (Option (List Byte))
  deriving DecidableEq, Repr

/-- A connection that is empty (R367). -/
def Conn.init : Conn := { key := 0, expect := 0, early := [], owed := 0, owedAt := 0, next := 0, sent := [] }

/-- A reply or notice that waits to be sent or read (R371, R372, R375). -/
structure Msg where
  pins : Bool
  node : Nat
  notice : Bool
  words : List Word
  deriving DecidableEq, Repr

/-- A transport frame that the device sends (R365): from node `src` to `node`, under the key that `keyid` names and that the key store held when
the frame left (R366; none: it cannot be sealed, and nothing leaves). -/
structure Wire where
  src : Nat
  node : Nat
  conn : Nat
  type : Nat
  keyid : Nat
  key : Option (BitVec 256)
  seq : Word
  ack : Word
  sack : Word
  addr : BitVec 64
  payload : List Byte
  /-- It leaves no earlier than this PTP time: priority flow control holds traffic class 0 until then on every port (R363). -/
  leave : Nat := 0
  deriving DecidableEq, Repr

/-- A write to a unit of device memory or scratchpad that may lie in the future of some agent (R258-R265): the agents `known` come after it, the
agents `seen` have read it; the releases in whose sequence it stands, the fences `fence.ar` of its thread that follow it (R268), and whether an
atomic wrote it, directly after what it read (R259). -/
structure Write where
  agent : Agent
  known : List Agent
  seen : List Agent
  rel : List Sync
  fars : List Sync
  rmw : Bool
  deriving DecidableEq, Repr

/-- A byte of such a write: what it replaced in coherence order, and the number of the write (R259). -/
structure Race where
  loc : Loc
  before : Byte
  id : Nat
  deriving DecidableEq, Repr

/-- Mode of a port (R363): 8, 4 or 2 lanes of 200 Gb/s. -/
inductive PortMode | gb1600 | gb800 | gb400
  deriving DecidableEq, Repr

/-- State of a port in PTP (R364). -/
inductive PtpRole | timeTransmitter | timeReceiver | passive
  deriving DecidableEq, Repr

/-- A PTP message that the servo uses: its sequence number, the time that it carries (48 bits of seconds and 32 bits of nanoseconds) once that is
known, and the time at which it passed the port. -/
structure PtpSample where
  seq : Nat
  carried : Option Nat
  passed : Nat
  deriving DecidableEq, Repr

/-- A fabric port: what firmware's port configuration sets (R363, R364); the latest Sync, delay request and delay response that it received and the
latest delay request that it sent; the number of its next Sync and the time from which it sends it (log 78); and the times until which priority
flow control holds its traffic classes 0 and 1 (R363). -/
structure Port where
  mode : PortMode
  role : PtpRole
  sync : Option PtpSample
  request : Option PtpSample
  response : Option PtpSample
  asked : Option PtpSample
  syncNum : Nat
  syncAt : Nat
  pause0 : Nat
  pause1 : Nat
  deriving DecidableEq, Repr

/-- A port after reset (log 78). -/
def Port.init : Port :=
  { mode := .gb1600, role := .passive, sync := none, request := none, response := none, asked := none, syncNum := 0, syncAt := 0, pause0 := 0, pause1 := 0 }

/-- Gigabits per second of a mode. -/
def PortMode.rate : PortMode → Nat | .gb1600 => 1600 | .gb800 => 800 | .gb400 => 400

/-- Bring-up: held in reset, in recovery, or running accepted firmware (R345, R378). -/
inductive Boot | held | recovery | running
  deriving DecidableEq, Repr

/-- The model's own cursor: the fragment that the instruction in hand belongs to (log 1). -/
structure Cursor where
  core : Nat
  slot : Nat
  wave : Nat
  lanes : Mask
  deriving DecidableEq, Repr

/-- The state of the device. -/
structure State where
  /-- The model's own: cursor, free-value counter and outside events still to arrive (logs 1-3). -/
  cur : Cursor
  fresh : Nat
  inputs : List Instr
  /-- Live memory towers of the part, as a mask (R169, log 15). -/
  towers : BitVec 8
  /-- Device memory bytes (R168), line key tags (R344), lines with an uncorrectable error with a mask of their bytes that no write has
  replaced since (R312), releaser marks (R269). -/
  dram : List Host.Cell
  tags : SMap Nat
  bad : SMap (BitVec 128)
  marks : SMap Nat
  /-- Translation caches (R341), by double word `d` of DRAM: key id and core of the walks that have read the valid entry that stands there,
  and key id, core and value of those that have read valid entries that writes replaced there since the last invalidation. -/
  walks : SMap (List (Nat × Nat))
  held : SMap (List (Nat × Nat × Nat))
  /-- Store buffers, oldest store first (R166). -/
  sbuf : List Buffered
  /-- Scratchpad bytes, byte b of a core at 524288 core + b (R157), and full/empty bits of granules (R161). -/
  pad : List Host.Cell
  full : SMap Bool
  /-- Bytes of writes that may lie in the future of some agent, in coherence order (R259); those writes by number, and the next number. -/
  races : List Race
  writes : SMap Write
  wnum : Nat
  /-- Releases that the last transition of a granule's bit carries (R263, R271). -/
  gsync : SMap (List Sync)
  /-- Register file, accumulator store and instruction store words of a core at 65536, 32768 and 32768 core + word (R157). -/
  rf : SMap Word
  acc : SMap Word
  istore : SMap Word
  /-- Accumulator words that the copy engine of a slot has written, with the slot's key plus 1: they hold +0 once its group has left (R63). -/
  accBy : SMap Nat
  /-- Tag of store segment g of a core at 32 core + g (R132). -/
  itags : SMap SegTag
  /-- Words that changes of instruction stores replaced, by store word, each with the number of changes before it; and that number (R140). -/
  iold : SMap (List (Nat × Word))
  ichg : Nat
  /-- Handler store words at 1024 core + word (R301). -/
  hstore : SMap Word
  /-- Threads, waves, groups, cores, landing rings. -/
  threads : SMap Thread
  waves : SMap Wave
  groups : SMap Group
  cores : SMap Core
  rings : SMap Ring
  /-- Licence of a twin pair, by its lower core's number (R229). -/
  lics : SMap Licence
  clusters : SMap Cluster
  /-- Cycles that the clock of each cluster has counted, in units of `cyclePhase` (R61, R349). -/
  clocks : SMap Nat
  throttle : Throttle
  /-- Launches in acceptance order, the phase queue, groups of chained launches that are to take their slots, logical cores at 1024 launch +
  number. -/
  launches : SMap Launch
  phased : List Phased
  heirs : List Heir
  lcores : SMap LCore
  /-- The checkers of logical cores, by 1024 × launch + logical core (R329). -/
  checks : SMap Checker
  /-- Pending launches whose launching group has ended (R248): the launching launch and the address. -/
  orphans : List (Nat × BitVec 64)
  /-- What saves keep beside their areas, by area address. -/
  saves : SMap Saved
  /-- Owner of each unit of cores as the device applies it (R343), partitions whose part.valid it has seen (R344). -/
  owners : SMap Nat
  valids : SMap Bool
  /-- PTP time in units of 2^-16 ns (R364). -/
  ptp : Nat
  /-- Timestamp of the latest PTP event message of each port (R364). -/
  ptpStamps : SMap Nat
  /-- The fabric ports (R363, R364). -/
  ports : SMap Port
  /-- PTP messages that the ports have sent, oldest first: the port and the frame without its FCS (R364). -/
  ptpOut : List (Nat × List Byte)
  /-- Match table words (R368), dropped frames of each port (R363, R368), connections at 65536 node + conn (R367). -/
  matchTable : SMap Word
  drops : SMap Nat
  conns : SMap Conn
  /-- The read requests to other devices that an answer is owed to, or whose answer waits to be
  taken (the model's field, log 20). -/
  asks : List Ask
  /-- Transport key store (R366) and memory key slots (R344). -/
  tkeys : SMap (BitVec 256)
  keys : SMap (BitVec 512)
  /-- Frames, replies and notices that the device has produced, oldest first. -/
  wire : List Wire
  outbox : List Msg
  /-- The node and session that firmware names for notices (R371, log 34), and the bytes of the last reply transaction on the management pins
  (R375). -/
  noticeTo : Option (Nat × Nat)
  pinReply : List Byte
  /-- The acknowledge bit of the last byte that the device received on the management pins in the latest transaction; it acknowledges every
  byte before that one. None before the first (R375). -/
  pinAck : Option Bool
  /-- Measurement registers m0-m7 (R346), the image being loaded, the running image's SVN, bring-up (R345, R378). -/
  meas : SMap (BitVec 256)
  image : List Host.Cell
  /-- Bytes that the chunks of the image reach to (R345). -/
  imageLen : Nat
  svn : Word
  boot : Boot
  deriving DecidableEq, Repr

/-- The state after reset: RESET_N is low, nothing is resident, every field at its reset value (R63, R294, R343, R344, R350, R355,
R359, R378; logs 1-9). -/
def State.reset : State :=
  { cur := { core := 0, slot := 0, wave := 0, lanes := 0 }, fresh := 0, inputs := [], towers := 0xFF, dram := [], tags := [], bad := [], marks := [], walks := [], held := [],
    sbuf := [], pad := [], full := [], races := [], writes := [], wnum := 1, gsync := [], rf := [], acc := [], istore := [], accBy := [], itags := [], iold := [], ichg := 0, hstore := [], threads := [], waves := [],
    groups := [], cores := [], rings := [], lics := [], clusters := [], clocks := [],
    throttle := { hold := 100, tlim := 105, en := 0xF, src := 0, on := false, cnt := 0, since := 0 },
    launches := [], phased := [], heirs := [], lcores := [], checks := [], orphans := [], saves := [], owners := [], valids := [], ptp := 0, ptpStamps := [], ports := [], ptpOut := [], matchTable := [],
    drops := [], conns := [], asks := [], tkeys := [], keys := [], wire := [], outbox := [], noticeTo := none, pinReply := [], pinAck := none, meas := [], image := [], imageLen := 0, svn := 0, boot := .held }

/-- Why a run stops. -/
inductive Fault
  /-- Raised by every instruction word when the cursor names no resident fragment: the model was asked to run an instruction where
  no thread is. `step` never does that. Safe. -/
  | noFragment
  deriving DecidableEq, Repr

/-- Why an instruction has no meaning here. -/
inductive Refusal
  /-- Raised by an arm of `exec` whose instruction has no meaning yet. Safe. -/
  | notModelled (mnemonic : String)
  deriving DecidableEq, Repr

end Sys2Proof.Machine
end

