-- ==== Sys2Proof/Machine/Ops.lean ====
section
/-! DEFINITION. Named operations over the state: sparse maps, the accessors of every component, registers and latches, retirement and
control transfer, taking a trap and returning from one. -/

namespace Sys2Proof.Machine

/-- The outcome of one instruction or event. -/
abbrev Out := Host.Outcome State Fault Refusal

/-! ## Sparse maps -/

/-- The value listed under `k`. -/
def find {α : Type} (m : SMap α) (k : Nat) : Option α := (List.find? (fun p => p.1 == k) m).map (·.2)
/-- The map without `k`. -/
def erase {α : Type} (m : SMap α) (k : Nat) : SMap α := List.filter (fun p => p.1 != k) m
/-- Insert before the first larger key. -/
def ins {α : Type} (k : Nat) (v : α) : SMap α → SMap α
  | [] => [(k, v)]
  | p :: r => if k < p.1 then (k, v) :: p :: r else p :: ins k v r
/-- The map with `v` listed under `k`. -/
def insert {α : Type} (m : SMap α) (k : Nat) (v : α) : SMap α := ins k v (erase m k)
/-- The value at `k` of a map whose unlisted keys hold `d`. -/
def getD {α : Type} (d : α) (m : SMap α) (k : Nat) : α := (find m k).getD d
/-- Write `v` at `k` in a map whose unlisted keys hold `d`: writing `d` lists nothing. -/
def put {α : Type} [DecidableEq α] (d : α) (m : SMap α) (k : Nat) (v : α) : SMap α := if v = d then erase m k else insert m k v
/-- Drop the keys from `lo` to `hi - 1`. -/
def dropRange {α : Type} (m : SMap α) (lo hi : Nat) : SMap α := List.filter (fun p => !(lo ≤ p.1 && p.1 < hi)) m
/-- The entries of keys `lo` to `hi - 1`, keys counted from `lo`. -/
def takeRange {α : Type} (m : SMap α) (lo hi : Nat) : SMap α :=
  (List.filter (fun p => lo ≤ p.1 && p.1 < hi) m).map (fun p => (p.1 - lo, p.2))
/-- Write each entry of `e` at its key plus `base`. -/
def putAll {α : Type} [DecidableEq α] (d : α) (m : SMap α) (base : Nat) (e : SMap α) : SMap α :=
  e.foldl (fun m p => put d m (base + p.1) p.2) m
/-- The canonical form: keys strictly rising and no entry equal to the default `d`. -/
def canonical {α : Type} [DecidableEq α] (d : α) : SMap α → Bool
  | [] => true
  | [p] => p.2 ≠ d
  | p :: q :: r => p.2 ≠ d && p.1 < q.1 && canonical d (q :: r)

/-! ## Masks and words -/

/-- The lanes of a mask, ascending. -/
def lanesOf (m : Mask) : List Nat := (List.range 32).filter (fun l => m.getLsbD l)
/-- The mask of one lane. -/
def bit (l : Nat) : Mask := (1#32) <<< l
/-- The mask of the lanes of a list. -/
def maskOf (ls : List Nat) : Mask := ls.foldl (fun m l => m ||| bit l) 0
/-- The mask of the lanes of `m` in which `p` holds. -/
def maskWhere (m : Mask) (p : Nat → Bool) : Mask := maskOf ((lanesOf m).filter p)
/-- Lowest(m): the lowest lane of a mask (R11). -/
def lowest (m : Mask) : Nat := (lanesOf m).headD 0
/-- A code address as a word (R130). -/
def CodeAddr.word (a : CodeAddr) : Word := 0#14 ++ (a.seg ++ a.off)
/-- The code address of a word's low bits (R130). -/
def CodeAddr.of (w : Word) : CodeAddr := { seg := w.extractLsb' 10 8, off := w.extractLsb' 0 10 }
/-- The low and high words of 64 bits. -/
def lo32 (x : BitVec 64) : Word := x.extractLsb' 0 32
def hi32 (x : BitVec 64) : Word := x.extractLsb' 32 32
/-- 64 bits from two words. -/
def pair64 (lo hi : Word) : BitVec 64 := hi ++ lo
/-- A word from a number, mod 2^32. -/
def wd (n : Nat) : Word := BitVec.ofNat 32 n
/-- 1 or 0. -/
def flagWord (b : Bool) : Word := if b then 1 else 0

/-! ## BeadMix (R99) -/

/-- RotL. -/
def rotl (x : Word) (n : Nat) : Word := x.rotateLeft n

/-- Rounds `j` to `j + n - 1` of BeadMix (R99). -/
def beadRounds : Nat → Nat → Word → Word → Word → Word → Word
  | 0, _, _, _, x0, x1 => x0 ^^^ x1
  | n + 1, j, k0, k1, x0, x1 =>
    let x0 := x0 + k0 + wd j
    let x1 := x1 ^^^ rotl x0 9
    let x0 := x0 + rotl x1 13
    beadRounds n (j + 1) k1 (k0 + 0x9E3779B9) x0 x1

/-- BeadMix(k0, k1, c0, c1) (R99). -/
def beadMix (k0 k1 c0 c1 : Word) : Word := beadRounds 6 0 k0 k1 c0 c1

/-! ## Launch records -/

/-- A field of a launch record (R13). -/
def Launch.field (l : Launch) (lo len : Nat) : Nat := (l.raw.extractLsb' lo len).toNat
/-- Registers per thread R. -/
def Launch.regs (l : Launch) : Nat := 16 + 8 * l.field 128 5
/-- Waves per group. -/
def Launch.waves (l : Launch) : Nat := l.field 136 2 + 1
/-- det. -/
def Launch.det (l : Launch) : Bool := l.raw.getLsbD 156
/-- priority. -/
def Launch.prio (l : Launch) : Nat := l.field 152 3
/-- code.count. -/
def Launch.codeCount (l : Launch) : Nat := l.field 160 8
/-- Number of levels n. -/
def Launch.levels (l : Launch) : Nat := l.field 168 3 + 1
/-- lv.extent of level k, 2 to 8 (R14). -/
def Launch.extent (l : Launch) (k : Nat) : Nat := l.field (896 + 32 * (k - 1)) 24
/-- lv.domain of level k. -/
def Launch.domain (l : Launch) (k : Nat) : Nat := l.field (896 + 32 * (k - 1) + 24) 3
/-- P_k, the groups of one unit of level k (R17). -/
def Launch.unitSize (l : Launch) (k : Nat) : Nat := ((List.range (k - 1)).map (fun j => l.extent (j + 2))).foldl (· * ·) 1
/-- Levels k from 2 up to n. -/
def Launch.deepLevels (l : Launch) : List Nat := (List.range (l.levels - 1)).map (· + 2)

/-- The grid's group count G. -/
def Launch.groups (l : Launch) : Nat := l.unitSize l.levels

/-- A launch record of zeros, submitted by nobody. -/
def Launch.init : Launch :=
  { addr := 0, part := 0, firmware := false, raw := 0, queued := false, next := 0, waits := 0, gang := false, ended := [], dead := [],
    failed := false, refused := none, chainBad := false, noCounter := false, succ := none, pred := none, chained := false,
    parent := none, segs := [], badSegs := [], place := [], admitted := false, done := false }

/-! ## Components -/

/-- Slot key. -/
def gkOf (core slot : Nat) : Nat := 16 * core + slot
/-- Wave key. -/
def wkOf (gk w : Nat) : Nat := 4 * gk + w
/-- Thread key. -/
def tkOf (gk w l : Nat) : Nat := 128 * gk + 32 * w + l

def State.core (s : State) (c : Nat) : Core := getD Core.init s.cores c
def State.setCore (s : State) (c : Nat) (v : Core) : State := { s with cores := put Core.init s.cores c v }
def State.group (s : State) (gk : Nat) : Option Group := find s.groups gk
def State.setGroup (s : State) (gk : Nat) (v : Group) : State := { s with groups := insert s.groups gk v }
def State.wave (s : State) (wk : Nat) : Wave := getD Wave.init s.waves wk
def State.setWave (s : State) (wk : Nat) (v : Wave) : State := { s with waves := put Wave.init s.waves wk v }
def State.thread (s : State) (tk : Nat) : Thread := getD Thread.init s.threads tk
def State.setThread (s : State) (tk : Nat) (v : Thread) : State := { s with threads := put Thread.init s.threads tk v }
def State.launch (s : State) (n : Nat) : Launch := getD Launch.init s.launches n
def State.setLaunch (s : State) (n : Nat) (v : Launch) : State := { s with launches := insert s.launches n v }
def State.cluster (s : State) (k : Nat) : Cluster := getD Cluster.init s.clusters k
def State.setCluster (s : State) (k : Nat) (v : Cluster) : State := { s with clusters := put Cluster.init s.clusters k v }
def State.licence (s : State) (p : Nat) : Licence := getD Licence.init s.lics p
def State.setLicence (s : State) (p : Nat) (v : Licence) : State := { s with lics := put Licence.init s.lics p v }
def State.tag (s : State) (k : Nat) : SegTag := getD SegTag.init s.itags k
def State.setTag (s : State) (k : Nat) (v : SegTag) : State := { s with itags := put SegTag.init s.itags k v }

/-- Apply `f` to a component. -/
def State.modCore (s : State) (c : Nat) (f : Core → Core) : State := s.setCore c (f (s.core c))
def State.modGroup (s : State) (gk : Nat) (f : Group → Group) : State :=
  match s.group gk with | some g => s.setGroup gk (f g) | none => s
def State.modWave (s : State) (wk : Nat) (f : Wave → Wave) : State := s.setWave wk (f (s.wave wk))
def State.modThread (s : State) (tk : Nat) (f : Thread → Thread) : State := s.setThread tk (f (s.thread tk))
def State.modLaunch (s : State) (n : Nat) (f : Launch → Launch) : State := s.setLaunch n (f (s.launch n))
def State.modCluster (s : State) (k : Nat) (f : Cluster → Cluster) : State := s.setCluster k (f (s.cluster k))

/-- The next free value, and the state that has used it (log 2). -/
def State.takeFresh (s : State) : Nat × State := (s.fresh, { s with fresh := s.fresh + 1 })

/-- Die, cluster number and place of a core numbered 128 d + 4 k + c (R158). -/
def dieOf (core : Nat) : Nat := core / 128
def clusterOf (core : Nat) : Nat := core / 4
/-- The twin of a core (R158). -/
def twinOf (core : Nat) : Nat := if core / 128 % 2 = 0 then core + 128 else core - 128
/-- The twin pair of a core, named by its lower core. -/
def pairOf (core : Nat) : Nat := if core / 128 % 2 = 0 then core else core - 128
/-- The unit of two twin clusters that holds a core (R343): 32 units for each stack. -/
def unitOf (core : Nat) : Nat := 32 * (core / 256) + core % 128 / 4
/-- The cores of a unit. -/
def unitCores (u : Nat) : List Nat :=
  let lower := 256 * (u / 32) + 4 * (u % 32)
  [lower, lower + 1, lower + 2, lower + 3, lower + 128, lower + 129, lower + 130, lower + 131]
/-- The partition that owns a core; 255 for none (R343). -/
def State.owner (s : State) (core : Nat) : Nat := getD 255 s.owners (unitOf core)

/-! ## The fragment in hand -/

/-- The fragment at the cursor with everything above it. -/
structure Here where
  core : Nat
  slot : Nat
  wave : Nat
  frag : Frag
  w : Wave
  g : Group
  l : Launch
  deriving Repr

def Here.gk (h : Here) : Nat := gkOf h.core h.slot
def Here.wk (h : Here) : Nat := wkOf h.gk h.wave
def Here.tk (h : Here) (lane : Nat) : Nat := tkOf h.gk h.wave lane
def Here.lanes (h : Here) : List Nat := lanesOf h.frag.lanes
def Here.R (h : Here) : Nat := h.l.regs
/-- Privilege level (R293). -/
def Here.level (h : Here) : Nat := if h.frag.mode = .handler then 1 else if h.l.firmware then 2 else 0
def Here.handler (h : Here) : Bool := h.frag.mode = .handler

/-- The group stands still while a save of it is under way that its watchdog has not stopped (R310). -/
def Group.frozen (g : Group) : Bool := g.saving.any (fun p => !p.2)

/-- The fragment that the cursor names. -/
def State.here (s : State) : Option Here :=
  let gk := gkOf s.cur.core s.cur.slot
  match s.group gk with
  | none => none
  | some g =>
    let w := s.wave (wkOf gk s.cur.wave)
    match w.frags.find? (fun f => f.lanes == s.cur.lanes) with
    | none => none
    | some f => some { core := s.cur.core, slot := s.cur.slot, wave := s.cur.wave, frag := f, w := w, g := g, l := s.launch g.launch }

/-- Run `k` on the fragment at the cursor. -/
def withHere (s : State) (k : Here → Out) : Out := match s.here with | some h => k h | none => .fault .noFragment

/-- Change the fragment at the cursor. -/
def State.modFrag (s : State) (h : Here) (f : Frag → Frag) : State :=
  s.modWave h.wk (fun w => { w with frags := w.frags.map (fun x => if x.lanes = h.frag.lanes then f x else x) })

/-- Units of one cycle in `State.clocks`: a cluster of f MHz whose clock the throttle does not divide counts 4 f of them in 2^-16 ns. -/
def cyclePhase : Nat := 262144000
/-- The cycle count of a core: its cluster's clock (R61, R349). -/
def State.clockAt (s : State) (core : Nat) : Nat := getD 0 s.clocks (clusterOf core) / cyclePhase

/-- The time that stamps count in: cycles of the core, or turns of the wave under det = 1 (R26, R42, R308). -/
def State.now (s : State) (h : Here) : Nat := if h.l.det then (s.wave h.wk).turns else s.clockAt h.core

/-- The time from which the wait of one of its fragments counts: none passes while the group is pending (R26). -/
def State.sinceNow (s : State) (h : Here) : Nat := if h.l.det || h.g.active then s.now h else 0

/-! ## Registers and latches -/

/-- Register-file word of allocation index `x` of a thread (R45). -/
def rfKey (core slot regs wave x lane : Nat) : Nat := 65536 * core + 4096 * slot + (wave * regs + x) * 32 + lane
/-- The front copy of allocation index `x` of a lane. -/
def State.front (s : State) (h : Here) (lane x : Nat) : Word := getD 0 s.rf (rfKey h.core h.slot h.R h.wave x lane)
def State.setFront (s : State) (h : Here) (lane x : Nat) (v : Word) : State :=
  { s with rf := put 0 s.rf (rfKey h.core h.slot h.R h.wave x lane) v }

/-- Register code `r` lies in the thread's open bank (R56). -/
def Thread.inBank (t : Thread) (r : Nat) : Bool := t.isOpen && 16 * t.bank.toNat ≤ r && r < 16 * t.bank.toNat + 16

/-- Latch `k` (R49). -/
def Thread.latch (t : Thread) (k : Nat) : Word := match k with | 0 => t.y0 | 1 => t.y1 | 2 => t.y2 | _ => t.y3

/-- Read of a register field in one lane (R46, R51, R56, R301). -/
def State.reg (s : State) (h : Here) (lane : Nat) (r : Reg) : Word :=
  let t := s.thread (h.tk lane)
  let n := r.toNat
  if 124 ≤ n then t.latch (n - 124)
  else if h.handler then getD 0 t.hregs n
  else if t.inBank n then getD 0 t.shadow (n - 16 * t.bank.toNat)
  else s.front h lane (t.wbase + n)

/-- Write of a window register in one lane; codes 124-127 write nothing (R50, R56, R301). -/
def State.setReg (s : State) (h : Here) (lane : Nat) (r : Reg) (v : Word) : State :=
  let t := s.thread (h.tk lane)
  let n := r.toNat
  if 124 ≤ n then s
  else if h.handler then s.setThread (h.tk lane) { t with hregs := put 0 t.hregs n v }
  else if t.inBank n then s.setThread (h.tk lane) { t with shadow := put 0 t.shadow (n - 16 * t.bank.toNat) v }
  else s.setFront h lane (t.wbase + n) v

/-- Uniform(r): the value of the lowest active lane (R11). -/
def State.uniform (s : State) (h : Here) (r : Reg) : Word := s.reg h (lowest h.frag.lanes) r

/-- Lanes in which a window register among `rs` lies past the allocation (R46, R301). -/
def State.rangeFails (s : State) (h : Here) (rs : List Reg) : Mask :=
  maskWhere h.frag.lanes (fun l => rs.any (fun r => r.toNat ≤ 123 &&
    (if h.handler then 16 ≤ r.toNat else h.R ≤ (s.thread (h.tk l)).wbase + r.toNat)))

/-- Lanes in which a latch among `rs` may not be read (R51). -/
def State.latchFails (s : State) (h : Here) (rs : List Reg) : Mask :=
  maskWhere h.frag.lanes (fun l => rs.any (fun r => 124 ≤ r.toNat && (s.thread (h.tk l)).depth ≤ r.toNat - 124))

/-- A latch stands among the register fields. -/
def readsLatch (rs : List Reg) : Bool := rs.any (fun r => 124 ≤ r.toNat)

/-- Chain depth after an instruction (R51). -/
def nextDepth (latch produces : Bool) (d : Nat) : Nat :=
  match latch, produces with
  | false, true => 1
  | false, false => 0
  | true, true => Nat.min (d + 1) 4
  | true, false => d

/-- A thread after a producing instruction: the latches shift and the result enters y0 (R49). -/
def Thread.produce (t : Thread) (latch : Bool) (v : Word) : Thread :=
  { t with y3 := t.y2, y2 := t.y1, y1 := t.y0, y0 := v, depth := nextDepth latch true t.depth }

/-- Write the results of a producing instruction to register d and the latches (R49, R50). -/
def State.produce (s : State) (h : Here) (d : Reg) (latch : Bool) (val : Nat → Word) : State :=
  h.lanes.foldl (fun s l => (s.setReg h l d (val l)).modThread (h.tk l) (fun t => t.produce latch (val l))) s

/-- Chain depth after an instruction that does not produce (R51). -/
def State.unproduce (s : State) (h : Here) (latch : Bool) : State :=
  h.lanes.foldl (fun s l => s.modThread (h.tk l) (fun t => { t with depth := nextDepth latch false t.depth })) s

/-! ## DRAM as an agent of a key id reads it (R168, R169, R344, R374) -/

/-- Number of live memory towers (R168). -/
def State.towerCount (s : State) : Nat := ((List.range 8).filter (fun k => s.towers.getLsbD k)).length
/-- Start of the device reserve: the top 768 MiB of DRAM, 72 GiB for each live tower (R169). -/
def State.reserveStart (s : State) : Nat := s.towerCount * 72 * 2 ^ 30 - 768 * 2 ^ 20
/-- Usable top of DRAM: the reserve's start rounded down to a whole frame (R168, R169). -/
def State.usableTop (s : State) : Nat := s.reserveStart / (12 * s.towerCount * 256) * (12 * s.towerCount * 256)
/-- Key id of the device reserve (R344). -/
def reserveKey : Nat := 255
/-- Line of a DRAM byte. -/
def lineOf (a : Nat) : Nat := a / 128

/-- A byte as an agent of key id `key` reads it (R344). -/
def State.dramByte (s : State) (key a : Nat) : Byte := if getD 0 s.tags (lineOf a) = key then getD 0 s.dram a else 0
/-- `n` bytes from `a`, little-endian (R9). -/
def State.dramNat (s : State) (key a : Nat) : Nat → Nat
  | 0 => 0
  | n + 1 => (s.dramByte key a).toNat + 256 * s.dramNat key (a + 1) n
/-- Bits `lo` and up of the record at `a`, `len` of them: the bytes that hold them are read. -/
def State.dramField (s : State) (key a lo len : Nat) : Nat := s.dramNat key (a + lo / 8) ((lo % 8 + len + 7) / 8) / 2 ^ (lo % 8) % 2 ^ len
/-- A 32-bit word of DRAM. -/
def State.dramWord (s : State) (key a : Nat) : Word := wd (s.dramNat key a 4)
/-- The bytes of a number, little-endian. -/
def bytesOf (v : Nat) : Nat → List Byte
  | 0 => []
  | n + 1 => BitVec.ofNat 8 v :: bytesOf (v / 256) n
/-- The number of little-endian bytes. -/
def natOf : List Byte → Nat
  | [] => 0
  | b :: r => b.toNat + 256 * natOf r
/-- The bytes of words. -/
def wordBytes (ws : List Word) : List Byte := (ws.map (fun w => bytesOf w.toNat 4)).flatten
/-- A field of the memory map (R374). R10 has the device refuse a record with a reserved bit set with the fault that its description names; R374
names none for the map, whose fields are used all the same (DESIGN CHOICE, log 91). -/
def State.mm (s : State) (lo len : Nat) : Nat := s.dramField reserveKey s.reserveStart lo len
/-- This device's node (mm.node). -/
def State.node (s : State) : Nat := s.mm 256 12

/-! ## Frames that the device sends (R365, R367) -/

/-- gt.sack of a connection (R365). -/
def Conn.sack (c : Conn) : Word := c.early.foldl (fun m f => m ||| (1#32 <<< (f.1 - c.expect - 1).toNat)) 0

/-- The time from which some port may send a frame of traffic class 0 (R363). Which port a frame leaves by the spec does not say. -/
def State.leaveAt (s : State) : Nat := (List.range 18).foldl (fun m p => Nat.min m (getD Port.init s.ports p).pause0) (getD Port.init s.ports 0).pause0

/-- A frame of a connection as it leaves (R365, R366). -/
def State.wireOf (s : State) (node conn type keyid : Nat) (seq : Word) (c : Conn) (addr : BitVec 64) (payload : List Byte) : Wire :=
  { src := s.node, node := node, conn := conn, type := type, keyid := keyid, key := find s.tkeys keyid, seq := seq, ack := c.expect, sack := c.sack,
    addr := addr, payload := payload, leave := s.leaveAt }

/-- Send a frame of a connection and keep it until it is acknowledged (R365, R367). -/
def State.transmit (s : State) (node conn type keyid : Nat) (addr : BitVec 64) (payload : List Byte) : State :=
  let k := 65536 * node + conn
  let c := getD Conn.init s.conns k
  { s with
    conns := put Conn.init s.conns k { c with key := keyid, owed := 0, next := c.next + 1, sent := c.sent ++ [{ seq := c.next, type := type, addr := addr, payload := payload, retries := 0, marked := false, stamp := s.ptp }] }
    wire := s.wire ++ [s.wireOf node conn type keyid c.next c addr payload] }

/-! ## The order that synchronisation gives (R152, R255-R272) -/

/-- The slot that an agent belongs to. -/
def Agent.home : Agent → Option Nat
  | .thread tk => some (tk / 128)
  | .copy gk _ | .array gk _ | .call gk _ _ | .landing gk | .queue gk _ | .barrier gk _ | .twin gk _ | .cell gk _ => some gk
  | .device | .sync _ => none

/-- A number for an agent that reads or writes, for the free values that it meets. -/
def Agent.num : Agent → Nat
  | .device => 0
  | .thread tk => 8 * tk + 1
  | .copy gk n => 8 * (gk + 16384 * n) + 2
  | .array gk n => 8 * (gk + 16384 * n) + 3
  | .call gk k n => 8 * (gk + 16384 * (k + 8 * n)) + 4
  | .landing gk => 8 * gk + 5
  | .queue gk _ | .barrier gk _ | .twin gk _ | .cell gk _ => 8 * gk + 6
  | .sync n => 8 * n + 7

/-- A number for a byte, for the free values that its readers and writers meet. -/
def Loc.num : Loc → Nat
  | .dram a => 4 * a
  | .chip c o => 4 * (2 ^ 20 * c + o) + 1
  | .remote _ a => 4 * a + 2

/-- A write lies in the past of an agent that `p` names: it is its own, or happens before what it does next (R262). -/
def Write.past (w : Write) (p : Agent → Bool) : Bool := p w.agent || w.known.any p
/-- A release of agents that `p` names covers the write: it lies in their past, or they have read it (R264). -/
def Write.covered (w : Write) (p : Agent → Bool) : Bool := w.past p || w.seen.any p

/-- What the agents `dst` do next comes after what lies in the past of agents that `p` names (R262, R265). -/
def State.pass (s : State) (p : Agent → Bool) (dst : List Agent) : State :=
  { s with writes := s.writes.map (fun x => if x.2.past p then (x.1, { x.2 with known := (dst ++ x.2.known).eraseDups }) else x) }

/-- What meets `dst` comes after everything that a release of agents which `p` names covers (R263-R265). -/
def State.passAll (s : State) (p : Agent → Bool) (dst : List Agent) : State :=
  { s with writes := s.writes.map (fun x => if x.2.covered p then (x.1, { x.2 with known := (dst ++ x.2.known).eraseDups }) else x) }

/-- No agent that `p` names is remembered: the slot or the token is free for another use. -/
def State.forget (s : State) (p : Agent → Bool) : State :=
  { s with writes := s.writes.map (fun x => (x.1, { x.2 with known := x.2.known.filter (fun a => !p a), seen := x.2.seen.filter (fun a => !p a) })) }

/-- The token of one of some releases. -/
def ofSyncs (ts : List Sync) (a : Agent) : Bool := match a with | .sync n => ts.any (fun t => t.num = n) | _ => false

/-- The writes that a release of agents which `p` names covers, with those that are covered by a release among them, to depth `n`. -/
def State.closure (s : State) (p : Agent → Bool) : Nat → List Nat
  | 0 => []
  | n + 1 =>
    let mine := s.writes.filter (fun x => x.2.covered p)
    let next := fun a => p a || ofSyncs (mine.flatMap (fun x => x.2.rel)) a
    if s.writes.all (fun x => x.2.covered p || !x.2.covered next) then mine.map (·.1) else s.closure next n

/-- Entries of a list, in coherence order, that follow at each byte the last one that `p` names. -/
def afterLast (p : Race → Bool) : List Race → List Race
  | [] => []
  | r :: rest => if p r || rest.any (fun e => e.loc = r.loc && p e) then afterLast p rest else r :: afterLast p rest

/-- The writes that races and store buffers still hold. -/
def State.prune (s : State) : State :=
  { s with writes := s.writes.filter (fun x => s.races.any (fun r => r.id = x.1) || s.sbuf.any (fun b => b.id = x.1)) }

/-- Bytes that `p` names are replaced for every agent. -/
def State.dropRaces (s : State) (p : Loc → Bool) : State := { s with races := s.races.filter (fun r => !p r.loc) }
/-- A byte of device memory in a line that `p` names. -/
def Loc.inLine (p : Nat → Bool) (l : Loc) : Bool := match l with | .dram a => p (a / 128) | _ => false

/-- Every agent comes after what a release of agents which `p` names covers: edges at device or system scope that no access carries, and
whatever leaves a core (R265, R272; log 86). -/
def State.settled (s : State) (p : Agent → Bool) : State :=
  let ids := s.closure p (s.writes.length + 1)
  ({ s with races := afterLast (fun r => ids.contains r.id) s.races } : State).prune

/-- An agent of the group of a slot. -/
def Agent.isOf (gk : Nat) (a : Agent) : Bool := a.home = some gk

/-- A group leaves its slot: what its agents have done and know is before all (R272), and the slot's agents start anew. -/
def State.departed (s : State) (gk : Nat) : State := (s.settled (Agent.isOf gk)).forget (Agent.isOf gk)

/-! ## Notices -/

/-- Words of a notice of a kind (R371, R372). -/
def noticeWords (kind : Nat) (data : List Word) : List Word := wd kind :: 0 :: 0 :: 0 :: wd data.length :: data
/-- The notices that carry a record: a record of more than 1,016 words goes in several, in order (R372, log 79). -/
def noticeParts (kind : Nat) (data : List Word) : List (List Word) :=
  (List.range (Nat.max 1 ((data.length + 1015) / 1016))).map (fun k => noticeWords kind ((data.drop (1016 * k)).take 1016))
/-- Frames of type 5 that carry notices to the node that firmware names (R371). -/
def State.noticeFrames (s : State) (parts : List (List Word)) : State :=
  match s.noticeTo with
  | none => s
  | some (node, conn) => parts.foldl (fun s ws => s.transmit node conn 5 255 0 (wordBytes ws)) s
/-- Send a notice (R371): to the node that firmware names, and to the management pins, where it waits to be read. -/
def State.notice (s : State) (kind : Nat) (data : List Word) : State :=
  let parts := noticeParts kind data
  { s with
    outbox := s.outbox ++ parts.map (fun ws => { pins := true, node := 0, notice := true, words := ws })
    conns := (s.noticeFrames parts).conns
    wire := (s.noticeFrames parts).wire }
/-- A containment notice: partition and physical line (R312), kind 2. -/
def State.contain (s : State) (part : Nat) (addr : Nat) : State :=
  s.notice 2 [wd part, wd (addr / 128 * 128), wd (addr / 2 ^ 32)]
/-- The words of a wave's trap record. -/
def Wave.recordWords (w : Wave) : List Word := (List.range 2112).map (fun k => getD 0 w.record k)

/-! ## Numeric event counters (R102-R105) -/

/-- nev.act, nev.win and nev.thr of a class. -/
def Group.nevOf (g : Group) (k : Nat) : Word := getD 0 g.nev k
def nevAct (w : Word) : Nat := (w.extractLsb' 30 2).toNat
def nevWin (w : Word) : Nat := (w.extractLsb' 24 5).toNat
def nevThr (w : Word) : Nat := (w.extractLsb' 0 24).toNat

/-- A class's count after `n` more events (R103). -/
def satCount (c : Word) (n : Nat) : Word := wd (Nat.min (c.toNat + n) (2 ^ 32 - 1))

/-- Add events to the counters (R102). -/
def Group.count (g : Group) (ev : SMap Nat) : Group :=
  { g with evtc := ev.foldl (fun m p => put 0 m p.1 (satCount (getD 0 m p.1) p.2)) g.evtc }

/-- Class `k` fires now (R105): a class that a `wrpr` enables, or whose threshold it lowers, at a count already past it fires when the group next
retires an instruction (DESIGN CHOICE, log 84). -/
def Group.fires (g : Group) (k : Nat) : Bool :=
  let n := g.nevOf k
  nevAct n ≠ 0 && nevThr n ≠ 0 && !g.fired.getLsbD k && nevThr n ≤ (getD 0 g.evtc k).toNat - (getD 0 g.evbase k).toNat

/-- The classes that fire now with action `a`, as a mask. -/
def Group.firing (g : Group) (a : Nat) : BitVec 8 :=
  (List.range 8).foldl (fun m k => if g.fires k && nevAct (g.nevOf k) = a then m ||| (1#8 <<< k) else m) 0

/-- Close the windows that end at the group's retired count (R105). -/
def Group.closeWindows (g : Group) : Group :=
  (List.range 8).foldl (fun g k =>
    let win := nevWin (g.nevOf k)
    if win ≠ 0 && g.nret % 2 ^ win = 0 then
      { g with evbase := put 0 g.evbase k (getD 0 g.evtc k), fired := g.fired &&& ~~~(1#8 <<< k) } else g) g

/-- Count events and test every class (R105): the classes that trap, and the state with notices sent. Of the instructions whose events R106 allows
to be charged, the one whose events bring the count to the threshold is (DESIGN CHOICE, log 83). The spec gives a numeric-event notice the class mask (R105) and
names no other word: it carries the launch's number, the group and the mask (DESIGN CHOICE, log 91). -/
def State.charge (s : State) (gk : Nat) (ev : SMap Nat) : BitVec 8 × State :=
  match s.group gk with
  | none => (0, s)
  | some g =>
    let g1 := g.count ev
    let t := g1.firing 1
    let n := g1.firing 2
    let s1 := s.setGroup gk { g1 with fired := g1.fired ||| t ||| n }
    (t, if n = 0 then s1 else s1.notice 3 [wd g.launch, wd g.gid, n.setWidth 32])

/-! ## Retirement and control transfer -/

/-- Where a lane goes after an instruction. -/
inductive Goto
  /-- The next word in sequence. -/
  | seq
  /-- A transfer that ends loop levels it leaves (R143). -/
  | jump (dest : CodeAddr)
  /-- A transfer of `call` or `callr` (R143). -/
  | call (dest : CodeAddr)
  /-- The lane leaves its fragment (parks or ends). -/
  | leave
  deriving DecidableEq, Repr

/-- LoopEnd (R142): the levels after an instruction at `e`, and the start to return to. -/
def loopEnd (e : BitVec 10) : List Loop → List Loop × Option (BitVec 10)
  | [] => ([], none)
  | v :: r => if v.stop = e then
      (if 1 < v.count.toNat then ({ v with count := v.count - 1 } :: r, some v.start) else loopEnd e r)
    else (v :: r, none)

/-- A level holds the address. -/
def Loop.holds (v : Loop) (a : BitVec 10) : Bool := v.start.toNat ≤ a.toNat && a.toNat ≤ v.stop.toNat

/-- Levels after a transfer from `p` to `t` in one segment: a level that the transfer leaves ends with every level inside it (R143). -/
def leaveLoops (p t : BitVec 10) : List Loop → List Loop
  | [] => []
  | v :: r =>
    let r' := leaveLoops p t r
    if r'.length < r.length then r' else if v.holds p && !v.holds t then r' else v :: r'

/-- Levels and next address of a lane (R132, R142, R143); the Bool says that it runs past offset 1,023. -/
def advance (pc : CodeAddr) (loops : List Loop) : Goto → List Loop × CodeAddr × Bool
  | .seq =>
    match loopEnd pc.off loops with
    | (ls, some st) => (ls, { pc with off := st }, false)
    | (ls, none) => if pc.off = 1023#10 then (ls, pc, true) else (ls, { pc with off := pc.off + 1 }, false)
  | .jump t => (if t.seg = pc.seg then leaveLoops pc.off t.off loops else [], t, false)
  | .call t => (if t.seg = pc.seg then loops else [], t, false)
  | .leave => (loops, pc, false)

/-- Group the lanes of a mask by where they go: one fragment for each distinct address (R24, R136). -/
def splitLanes (base : Frag) (dest : Nat → CodeAddr × Bool) : List Nat → List Frag → List Frag
  | [], acc => acc
  | l :: r, acc =>
    let (pc, past) := dest l
    splitLanes base dest r
      (if acc.any (fun f => f.pc = pc && f.past = past) then
        acc.map (fun f => if f.pc = pc && f.past = past then { f with lanes := f.lanes ||| bit l } else f)
      else acc ++ [{ base with lanes := bit l, pc := pc, past := past }])

/-- Count a retirement of the group: N of R105, the logical core's count of R43, events, windows. Answers the trapping classes. -/
def State.retireCount (s : State) (h : Here) (ev : SMap Nat) : BitVec 8 × State :=
  if h.handler then (0, s)
  else
    let s1 := s.modGroup h.gk (fun g => { g with nret := g.nret + 1 })
    let (t, s2) := s1.charge h.gk ev
    let s3 := s2.modGroup h.gk (fun g => g.closeWindows)
    let s4 := if h.l.det then
        { s3 with lcores := s3.lcores.map (fun p => if p.1 = 1024 * h.g.launch + h.g.lcore then (p.1, { p.2 with retired := p.2.retired + 1 }) else p) }
      else s3
    (t, s4)

/-- The later of two instruction fences: one fragment's stands for a merged one (R140). -/
def laterFence : Option Nat → Option Nat → Option Nat
  | some a, some b => some (Nat.max a b)
  | _, _ => none

/-- Retire the fragment's instruction: count it, move every lane, and form the fragments (R24, R142, R308). `after` is a
system-call or software trap that the instruction raises. -/
def State.retireTo (s : State) (h : Here) (ev : SMap Nat) (after : Option (Nat × Word)) (go : Nat → Goto) : State :=
  let (trap, s) := s.retireCount h ev
  let stay := h.lanes.filter (fun l => go l ≠ .leave)
  let dest := fun l => (advance h.frag.pc (s.thread (h.tk l)).loops (go l)).2
  let now := s.now h
  let base : Frag := { h.frag with lanes := 0, wait := .none, xfer := 0, t0 := 0, retired := now, since := s.sinceNow h, after := after, nev := h.frag.nev ||| trap, phw := 0, kept := none, fence := some (h.frag.fence.getD s.ichg), able := true }
  let parts := splitLanes base dest stay []
  let s := stay.foldl (fun s l => s.modThread (h.tk l) (fun t => { t with loops := (advance h.frag.pc t.loops (go l)).1 })) s
  s.modWave h.wk (fun w => { w with
    frags := w.frags.filter (fun f => f.lanes ≠ h.frag.lanes) ++ parts
    issued := if h.frag.wait = .access then w.issued else now, yielded := if h.frag.wait = .access then w.yielded else 0 })

/-- Retire in sequence. -/
def State.retire (s : State) (h : Here) (ev : SMap Nat) : State := s.retireTo h ev none (fun _ => .seq)

/-- The instruction's condition does not hold yet: the fragment waits and nothing else changes (R54, R317). -/
def State.await (s : State) (h : Here) : State :=
  s.modFrag h (fun f => { f with wait := if f.wait = .access then .access else .retry })

/-- The same, and the fragment notes when its wait began. -/
def State.awaitFrom (s : State) (h : Here) (now : Nat) : State :=
  s.modFrag h (fun f => { f with wait := if f.wait = .access then .access else .retry, t0 := if f.wait = .retry then f.t0 else now })

/-! ## Ending a group -/

/-- The accumulator words of a tile (R214). -/
def tileWords (desc : BitVec 16) : List Nat :=
  let base := 256 * (desc.extractLsb' 9 7).toNat
  let n := 256 * (desc.extractLsb' 0 4).toNat * (desc.extractLsb' 4 4).toNat
  (List.range n).map (base + ·)
/-- Descriptor of tile t in the configuration words (R214). -/
def descOf (cfg : List Word) (t : Nat) : BitVec 16 := (cfg.getD (1 + t / 2) 0).extractLsb' (16 * (t % 2)) 16
/-- A map of accumulator words without those of the tiles of a configuration. -/
def dropTiles {α : Type} (core : Nat) (cfg : List Word) (m : SMap α) : SMap α :=
  (List.range 4).foldl (fun m t =>
    let d := descOf cfg t
    let base := 32768 * core + 256 * (d.extractLsb' 9 7).toNat
    dropRange m base (base + 256 * (d.extractLsb' 0 4).toNat * (d.extractLsb' 4 4).toNat)) m

/-- Zero every tile of a configuration. -/
def State.zeroTiles (s : State) (core : Nat) (cfg : List Word) : State :=
  { s with acc := dropTiles core cfg s.acc, accBy := dropTiles core cfg s.accBy }

/-- Number of an array's operations that are outstanding in the group of a slot. -/
def Core.opsOf (c : Core) (slot : Nat) : List MatOp := c.ops.filter (fun o => o.slot = slot)

/-- Push a beat into a queue of a group if there is room: capacity 32 for q2-q6 and 16 for q8-q11 (R54). -/
def queueCap (q : Nat) : Nat := if q ≤ 1 then 64 else if q ≤ 6 then 32 else if q = 7 then 64 else 16
def Group.queue (g : Group) (q : Nat) : List Beat := getD [] g.queues q
def Group.setQueue (g : Group) (q : Nat) (b : List Beat) : Group := { g with queues := put [] g.queues q b }
def Group.hasRoom (g : Group) (q : Nat) : Bool := (g.queue q).length < queueCap q
def Group.push (g : Group) (q : Nat) (b : Beat) : Group := g.setQueue q (g.queue q ++ [b])
/-- A beat from its words. -/
def beatOf (ws : List Word) : Beat := ((List.range ws.length).zip ws).filter (fun p => p.2 ≠ 0)

/-- Push the beats that wait for a place: code loads in `q6`, launch completions in `q5` (R55, R137, R248). -/
def Group.flush6 : Nat → Group → Group
  | 0, g => g
  | n + 1, g => match g.held6 with
    | b :: r => if g.hasRoom 6 then Group.flush6 n { g.push 6 b with held6 := r } else g
    | [] => g
def Group.flush3 : Nat → Group → Group
  | 0, g => g
  | n + 1, g => match g.held3 with
    | b :: r => if g.hasRoom 3 then Group.flush3 n { g.push 3 b with held3 := r } else g
    | [] => g
def Group.flush5 : List Pend → Group → Group
  | [], g => g
  | p :: r, g => match p.beat with
    | some b => if g.hasRoom 5 then Group.flush5 r { g.push 5 b with pend := g.pend.erase p } else g
    | none => Group.flush5 r g
def Group.flush (g : Group) : Group := Group.flush6 g.held6.length (Group.flush5 g.pend (Group.flush3 g.held3.length g))

/-- Release the licence of a group and drop its requests (R230, R231). -/
def State.releaseLic (s : State) (core gk : Nat) : State :=
  let p := pairOf core
  let v := s.licence p
  s.setLicence p { holder := if v.holder = some gk then none else v.holder, waiting := v.waiting.filter (·.1 ≠ gk), revoked := v.revoked.filter (· ≠ gk) }

/-- Terminate(group) (R305): every thread ends, waiting work that cannot end by itself is abandoned, and the trap notice is sent. The
slot is released by the group's last boundary (PHASE_BOUNDARY), once its other operations have ended. -/
def State.terminate (s : State) (gk : Nat) (record : List Word) : State :=
  match s.group gk with
  | none => s
  | some g =>
    let l := s.launch g.launch
    let keep := g.copies.takeWhile (fun c => c.started && c.susp.isNone)
    let s1 := (List.range (32 * l.waves)).foldl (fun s t => s.modThread (128 * gk + t) (fun t => { t with ended := true, isOpen := false, done := false })) s
    let s2 := (List.range l.waves).foldl (fun s w => s.modWave (wkOf gk w) (fun w =>
      { w with frags := [], rfOpen := false, rfNext := 0, rfEnd := 0, rfParked := 0, hang := none, agg := none, tkind := 0 })) s1
    let s3 := s2.setGroup gk { g with copies := keep, calls := [], cells := [], cellFull := [], queues := [], phasew := [], held3 := [], held6 := [], saving := none }
    let s4 := s3.modLaunch g.launch (fun l => { l with dead := if l.dead.contains g.gid then l.dead else g.gid :: l.dead, failed := true })
    s4.notice 1 record

/-! ## The trap record (R299, R300) -/

/-- What a trap carries beside its kind. -/
structure Cause where
  kind : Nat
  detail : Nat
  fault : Mask
  code : Word
  va : BitVec 64
  acc : Nat
  xfer : Nat
  agg : Bool
  /-- Words 13 to 16: operation, job, step with wave and lane, index (R210). -/
  op : Word
  job : Word
  place : Word
  index : Word
  deriving DecidableEq, Repr

/-- A cause of a kind in all lanes of the fragment. An `ldm` or `stm` that an earlier trap interrupted keeps its transfer count (R181). -/
def Here.cause (h : Here) (kind detail : Nat) : Cause :=
  { kind := kind, detail := detail, fault := h.frag.lanes, code := 0, va := 0, acc := 0, xfer := h.frag.xfer, agg := false, op := 0, job := 0, place := 0, index := 0 }

/-- Word `k` of the instruction stores as a fragment with a fence fetches it: the word in the store, or one that a change since the fence
replaced (R140); a free value picks. -/
def State.storeWord (s : State) (k : Nat) (fence : Option Nat) : Word :=
  let now := getD 0 s.istore k
  match fence with
  | none => now
  | some n => match (getD [] s.iold k).filter (fun p => n ≤ p.1) with
    | [] => now
    | ps => (now :: ps.map (·.2)).getD (Config.heldPick s.fresh k % (ps.length + 1)) now

/-- Words `ks` of the instruction stores are about to change, all at once (R140). -/
def State.noteCode (s : State) (ks : List Nat) : State :=
  { s with
    iold := ks.foldl (fun m k => put [] m k ((getD [] m k).filter (fun p => p.2 ≠ getD 0 s.istore k) ++ [(s.ichg, getD 0 s.istore k)])) s.iold
    ichg := s.ichg + 1 }

/-- Code segment `c` of a launch is resident at a core by the launch's copy of the entry (R132): its store segment. -/
def State.resident (s : State) (core part : Nat) (e : BitVec 128) : Bool :=
  let t := s.tag (32 * core + (e.extractLsb' 64 5).toNat)
  t.state = .loaded && t.part = part && t.va = e.extractLsb' 0 52

/-- The instruction word at a code address of a group, 0 if it cannot be fetched (R299). -/
def State.wordAt (s : State) (h : Here) (pc : CodeAddr) (handler : Bool) : Word :=
  if handler then getD 0 s.hstore (1024 * h.core + pc.off.toNat)
  else match find h.l.segs pc.seg.toNat with
    | none => 0
    | some e =>
      if s.resident h.core h.l.part e then s.storeWord (32768 * h.core + 1024 * (e.extractLsb' 64 5).toNat + pc.off.toNat) h.frag.fence else 0

/-- The section of a code address from its resident segment's table (R83); 0 without one. -/
def State.sectionOf (s : State) (h : Here) (pc : CodeAddr) : Nat :=
  match find h.l.segs pc.seg.toNat with
  | none => 0
  | some e =>
    let t := s.tag (32 * h.core + (e.extractLsb' 64 5).toNat)
    if !s.resident h.core h.l.part e || e.extractLsb' 69 7 = 0 then 0
    else ((t.sects.filter (fun w => (w.extractLsb' 0 10).toNat ≤ pc.off.toNat)).getLast?.map (fun w => (w.extractLsb' 30 2).toNat)).getD 0

/-- A word of two 10-bit offsets at bits 9:0 and 25:16. -/
def loopWord (v : Loop) : Word := 0#6 ++ (v.stop ++ (0#6 ++ v.start))

/-- The words of a lane block (R300) for a lane with resume address `pc`. -/
def State.laneBlock (s : State) (h : Here) (wave lane : Nat) (w : Wave) (pc : CodeAddr) (past : Bool) : List Word :=
  let t := s.thread (tkOf h.gk wave lane)
  let g := (s.group h.gk).getD h.g
  let parked := w.rfParked.getLsbD lane
  let live := !parked && !t.ended
  let fulls := (List.range 16).foldl (fun (m : BitVec 16) c => if getD false g.cellFull (16 * lane + c) then m ||| (1#16 <<< c) else m) 0
  let b (x : Bool) : BitVec 1 := BitVec.ofBool x
  let l0 := t.loops.head?
  let l1 := t.loops.tail.head?
  let shadowWords := (List.range 16).map (fun k => getD 0 t.shadow k)
  let frontWords := (List.range 16).map (fun k => if t.isOpen then
    getD 0 s.rf (rfKey h.core h.slot h.R wave (t.wbase + 16 * t.bank.toNat + k) lane) else 0)
  let cellWords := (List.range 16).map (fun c => getD 0 g.cells (16 * lane + c))
  [ if live then pc.word else 0, t.iter,
    0#16 ++ (BitVec.ofNat 2 (if live then s.sectionOf h pc else 0) ++ (b parked ++ (b t.ended ++ (b t.done ++ (b t.isOpen ++ (t.bank ++
      (BitVec.ofNat 3 t.depth ++ (BitVec.ofNat 2 t.loops.length ++ (0#1 ++ b past))))))))),
    fulls ++ (0#9 ++ BitVec.ofNat 7 t.wbase), t.y0, t.y1, t.y2, t.y3,
    (l0.map loopWord).getD 0, (l0.map (·.count)).getD 0, (l1.map loopWord).getD 0, (l1.map (·.count)).getD 0, 0, 0, t.prop, t.acpt ]
  ++ shadowWords ++ frontWords ++ cellWords

/-- The fragment that holds a lane. -/
def Wave.fragOf (w : Wave) (lane : Nat) : Option Frag := w.frags.find? (fun f => f.lanes.getLsbD lane)

/-- The words of a whole record for a trap of fragment `h.frag` of cause `c` (R298-R300). -/
def State.recordOf (s : State) (h : Here) (c : Cause) (parent : Mask) (pc : CodeAddr) : List Word :=
  let w := s.wave h.wk
  let all := w.frags.foldl (fun m f => m ||| f.lanes) 0
  let ended := maskWhere (~~~(0#32)) (fun l => (s.thread (h.tk l)).ended)
  let clock := if h.l.det then (getD none (s.lcores.map (fun p => (p.1, some p.2.retired))) (1024 * h.g.launch + h.g.lcore)).getD 0 else s.clockAt h.core
  let b (x : Bool) : BitVec 1 := BitVec.ofBool x
  let header : List Word :=
    [ b c.agg ++ (0#10 ++ (BitVec.ofNat 5 (lowest c.fault) ++ (BitVec.ofNat 8 c.detail ++ BitVec.ofNat 8 c.kind))),
      parent, c.fault, all &&& ~~~parent, w.rfParked, ended, pc.word, s.wordAt h pc h.handler, lo32 c.va, hi32 c.va, wd c.acc, wd c.xfer, c.code,
      c.op, c.job, c.place, c.index, flagWord w.rfOpen, w.rfNext, w.rfEnd, 0#15 ++ (b w.progress ++ w.fair),
      wd clock, wd (clock / 2 ^ 32), w.tseq + 1 ]
  header ++ List.replicate 40 0 ++ ((List.range 32).map (fun l =>
    match w.fragOf l with
    | some f => s.laneBlock h h.wave l w f.pc f.past
    | none => s.laneBlock h h.wave l w { seg := 0, off := 0 } false)).flatten

/-- A record as a sparse map. -/
def recordMap (ws : List Word) : SMap Word := ((List.range ws.length).zip ws).filter (fun p => p.2 ≠ 0)

/-- Another fragment of the wave is in handler mode or held (R297). -/
def Wave.busy (w : Wave) (f : Frag) : Bool := w.frags.any (fun x => x.lanes ≠ f.lanes && x.mode ≠ .user)

/-- DoubleTrap(F) (R306): the group is terminated, and the notice carries the record of the first trap. -/
def State.doubleTrap (s : State) (h : Here) : State := s.terminate h.gk (s.wave h.wk).recordWords

/-- A trap of a level-2 thread (R306): it is the first trap, and the notice carries its record. -/
def State.firmwareTrap (s : State) (h : Here) (c : Cause) (parent : Mask) (pc : CodeAddr) : State := s.terminate h.gk (s.recordOf h c parent pc)

/-- The trapped fragment of lanes `parent`, in handler mode or held. -/
def trapFrag (h : Here) (parent : Mask) (mode : Mode) (pc : CodeAddr) (now : Nat) (nev : BitVec 8) : Frag :=
  { lanes := parent, pc := pc, past := false, mode := mode, wait := .none, xfer := h.frag.xfer, t0 := 0, retired := now, since := if h.l.det || h.g.active then now else 0, after := none, nev := nev, phw := h.frag.phw }

/-- TakeTrap (R297) for a fragment of lanes `parent` whose record names `pc`; `gone` are the fragments that it replaces. -/
def State.takeTrapOf (s : State) (h : Here) (c : Cause) (parent : Mask) (pc : CodeAddr) (nev : BitVec 8) : State :=
  let ws := s.recordOf h c parent pc
  let core := s.core h.core
  let now := s.now h
  let rest := fun (w : Wave) => w.frags.filter (fun f => f.lanes &&& parent = 0)
  let s0 := (lanesOf parent).foldl (fun s l => s.modThread (h.tk l) (fun t =>
    { t with atPhase := false, stood := ((s.wave h.wk).fragOf l).elim 0 (·.pc.word) })) s
  let s0 := s0.modGroup h.gk (fun g => { g with phasew := (lanesOf parent).foldl (fun m l => erase m (32 * h.wave + l)) g.phasew })
  let s1 := s0.modWave h.wk (fun w =>
    { w with record := recordMap ws, tseq := w.tseq + 1, agg := if (rest w).any (fun f => f.wait = .agg) then w.agg else none })
  if core.hmask.getLsbD c.kind then
    let s2 := (lanesOf parent).foldl (fun s l => s.modThread (h.tk l) (fun t => { t with depth := 0, loops := [], hregs := [], killed := false })) s1
    s2.modWave h.wk (fun w => { w with tkind := c.kind, frags := rest w ++ [trapFrag h parent .handler { seg := 0, off := BitVec.ofNat 10 (16 * c.kind) } now nev] })
  else if core.hfwd.getLsbD c.kind then
    (s1.modWave h.wk (fun w => { w with frags := rest w ++ [trapFrag h parent .held pc now nev] })).notice 1 ws
  else s1.terminate h.gk ws

/-- TakeTrap (R297) of the fragment in hand for a precise trap of its next instruction, or for an after-class trap that is due. -/
def State.takeTrap (s : State) (h : Here) (c : Cause) : State :=
  if h.handler then s.doubleTrap h
  else if h.l.firmware then s.firmwareTrap h c h.frag.lanes h.frag.pc
  else if h.w.busy h.frag then s.await h
  else s.takeTrapOf h c h.frag.lanes h.frag.pc (if c.kind = 16 then 0 else h.frag.nev)

/-- A precise trap (R295). -/
def trap (s : State) (h : Here) (kind : Nat) : Out := .next (s.takeTrap h (h.cause kind 0))
/-- A precise trap found in some lanes (R298). -/
def trapIn (s : State) (h : Here) (kind : Nat) (lanes : Mask) : Out := .next (s.takeTrap h { h.cause kind 0 with fault := lanes })

/-- Trap kinds (R295). -/
def kFetch : Nat := 1
def kPriv : Nat := 2
def kIllegal : Nat := 3
def kRange : Nat := 4
def kLatch : Nat := 5
def kState : Nat := 6
def kDet : Nat := 7
def kRecord : Nat := 8
def kBounds : Nat := 9
def kAlign : Nat := 10
def kMap : Nat := 11
def kTrans : Nat := 12
def kUncorr : Nat := 13
def kCopy : Nat := 14
def kPhase : Nat := 15
def kNumeric : Nat := 16
def kScall : Nat := 17
def kSoft : Nat := 18
def kHang : Nat := 19

/-- The checks of R73 for a word of a major other than 0x40: every register field named in `named`, every latch read in `reads`. -/
def checked (s : State) (h : Here) (named reads : List Reg) (k : Out) : Out :=
  if s.rangeFails h named ≠ 0 then trapIn s h kRange (s.rangeFails h named)
  else if s.latchFails h reads ≠ 0 then trapIn s h kLatch (s.latchFails h reads)
  else k

/-- An instruction that R301 forbids in handler mode raises the illegal-state trap there. -/
def notInHandler (s : State) (h : Here) (k : Out) : Out := if h.handler then trap s h kState else k

/-- An instruction that can transfer control raises the illegal-state trap at the end of an active level (R143). -/
def transfers (s : State) (h : Here) (k : Out) : Out :=
  if h.lanes.any (fun l => (s.thread (h.tk l)).loops.any (fun v => v.stop = h.frag.pc.off)) then trap s h kState else k

/-- A producing instruction over registers: `named` are its register fields, `reads` its sources, `val` its result in each lane. -/
def produceAll (s : State) (named reads : List Reg) (d : Reg) (val : State → Here → Nat → Word) (ev : State → Here → SMap Nat) : Out :=
  withHere s fun h => checked s h named reads
    (.next ((s.produce h d (readsLatch reads) (val s h)).retire h (ev s h)))

/-- No numeric event. -/
def noEvents : State → Here → SMap Nat := fun _ _ => []

/-! ## Return from a trap (R303) -/

/-- Word `k` of lane `l`'s block. -/
def laneWord (w : Wave) (l k : Nat) : Word := getD 0 w.record (64 + 64 * l + k)

/-- The checks of `hret` for one lane's block in the record of a wave (R303, R325): code.count, registers, and the window base at the trap where
one is known. -/
def recordFails (codes regs : Nat) (wbase : Option Nat) (w : Wave) (l : Nat) : Bool :=
  let pc := laneWord w l 0
  let st := laneWord w l 2
  let levels := (st.extractLsb' 2 2).toNat
  let wb := ((laneWord w l 3).extractLsb' 0 7).toNat
  let badLevel := fun k => (laneWord w l (8 + 2 * k)).extractLsb' 16 10 < (laneWord w l (8 + 2 * k)).extractLsb' 0 10 || laneWord w l (9 + 2 * k) = 0
  let kind := (getD 0 w.record 0).extractLsb' 0 8
  let detail := (getD 0 w.record 0).extractLsb' 8 8
  pc.extractLsb' 18 14 ≠ 0 || codes < (pc.extractLsb' 10 8).toNat
    || (st.getLsbD 0 && pc.extractLsb' 0 10 ≠ 1023#10)
    || 4 < (st.extractLsb' 4 3).toNat || 2 < levels
    || (List.range levels).any badLevel
    || wb % 4 ≠ 0 || regs < wb + 4
    || (st.getLsbD 10 && wbase.any (wb ≠ ·))
    || (kind = 1 && detail = 1 && pc = getD 0 w.record 6)

/-- The checks of `hret` for one lane that is not killed (R303). -/
def hretFails (s : State) (h : Here) (w : Wave) (l : Nat) : Bool := recordFails h.l.codeCount h.R (some (s.thread (h.tk l)).wbase) w l

/-- Restore one lane from its block (R303). -/
def restoreLane (w : Wave) (l : Nat) (t : Thread) : Thread :=
  let st := laneWord w l 2
  let level := fun k : Nat => ({ start := (laneWord w l (8 + 2 * k)).extractLsb' 0 10, stop := (laneWord w l (8 + 2 * k)).extractLsb' 16 10, count := laneWord w l (9 + 2 * k) } : Loop)
  { t with
    depth := (st.extractLsb' 4 3).toNat
    y0 := laneWord w l 4, y1 := laneWord w l 5, y2 := laneWord w l 6, y3 := laneWord w l 7
    loops := (List.range (st.extractLsb' 2 2).toNat).map level
    wbase := ((laneWord w l 3).extractLsb' 0 7).toNat
    shadow := ((List.range 16).map (fun k => (k, laneWord w l (16 + k)))).filter (fun p => p.2 ≠ 0)
    hregs := [], killed := false }

/-- The lane's thread no longer stands in the wait that its trap interrupted: it resumes elsewhere. -/
def Thread.unwait (t : Thread) : Thread := { t with done := false, inBar := false, inTbar := false }

/-- A lane resumes at another place than the one at which its trap found it (R303). -/
def movesOn (w : Wave) (l : Nat) (t : Thread) : Bool := laneWord w l 0 ≠ t.stood || (laneWord w l 2).getLsbD 0

/-- Restore the hand-off cells of one lane from its block. -/
def restoreCells (w : Wave) (l : Nat) (g : Group) : Group :=
  (List.range 16).foldl (fun g c =>
    { g with cells := put 0 g.cells (16 * l + c) (laneWord w l (48 + c))
             cellFull := put false g.cellFull (16 * l + c) ((laneWord w l 3).getLsbD (16 + c)) }) g

/-- Mark a group whose last threads were killed (R303): it ends without a phase record and its launch completes with status 5. -/
def State.markKilled (s : State) (gk : Nat) : State :=
  match s.group gk with
  | none => s
  | some g =>
    if (List.range (32 * (s.launch g.launch).waves)).all (fun t => (s.thread (128 * gk + t)).ended) then
      s.modLaunch g.launch (fun l => { l with dead := if l.dead.contains g.gid then l.dead else g.gid :: l.dead, failed := true })
    else s

/-- Leave handler mode or a hold for every lane of tr.parent (R303). A numeric-event trap that is due is then taken for the resumed
lanes (R296). A waiting `wne` counts its timeout from here on (log 67). -/
def State.leaveTrap (s : State) (h : Here) : State :=
  let w := s.wave h.wk
  let parent := getD 0 w.record 1
  let lanes := lanesOf parent
  let live := lanes.filter (fun l => !(s.thread (h.tk l)).killed)
  if live.any (hretFails s h w) then s.doubleTrap h
  else
    let away := w.frags.filter (fun f => f.mode ≠ .user)
    let nev := away.foldl (fun m f => m ||| f.nev) 0
    let phw := (away.map (·.phw)).foldl Nat.max 0
    let s1 := lanes.foldl (fun s l => s.modThread (h.tk l) (fun t =>
      if t.killed then { t with ended := true, killed := false, isOpen := false, hregs := [], loops := [], depth := 0 }
      else if movesOn w l t then (restoreLane w l t).unwait else restoreLane w l t)) s
    let s2 := s1.modGroup h.gk (fun g => live.foldl (fun g l => restoreCells w l g) g)
    let now := s.now h
    let base : Frag :=
      { lanes := 0, pc := { seg := 0, off := 0 }, past := false, mode := .user, wait := .none, xfer := (getD 0 w.record 11).toNat,
        t0 := now, retired := now, since := s.sinceNow h, after := none, nev := 0, phw := phw }
    let split := fun ls => splitLanes base (fun l => (CodeAddr.of (laneWord w l 0), (laneWord w l 2).getLsbD 0)) ls []
    let bars := live.filter (fun l => (s2.thread (h.tk l)).inBar)
    let tbars := live.filter (fun l => (s2.thread (h.tk l)).inTbar)
    let others := live.filter (fun l => !(s2.thread (h.tk l)).inBar && !(s2.thread (h.tk l)).inTbar)
    let parts := (split others).map (fun f =>
      { f with wait := if (lanesOf f.lanes).any (fun l => (s2.thread (h.tk l)).done) then .access else .none
               xfer := if f.pc.word = getD 0 w.record 6 then f.xfer else 0 })
      ++ (split bars).map (fun f => { f with wait := .barrier, xfer := 0 }) ++ (split tbars).map (fun f => { f with wait := .tbarrier, xfer := 0 })
    let s3 := s2.modWave h.wk (fun w => { w with tkind := 0, record := [], frags := w.frags.filter (fun f => f.mode = .user) ++ parts })
    let s4 := if live.length = lanes.length then s3 else s3.markKilled h.gk
    match live with
    | [] => s4
    | l :: _ => if nev = 0 then s4
      else
        let h1 := { h with frag := { h.frag with mode := .user, xfer := if laneWord w l 0 = getD 0 w.record 6 then base.xfer else 0, phw := phw, fence := none } }
        s4.takeTrapOf h1 { h1.cause kNumeric 0 with fault := maskOf live, code := nev.setWidth 32 } (maskOf live) (CodeAddr.of (laneWord w l 0)) 0

end Sys2Proof.Machine
end

