-- ==== Sys2Proof/Machine/Flags.lean ====
section
/-! DEFINITION. The machine's flags: the eight classes of numeric events that an instruction raises in its lanes (R102). -/

namespace Sys2Proof.Machine

/-- The event classes that one lane raises: bit k for class k (R102). -/
abbrev Ev := BitVec 8

/-- No class. -/
def evNone : Ev := 0
/-- Class 0: invalid operation. -/
def evInvalid : Ev := 1
/-- Class 1: division by zero. -/
def evDivZero : Ev := 2
/-- Class 2: overflow. -/
def evOver : Ev := 4
/-- Class 3: underflow. -/
def evUnder : Ev := 8
/-- Class 4: NaN operand. -/
def evNan : Ev := 16
/-- Class 5: saturation. -/
def evSat : Ev := 32
/-- Class 6: integer overflow. -/
def evIntOver : Ev := 64
/-- Class 7: scale fault. -/
def evScale : Ev := 128

/-- `e` if `b`, else none. -/
def evIf (b : Bool) (e : Ev) : Ev := if b then e else 0

/-- Number of items of a list that raise each class, classes of count 0 left out (R102). -/
def countEvents (es : List Ev) : SMap Nat :=
  ((List.range 8).map (fun k => (k, (es.filter (fun e => e.getLsbD k)).length))).filter (fun p => p.2 ≠ 0)

/-- The events of an instruction: each class counts the active lanes that raise it (R102). -/
def Here.laneEvents (h : Here) (f : Nat → Ev) : SMap Nat := countEvents (h.lanes.map f)

/-- Add two event counts. -/
def addEvents (a b : SMap Nat) : SMap Nat := b.foldl (fun m p => put 0 m p.1 (getD 0 m p.1 + p.2)) a

end Sys2Proof.Machine
end

