-- ==== Sys2Proof/Machine/Numeric.lean ====
section
/-! DEFINITION. Number formats, exact values and the device's one rounding (04, R85-R98), the real functions of R101 and R122, and the
draws of R100 and R101. -/

namespace Sys2Proof.Machine

/-! ## Formats and exact values -/

/-- A floating-point element format (R85): `max` is its largest finite magnitude code. -/
structure Fmt where
  width : Nat
  ebits : Nat
  mbits : Nat
  bias : Nat
  max : Nat
  inf : Bool
  /-- The canonical NaN code of the format, none where it has no NaN. -/
  nan : Option Nat
  deriving DecidableEq, Repr

def f32 : Fmt := { width := 32, ebits := 8, mbits := 23, bias := 127, max := 0x7F7FFFFF, inf := true, nan := some 0x7FC00000 }
/-- Bits 31:13 of the container (R85). -/
def e8m10 : Fmt := { width := 19, ebits := 8, mbits := 10, bias := 127, max := 0x3FBFF, inf := true, nan := some 0x3FE00 }
def bf16 : Fmt := { width := 16, ebits := 8, mbits := 7, bias := 127, max := 0x7F7F, inf := true, nan := some 0x7FC0 }
def f16 : Fmt := { width := 16, ebits := 5, mbits := 10, bias := 15, max := 0x7BFF, inf := true, nan := some 0x7E00 }
def e5m2 : Fmt := { width := 8, ebits := 5, mbits := 2, bias := 15, max := 0x7B, inf := true, nan := some 0x7E }
def e4m3 : Fmt := { width := 8, ebits := 4, mbits := 3, bias := 7, max := 0x7E, inf := false, nan := some 0x7F }
def e3m4 : Fmt := { width := 8, ebits := 3, mbits := 4, bias := 3, max := 0x7E, inf := false, nan := some 0x7F }
def e3m2 : Fmt := { width := 6, ebits := 3, mbits := 2, bias := 3, max := 0x1F, inf := false, nan := none }
def e2m3 : Fmt := { width := 6, ebits := 2, mbits := 3, bias := 1, max := 0x1F, inf := false, nan := none }
def e2m1 : Fmt := { width := 4, ebits := 2, mbits := 1, bias := 1, max := 0x7, inf := false, nan := none }
/-- UE5M3 scales, without a sign (R88). -/
def ue5m3 : Fmt := { width := 8, ebits := 5, mbits := 3, bias := 15, max := 0xFE, inf := false, nan := some 0xFF }

/-- An exact value: a NaN (signalling or not), an infinity, or `(-1)^neg × m × 2^e`, signed zeros included. -/
inductive Val
  | nan (sig : Bool)
  | inf (neg : Bool)
  | fin (neg : Bool) (m : Nat) (e : Int)
  deriving DecidableEq, Repr

/-- Decode(c, fmt) (R86). -/
def Fmt.decode (f : Fmt) (c : Nat) : Val :=
  let body := c % 2 ^ (f.ebits + f.mbits)
  let neg := c / 2 ^ (f.ebits + f.mbits) % 2 = 1
  let m := body % 2 ^ f.mbits
  let e := body / 2 ^ f.mbits
  if f.max < body then (if f.inf && m = 0 then .inf neg else .nan (f.inf && m / 2 ^ (f.mbits - 1) % 2 = 0))
  else if e = 0 then .fin neg m (1 - f.bias - f.mbits)
  else .fin neg (2 ^ f.mbits + m) (e - f.bias - f.mbits)

def Val.isNan : Val → Bool | .nan _ => true | _ => false
def Val.isSig : Val → Bool | .nan g => g | _ => false
def Val.isInf : Val → Bool | .inf _ => true | _ => false
def Val.isZero : Val → Bool | .fin _ m _ => m = 0 | _ => false
/-- The sign. -/
def Val.neg : Val → Bool | .nan _ => false | .inf n => n | .fin n _ _ => n
/-- Negation. -/
def Val.flip : Val → Val | .nan g => .nan g | .inf n => .inf (!n) | .fin n m e => .fin (!n) m e
/-- The magnitude. -/
def Val.abs : Val → Val | .nan g => .nan g | .inf _ => .inf false | .fin _ m e => .fin false m e
/-- A signed integer as a value. -/
def Val.ofInt (i : Int) : Val := .fin (i < 0) i.natAbs 0

/-- Rounding directions (R94, R124). -/
inductive RMode | rn | rz | dn | up
  deriving DecidableEq, Repr

/-- Round `m / 2^k` to an integer, for a value of sign `neg` (R94). -/
def roundShift (mode : RMode) (neg : Bool) (m k : Nat) : Nat :=
  let q := m >>> k
  let r := m % 2 ^ k
  match mode with
  | .rz => q
  | .dn => if neg && r ≠ 0 then q + 1 else q
  | .up => if !neg && r ≠ 0 then q + 1 else q
  | .rn => if 2 ^ k < 2 * r || (2 * r = 2 ^ k && r ≠ 0 && q % 2 = 1) then q + 1 else q

/-- The code of a sign and a magnitude code. -/
def Fmt.signed (f : Fmt) (neg : Bool) (body : Nat) : Nat := if neg then 2 ^ (f.ebits + f.mbits) + body else body

/-- Round(x, fmt) (R94) for `x = (-1)^neg × m × 2^e`: the code and its events. -/
def Fmt.roundFin (f : Fmt) (mode : RMode) (neg : Bool) (m : Nat) (e : Int) : Nat × Ev :=
  if m = 0 then (f.signed neg 0, evNone)
  else
    let top : Int := Nat.log2 m + e
    let emin : Int := 1 - f.bias
    let ee := if top < emin then emin else top
    let sh : Int := ee - f.mbits
    let k := (sh - e).toNat
    let y := if e < sh then roundShift mode neg m k else m <<< (e - sh).toNat
    let exact := !(e < sh) || m % 2 ^ k = 0
    let code := (ee - emin).toNat * 2 ^ f.mbits + y
    if f.max < code then (if f.inf then (f.signed neg (f.max + 1), evOver) else (f.signed neg f.max, evSat))
    else (f.signed neg code, evIf (top < emin && !exact) evUnder)

/-- Encode(x, fmt) for the float formats (R95). -/
def Fmt.encode (f : Fmt) (mode : RMode) : Val → Nat × Ev
  | .nan _ => match f.nan with | some c => (c, evNone) | none => (0, evInvalid)
  | .inf n => if f.inf then (f.signed n (f.max + 1), evNone) else (f.signed n f.max, evSat)
  | .fin n m e => f.roundFin mode n m e

/-- Encode(x, ue5m3) (R95). -/
def encodeScale : Val → Nat × Ev
  | .nan _ => (0xFF, evInvalid)
  | .inf n => (if n then 0 else 0xFE, evSat)
  | .fin n m e => if n && m ≠ 0 then (0, evSat)
    else if (if 0 ≤ e then 114688 < m <<< e.toNat else 114688 <<< (-e).toNat < m) then (0xFE, evSat) else ue5m3.roundFin .rn false m e

/-- A value rounded to an integer. -/
def Val.toInt (mode : RMode) : Val → Int
  | .fin n m e =>
    let a : Nat := if e < 0 then roundShift mode n m (-e).toNat else m <<< e.toNat
    if n then -(a : Int) else a
  | _ => 0

/-- Encode(x, target) for an integer target of range `lo` to `hi` (R95). -/
def encodeInt (lo hi : Int) : Val → Int × Ev
  | .nan _ => (0, evInvalid)
  | .inf n => (if n then lo else hi, evSat)
  | .fin n m e =>
    let i := (Val.fin n m e).toInt .rn
    if i < lo then (lo, evSat) else if hi < i then (hi, evSat) else (i, evNone)

/-! ## Exact sums and products -/

/-- The value over the common exponent `e0`. -/
def Val.over (e0 : Int) : Val → Int
  | .fin n m e => if n then -((m <<< (e - e0).toNat : Nat) : Int) else ((m <<< (e - e0).toNat : Nat) : Int)
  | _ => 0
/-- The exponent of a finite value. -/
def Val.expo : Val → Int | .fin _ _ e => e | _ => 0
/-- The least exponent among finite values. -/
def minExpo : List Val → Int
  | [] => 0
  | [v] => v.expo
  | v :: r => min v.expo (minExpo r)

/-- The exact sum, with the rules of R97 and R116 for special values: an invalid event for infinities of both signs; a zero sum is
-0 only if every addend is -0. -/
def sumVals (vs : List Val) : Val × Ev :=
  if vs.any Val.isNan then (.nan false, evNone)
  else if vs.any (fun v => v == .inf false) && vs.any (fun v => v == .inf true) then (.nan false, evInvalid)
  else match vs.find? Val.isInf with
    | some v => (v, evNone)
    | none =>
      let e0 := minExpo vs
      let t := (vs.map (Val.over e0)).foldl (· + ·) 0
      if t = 0 then (.fin (vs.all Val.neg) 0 0, evNone) else (.fin (t < 0) t.natAbs e0, evNone)

/-- The exact product; infinity times 0 is a NaN with an invalid event (R97, R116). -/
def mulVals : Val → Val → Val × Ev
  | .nan _, _ => (.nan false, evNone)
  | _, .nan _ => (.nan false, evNone)
  | .inf n, v => if v.isZero then (.nan false, evInvalid) else (.inf (n != v.neg), evNone)
  | v, .inf n => if v.isZero then (.nan false, evInvalid) else (.inf (n != v.neg), evNone)
  | .fin n m e, .fin n' m' e' => (.fin (n != n') (m * m') (e + e'), evNone)

/-- Strict order of values that are not NaNs; -0 lies below +0 (R117, R121). -/
def Val.below : Val → Val → Bool
  | .nan _, _ => false
  | _, .nan _ => false
  | .inf n, v => n && v != .inf true
  | v, .inf n => !n && v != .inf false
  | .fin n m e, .fin n' m' e' =>
    let e0 := min e e'
    let x := (Val.fin n m e).over e0
    let y := (Val.fin n' m' e').over e0
    x < y || (m = 0 && m' = 0 && n && !n')

/-- Equality of values that are not NaNs, +0 = -0 (R118). -/
def Val.same (a b : Val) : Bool := !a.isNan && !b.isNan && ((a.isZero && b.isZero) || (!a.below b && !b.below a))

/-- A quotient of finite values as `m × 2^e` whose last bit stands for what lies below it; `y` is not 0. -/
def quotient (neg : Bool) (m : Nat) (e : Int) (m' : Nat) (e' : Int) : Val :=
  let n := m <<< 96
  .fin neg (2 * (n / m') + (if n % m' = 0 then 0 else 1)) (e - e' - 97)

/-- Integer square root by digits, `k` digits. -/
def isqrt (n : Nat) : Nat → Nat → Nat
  | 0, r => r
  | k + 1, r => let t := r + 2 ^ k; isqrt n k (if t * t ≤ n then t else r)

/-- The square root of `m × 2^e`, its last bit standing for what lies below it. -/
def rootVal (m : Nat) (e : Int) : Val :=
  let k : Nat := if (e % 2 = 0) then 96 else 97
  let n := m <<< k
  let r := isqrt n 80 0
  .fin false (2 * r + (if r * r = n then 0 else 1)) ((e - k) / 2 - 1)

/-- The reciprocal square root of `m × 2^e`, `m` not 0. -/
def recipRoot (m : Nat) (e : Int) : Val :=
  let (m, e) := if e % 2 = 0 then (m, e) else (2 * m, e - 1)
  let n := 2 ^ 160 / m
  let r := isqrt n 81 0
  .fin false (2 * r + (if r * r * m = 2 ^ 160 then 0 else 1)) (-(e / 2) - 81)

/-! ## Real functions, by intervals of 2^-200 (log 10) -/

/-- Fraction bits of the fixed-point numbers below. -/
def fixBits : Nat := 200
/-- How far a computed number may lie from the real one, in units of 2^-200. -/
def fixSlack : Nat := 4096

/-- `ln((n + d) / (d + d - n + d))`-style series: `ln((1 + z) / (1 - z)) = 2 Σ z^(2j+1) / (2j+1)` for `z = p / q`, 0 ≤ z ≤ 1/3. -/
def fixLnOf (p q : Nat) : Nat :=
  let z := p * 2 ^ fixBits / q
  let z2 := z * z / 2 ^ fixBits
  2 * ((List.range 70).foldl (fun (acc : Nat × Nat) j => (acc.1 + acc.2 / (2 * j + 1), acc.2 * z2 / 2 ^ fixBits)) (0, z)).1
/-- `ln 2`. -/
def fixLn2 : Nat := fixLnOf 1 3
/-- `ln(m / 2^k)` for `2^k ≤ m < 2^(k+1)`. -/
def fixLnMant (m k : Nat) : Nat := fixLnOf (m - 2 ^ k) (m + 2 ^ k)
/-- `2^(x / 2^200)` for `0 ≤ x < 2^200`. -/
def fixExp2 (x : Nat) : Nat :=
  let y := x * fixLn2 / 2 ^ fixBits
  ((List.range 60).foldl (fun (acc : Nat × Nat) j => (acc.1 + acc.2, acc.2 * y / ((j + 1) * 2 ^ fixBits))) (0, 2 ^ fixBits)).1

/-- Round a positive or negative real that lies within the slack of `x × 2^e`; `open'` is the answer where the interval does not
settle it, with the events that its ends agree on, or those of an infinite answer. -/
def roundNear (x : Int) (e : Int) (open' : Word) : Word × Ev :=
  let lo := x - fixSlack
  let hi := x + fixSlack
  let r := fun i : Int => f32.roundFin .rn (i < 0) i.natAbs e
  if 0 < lo || hi < 0 then
    (if r lo = r hi then (wd (r lo).1, (r lo).2)
    else (open', if (r lo).2 = (r hi).2 then (r lo).2 else evIf (f32.decode open'.toNat).isInf evOver))
  else (open', evNone)

/-- `fexp2` of a finite value (R122). -/
def exp2Fin (a : Word) (neg : Bool) (m : Nat) (e : Int) : Word × Ev :=
  let v := Val.fin neg m e
  let i := v.toInt .dn
  if 128 ≤ i then (0x7F800000, evOver)
  else if i < -151 then (0, evUnder)
  else if (v.same (Val.ofInt i)) then (let r := f32.roundFin .rn false 1 i; (wd r.1, r.2))
  else
    -- the fraction `a - i` in units of 2^-200; a magnitude below 2^-149 does not occur
    let frac := (v.over (-200)) - i * 2 ^ fixBits
    roundNear (fixExp2 frac.toNat) (i - fixBits) (Config.openReal false a)

/-- `flog2` of a positive finite value (R122). -/
def log2Fin (a : Word) (m : Nat) (e : Int) : Word × Ev :=
  let k := Nat.log2 m
  let n : Int := k + e
  if m = 2 ^ k then (let r := f32.encode .rn (Val.ofInt n); (wd r.1, r.2))
  else roundNear (n * 2 ^ fixBits + (fixLnMant m k * 2 ^ fixBits / fixLn2 : Nat)) (-fixBits) (Config.openReal true a)

/-- `ln(j / 2^24) ≤ a` for `1 ≤ j ≤ 2^24` and a finite `a` (R101). -/
def lnBelow (j : Nat) (a : Word) (neg : Bool) (m : Nat) (e : Int) : Bool :=
  if j = 2 ^ 24 then !(neg && m ≠ 0)
  else
    let k := Nat.log2 j
    let x : Int := (fixLnMant j k : Int) - (24 - k : Nat) * (fixLn2 : Int)
    let av := (Val.fin neg m e).over (-(fixBits : Int))
    if x + fixSlack * 32 ≤ av then true else if av < x - fixSlack * 32 then false else Config.openLn j a

/-! ## Draws -/

/-- The numerator of Draw over 2^24 (R100). -/
def drawOf (bead : Word) : Nat := (bead >>> 8).toNat + 1

/-- Draw as FP32 (R100). -/
def drawWord (bead : Word) : Word := wd (f32.roundFin .rn false (drawOf bead) (-24)).1

/-- The decision of `accept` for a draw and a log ratio (R101). -/
def acceptTest (bead a : Word) : Bool :=
  match f32.decode a.toNat with
  | .nan _ => false
  | .inf n => !n
  | .fin n m e => lnBelow (drawOf bead) a n m e

/-! ## Vector arithmetic -/

/-- Events of NaN operands (R89, R102). -/
def nanEvents (vs : List Val) : Ev := evIf (vs.any Val.isNan) evNan ||| evIf (vs.any Val.isSig) evInvalid

/-- Round an exact result once, adding its events. -/
def Fmt.finish (f : Fmt) (ops : List Val) (r : Val × Ev) : Nat × Ev :=
  let y := f.encode .rn r.1
  (y.1, nanEvents ops ||| r.2 ||| y.2)

/-- `A + B` (R116). -/
def Fmt.add (f : Fmt) (a b : Nat) : Nat × Ev :=
  f.finish [f.decode a, f.decode b] (sumVals [f.decode a, f.decode b])
/-- `A - B` (R116). -/
def Fmt.sub (f : Fmt) (a b : Nat) : Nat × Ev :=
  f.finish [f.decode a, f.decode b] (sumVals [f.decode a, (f.decode b).flip])
/-- `A × B` (R116). -/
def Fmt.mul (f : Fmt) (a b : Nat) : Nat × Ev :=
  f.finish [f.decode a, f.decode b] (mulVals (f.decode a) (f.decode b))
/-- `A × B + C`, or `C - A × B` (R116). -/
def Fmt.fma (f : Fmt) (negate : Bool) (a b c : Nat) : Nat × Ev :=
  let p := mulVals (f.decode a) (f.decode b)
  let t := sumVals [if negate then p.1.flip else p.1, f.decode c]
  f.finish [f.decode a, f.decode b, f.decode c] (t.1, p.2 ||| t.2)
/-- `fmin` and `fmax` (R117). -/
def Fmt.pick (f : Fmt) (largest : Bool) (a b : Nat) : Nat × Ev :=
  let x := f.decode a
  let y := f.decode b
  let r := if x.isNan && y.isNan then f.nan.getD 0 else if x.isNan then b else if y.isNan then a
    else if largest then (if x.below y then b else a) else (if y.below x then b else a)
  (r, nanEvents [x, y])

/-- A binary32 function of two words. -/
def fp2 (f : Nat → Nat → Nat × Ev) (a b : Word) : Word × Ev := let r := f a.toNat b.toNat; (wd r.1, r.2)

/-- A value that is written as binary32. -/
def fpVal (ops : List Val) (r : Val × Ev) : Word × Ev := let y := f32.finish ops r; (wd y.1, y.2)

/-- Comparison result with the events of R118: `quiet` says that only a signalling NaN is invalid. -/
def fpTest (quiet : Bool) (a b : Word) (p : Val → Val → Bool) : Word × Ev :=
  let x := f32.decode a.toNat
  let y := f32.decode b.toNat
  (flagWord (p x y), nanEvents [x, y] ||| evIf (!quiet && (x.isNan || y.isNan)) evInvalid)

/-- The class word of R119. -/
def fpClass (a : Word) : Word :=
  match f32.decode a.toNat with
  | .nan g => if g then bit 8 else bit 9
  | .inf n => if n then bit 0 else bit 7
  | .fin n m e =>
    if m = 0 then (if n then bit 3 else bit 4)
    else if m < 2 ^ 23 && e = -149 then (if n then bit 2 else bit 5)
    else (if n then bit 1 else bit 6)

/-- `faddmin` (R121). -/
def fpAddMin (dv a b : Word) : Word × Ev :=
  let x := f32.decode a.toNat
  let y := f32.decode b.toNat
  let z := f32.decode dv.toNat
  let t := sumVals [x, y]
  let ev := nanEvents [x, y, z] ||| t.2
  let chosen := f32.encode .rn t.1
  if t.1.isNan then (if z.isNan then 0x7FC00000 else dv, ev)
  else if z.isNan || t.1.below z then (wd chosen.1, ev ||| chosen.2)
  else (dv, ev)

/-- `fsqrt` (R122). -/
def fpSqrt (a : Word) : Word × Ev :=
  let x := f32.decode a.toNat
  fpVal [x] (match x with
    | .nan g => (.nan g, evNone)
    | .inf n => if n then (.nan false, evInvalid) else (.inf false, evNone)
    | .fin n m e => if m = 0 then (.fin n 0 0, evNone) else if n then (.nan false, evInvalid) else (rootVal m e, evNone))

/-- `frsq` (R122). -/
def fpRsq (a : Word) : Word × Ev :=
  let x := f32.decode a.toNat
  fpVal [x] (match x with
    | .nan g => (.nan g, evNone)
    | .inf n => if n then (.nan false, evInvalid) else (.fin false 0 0, evNone)
    | .fin n m e => if m = 0 then (.inf n, evDivZero) else if n then (.nan false, evInvalid) else (recipRoot m e, evNone))

/-- `A / B` (R122). -/
def fpDivVals : Val → Val → Val × Ev
  | .nan _, _ => (.nan false, evNone)
  | _, .nan _ => (.nan false, evNone)
  | .inf n, v => if v.isInf then (.nan false, evInvalid) else (.inf (n != v.neg), evNone)
  | v, .inf n => (.fin (n != v.neg) 0 0, evNone)
  | .fin n m e, .fin n' m' e' =>
    if m' = 0 then (if m = 0 then (.nan false, evInvalid) else (.inf (n != n'), evDivZero))
    else if m = 0 then (.fin (n != n') 0 0, evNone) else (quotient (n != n') m e m' e', evNone)

/-- `fdiv` (R122). -/
def fpDiv (a b : Word) : Word × Ev :=
  let x := f32.decode a.toNat
  let y := f32.decode b.toNat
  fpVal [x, y] (fpDivVals x y)

/-- `frcp` (R122). -/
def fpRcp (a : Word) : Word × Ev :=
  let x := f32.decode a.toNat
  fpVal [x] (fpDivVals (.fin false 1 0) x)

/-- `fexp2` (R122). -/
def fpExp2 (a : Word) : Word × Ev :=
  match f32.decode a.toNat with
  | .nan g => (0x7FC00000, nanEvents [.nan g])
  | .inf n => (if n then 0 else 0x7F800000, evNone)
  | .fin n m e => exp2Fin a n m e

/-- `flog2` (R122). -/
def fpLog2 (a : Word) : Word × Ev :=
  match f32.decode a.toNat with
  | .nan g => (0x7FC00000, nanEvents [.nan g])
  | .inf n => if n then (0x7FC00000, evInvalid) else (0x7F800000, evNone)
  | .fin n m e => if m = 0 then (0xFF800000, evDivZero) else if n then (0x7FC00000, evInvalid) else log2Fin a m e

/-- Round to an integral binary32 value (R124). -/
def fpRint (mode : RMode) (a : Word) : Word × Ev :=
  match f32.decode a.toNat with
  | .nan g => (0x7FC00000, nanEvents [.nan g])
  | .inf _ => (a, evNone)
  | .fin n m e =>
    if 0 ≤ e then (a, evNone)
    else (wd (f32.roundFin .rn n ((Val.fin n m e).toInt mode).natAbs 0).1, evNone)

/-- A binary32 value as an integer of a range (R123). -/
def fpToInt (lo hi : Int) (a : Word) : Word × Ev :=
  let v := f32.decode a.toNat
  let r := encodeInt lo hi v
  (BitVec.ofInt 32 r.1, nanEvents [v] ||| r.2)

/-- An integer as binary32 (R123). -/
def intToFp (mode : RMode) (i : Int) : Word := wd (f32.encode mode (Val.ofInt i)).1

/-- The low or high half of a word. -/
def half (w : Word) (high : Bool) : Nat := (if high then w.extractLsb' 16 16 else w.extractLsb' 0 16).toNat
/-- A word of two halves. -/
def halves (lo hi : Nat) : Word := BitVec.ofNat 16 hi ++ BitVec.ofNat 16 lo

/-- Narrow two binary32 values to a 16-bit format (R125). -/
def narrow2 (f : Fmt) (a b : Word) : Word × Ev :=
  let x := f32.decode a.toNat
  let y := f32.decode b.toNat
  let p := f.encode .rn x
  let q := f.encode .rn y
  (halves p.1 q.1, nanEvents [x, y] ||| p.2 ||| q.2)

/-- Widen a half to binary32 (R125). -/
def widen (f : Fmt) (high : Bool) (a : Word) : Word × Ev :=
  let x := f.decode (half a high)
  (wd (f32.encode .rn x).1, nanEvents [x])

/-- A packed operation of two operands (R126). -/
def packed2 (f : Nat → Nat → Nat × Ev) (a b : Word) : Word × Ev :=
  let p := f (half a false) (half b false)
  let q := f (half a true) (half b true)
  (halves p.1 q.1, p.2 ||| q.2)

/-- A packed fused multiply-add (R126). -/
def packed3 (f : Fmt) (dv a b : Word) : Word × Ev :=
  let p := f.fma false (half a false) (half b false) (half dv false)
  let q := f.fma false (half a true) (half b true) (half dv true)
  (halves p.1 q.1, p.2 ||| q.2)

end Sys2Proof.Machine
end

