-- ==== Sys2Proof/Machine/Translate.lean ====
section
/-! DEFINITION. DRAM with its line tags, firmware's tables, translation, buffer records and Locate (07, 20). -/

namespace Sys2Proof.Machine

/-! ## DRAM -/

/-- A write replaces a byte: a line with an error is corrected once every byte of it has been replaced (R312). -/
def mendByte (m : SMap (BitVec 128)) (a : Nat) : SMap (BitVec 128) :=
  match find m (lineOf a) with
  | none => m
  | some v => put 0 m (lineOf a) (v &&& ~~~(1#128 <<< (a % 128)))
/-- The byte and tag part of a write. The bytes of a line that carried another key id read as zero (R344, log 16), which replaces the whole
line. -/
def State.putDram (s : State) (key a : Nat) (v : Byte) : State :=
  if getD 0 s.tags (lineOf a) = key then { s with dram := put 0 s.dram a v, bad := mendByte s.bad a }
  else { s with tags := put 0 s.tags (lineOf a) key, dram := put 0 (dropRange s.dram (128 * lineOf a) (128 * lineOf a + 128)) a v, bad := erase s.bad (lineOf a) }
/-- A racing write's byte that a write of `a` with a key id replaces for every agent: that byte, or every byte of a line of another key id. -/
def State.replaces (s : State) (key a : Nat) (r : Race) : Bool :=
  match r.loc with
  | .dram b => if getD 0 s.tags (lineOf a) = key then b = a else lineOf b = lineOf a
  | _ => false
/-- Write one byte and its line's tag: every agent sees it. -/
def State.setDram (s : State) (key a : Nat) (v : Byte) : State :=
  { s.putDram key a v with races := s.races.filter (fun r => !s.replaces key a r) }
/-- Write bytes from `a` up. -/
def State.setDramBytes (s : State) (key a : Nat) : List Byte → State
  | [] => s
  | v :: r => (s.setDram key a v).setDramBytes key (a + 1) r
/-- The line of a byte holds an uncorrectable error (R312). -/
def State.isBad (s : State) (a : Nat) : Bool := (find s.bad (lineOf a)).isSome
/-- A read by an agent of a key id meets the error; a line of another key id raises none (R344). -/
def State.badFor (s : State) (key a : Nat) : Bool := s.isBad a && getD 0 s.tags (lineOf a) = key

/-! ## Replaced table entries (R341) -/

/-- A valid table entry with no reserved bit set (R336). -/
def entryForm (e : Nat) : Bool :=
  e.testBit 0 && e / 2 ^ 52 = 0 && e / 2 ^ 8 % 16 = 0 && !e.testBit 2 && (e.testBit 1 || e / 8 % 32 = 0)
/-- A double word is about to be written: the caches that walks have filled with the entry there go on holding it (R341). -/
def State.noteEntry (s : State) (d : Nat) : State :=
  match getD [] s.walks d with
  | [] => s
  | ws => { s with
      held := put [] s.held d (getD [] s.held d ++ ws.map (fun p => (p.1, p.2, s.dramNat p.1 (8 * d) 8)))
      walks := put [] s.walks d [] }
/-- `n` bytes from `a` up are about to be written. -/
def State.noteEntries (s : State) (a n : Nat) : State :=
  if n = 0 then s else (List.range ((a + n - 1) / 8 + 1 - a / 8)).foldl (fun s k => s.noteEntry (a / 8 + k)) s
/-- The replaced entries at a byte address that caches may hold for a core and key id: those that its own walks, or walks of its die, have
read. -/
def State.cachedAt (s : State) (key core a : Nat) : List Nat :=
  if a % 8 = 0 then ((getD [] s.held (a / 8)).filter (fun p => p.1 = key && dieOf p.2.1 = dieOf core)).map (·.2.2) else []

/-! ## Firmware's tables -/

/-- The partition table entry of `p` (R342). -/
def State.partEntry (s : State) (p : Nat) : BitVec 1024 := BitVec.ofNat 1024 (s.dramNat reserveKey (s.mm 128 64 + 128 * p) 128)
/-- A field of a partition table entry. -/
def State.part (s : State) (p lo len : Nat) : Nat := s.dramField reserveKey (s.mm 128 64 + 128 * p) lo len
/-- part.keyid. -/
def State.keyOf (s : State) (p : Nat) : Nat := s.part p 440 8
/-- part.fixed. -/
def State.fixedPart (s : State) (p : Nat) : Bool := s.part p 1 1 = 1
/-- Cores that a partition owns, ascending (R343). -/
def State.coresOf (s : State) (p : Nat) : List Nat := (List.range 1024).filter (fun c => s.owner c = p)
/-- Every cluster of the partition's units is locked and in share mode (R362). -/
def State.steady (s : State) (p : Nat) : Bool :=
  s.owners.all (fun o => o.2 ≠ p || (unitCores o.1).all (fun c => (s.cluster (clusterOf c)).lock && (s.cluster (clusterOf c)).share))
/-- The entry is in use, has no reserved bit set, and keeps R362 if it is fixed-latency (R342). -/
def State.partOk (s : State) (p : Nat) : Bool :=
  p ≤ 62 && s.part p 0 1 = 1 && s.part p 448 6 = 0 && s.part p 3 437 = 0 && (!s.fixedPart p || s.steady p)
/-- A publish entry (R171). -/
def State.pubEntry (s : State) (part p : Nat) : BitVec 256 := BitVec.ofNat 256 (s.dramNat reserveKey (s.part part 576 64 + 32 * (p - 1)) 32)
/-- A publish entry with a reserved bit set, which the device refuses where it is used (R10, R171); the fault is the record fault (log 69). -/
def pubBad (e : BitVec 256) : Bool := e.extractLsb' 193 31 ≠ 0
/-- The node that a device index names (R374): none where the entry is refused. -/
def State.nodeOf (s : State) (part idx : Nat) : Option Nat :=
  let e := s.dramNat reserveKey (s.part part 704 64 + 8 * idx) 8
  if e / 2 ^ 63 = 1 && e / 2 ^ 12 % 2 ^ 51 = 0 then some (e % 2 ^ 12) else none

/-! ## Locations -/

/-- Kinds of access (R299, R339). -/
inductive Access | read | write | fetch | rmw
  deriving DecidableEq, Repr

/-- tr.acc. -/
def Access.code : Access → Nat | .read => 0 | .write => 1 | .fetch => 2 | .rmw => 3
/-- The access writes. -/
def Access.writes : Access → Bool | .write | .rmw => true | _ => false

/-- A byte of scratchpad. -/
def Loc.isPad : Loc → Bool | .chip _ o => o < 0x80000 | _ => false

/-- Granule of a scratchpad byte. -/
def Loc.granule : Loc → Nat | .chip c o => 32768 * c + o / 16 | _ => 0

/-- A fault of Locate: trap kind, detail, address and access kind (R164, R295). -/
structure LocFault where
  kind : Nat
  detail : Nat
  va : BitVec 64
  acc : Access
  deriving DecidableEq, Repr

/-- Who accesses: a thread of a slot, or an engine at its core (R159). -/
structure Actor where
  core : Nat
  slot : Nat
  part : Nat
  engine : Bool
  /-- Under det = 1 the key of its logical core (R326). -/
  det : Option Nat
  /-- The agent of the memory model (R255); the device is ordered after all that has been performed. -/
  agent : Agent := .device
  deriving DecidableEq, Repr

def Here.actor (h : Here) : Actor :=
  { core := h.core, slot := h.slot, part := h.l.part, engine := false, det := if h.l.det then some (1024 * h.g.launch + h.g.lcore) else none }
/-- The thread of a lane as an actor. -/
def Here.lane (h : Here) (l : Nat) : Actor := { h.actor with agent := .thread (h.tk l) }
/-- The active threads as agents. -/
def Here.agents (h : Here) : List Agent := h.lanes.map (fun l => .thread (h.tk l))
/-- An agent is one of the active threads. -/
def Here.owns (h : Here) (a : Agent) : Bool := h.agents.contains a
def Here.engine (h : Here) : Actor := { h.actor with engine := true }

/-! ## Translation -/

/-- An entry of this device's DRAM that a walk of a core uses: the table's, or one that a cache still holds (R341); none on an uncorrectable
error. -/
def State.ownEntry (s : State) (key core a : Nat) : Option Nat :=
  let now := if s.badFor key a then none else some (s.dramNat key a 8)
  match s.cachedAt key core a with
  | [] => now
  | es => (now :: es.map some).getD (Config.heldPick s.fresh (a / 8) % (es.length + 1)) none

/-- The byte of its device that a physical address names (R338). -/
def ownByte (pa : Nat) : Nat := pa % 2 ^ 40

/-- A physical address of a partition: node and byte, none where its device is refused (R339, R374). -/
def State.devByte (s : State) (part pa : Nat) : Option (Nat × Nat) :=
  if pa / 2 ^ 50 ≠ 0 || s.part part 454 10 < pa / 2 ^ 40 % 2 ^ 10 then none
  else (s.nodeOf part (pa / 2 ^ 40 % 2 ^ 10)).map (fun n => (n, pa % 2 ^ 40))

/-- A table entry that a walk reads (R339): cause 5 on an uncorrectable error or a failed connection (R367), 6 where the address of the
table is refused (R374). Entries of another device are free. -/
def State.walkRead (s : State) (who : Actor) (a : Nat) : Except Nat Nat :=
  match s.devByte who.part a with
  | none => .error 6
  | some (n, own) =>
    if n = s.node then (match s.ownEntry (s.keyOf who.part) who.core own with | some e => .ok e | none => .error 5)
    else if Config.remoteFails s.fresh then .error 5
    else .ok (natOf ((List.range 8).map (fun k => Config.remoteByte n (own + k) s.fresh)))

/-- An entry that maps a page of 32 entries at a level (R337). -/
def largeLeaf (lvl e : Nat) : Bool := e.testBit 0 && e.testBit 1 && ((lvl = 0 && e / 8 % 4 = 1) || (lvl = 1 && e / 8 % 4 = 2))

/-- Where the run of 32 aligned entries about index `idx` of a table stands in this device's DRAM, if it does (R337). -/
def State.runAt (s : State) (who : Actor) (t idx : Nat) : Option Nat :=
  match s.devByte who.part (t + 8 * (idx / 32 * 32)) with
  | some (n, own) => if n = s.node then some own else none
  | none => none

/-- The entry that a walk uses at a level of table `t`: the indexed one, or any other of its run of 32 where firmware left the run of a
large page unequal (R337). -/
def State.walkEntry (s : State) (who : Actor) (lvl t idx : Nat) : Except Nat Nat :=
  match s.walkRead who (t + 8 * idx) with
  | .error c => .error c
  | .ok e =>
    if 1 < lvl then .ok e
    else match s.runAt who t idx with
      | none => .ok e
      | some own =>
        let key := s.keyOf who.part
        -- bits 4:0 of an entry say whether it maps a large page
        if !largeLeaf lvl e && (List.range 32).all (fun k => !largeLeaf lvl (s.dramByte key (own + 8 * k)).toNat) then .ok e
        else
          let others := (((List.range 32).map (fun k => s.dramNat key (own + 8 * k) 8)).filter (· ≠ e)).eraseDups
          if others = [] then .ok e else .ok ((e :: others).getD (Config.heldPick s.fresh (t + idx) % (others.length + 1)) e)

/-- Page size of a leaf at a level (R337). -/
def pageSize (lvl size : Nat) : Option Nat :=
  if lvl = 0 && size = 0 then some (2 ^ 16) else if lvl = 0 && size = 1 then some (2 ^ 21) else if lvl = 1 && size = 2 then some (2 ^ 30) else none

/-- The access kind is allowed by a leaf (R336, R339). -/
def leafAllows (e : Nat) : Access → Bool
  | .read => e.testBit 5
  | .write => e.testBit 6
  | .rmw => e.testBit 5 && e.testBit 6
  | .fetch => e.testBit 7

/-- A physical address of a partition as a location; none where it is refused (R339, R374). The stripes between the usable top and the
reserve are not mapped (R169, log 70). -/
def State.physical (s : State) (part pa : Nat) : Option Loc :=
  match s.devByte part pa with
  | none => none
  | some (n, a) =>
    if n = s.node then (if s.usableTop ≤ a then none else some (.dram a))
    else if Config.remoteTop n ≤ a then none else some (.remote n pa)

/-- The checks of R339 on an entry at a level, up to the leaf's page. -/
def State.useEntry (s : State) (part va lvl e : Nat) (acc : Access) : Except Nat (Sum Nat Loc) :=
  if !e.testBit 0 then .error 1
  else if e / 2 ^ 52 ≠ 0 || e / 2 ^ 8 % 16 ≠ 0 || e.testBit 2 || (!e.testBit 1 && e / 8 % 32 ≠ 0) then .error 3
  else
    let addr := e % 2 ^ 52 / 2 ^ 12 * 2 ^ 12
    if !e.testBit 1 then (if lvl = 0 then .error 3 else .ok (.inl addr))
    else match pageSize lvl (e / 8 % 4) with
      | none => .error 3
      | some size =>
        if addr % size ≠ 0 then .error 3
        else if !leafAllows e acc then .error 2
        else match s.physical part (addr + va % size) with
          | none => .error 6
          | some l => .ok (.inr l)

/-- The index of an address in a table of a level (R339). -/
def tableIndex (va lvl : Nat) : Nat := va / 2 ^ (16 + 9 * lvl) % 512

/-- The walk from a table of level `lvl - 1` (R339). -/
def State.walk (s : State) (who : Actor) (va : Nat) (acc : Access) : Nat → Nat → Except Nat Loc
  | 0, _ => .error 3
  | lvl + 1, t =>
    match s.walkEntry who lvl t (tableIndex va lvl) with
    | .error c => .error c
    | .ok e => match s.useEntry who.part va lvl e acc with
      | .error c => .error c
      | .ok (.inl t') => s.walk who va acc lvl t'
      | .ok (.inr l) => .ok l

/-- The addresses of the entries that the walk reads, in order. -/
def State.walkPath (s : State) (who : Actor) (va : Nat) : Nat → Nat → List Nat
  | 0, _ => []
  | lvl + 1, t =>
    (t + 8 * tableIndex va lvl) :: (match s.walkEntry who lvl t (tableIndex va lvl) with
      | .ok e => (match s.useEntry who.part va lvl e .read with | .ok (.inl t') => s.walkPath who va lvl t' | _ => [])
      | .error _ => [])

/-- The double words at which caches hold something. -/
def State.cachedWords (s : State) : List Nat := s.held.map (·.1) ++ s.walks.map (·.1)

/-- The double words at which a walk of `va` by a partition may read an entry, now or from a cache, from tables `ts` of level `lvl - 1`. Of a run of
32 entries the words that `va` does not index count for the large pages of that level alone (R337). Behind a table of another device, whose
entries are free, every word counts. -/
def State.pathWords (s : State) (part va : Nat) : Nat → List Nat → List (Nat × Option Nat)
  | 0, _ => []
  | lvl + 1, ts =>
    let idx := tableIndex va lvl
    let values := fun d => s.dramNat (s.keyOf part) (8 * d) 8 :: ((getD [] s.held d).filter (·.1 = s.keyOf part)).map (·.2.2)
    let places := ts.filterMap (s.devByte part)
    let tables := (places.filter (·.1 = s.node)).map (fun p => p.2 / 8)
    let own := tables.map (· + idx)
    let beside := if 1 < lvl then [] else tables.flatMap (fun t => ((List.range 32).map (fun k => t + (idx / 32 * 32 + k))).filter (· ≠ t + idx))
    let large := fun d => (values d).any (largeLeaf lvl)
    let next := (own ++ (if (own ++ beside).any large then beside else [])).flatMap
      (fun d => ((values d).filter (fun e => entryForm e && !e.testBit 1)).map (fun e => e % 2 ^ 52 / 2 ^ 12 * 2 ^ 12))
    (if places.any (·.1 ≠ s.node) then s.cachedWords.map (fun d => (d, none)) else [])
      ++ own.map (fun d => (d, none)) ++ (beside.filter large).map (fun d => (d, some lvl)) ++ s.pathWords part va lvl next.eraseDups

/-- Caches drop what they hold for a key id at a double word: everything, or the large pages of a level alone. -/
def State.dropCached (s : State) (key d : Nat) (large : Option Nat) : State :=
  let goes := fun e => large.all (fun lvl => largeLeaf lvl e)
  { s with
    held := put [] s.held d ((getD [] s.held d).filter (fun x => !(x.1 = key && goes x.2.2)))
    walks := put [] s.walks d ((getD [] s.walks d).filter (fun x => !(x.1 = key && goes (s.dramNat key (8 * d) 8)))) }

/-- No core of a partition holds a translation, of the page that holds `va` or (`whole`) of any page (R311, R341). -/
def State.invalidate (s : State) (part va : Nat) (whole : Bool) : State :=
  let key := s.keyOf part
  (if whole then s.cachedWords.map (fun d => (d, none))
    else (s.pathWords part va 4 [s.part part 512 64]).filter (fun x => s.cachedWords.contains x.1)).foldl (fun t x => t.dropCached key x.1 x.2) s

/-- Translate(va, kind) by an agent (R339). -/
def State.translate (s : State) (who : Actor) (va : Nat) (acc : Access) : Except Nat Loc :=
  if 2 ^ 52 ≤ va then .error 4 else s.walk who va acc 4 (s.part who.part 512 64)

/-- Translate each byte of `n` bytes on its own page (R339). -/
def State.translateBytes (s : State) (who : Actor) (acc : Access) : Nat → Nat → Except LocFault (List Loc)
  | _, 0 => .ok []
  | va, n + 1 => match s.translate who va acc with
    | .error c => .error { kind := kTrans, detail := c, va := BitVec.ofNat 64 va, acc := acc }
    | .ok l => match s.translateBytes who acc (va + 1) n with
      | .error f => .error f
      | .ok r => .ok (l :: r)

/-! ## Buffer records (R162-R165) -/

def Rec.bits (r : Rec) (lo len : Nat) : Nat := (r.extractLsb' lo len).toNat
def Rec.base (r : Rec) : Nat := r.bits 0 64
def Rec.extent (r : Rec) : Nat := r.bits 64 32
def Rec.rowlen (r : Rec) : Nat := r.bits 96 24
def Rec.fmt (r : Rec) : Nat := r.bits 120 8
def Rec.stride0 (r : Rec) : Int := (r.extractLsb' 128 32).toInt
def Rec.stride1 (r : Rec) : Int := (r.extractLsb' 160 32).toInt
def Rec.bounds (r : Rec) : Nat := r.bits 192 2
def Rec.space (r : Rec) : Nat := r.bits 194 2
def Rec.policy (r : Rec) : Nat := r.bits 196 4
def Rec.publish (r : Rec) : Nat := r.bits 200 16
def Rec.scaleoff (r : Rec) : Nat := r.bits 216 32

/-- Record of a shape slot of a group (R58). -/
def Group.shapeRec (g : Group) (slot : Nat) : Rec :=
  BitVec.ofNat 256 ((List.range 8).foldl (fun a j => a + (getD 0 g.shape (8 * slot + j)).toNat * 2 ^ (32 * j)) 0)

/-- Formats of four and of six bits, and block-scaled formats (R90). -/
def fmt4 (f : Nat) : Bool := f = 0 || f = 1 || f = 9 || f = 10 || f = 19
def fmt6 (f : Nat) : Bool := f = 2 || f = 3
def fmtScaled (f : Nat) : Bool := f = 0 || f = 1 || f = 2 || f = 3 || f = 5 || f = 7 || f = 13 || f = 18 || f = 19
/-- Unit size u (R163). -/
def unitSize (f : Nat) : Nat := if f = 14 || f = 15 then 2 else if f = 16 || f = 17 then 4 else if fmt6 f then 3 else 1
/-- Unit index n of a column (R163). -/
def unitIndex (f col : Nat) : Nat := if fmt4 f then col / 2 else if fmt6 f then col / 4 else col

/-- The record is refused (R165; R91, R92). -/
def State.refused (s : State) (part : Nat) (r : Rec) : Bool :=
  r.bits 248 8 ≠ 0 || r.rowlen = 0 || r.bounds = 3 || r.space = 3 || 19 < r.fmt
    || (fmt4 r.fmt && (r.rowlen % 2 ≠ 0 || r.stride0 ≠ 1)) || (fmt6 r.fmt && (r.rowlen % 4 ≠ 0 || r.stride0 ≠ 3))
    || (fmtScaled r.fmt && r.rowlen % 32 ≠ 0) || 8 ≤ r.policy
    || (r.space = 0 && r.base / 2 ^ 52 ≠ 0) || (r.space = 1 && r.base / 2 ^ 30 ≠ 0) || (r.space = 2 && 32768 < r.base + r.extent)
    || (r.publish ≠ 0 && (r.space ≠ 0 || s.part part 496 16 < r.publish))

/-- Kind of a region offset: its number, start and size (R157). -/
def regionKind (o : Nat) : Nat × Nat × Nat :=
  if o < 0x80000 then (0, 0, 0x80000) else if o < 0xC0000 then (1, 0x80000, 0x40000)
  else if o < 0xE0000 then (2, 0xC0000, 0x20000) else (3, 0xE0000, 0x20000)

/-- An on-chip access of `u` bytes at address `a` passes R159. -/
def State.chipOk (s : State) (who : Actor) (a u : Nat) : Bool :=
  let core := a / 2 ^ 20
  let k := regionKind (a % 2 ^ 20)
  a < 2 ^ 30 && a % 2 ^ 20 + u ≤ k.2.1 + k.2.2 && s.owner core = who.part
    && (who.engine || (k.1 = 0 && clusterOf core = clusterOf who.core))

/-- The logical core of a key, none where the map holds none. -/
def State.lcore (s : State) (k : Nat) : Option LCore := find s.lcores k

/-- A byte of a logical core's own region: offsets of kinds 0 and 1 count logical slots (R326). -/
def State.detByte (s : State) (d o : Nat) : Option Loc :=
  let k := regionKind o
  let size := if k.1 = 0 then 32768 else 16384
  match (s.lcore d).bind (fun c => (find c.slots ((o - k.2.1) / size)).map (fun p => (c.phys, p))) with
  | some (core, p) => some (.chip core (k.2.1 + size * p + (o - k.2.1) % size))
  | none => none

/-- Bytes of the list, none where one is missing. -/
def allSome : List (Option Loc) → Option (List Loc)
  | [] => some []
  | none :: _ => none
  | some l :: r => (allSome r).map (l :: ·)

/-- Bytes of an on-chip access under det = 1 (R326): the trap kind where it is refused. -/
def State.detPlace (s : State) (who : Actor) (d a u : Nat) : Except Nat (List Loc) :=
  let k := regionKind (a % 2 ^ 20)
  if a / 2 ^ 20 ≠ 0 then .error kDet
  else if k.2.1 + k.2.2 < a + u || 1 < k.1 || (!who.engine && k.1 ≠ 0) then .error kMap
  else match allSome ((List.range u).map (fun j => s.detByte d (a + j))) with
    | some ls => .ok ls
    | none => .error kMap

/-- The virtual address at which byte `a` of a space 0 record stands (R172). -/
def State.virtualOf (s : State) (who : Actor) (r : Rec) (a : Nat) (acc : Access) : Nat :=
  if r.publish = 0 then a
  else
    let e := s.pubEntry who.part r.publish
    (if (who.engine && acc.writes) = e.getLsbD 192 then e.extractLsb' 0 64 else e.extractLsb' 64 64).toNat + a

/-- Bytes at address `a` of the record's space, translated and checked, without the bounds mode (R164). The determinism trap of R326 stands where
the map-access check does, lane by lane; R176 gives it no place in its order (DESIGN CHOICE, log 91). -/
def State.place (s : State) (who : Actor) (r : Rec) (a u : Nat) (acc : Access) : Except LocFault (List Loc) :=
  let fault := fun (k : Nat) => Except.error ({ kind := k, detail := 0, va := BitVec.ofNat 64 a, acc := acc } : LocFault)
  let e := s.pubEntry who.part r.publish
  let published := r.space = 0 && r.publish ≠ 0
  if published && pubBad e then fault kRecord
  else if published && (e.extractLsb' 128 64).toNat < a + u then fault kBounds
  else if u ≠ 3 && a % u ≠ 0 then fault kAlign
  else if r.space = 0 then
    if r.publish ≠ 0 && !who.engine && acc.writes then fault kRecord else s.translateBytes who acc (s.virtualOf who r a acc) u
  else if r.space = 1 then
    match who.det with
    | some d => match s.detPlace who d a u with
      | .ok ls => .ok ls
      | .error k => fault k
    | none => if s.chipOk who a u then .ok ((List.range u).map (fun k => .chip (a / 2 ^ 20) (a % 2 ^ 20 + k))) else fault kMap
  else if 32768 < a + u then fault kMap
  else .ok ((List.range u).map (fun k => .chip who.core (32768 * who.slot + a + k)))

/-- Offset of unit `n` of row `row` after the bounds mode (R164): none means that the access does not happen. -/
def Rec.offset (r : Rec) (row n u : Nat) : Except Nat (Option Nat) :=
  let off : Int := n * r.stride0 + row * r.stride1
  if 0 ≤ off ∧ off + u ≤ r.extent then .ok (some off.toNat)
  else if r.bounds = 1 then .ok none
  else if r.bounds = 2 && r.extent ≠ 0 then
    let o := (off % r.extent).toNat
    if r.extent < o + u then .error kBounds else .ok (some o)
  else .error kBounds

/-- The address that an access aims at, before the bounds mode. -/
def Rec.aim (r : Rec) (row n : Nat) : BitVec 64 := BitVec.ofInt 64 (r.base + n * r.stride0 + row * r.stride1)

/-- A byte of the scale side or of the sparse metadata, without the bounds mode (R92, R164, R170). -/
def State.locateSide (s : State) (who : Actor) (r : Rec) (off u : Nat) (acc : Access) : Except LocFault (List Loc) :=
  if s.refused who.part r then .error { kind := kRecord, detail := 0, va := 0, acc := acc }
  else s.place who r (r.base + r.scaleoff + off) u acc

/-- Locate (R164) of the unit at row `row`, unit index `n`; none means that the access does not happen. A thread's write through a
publish record is refused (R172). -/
def State.locateAt (s : State) (who : Actor) (r : Rec) (row n u : Nat) (acc : Access) : Except LocFault (Option (List Loc)) :=
  let fault := fun (k : Nat) => Except.error ({ kind := k, detail := 0, va := if k = kBounds then r.aim row n else 0, acc := acc } : LocFault)
  if s.refused who.part r || (r.publish ≠ 0 && !who.engine && acc.writes) then fault kRecord
  else match r.offset row n u with
    | .error k => fault k
    | .ok none => .ok none
    | .ok (some off) => (s.place who r (r.base + off) u acc).map some

/-- Locate for an element index (R164, R174). -/
def State.locate (s : State) (who : Actor) (r : Rec) (i : Nat) (acc : Access) : Except LocFault (Option (List Loc)) :=
  s.locateAt who r (i / r.rowlen) (unitIndex r.fmt (i % r.rowlen)) (unitSize r.fmt) acc

/-! ## Bytes -/

/-- A byte of a core's region of the on-chip map (R157). -/
def State.chipByte (s : State) (core o : Nat) : Byte :=
  let k := regionKind o
  let w := fun (m : SMap Word) (size : Nat) => (getD 0 m (size * core + (o - k.2.1) / 4)).extractLsb' (8 * (o % 4)) 8
  match k.1 with
  | 0 => getD 0 s.pad (524288 * core + o)
  | 1 => w s.rf 65536
  | 2 => w s.acc 32768
  | _ => w s.istore 32768

/-- A word with one byte replaced. -/
def setByte (w : Word) (k : Nat) (v : Byte) : Word := (w &&& ~~~(255#32 <<< (8 * k))) ||| (v.setWidth 32 <<< (8 * k))

/-- Write a byte of the on-chip map: every agent sees it. -/
def State.setChip (s : State) (core o : Nat) (v : Byte) : State :=
  let k := regionKind o
  let w := fun (m : SMap Word) (size : Nat) =>
    let key := size * core + (o - k.2.1) / 4
    put 0 m key (setByte (getD 0 m key) (o % 4) v)
  match k.1 with
  | 0 => { s with pad := put 0 s.pad (524288 * core + o) v, races := s.races.filter (fun r => r.loc ≠ .chip core o) }
  | 1 => { s with rf := w s.rf 65536 }
  | 2 => { s with acc := w s.acc 32768 }
  | _ => { s with istore := w s.istore 32768 }

/-- The read of a byte of another device that a partition's consumer awaits. -/
def State.askFor (s : State) (part node a : Nat) : Option Ask :=
  s.asks.find? (fun x => x.part = part && x.node = node && x.addr ≤ a && a < x.addr + x.len)

/-- The newest byte that a core's buffered stores hold for an address (R166). -/
def buffered (core a : Nat) : List Buffered → Option Byte
  | [] => none
  | b :: r => match buffered core a r with
    | some v => some v
    | none => if b.core = core && b.addr ≤ a && a < b.addr + b.bytes.length then b.bytes[a - b.addr]? else none

/-- Read a byte as an agent of a core and partition does (R166, R260). -/
def State.readByte (s : State) (who : Actor) : Loc → Byte
  | .dram a => match buffered who.core a s.sbuf with
    | some v => v
    | none => s.dramByte (s.keyOf who.part) a
  | .remote n a => match (s.askFor who.part n a).bind (fun x => x.answer.join.bind (fun bs => bs[a - x.addr]?)) with
    | some v => v
    | none => Config.remoteByte n (ownByte a) s.fresh
  | .chip c o => s.chipByte c o

/-- Read the bytes of a unit, little-endian. -/
def State.readNat (s : State) (who : Actor) (ls : List Loc) : Nat := natOf (ls.map (s.readByte who))

/-- A byte that an agent cannot read: its line holds an uncorrectable error, or the connection that was to bring it has failed (R176, R344, R367).
What the device itself reads it does not await: a free value says whether that fails (log 20). -/
def State.unreadable (s : State) (who : Actor) : Loc → Bool
  | .dram a => s.badFor (s.keyOf who.part) a
  | .remote n a => match s.askFor who.part n a with
    | some x => x.answer = some none
    | none => Config.remoteFails s.fresh
  | .chip _ _ => false

/-- Write bytes of a store at DRAM; a line with an uncorrectable error sends a containment notice (R176, R312). -/
def State.performBytes (s : State) (part key a : Nat) (bs : List Byte) : State :=
  let s1 := (s.noteEntries a bs.length).setDramBytes key a bs
  if (List.range bs.length).any (fun k => s.isBad (a + k)) then s1.contain part a else s1

/-- The first entry of a byte replaces another value: a write goes before it. -/
def patchFirst (l : Loc) (v : Byte) : List Race → List Race
  | [] => []
  | r :: rest => if r.loc = l then { r with before := v } :: rest else r :: patchFirst l v rest

/-- A byte as the memories hold it. -/
def State.byteIn (s : State) (key : Nat) : Loc → Byte
  | .dram a => s.dramByte key a
  | .chip c o => s.chipByte c o
  | .remote _ _ => 0

/-- Put a byte into its memory. -/
def State.putByte (s : State) (key : Nat) (v : Byte) : Loc → State
  | .dram a => s.putDram key a v
  | .chip c o => { s with pad := put 0 s.pad (524288 * c + o) v }
  | .remote _ _ => s

/-- A line of another key id is written: what raced for its bytes is gone (R344). -/
def State.dropForeign (s : State) (key : Nat) (ls : List Loc) : State :=
  { s with races := s.races.filter (fun r => !ls.any (fun l => match l with
    | .dram a => getD 0 s.tags (lineOf a) ≠ key && s.replaces key a r
    | _ => false)) }

/-- Put the bytes of write `id` into coherence order, before the writes numbered `later` and after all others, and into memory where none of
those has the byte (R259). -/
def State.placeUnit (s0 : State) (key id : Nat) (later : List Nat) (bs : List Byte) (ls : List Loc) : State :=
  let s := s0.dropForeign key ls
  let (a, b) := s.races.span (fun e => !(ls.contains e.loc && later.contains e.id))
  let new := ls.map (fun l => ({ loc := l, before := ((b.find? (fun e => e.loc = l)).map (·.before)).getD (s.byteIn key l), id := id } : Race))
  let t := (bs.zip ls).foldl (fun t p => if b.any (fun e => e.loc = p.2) then t else t.putByte key p.1 p.2) s
  { t with races := a ++ new ++ (bs.zip ls).foldl (fun b p => patchFirst p.2 p.1 b) b }

/-- Perform a buffered store: it enters coherence order last (R166, R259). -/
def State.performStore (s : State) (b : Buffered) : State :=
  if (find s.writes b.id).isNone then s.performBytes b.part b.key b.addr b.bytes
  else
    let s1 := s.noteEntries b.addr b.bytes.length
    let t := s1.placeUnit b.key b.id [] b.bytes ((List.range b.bytes.length).map (fun k => .dram (b.addr + k)))
    if (List.range b.bytes.length).any (fun k => s1.isBad (b.addr + k)) then t.contain b.part b.addr else t

/-- Perform every buffered store of a core, oldest first (R166). -/
def State.flushCore (s : State) (core : Nat) : State :=
  let mine := s.sbuf.filter (fun b => b.core = core)
  mine.foldl (fun s b => s.performStore b) { s with sbuf := s.sbuf.filter (fun b => b.core ≠ core) }

/-- Perform every buffered store. -/
def State.flushAll (s : State) : State := s.sbuf.foldl (fun s b => s.performStore b) { s with sbuf := [] }

/-- The partition whose key id a frame names, first one whose entry is in use: the sessions of a partition that is not valid stay its own (R342).
That of a firmware session is free (R348, log 77). -/
def State.partOfKey (s : State) (keyid : Nat) : Nat :=
  let named := (List.range 63).filter (fun p => s.keyOf p = keyid)
  if keyid = 255 then Config.firmPart else if keyid = 0 then 255 else (named.filter (fun p => s.part p 0 1 = 1) ++ named).headD 255

/-- Answers have come: the copy operations that await bytes of another device look for them (R367). -/
def State.answered (s : State) : State :=
  { s with groups := s.groups.map (fun (p : Nat × Group) => (p.1, { p.2 with copies := p.2.copies.map (fun o => { o with stall := false }) })) }

/-- A connection fails: its writes become containment events, what awaits a response of it learns so, and it reopens empty (R312, R367). -/
def State.failConn (s : State) (node conn : Nat) : State :=
  let k := 65536 * node + conn
  let c := getD Conn.init s.conns k
  let part := s.partOfKey c.key
  let lost := c.sent.filter (fun x => x.type = 0)
  let s1 : State := { s.answered with
    conns := erase s.conns k
    asks := s.asks.map (fun (x : Ask) => if x.node = node && x.part = conn && x.answer.isNone then { x with answer := some none } else x) }
  match lost with
  | [] => s1.contain part 0
  | _ => lost.foldl (fun s x => s.contain part x.addr.toNat) s1

/-- Answers that have been taken are kept no longer. -/
def State.dropAsks (s : State) (part : Nat) (ls : List Loc) : State :=
  { s with asks := s.asks.filter (fun x => !ls.any (fun l => match l with
      | .remote n a => x.part = part && x.node = n && x.addr ≤ a && a < x.addr + x.len
      | _ => false)) }

/-- What a read that cannot be performed leaves behind where no fragment awaits it: the notice of a line with an error (R312), and the failure of
a connection (R367). -/
def State.loseRead (s : State) (who : Actor) : Loc → State
  | .dram a => s.contain who.part a
  | .remote n a => if (s.askFor who.part n a).isSome then s.dropAsks who.part [.remote n a] else s.failConn n who.part
  | .chip _ _ => s

/-- A walk of a core has read an entry of this device's DRAM: if it is valid, the caches of the core and of its die may hold it (R341). -/
def State.cacheEntry (s : State) (who : Actor) (a : Nat) : State :=
  let key := s.keyOf who.part
  if !s.badFor key a && (s.dramByte key a).getLsbD 0 && !(getD [] s.walks (a / 8)).contains (key, who.core) then
    { s with walks := put [] s.walks (a / 8) (getD [] s.walks (a / 8) ++ [(key, who.core)]) }
  else s

/-- What the walk of a virtual address leaves behind: the entries that it read in the caches, and requests for those of other devices, whose
connections may fail (R338, R341, R367). -/
def State.noteWalk (s : State) (who : Actor) (va : Nat) : State :=
  (s.walkPath who va 4 (s.part who.part 512 64)).foldl (fun s a => match s.devByte who.part a with
    | none => s
    | some (n, own) => if n = s.node then s.cacheEntry who own
      else
        let t := s.transmit n who.part 1 (s.keyOf who.part) (BitVec.ofNat 64 (a % 2 ^ 50)) (bytesOf 8 4)
        if Config.remoteFails s.fresh then t.failConn n who.part else t) s

/-- The same for each page that holds an address of a list. -/
def State.noteWalks (s : State) (who : Actor) (vas : List Nat) : State :=
  ((vas.filter (· < 2 ^ 52)).map (fun a => a / 2 ^ 16 * 2 ^ 16)).eraseDups.foldl (fun s a => s.noteWalk who a) s

/-- The virtual addresses that Locate translates for a unit. -/
def State.unitVas (s : State) (who : Actor) (r : Rec) (row n u : Nat) (acc : Access) : List Nat :=
  if r.space ≠ 0 || s.refused who.part r then []
  else match r.offset row n u with
    | .ok (some off) => (List.range u).map (fun k => s.virtualOf who r (r.base + off) acc + k)
    | _ => []

/-- The table entry of this device in which the walk of an address meets an uncorrectable error. -/
def State.walkLoss (s : State) (who : Actor) (va : Nat) : Option Nat :=
  match s.translate who va .read with
  | .error 5 => (match ((s.walkPath who va 4 (s.part who.part 512 64)).getLast?).bind (s.devByte who.part) with
    | some (n, own) => if n = s.node then some own else none
    | none => none)
  | _ => none

/-- The containment notice of a walk that meets an uncorrectable error in a table entry and that no fragment awaits (R312, R340). -/
def State.containWalk (s : State) (who : Actor) (va : Nat) : State :=
  match s.walkLoss who va with | some own => s.contain who.part own | none => s

/-- The address of a unit, after the bounds mode and through a publish record (R164, R172). -/
def State.unitAddr (s : State) (who : Actor) (r : Rec) (row n u : Nat) (acc : Access) : BitVec 64 :=
  match r.offset row n u with
  | .ok (some off) => BitVec.ofNat 64 (if r.space = 0 then s.virtualOf who r (r.base + off) acc else r.base + off)
  | _ => r.aim row n

/-- The address of a byte of the scale side or of the metadata (R92, R170, R172). -/
def State.sideAddr (s : State) (who : Actor) (r : Rec) (off : Nat) (acc : Access) : BitVec 64 :=
  let a := r.base + r.scaleoff + off
  BitVec.ofNat 64 (if r.space = 0 then s.virtualOf who r a acc else a)

/-- An accumulator word that an engine writes is its group's (R63). -/
def State.ownWord (s : State) (who : Actor) (core o : Nat) : State :=
  let k := regionKind o
  if k.1 = 2 && who.core < 1024 then { s with accBy := put 0 s.accBy (32768 * core + (o - k.2.1) / 4) (gkOf who.core who.slot + 1) } else s

/-- Write a byte beyond the core's buffer; a byte of another device leaves on the transport, on the connection numbered as the
partition (R338, R365, log 14). -/
def State.writeByte (s : State) (who : Actor) (v : Byte) : Loc → State
  | .dram a => s.setDram (s.keyOf who.part) a v
  | .remote n a => s.transmit n who.part 0 (s.keyOf who.part) (BitVec.ofNat 64 a) [v]
  | .chip c o => (s.setChip c o v).ownWord who c o

/-- Write bytes one by one. -/
def State.writeEach (s : State) (who : Actor) : List Byte → List Loc → State
  | v :: vs, l :: r => (s.writeByte who v l).writeEach who vs r
  | _, _ => s

/-- What reads of locations leave behind where one of them cannot be read (R312, R367). -/
def State.containBad (s : State) (who : Actor) (ls : List Loc) : State :=
  match ls.find? (s.unreadable who) with
  | some l => s.loseRead who l
  | none => s

/-! ## The digest of a checked logical core (R329) -/

/-- The address that the digest takes for a byte: a logical core's own scratchpad counts by logical slots (R326). -/
def LCore.digestAddr (c : LCore) : Loc → Nat
  | .dram a => a
  | .remote _ a => a
  | .chip _ o => match c.slots.find? (fun p => p.2 = o / 32768) with
    | some p => 32768 * p.1 + o % 32768
    | none => o

/-- The bytes of a write that fall in one granule: its address over 16, the mask and the four words. -/
def granuleWrite (bs : List (Nat × Byte)) (g : Nat) : Word × Word × List Word :=
  let mine := bs.filter (fun p => p.1 / 16 = g)
  (wd g, mine.foldl (fun (m : Word) p => m ||| (1#32 <<< (p.1 % 16))) 0,
    (List.range 4).map (fun k => mine.foldl (fun (w : Word) p => if p.1 % 16 / 4 = k then setByte w (p.1 % 4) p.2 else w) 0))

/-- Fold (R329). -/
def foldDigest (h0 h1 : Word) (a m : Word) (w : List Word) : Word × Word :=
  (beadMix h0 h1 (w.getD 0 0 ^^^ w.getD 2 0) (w.getD 1 0 ^^^ w.getD 3 0),
    beadMix h1 h0 a (beadMix h0 h1 (w.getD 0 0 ^^^ w.getD 2 0) (w.getD 1 0 ^^^ w.getD 3 0) ^^^ m))

/-- Fold the writes of granules into a digest (R329). -/
def foldAll (h : Word × Word) (ws : List (Word × Word × List Word)) : Word × Word := ws.foldl (fun h w => foldDigest h.1 h.2 w.1 w.2.1 w.2.2) h

/-- Fold a unit's write into the digest of its checked logical core; the checker forms the same values in the same round (R329, log 46). -/
def State.foldUnit (s : State) (who : Actor) (bs : List Byte) (ls : List Loc) : State :=
  match who.det with
  | none => s
  | some d => match s.lcore d, find s.checks d with
    | some c, some k =>
      let pairs := (ls.map c.digestAddr).zip bs
      let ws := (pairs.map (fun p => p.1 / 16)).eraseDups.map (granuleWrite pairs)
      let h := foldAll (c.h0, c.h1) ws
      { s with
        lcores := insert s.lcores d { c with h0 := h.1, h1 := h.2 }
        checks := insert s.checks d { k with cur := { k.cur with folds := k.cur.folds ++ ws } } }
    | _, _ => s

/-- Bytes are about to be written. -/
def State.noteLocs (s : State) (ls : List Loc) : State :=
  ls.foldl (fun s l => match l with
    | .dram a => s.noteEntry (a / 8)
    | .chip c o => if 0xE0000 ≤ o && o % 4 = 0 then s.noteCode [32768 * c + (o - 0xE0000) / 4] else s
    | .remote _ _ => s) s

/-- A write is about to meet a line with an uncorrectable error: a containment notice (R176, R312). -/
def State.containLines (s : State) (part : Nat) (ls : List Loc) : State :=
  match ls.find? (fun l => match l with | .dram a => s.isBad a | _ => false) with
  | some (.dram a) => s.contain part a
  | _ => s

/-- Write a unit's bytes beyond the core's buffer. -/
def State.writeUnit (s0 : State) (who : Actor) (bs : List Byte) (ls : List Loc) : State :=
  let s := ((s0.foldUnit who bs ls).noteLocs ls).containLines who.part ls
  match ls with
  | .remote n a :: _ =>
    if ls = (List.range ls.length).map (fun k => .remote n (a + k)) then s.transmit n who.part 0 (s.keyOf who.part) (BitVec.ofNat 64 a) bs
    else s.writeEach who bs ls
  | _ => s.writeEach who bs ls

/-- Write a unit of a number, little-endian, beyond the core's buffer. -/
def State.writeNat (s : State) (who : Actor) (v : Nat) (ls : List Loc) : State := s.writeUnit who (bytesOf v ls.length) ls

/-! ## Accesses that race (R152, R160, R256-R271; log 86) -/

/-- A unit at which accesses of an agent race: device memory or scratchpad, under det = 0. Under det = 1 the order of the turns is the order of
all (R42). -/
def Actor.races (who : Actor) (ls : List Loc) : Bool :=
  who.det.isNone && who.agent ≠ .device && (ls.all Loc.isPad || ls.all (fun l => match l with | .dram _ => true | _ => false))

/-- The parts of a unit that are single-copy atomic (R258): naturally aligned units of at most 4 bytes, other units byte by byte. -/
def unitParts (ls : List Loc) : List (List Loc) :=
  if ls.length = 1 || ls.length = 2 || ls.length = 4 then [ls] else ls.map (fun l => [l])

/-- Bytes of the stores that the reader's core buffers, oldest first, with what each replaces for that core (R166). -/
def State.bufEntries (s : State) (who : Actor) (ls : List Loc) : List Buffered → List Buffered → List Race
  | _, [] => []
  | older, b :: rest =>
    (if b.core = who.core then ls.filterMap (fun l => match l with
      | .dram a => if b.addr ≤ a && a < b.addr + b.bytes.length then some { loc := l, before := { s with sbuf := older }.readByte who l, id := b.id } else none
      | _ => none) else []) ++ s.bufEntries who ls (older ++ [b]) rest

/-- The writes to the bytes of a unit that an agent of a core can meet, in coherence order (R166, R259, R344). -/
def State.entries (s : State) (who : Actor) (ls : List Loc) : List Race :=
  s.races.filter (fun r => ls.contains r.loc && (match r.loc with | .dram a => getD 0 s.tags (lineOf a) = s.keyOf who.part | _ => true))
    ++ s.bufEntries who ls [] s.sbuf

/-- Write `id` lies in the past of an agent; a write that is kept no more lies in the past of all. -/
def State.inPast (s : State) (a : Agent) (id : Nat) : Bool := (find s.writes id).all (fun w => w.past (· = a))

/-- Numbers of the last writes to a unit, oldest first, that no write which `stop` names follows. -/
def lastIds (es : List Race) (stop : Nat → Bool) : List Nat := ((es.reverse.takeWhile (fun r => !stop r.id)).reverse.map (·.id)).eraseDups

/-- The writes to a unit that an agent need not have seen: none after them lies in its past (R260). -/
def State.racing (s : State) (who : Actor) (ls : List Loc) : List Nat := lastIds (s.entries who ls) (s.inPast who.agent)

/-- The pick of an agent at a unit, from 0 to `n`. -/
def State.racePick (s : State) (who : Actor) (ls : List Loc) (n : Nat) : Nat :=
  if n = 0 then 0 else Config.racePick s.fresh ((ls.head?.map Loc.num).getD 0) who.agent.num % (n + 1)

/-- The writes to a unit that a plain read takes as not yet done: a last part, in coherence order, of those that it need not have seen; a free value
says how long (R258, R260). -/
def State.undoneAt (s : State) (who : Actor) (ls : List Loc) : List Nat :=
  let ids := s.racing who ls
  ids.drop (s.racePick who ls ids.length)

/-- A byte of a unit as the writes numbered `undone` found it. -/
def State.byteBefore (s : State) (who : Actor) (es : List Race) (undone : List Nat) (l : Loc) : Byte :=
  match es.find? (fun r => r.loc = l && undone.contains r.id) with
  | some r => r.before
  | none => s.readByte who l

/-- A plain read of an atomic unit (R258, R260). -/
def State.partBytes (s : State) (who : Actor) (ls : List Loc) : List Byte := ls.map (s.byteBefore who (s.entries who ls) (s.undoneAt who ls))

/-- A plain read of a unit, little-endian. -/
def State.plainNat (s : State) (who : Actor) (ls : List Loc) : Nat :=
  if who.races ls then natOf ((unitParts ls).flatMap (s.partBytes who)) else s.readNat who ls

/-- The newest writes that are done, byte by byte. -/
def newestOf (es : List Race) (undone : List Nat) (ls : List Loc) : List Nat :=
  (ls.filterMap (fun l => ((es.filter (fun r => r.loc = l && !undone.contains r.id)).getLast?).map (·.id))).eraseDups

/-- An agent has read the writes numbered `ids` (R264). -/
def State.markSeen (s : State) (a : Agent) (ids : List Nat) : State :=
  { s with writes := s.writes.map (fun x => if ids.contains x.1 && !x.2.seen.contains a then (x.1, { x.2 with seen := a :: x.2.seen }) else x) }

/-- A plain read of a unit has returned what `plainNat` says (R264). -/
def State.sawPlain (s : State) (who : Actor) (ls : List Loc) : State :=
  if who.races ls then (unitParts ls).foldl (fun t p => t.markSeen who.agent (newestOf (s.entries who p) (s.undoneAt who p) p)) s else s

/-- A plain access has a choice at a unit. -/
def State.raced (s : State) (who : Actor) (ls : List Loc) : Bool := who.races ls && (unitParts ls).any (fun p => s.racing who p ≠ [])

/-- Free values have been used for choices of `raced` accesses. -/
def State.useFresh (s : State) (raced : Bool) : State := if raced then { s with fresh := s.fresh + 1 } else s

/-- The newest writes to the bytes of a unit, which a strong read returns. -/
def State.newest (s : State) (who : Actor) (ls : List Loc) : List Nat := if who.races ls then newestOf (s.entries who ls) [] ls else []

/-- The releases that a strong read of the newest value meets (R263). -/
def State.tagsAt (s : State) (who : Actor) (ls : List Loc) : List Sync :=
  ((s.newest who ls).flatMap (fun k => ((find s.writes k).map (·.rel)).getD [])).eraseDups

/-- The releases in whose sequence a read-modify-write of a location stands; of those of its own thread a strong write does too (R263). -/
def State.sequence (s : State) (who : Actor) (ls : List Loc) : List Sync :=
  if who.races ls then
    ((s.entries who (ls.take 1)).foldl (fun ts r => match find s.writes r.id with
      | some w => w.rel ++ ts.filter (fun t => w.agent = .thread t.thread)
      | none => []) []).eraseDups
  else []

/-- The instance of a scope at one agent's core and partition holds the other's (R256). -/
def inScope (sc : Scope) (core part core' part' : Nat) : Bool :=
  match sc with
  | .core => core = core'
  | .clu => clusterOf core = clusterOf core'
  | .dev => true
  | .sys => part = part'

/-- A release and an acquire at scope `sc` of a fragment are scope-matched (R256). -/
def Here.matches (h : Here) (sc : Scope) (t : Sync) : Bool :=
  inScope t.scope t.core t.part h.core h.l.part && inScope sc h.core h.l.part t.core t.part

/-- An acquire of a fragment synchronises with releases (R263, R264). -/
def State.acquire (s : State) (h : Here) (ts : List Sync) : State := if ts = [] then s else s.pass (ofSyncs ts) h.agents

/-- A lane has read releases strongly: a later fence may acquire from them (R263). -/
def State.noteReads (s : State) (h : Here) (l : Nat) (ts : List Sync) : State :=
  if ts = [] then s else s.modThread (h.tk l) (fun t => { t with reads := (t.reads ++ ts).eraseDups })

/-- A strong read of a lane returns the newest value of a unit (R260, R264). -/
def State.strongRead (s : State) (h : Here) (l : Nat) (ls : List Loc) : State :=
  (s.markSeen (.thread (h.tk l)) (s.newest (h.lane l) ls)).noteReads h l (s.tagsAt (h.lane l) ls)

/-- The releases that a write of a lane numbered `id` makes: its own at a scope, covering the fragment, and those of the lane's earlier fences
(R263, R264). -/
def State.releasesOf (s : State) (h : Here) (l : Nat) (rel : Option Scope) (id : Nat) : List Sync :=
  let t (num : Nat) (sc : Scope) : Sync := { num := num, thread := h.tk l, core := h.core, part := h.l.part, scope := sc }
  let fs := (s.thread (h.tk l)).fences
  (rel.map (t id)).toList ++ ((List.range fs.length).zip fs).map (fun x => t (id + 1 + x.1) x.2.1)

/-- Make those releases: what the fragment's lanes and the fences cover comes before what meets them. -/
def State.release (s : State) (h : Here) (l : Nat) (rel : Option Scope) : State :=
  let id := s.wnum
  let fs := (s.thread (h.tk l)).fences
  let s1 := if rel.isSome then s.passAll h.owns [.sync id] else s
  let s2 := ((List.range fs.length).zip fs).foldl (fun s x => s.pass (· = .sync x.2.2) [.sync (id + 1 + x.1)]) s1
  { s2 with wnum := id + 1 + fs.length }

/-- Record a write. -/
def State.record (s : State) (id : Nat) (a : Agent) (rel made : List Sync) (rmw : Bool) : State :=
  { s with writes := insert s.writes id { agent := a, known := made.map (fun t => .sync t.num), seen := [], rel := (rel ++ made).eraseDups, fars := [], rmw := rmw } }

/-- The kinds of write of a thread: plain, strong, or the write of an atomic (R257). -/
inductive WriteKind | plain | strong | rmw
  deriving DecidableEq, Repr

/-- A write of a lane takes the next number, with the releases that it makes. -/
def State.enroll (s : State) (h : Here) (l : Nat) (kind : WriteKind) (rel : Option Scope) (ls : List Loc) : State :=
  let made := if kind = .plain then [] else s.releasesOf h l rel s.wnum
  let seq := (s.sequence (h.lane l) ls).filter (fun t => kind = .rmw || (kind = .strong && t.thread = h.tk l))
  (if kind = .plain then { s with wnum := s.wnum + 1 } else s.release h l rel).record s.wnum (h.lane l).agent seq made (kind = .rmw)

/-- A write of a lane that goes last in coherence order, with the releases it makes: to memory at once. -/
def State.laneWrite (s : State) (h : Here) (l : Nat) (kind : WriteKind) (rel : Option Scope) (v : Nat) (ls : List Loc) : State :=
  let who := h.lane l
  if !who.races ls then s.writeNat who v ls
  else (((s.enroll h l kind rel ls).noteLocs ls).containLines who.part ls).placeUnit (s.keyOf who.part) s.wnum [] (bytesOf v ls.length) ls

/-- The writes that a plain write of an atomic unit in scratchpad may go before: none from number `first` on, of its own instruction, and none
that lies in its past; directly before what an atomic wrote it may not go (R259). -/
def State.outruns (s : State) (who : Actor) (first : Nat) (ls : List Loc) : List Nat :=
  let es := s.entries who ls
  let ids := lastIds es (fun k => first ≤ k || s.inPast who.agent k)
  let later := ids.drop (s.racePick who ls ids.length)
  if !ls.all Loc.isPad || ls.any (fun l => (es.find? (fun e => e.loc = l && later.contains e.id)).any (fun e => (find s.writes e.id).any (·.rmw))) then []
  else later

/-- A plain write of a unit that races, to memory: its atomic parts find their places in coherence order one by one (R160, R258, R259). -/
def State.plainWrite (s : State) (who : Actor) (first v : Nat) (ls : List Loc) : State :=
  let parts := (unitParts ls).foldl (fun (r : List (List Loc × List Byte) × List Byte) p => (r.1 ++ [(p, r.2.take p.length)], r.2.drop p.length))
    ([], bytesOf v ls.length)
  parts.1.foldl (fun s p =>
    let id := s.wnum
    ((({ s with wnum := id + 1 } : State).record id who.agent [] [] false).placeUnit (s.keyOf who.part) id (s.outruns who first p.1) p.2 p.1))
    ((s.noteLocs ls).containLines who.part ls)

/-- An engine writes a unit (R160). -/
def State.engineWrite (s : State) (who : Actor) (v : Nat) (ls : List Loc) : State :=
  if who.races ls then (s.plainWrite who s.wnum v ls).useFresh (s.raced who ls) else s.writeNat who v ls

/-- Writes that have a number lie in the past of agents: the end of a wait for full orders them (R271). -/
def State.passIds (s : State) (ids : List Nat) (dst : List Agent) : State :=
  { s with writes := s.writes.map (fun x => if ids.contains x.1 then (x.1, { x.2 with known := (dst ++ x.2.known).eraseDups }) else x) }

/-- Bytes of another device among these have not come (R367). -/
def State.lacks (s : State) (who : Actor) (ls : List Loc) : Bool :=
  ls.any (fun l => match l with
    | .remote n a => !(s.askFor who.part n a).any (fun x => x.answer.isSome)
    | _ => false)

/-- Ask for the bytes of another device that a read takes, unless they are awaited (R338, R365). -/
def State.askRemote (s : State) (who : Actor) (ls : List Loc) : State :=
  match ls with
  | .remote n a :: _ =>
    if (s.askFor who.part n a).isSome then s
    else
      let t := s.transmit n who.part 1 (s.keyOf who.part) (BitVec.ofNat 64 a) (bytesOf ls.length 4)
      { t with asks := t.asks ++ [{ node := n, part := who.part, addr := a, len := ls.length, answer := none }] }
  | _ => s

/-- The requests of a read of units, where bytes of another device have not come (R338, R367). -/
def State.askUnits (s : State) (who : Actor) (us : List (List Loc)) : Option State :=
  if us.any (s.lacks who) then some (us.foldl (fun s ls => s.askRemote who ls) s) else none

/-- Lines that a core's store buffer holds, oldest first (R166). -/
def State.bufLines (s : State) (core : Nat) : List Nat := ((s.sbuf.filter (fun b => b.core = core)).map (fun b => lineOf b.addr)).eraseDups

/-- Perform the stores of one line of a core's store buffer, oldest first (R166). -/
def State.flushLine (s : State) (core line : Nat) : State :=
  let mine := s.sbuf.filter (fun b => b.core = core && lineOf b.addr = line)
  mine.foldl (fun s b => s.performStore b) { s with sbuf := s.sbuf.filter (fun b => !(b.core = core && lineOf b.addr = line)) }

/-- Buffer a store of a unit, numbered `id`, 0 where it does not race, in the core's store buffer, which holds 32 lines: for a line more it performs the oldest (R166). -/
def State.bufferStore (s : State) (who : Actor) (v : Nat) (a n id : Nat) : State :=
  let lines := s.bufLines who.core
  let s := s.foldUnit who (bytesOf v n) ((List.range n).map (fun k => .dram (a + k)))
  let s := match lines with
    | b :: _ => if 32 ≤ lines.length && !lines.contains (lineOf a) then s.flushLine who.core b else s
    | [] => s
  { s with sbuf := s.sbuf ++ [{ id := id, core := who.core, part := who.part, key := s.keyOf who.part, addr := a, bytes := bytesOf v n }] }

end Sys2Proof.Machine
end

