-- ==== Sys2Proof/Machine/Element.lean ====
section
/-! DEFINITION. Elements of every record format: codes, scales, the value that enters (R90-R93) and the codes that are produced
(R95, R96), and their places in units and rows (R91, R92, R163). -/

namespace Sys2Proof.Machine

/-! ## Codes and values -/

/-- Bits of an element (R90). -/
def elemBits (f : Nat) : Nat := if fmt4 f then 4 else if fmt6 f then 6 else 8 * unitSize f
/-- Range of an integer format (R90). -/
def intRange (f : Nat) : Option (Int × Int) :=
  if f = 9 then some (-8, 7) else if f = 10 then some (0, 15) else if f = 11 || f = 13 then some (-128, 127) else if f = 12 then some (0, 255) else none
/-- The element's float format (R90). -/
def floatOf (f : Nat) : Fmt :=
  if f = 0 || f = 1 || f = 19 then e2m1 else if f = 2 then e2m3 else if f = 3 then e3m2 else if f = 4 || f = 5 || f = 18 then e4m3
  else if f = 6 || f = 7 then e5m2 else if f = 8 then e3m4 else if f = 14 then bf16 else if f = 15 then f16 else if f = 16 then e8m10 else f32
/-- The formats whose operands the array multiplies as integers (R90). -/
def intFamily (f : Nat) : Bool := 9 ≤ f && f ≤ 12
/-- Formats with a tensor scale (R90). -/
def hasTensor (f : Nat) : Bool := f = 18 || f = 19

/-- The integer of a code of an integer format. -/
def codeInt (f code : Nat) : Int :=
  let b := elemBits f
  if (f = 10 || f = 12) || code < 2 ^ (b - 1) then code else (code : Int) - 2 ^ b

/-- Decode of an element code (R86, R87). -/
def elemVal (f code : Nat) : Val :=
  match intRange f with
  | some _ => Val.ofInt (codeInt f code)
  | none => (floatOf f).decode (if f = 16 then code / 2 ^ 13 else code)

/-- A finite value times a power of two. -/
def Val.scale (v : Val) (k : Int) : Val := match v with | .fin n m e => .fin n m (e + k) | v => v

/-- The value that an element enters with, from its block's scale, its special value and the tensor scale (R93). -/
def enter (f code scale special : Nat) (tensor : Word) : Val :=
  let v := elemVal f code
  if !fmtScaled f then v
  else if hasTensor f then
    let t := f32.decode tensor.toNat
    if scale = 0xFF || t.isNan || t.isInf then .nan false else (mulVals (mulVals v (ue5m3.decode scale)).1 t).1
  else if scale = 0xFF then .nan false
  else (if f = 0 && code = 8 then e4m3.decode special else v).scale ((scale : Int) - 127)

/-- A tensor scale is 0, a NaN or infinite (R96, R102). -/
def badTensor (tensor : Word) : Bool := let t := f32.decode tensor.toNat; t.isNan || t.isInf || t.isZero
/-- A block that is read has a faulty scale (R102). -/
def badBlock (f scale : Nat) (tensor : Word) : Bool := fmtScaled f && (scale = 0xFF || (hasTensor f && badTensor tensor))

/-- Encode of a value in an element format (R95); e2m1x never produces code 8. -/
def encodeElem (f : Nat) (v : Val) : Nat × Ev :=
  match intRange f with
  | some (lo, hi) => let r := encodeInt lo hi v; ((r.1 % 2 ^ elemBits f).toNat, r.2)
  | none => let r := (floatOf f).encode .rn v; (if f = 0 && r.1 = 8 then 0 else r.1, r.2)

/-- A produced block: scale byte, codes with their events, and whether the tensor scale is faulty (R96). -/
structure Block where
  scale : Nat
  codes : List (Nat × Ev)
  fault : Bool
  deriving DecidableEq, Repr

/-- The k of R96. -/
def scaleShift (f : Nat) : Int := if f = 0 || f = 1 || f = 2 then 2 else if f = 3 then 4 else if f = 5 then 8 else if f = 7 then 15 else 6

/-- The larger magnitude of two values. -/
def Val.larger (a b : Val) : Val := if a.below b then b else a

/-- amax, the largest magnitude among values that are not NaNs (R96). -/
def amaxOf (vs : List Val) : Option Val :=
  match vs.filter (fun v => !v.isNan) with
  | [] => none
  | v :: r => some (r.foldl (fun m x => m.larger x.abs) v.abs)

/-- A quotient whose divisor is finite and not 0. -/
def divVal (a b : Val) : Val :=
  match a, b with
  | .fin n m e, .fin n' m' e' => if m = 0 then .fin (n != n') 0 0 else quotient (n != n') m e m' e'
  | .inf n, b => .inf (n != b.neg)
  | v, _ => v

/-- The E8M0 scale of a block's amax (R96). -/
def e8m0Of (f : Nat) : Val → Nat
  | .fin _ m e => if m = 0 then 127 else (min (max ((Nat.log2 m : Int) + e - scaleShift f + 127) 0) 254).toNat
  | _ => 254

/-- The codes of a list, an event of the block's own riding on the first. -/
def rideFirst (ev : Ev) : List (Nat × Ev) → List (Nat × Ev)
  | [] => []
  | c :: r => (c.1, c.2 ||| ev) :: r

/-- Produce a block of a block-scaled format (R96). -/
def produceBlock (f : Nat) (vs : List Val) (tensor : Word) : Block :=
  let nans := vs.map (fun _ => encodeElem f (.nan false))
  if hasTensor f then
    if badTensor tensor then { scale := 0xFF, codes := vs.map (fun _ => (0, evNone)), fault := true }
    else match amaxOf vs with
      | none => { scale := 0xFF, codes := nans, fault := false }
      | some amax =>
        let t := f32.decode tensor.toNat
        let (sc, ev) := encodeScale (divVal amax (mulVals t.abs (Val.ofInt (if f = 18 then 448 else 6))).1)
        let sv := ue5m3.decode sc
        if sv.isZero then { scale := sc, codes := rideFirst ev (vs.map (fun _ => (0, evNone))), fault := false }
        else { scale := sc, codes := rideFirst ev (vs.map (fun v => encodeElem f (divVal v (mulVals sv t).1))), fault := false }
  else match amaxOf vs with
    | none => { scale := 0xFF, codes := nans, fault := false }
    | some amax =>
      let c := e8m0Of f amax
      { scale := c, codes := vs.map (fun v => encodeElem f (v.scale (127 - (c : Int)))), fault := false }

/-- Blocks of 32 values of a row. -/
def blocksOf {α : Type} (vs : List α) : List (List α) := (List.range ((vs.length + 31) / 32)).map (fun j => (vs.drop (32 * j)).take 32)

/-- The codes and scale bytes of a row of values in format `f`, with events of the elements and the number of faulty blocks. -/
def produceRow (f : Nat) (vs : List Val) (tensor : Word) : List (Nat × Ev) × List Nat × Nat :=
  if fmtScaled f then
    let bs := (blocksOf vs).map (fun b => produceBlock f b tensor)
    ((bs.map (·.codes)).flatten, (bs.map (fun b => if f = 0 then [b.scale, 0] else [b.scale])).flatten, (bs.filter (·.fault)).length)
  else (vs.map (encodeElem f), [], 0)

/-! ## Places -/

/-- Element `col` of a unit (R91). -/
def pickElem (f col unit : Nat) : Nat :=
  if fmt4 f then unit / 2 ^ (4 * (col % 2)) % 16 else if fmt6 f then unit / 2 ^ (6 * (col % 4)) % 64 else unit
/-- A unit with element `col` replaced (R91). -/
def putElem (f col unit code : Nat) : Nat :=
  if fmt4 f || fmt6 f then
    let b := elemBits f
    let p := 2 ^ (b * (col % (if fmt4 f then 2 else 4)))
    unit - unit / p % 2 ^ b * p + code * p
  else code
/-- Elements that share a unit. -/
def perUnit (f : Nat) : Nat := if fmt4 f then 2 else if fmt6 f then 4 else 1
/-- Scale bytes of a row of `n` blocks (R92). -/
def scaleBytes (f n : Nat) : Nat := if !fmtScaled f then 0 else if f = 0 then 2 * n else n
/-- Offset in the scale side of the first scale byte of a row (R92). -/
def scaleOffset (f n row : Nat) : Nat := if hasTensor f then 4 + row * n else if f = 0 then 2 * row * n else row * n

/-- Status of an engine operation for a fault of Locate (R208). -/
def faultStatus (k : Nat) : Nat := if k = kRecord then 1 else if k = kBounds then 2 else if k = kAlign then 3 else if k = kUncorr then 5 else 4

/-- Granules of scratchpad that bytes lie in (R161). -/
def granulesOf (ls : List Loc) : List Nat := (ls.filter Loc.isPad).map Loc.granule

/-- Add granules to a list without repeats. -/
def addGranules (gs : List Nat) (ls : List Loc) : List Nat := (granulesOf ls).foldl (fun g x => if g.contains x then g else x :: g) gs

/-- Set granules full (R161). -/
def State.fillGranules (s : State) (gs : List Nat) : State := { s with full := gs.foldl (fun m g => put false m g true) s.full, gsync := s.gsync.filter (fun p => !gs.contains p.1) }

/-- The fragment of a group that waits in an instruction that `p` names: wave and lanes (R105). -/
def State.waiter (s : State) (gk : Nat) (p : Instr → Bool) : Option (Nat × Mask) :=
  (List.range 4).findSome? (fun w =>
    ((s.wave (wkOf gk w)).frags.find? (fun f => f.wait = .retry && f.mode = .user && (match ({ s with cur := { core := gk / 16, slot := gk % 16, wave := w, lanes := f.lanes } }).here with
      | some h => (match decode (s.wordAt h f.pc false) with | .ok i => p i | .error _ => false)
      | none => false))).map (fun f => (w, f.lanes)))

/-- Charge the events of an engine operation to a group (R102): a class that traps falls on the fragment that waits for the operation in an
instruction that `p` names, else on the group's next instruction (R105). -/
def State.chargeOp (s : State) (gk : Nat) (ev : SMap Nat) (p : Instr → Bool) : State :=
  let (t, s1) := s.charge gk ev
  if t = 0 then s1
  else match s1.waiter gk p with
    | some (w, m) => s1.modWave (wkOf gk w) (fun v => { v with frags := v.frags.map (fun f => if f.lanes = m then { f with nev := f.nev ||| t } else f) })
    | none => s1.modGroup gk (fun g => { g with nevDue := g.nevDue ||| t })

/-- Instructions in which a fragment waits for an operation of the copy engine, of the array, or of the collective engine. -/
def waitsCopy : Instr → Bool | .cwait _ _ => true | .publish _ _ => true | .qpop _ q => q = 2 | _ => false
def waitsArray : Instr → Bool | .mwait _ _ => true | .mlicr => true | .qpop _ q => q = 3 | _ => false
def waitsCall : Instr → Bool | .cwaitc _ _ => true | .qpop _ q => q = 4 | _ => false

end Sys2Proof.Machine
end

