-- ==== Sys2Proof/Machine/Operands.lean ====
section
/-! DEFINITION. Operand forms: immediates, the register forms `dab`, `da` and `d+ab` of R76, and branch targets. -/

namespace Sys2Proof.Machine

/-- SignExt(imm11, 11) (R68). -/
def sx11 (imm : BitVec 11) : Word := imm.signExtend 32
/-- ZeroExt(imm11, 11) (R68). -/
def zx11 (imm : BitVec 11) : Word := imm.setWidth 32
/-- A 5-bit immediate (R114). -/
def zx5 (imm : BitVec 5) : Word := imm.setWidth 32
/-- SignExt(imm18, 18) (R69). -/
def sx18 (imm : BitVec 18) : Word := imm.signExtend 32

/-- The target of a B-format word: `pc.off + 1 + disp18` if it lies in the segment (R70, R134). -/
def dispTarget (pc : CodeAddr) (disp : BitVec 18) : Option CodeAddr :=
  let t : Int := pc.off.toNat + 1 + disp.toInt
  if 0 ≤ t ∧ t ≤ 1023 then some { pc with off := BitVec.ofNat 10 t.toNat } else none

/-- Form `dab` without events. -/
def dab (s : State) (d a b : Reg) (f : Word → Word → Word) : Out :=
  produceAll s [d, a, b] [a, b] d (fun s h l => f (s.reg h l a) (s.reg h l b)) noEvents
/-- Form `da` without events. -/
def da (s : State) (d a : Reg) (f : Word → Word) : Out :=
  produceAll s [d, a] [a] d (fun s h l => f (s.reg h l a)) noEvents
/-- Form `d+ab` without events: `f` takes Dv, A and B. -/
def dDab (s : State) (d a b : Reg) (f : Word → Word → Word → Word) : Out :=
  produceAll s [d, a, b] [d, a, b] d (fun s h l => f (s.reg h l d) (s.reg h l a) (s.reg h l b)) noEvents
/-- Form `dab` with events in each lane. -/
def dabE (s : State) (d a b : Reg) (f : Word → Word → Word × Ev) : Out :=
  produceAll s [d, a, b] [a, b] d (fun s h l => (f (s.reg h l a) (s.reg h l b)).1)
    (fun s h => h.laneEvents (fun l => (f (s.reg h l a) (s.reg h l b)).2))
/-- Form `da` with events in each lane. -/
def daE (s : State) (d a : Reg) (f : Word → Word × Ev) : Out :=
  produceAll s [d, a] [a] d (fun s h l => (f (s.reg h l a)).1) (fun s h => h.laneEvents (fun l => (f (s.reg h l a)).2))
/-- Form `d+ab` with events in each lane. -/
def dDabE (s : State) (d a b : Reg) (f : Word → Word → Word → Word × Ev) : Out :=
  produceAll s [d, a, b] [d, a, b] d (fun s h l => (f (s.reg h l d) (s.reg h l a) (s.reg h l b)).1)
    (fun s h => h.laneEvents (fun l => (f (s.reg h l d) (s.reg h l a) (s.reg h l b)).2))
/-- Immediate form: `f` takes A and K. -/
def dak (s : State) (d a : Reg) (k : Word) (f : Word → Word → Word) : Out :=
  produceAll s [d, a] [a] d (fun s h l => f (s.reg h l a) k) noEvents

end Sys2Proof.Machine
end

