-- ==== Sys2Proof/Machine/Control.lean ====
section
/-! DEFINITION. Branches, calls, register jumps and hardware loops (R134-R143). -/

namespace Sys2Proof.Machine

/-- Retire without producing: the chain depth changes as R51 gives for the latch operands `reads`. -/
def State.leave (s : State) (h : Here) (reads : List Reg) (go : Nat → Goto) : State :=
  (s.unproduce h (readsLatch reads)).retireTo h [] none go

/-- The fragment as an instruction fence leaves it: it fetches only what the stores then hold (R140). -/
def Here.fenced (h : Here) (fence : Bool) : Here := if fence then { h with frag := { h.frag with fence := none } } else h

/-- A format-B transfer (R134): the lanes in which `taken` holds go to the target, after `pre` has acted. -/
def branch (s : State) (named reads : List Reg) (disp : BitVec 18) (taken : State → Here → Nat → Bool)
    (pre : State → Here → State) (go : CodeAddr → Goto) (fence : Bool := false) : Out :=
  withHere s fun h => checked s h named reads (transfers s h
    (match dispTarget h.frag.pc disp with
      | some t => .next ((pre s h).leave (h.fenced fence) reads (fun l => if taken s h l then go t else .seq))
      | none => if h.lanes.any (taken s h) then trap s h kState else .next ((pre s h).leave h reads (fun _ => .seq))))

/-- The link word {current segment, p + 1}; at offset 1,023 no code address expresses it, and the word is free (log 13). -/
def State.link (s : State) (h : Here) : Word :=
  if h.frag.pc.off = 1023 then Config.freeWord s.fresh else CodeAddr.word { h.frag.pc with off := h.frag.pc.off + 1 }

/-- Write the link word to register `r` of every active lane. -/
def State.writeLink (s : State) (h : Here) (r : Reg) : State :=
  let v := s.link h
  let s := if h.frag.pc.off = 1023 then s.takeFresh.2 else s
  h.lanes.foldl (fun s l => s.setReg h l r v) s

/-- `br` (R134). -/
def execBr (disp : BitVec 18) (s : State) : Out := branch s [] [] disp (fun _ _ _ => true) (fun s _ => s) .jump
/-- `bnz` (R134). -/
def execBnz (a : Reg) (disp : BitVec 18) (s : State) : Out :=
  branch s [a] [a] disp (fun s h l => s.reg h l a ≠ 0) (fun s _ => s) .jump
/-- `bz` (R134). -/
def execBz (a : Reg) (disp : BitVec 18) (s : State) : Out :=
  branch s [a] [a] disp (fun s h l => s.reg h l a = 0) (fun s _ => s) .jump
/-- `call` (R134). -/
def execCall (a : Reg) (disp : BitVec 18) (s : State) : Out :=
  branch s [a] [] disp (fun _ _ _ => true) (fun s h => s.writeLink h a) .call
/-- `fjmp` (R134) performs an instruction fence (R140). -/
def execFjmp (disp : BitVec 18) (s : State) : Out := branch s [] [] disp (fun _ _ _ => true) (fun s _ => s) .jump true

/-- A word that a register jump may take as its target (R130, R135; R301 in handler mode). -/
def jumpOk (h : Here) (w : Word) : Bool :=
  w.extractLsb' 18 14 = 0 && (w.extractLsb' 10 8).toNat ≤ (if h.handler then 0 else h.l.codeCount)

/-- A register jump (R135). -/
def regJump (s : State) (named : List Reg) (a : Reg) (pre : State → Here → State) (go : CodeAddr → Goto) (fence : Bool := false) : Out :=
  withHere s fun h => checked s h named [a] (transfers s h
    (if h.lanes.all (fun l => jumpOk h (s.reg h l a)) then
      .next ((pre s h).leave (h.fenced fence) [a] (fun l => go (CodeAddr.of (s.reg h l a))))
    else trap s h kState))

/-- `jr` (R135). -/
def execJr (a : Reg) (s : State) : Out := regJump s [a] a (fun s _ => s) .jump
/-- `fjr` (R135, R140). -/
def execFjr (a : Reg) (s : State) : Out := regJump s [a] a (fun s _ => s) .jump true
/-- `callr` (R135). -/
def execCallr (d a : Reg) (s : State) : Out := regJump s [d, a] a (fun s h => s.writeLink h d) .call

/-- The check of `hloop` in one lane, for an end offset `e` (R141). -/
def loopFits (s : State) (h : Here) (a : Reg) (e : Int) (l : Nat) : Bool :=
  let ls := (s.thread (h.tk l)).loops
  e ≤ 1023 && !(e = 1023 && s.reg h l a = 0) && ls.length < 2 && ls.all (fun v => e ≤ v.stop.toNat)

/-- `hloop` (R141). -/
def execHloop (a : Reg) (disp : BitVec 18) (s : State) : Out :=
  withHere s fun h => checked s h [a] [a] (transfers s h (
    let p := h.frag.pc.off
    let e : Int := p.toNat + 1 + disp.toInt
    if disp.toInt < 0 || !h.lanes.all (loopFits s h a e) then trap s h kState
    else
      let stop := BitVec.ofNat 10 e.toNat
      let s1 := h.lanes.foldl (fun t l => if s.reg h l a = 0 then t else
        t.modThread (h.tk l) (fun th => { th with loops := { start := p + 1, stop := stop, count := s.reg h l a } :: th.loops })) s
      .next (s1.leave h [a] (fun l => if s.reg h l a = 0 then .jump { h.frag.pc with off := stop + 1 } else .seq))))

end Sys2Proof.Machine
end

