-- ==== Sys2Proof/Machine/Int.lean ====
section
/-! DEFINITION. Integer instructions, immediate forms and constants (R110-R115). -/

namespace Sys2Proof.Machine

/-- s(x) clamped to the s32 range, and whether it was clamped (R111). -/
def clampWord (x : Int) : Word × Ev :=
  if x < -(2 ^ 31) then (0x80000000, evSat) else if 2 ^ 31 - 1 < x then (0x7FFFFFFF, evSat) else (BitVec.ofInt 32 x, evNone)
def minS (a b : Word) : Word := if b.slt a then b else a
def maxS (a b : Word) : Word := if a.slt b then b else a
def minZ (a b : Word) : Word := if b.ult a then b else a
def maxZ (a b : Word) : Word := if a.ult b then b else a
/-- Shifts by the whole count (R110). -/
def shlW (a b : Word) : Word := if b.toNat < 32 then a <<< b.toNat else 0
def shrzW (a b : Word) : Word := if b.toNat < 32 then a >>> b.toNat else 0
def shrsW (a b : Word) : Word := a.sshiftRight (min b.toNat 31)
/-- Bits 63:32 of the signed and of the unsigned product (R110). -/
def mulhsW (a b : Word) : Word := BitVec.ofInt 32 ((a.toInt * b.toInt) / 2 ^ 32)
def mulhzW (a b : Word) : Word := BitVec.ofNat 32 (a.toNat * b.toNat / 2 ^ 32)
/-- Number of leading zero bits, of one bits, and the reversed word (R111). -/
def clzW (a : Word) : Word := wd (if a = 0 then 32 else 31 - Nat.log2 a.toNat)
def popcW (a : Word) : Word := wd (lanesOf a).length
def brevW (a : Word) : Word := (lanesOf a).foldl (fun m j => m ||| bit (31 - j)) 0
/-- bf.len + 1 and bf.pos of a control word (R112). -/
def bfLen (b : Word) : Nat := (b.extractLsb' 8 5).toNat + 1
def bfPos (b : Word) : Nat := (b.extractLsb' 0 5).toNat
def bfxzW (a b : Word) : Word := wd (a.toNat / 2 ^ bfPos b % 2 ^ bfLen b)
def bfxsW (a b : Word) : Word :=
  let t : Int := (a.toInt / 2 ^ bfPos b) % 2 ^ bfLen b
  BitVec.ofInt 32 (if bfLen b < 32 && 2 ^ (bfLen b - 1) ≤ t then t - 2 ^ bfLen b else t)
def bfiW (dv a b : Word) : Word :=
  let m : Word := wd (2 ^ bfLen b - 1) <<< bfPos b
  (dv &&& ~~~m) ||| ((a <<< bfPos b) &&& m)
def addssW (a b : Word) : Word × Ev := clampWord (a.toInt + b.toInt)
def subssW (a b : Word) : Word × Ev := clampWord (a.toInt - b.toInt)
/-- Folded minimum and maximum over the exact sum (R113). -/
def addminW (dv a b : Word) : Word × Ev := clampWord (min dv.toInt (a.toInt + b.toInt))
def addmaxW (dv a b : Word) : Word × Ev := clampWord (max dv.toInt (a.toInt + b.toInt))
def absdW (a b : Word) : Word := wd (a.toInt - b.toInt).natAbs
/-- Divisions and remainders with the corner cases of R113. -/
def divsW (a b : Word) : Word × Ev :=
  if b = 0 then (0xFFFFFFFF, evDivZero) else if a = 0x80000000 && b = 0xFFFFFFFF then (0x80000000, evIntOver)
  else (BitVec.ofInt 32 (Int.tdiv a.toInt b.toInt), evNone)
def divzW (a b : Word) : Word × Ev := if b = 0 then (0xFFFFFFFF, evDivZero) else (wd (a.toNat / b.toNat), evNone)
def remsW (a b : Word) : Word × Ev := if b = 0 then (a, evDivZero) else (BitVec.ofInt 32 (Int.tmod a.toInt b.toInt), evNone)
def remzW (a b : Word) : Word × Ev := if b = 0 then (a, evDivZero) else (wd (a.toNat % b.toNat), evNone)

/-- `add` (R110). -/
def execAdd (d a b : Reg) (s : State) : Out := dab s d a b (fun x y => x + y)

/-- `sub` (R110). -/
def execSub (d a b : Reg) (s : State) : Out := dab s d a b (fun x y => x - y)

/-- `mul` (R110). -/
def execMul (d a b : Reg) (s : State) : Out := dab s d a b (fun x y => x * y)

/-- `mulhs` (R110). -/
def execMulhs (d a b : Reg) (s : State) : Out := dab s d a b mulhsW

/-- `mulhz` (R110). -/
def execMulhz (d a b : Reg) (s : State) : Out := dab s d a b mulhzW

/-- `and` (R110). -/
def execAnd (d a b : Reg) (s : State) : Out := dab s d a b (fun x y => x &&& y)

/-- `or` (R110). -/
def execOr (d a b : Reg) (s : State) : Out := dab s d a b (fun x y => x ||| y)

/-- `xor` (R110). -/
def execXor (d a b : Reg) (s : State) : Out := dab s d a b (fun x y => x ^^^ y)

/-- `andn` (R110). -/
def execAndn (d a b : Reg) (s : State) : Out := dab s d a b (fun x y => x &&& ~~~y)

/-- `shl` (R110). -/
def execShl (d a b : Reg) (s : State) : Out := dab s d a b shlW

/-- `shrz` (R110). -/
def execShrz (d a b : Reg) (s : State) : Out := dab s d a b shrzW

/-- `shrs` (R110). -/
def execShrs (d a b : Reg) (s : State) : Out := dab s d a b shrsW

/-- `mins` (R110). -/
def execMins (d a b : Reg) (s : State) : Out := dab s d a b minS

/-- `maxs` (R110). -/
def execMaxs (d a b : Reg) (s : State) : Out := dab s d a b maxS

/-- `minz` (R110). -/
def execMinz (d a b : Reg) (s : State) : Out := dab s d a b minZ

/-- `maxz` (R110). -/
def execMaxz (d a b : Reg) (s : State) : Out := dab s d a b maxZ

/-- `seq` (R111). -/
def execSeq (d a b : Reg) (s : State) : Out := dab s d a b (fun x y => flagWord (x == y))

/-- `sne` (R111). -/
def execSne (d a b : Reg) (s : State) : Out := dab s d a b (fun x y => flagWord (x != y))

/-- `slts` (R111). -/
def execSlts (d a b : Reg) (s : State) : Out := dab s d a b (fun x y => flagWord (x.slt y))

/-- `sltz` (R111). -/
def execSltz (d a b : Reg) (s : State) : Out := dab s d a b (fun x y => flagWord (x.ult y))

/-- `sles` (R111). -/
def execSles (d a b : Reg) (s : State) : Out := dab s d a b (fun x y => flagWord (x.sle y))

/-- `slez` (R111). -/
def execSlez (d a b : Reg) (s : State) : Out := dab s d a b (fun x y => flagWord (x.ule y))

/-- `sel` (R111). -/
def execSel (d a b : Reg) (s : State) : Out := dDab s d a b (fun v x y => if x ≠ 0 then y else v)

/-- `clz` (R111). -/
def execClz (d a : Reg) (s : State) : Out := da s d a clzW

/-- `popc` (R111). -/
def execPopc (d a : Reg) (s : State) : Out := da s d a popcW

/-- `brev` (R111). -/
def execBrev (d a : Reg) (s : State) : Out := da s d a brevW

/-- `bfxs` (R112). -/
def execBfxs (d a b : Reg) (s : State) : Out := dab s d a b bfxsW

/-- `bfxz` (R112). -/
def execBfxz (d a b : Reg) (s : State) : Out := dab s d a b bfxzW

/-- `bfi` (R112). -/
def execBfi (d a b : Reg) (s : State) : Out := dDab s d a b bfiW

/-- `addss` (R111). -/
def execAddss (d a b : Reg) (s : State) : Out := dabE s d a b addssW

/-- `subss` (R111). -/
def execSubss (d a b : Reg) (s : State) : Out := dabE s d a b subssW

/-- `mac` (R111). -/
def execMac (d a b : Reg) (s : State) : Out := dDab s d a b (fun v x y => v + x * y)

/-- `addmin` (R113). -/
def execAddmin (d a b : Reg) (s : State) : Out := dDabE s d a b addminW

/-- `addmax` (R113). -/
def execAddmax (d a b : Reg) (s : State) : Out := dDabE s d a b addmaxW

/-- `absd` (R113). -/
def execAbsd (d a b : Reg) (s : State) : Out := dab s d a b absdW

/-- `divs` (R113). -/
def execDivs (d a b : Reg) (s : State) : Out := dabE s d a b divsW

/-- `divz` (R113). -/
def execDivz (d a b : Reg) (s : State) : Out := dabE s d a b divzW

/-- `rems` (R113). -/
def execRems (d a b : Reg) (s : State) : Out := dabE s d a b remsW

/-- `remz` (R113). -/
def execRemz (d a b : Reg) (s : State) : Out := dabE s d a b remzW

/-- `addi` (R114). -/
def execAddi (d a : Reg) (imm : BitVec 11) (s : State) : Out := dak s d a (sx11 imm) (fun x y => x + y)

/-- `muli` (R114). -/
def execMuli (d a : Reg) (imm : BitVec 11) (s : State) : Out := dak s d a (sx11 imm) (fun x y => x * y)

/-- `andi` (R114). -/
def execAndi (d a : Reg) (imm : BitVec 11) (s : State) : Out := dak s d a (zx11 imm) (fun x y => x &&& y)

/-- `ori` (R114). -/
def execOri (d a : Reg) (imm : BitVec 11) (s : State) : Out := dak s d a (zx11 imm) (fun x y => x ||| y)

/-- `xori` (R114). -/
def execXori (d a : Reg) (imm : BitVec 11) (s : State) : Out := dak s d a (zx11 imm) (fun x y => x ^^^ y)

/-- `shli` (R114). -/
def execShli (d a : Reg) (imm : BitVec 5) (s : State) : Out := dak s d a (zx5 imm) shlW

/-- `shrzi` (R114). -/
def execShrzi (d a : Reg) (imm : BitVec 5) (s : State) : Out := dak s d a (zx5 imm) shrzW

/-- `shrsi` (R114). -/
def execShrsi (d a : Reg) (imm : BitVec 5) (s : State) : Out := dak s d a (zx5 imm) shrsW

/-- `sltsi` (R114). -/
def execSltsi (d a : Reg) (imm : BitVec 11) (s : State) : Out := dak s d a (sx11 imm) (fun x y => flagWord (x.slt y))

/-- `sltzi` (R114). -/
def execSltzi (d a : Reg) (imm : BitVec 11) (s : State) : Out := dak s d a (zx11 imm) (fun x y => flagWord (x.ult y))

/-- `seqi` (R114). -/
def execSeqi (d a : Reg) (imm : BitVec 11) (s : State) : Out := dak s d a (sx11 imm) (fun x y => flagWord (x == y))

/-- `minsi` (R114). -/
def execMinsi (d a : Reg) (imm : BitVec 11) (s : State) : Out := dak s d a (sx11 imm) minS

/-- `maxsi` (R114). -/
def execMaxsi (d a : Reg) (imm : BitVec 11) (s : State) : Out := dak s d a (sx11 imm) maxS

/-- `addmini` (R114). -/
def execAddmini (d a : Reg) (imm : BitVec 11) (s : State) : Out := 
  produceAll s [d, a] [d, a] d (fun s h l => (addminW (s.reg h l d) (s.reg h l a) (sx11 imm)).1)
    (fun s h => h.laneEvents (fun l => (addminW (s.reg h l d) (s.reg h l a) (sx11 imm)).2))

/-- `li` (R115). -/
def execLi (d : Reg) (imm : BitVec 18) (s : State) : Out := produceAll s [d] [] d (fun _ _ _ => sx18 imm) noEvents

/-- `lih` (R115). -/
def execLih (d : Reg) (imm : BitVec 18) (s : State) : Out := produceAll s [d] [d] d (fun s h l => imm ++ (s.reg h l d).extractLsb' 0 14) noEvents

end Sys2Proof.Machine
end

