-- ==== Sys2Proof/Machine/Memory.lean ====
section
/-! DEFINITION. M-format accesses and fences (R174-R187): loads, stores, transfers, atomics, granules and the wait on a word. -/

namespace Sys2Proof.Machine

/-! ## Shared steps -/

/-- Formats of `ld` and `st`, and of word accesses (R175). -/
def fmtLd (f : Nat) : Bool := (4 ≤ f && f ≤ 8) || (11 ≤ f && f ≤ 18)
def fmtWord (f : Nat) : Bool := f = 16 || f = 17

/-- Locate of one lane with the checks of R175 and R161. -/
def State.spot (s : State) (h : Here) (r : Rec) (i : Nat) (acc : Access) (fmtOk needPad : Bool) : Except LocFault (Option (List Loc)) :=
  if !fmtOk then .error { kind := kRecord, detail := 0, va := 0, acc := acc }
  else match s.locate h.actor r i acc with
    | .error f => .error f
    | .ok none => .ok none
    | .ok (some ls) => if needPad && !ls.all Loc.isPad then .error { kind := kState, detail := 0, va := 0, acc := acc } else .ok (some ls)

/-- Locate in lanes in ascending order (R174): the lowest faulting lane and its fault, or every lane's unit. -/
def State.spots (s : State) (h : Here) (r : Rec) (idx : Nat → Nat) (acc : Access) (fmtOk needPad : Bool) : List Nat → Except (Nat × LocFault) (List Spot)
  | [] => .ok []
  | l :: rest => match s.spot h r (idx l) acc fmtOk needPad with
    | .error f => .error (l, f)
    | .ok ls => match s.spots h r idx acc fmtOk needPad rest with
      | .error e => .error e
      | .ok more => .ok ({ lane := l, locs := ls } :: more)

/-- What the walks of lanes' units leave behind (R338, R341). -/
def State.noteSpots (s : State) (h : Here) (r : Rec) (idx : Nat → Nat) (acc : Access) (ls : List Nat) : State :=
  s.noteWalks h.actor (ls.flatMap (fun l => s.unitVas h.actor r (idx l / r.rowlen) (unitIndex r.fmt (idx l % r.rowlen)) (unitSize r.fmt) acc))

/-- The trap of a fault of Locate in a lane (R176, R298). -/
def trapLoc (s : State) (h : Here) (e : Nat × LocFault) (xfer : Nat) : Out :=
  if e.2.kind = kDet then .next (s.takeTrap h { h.cause kDet 0 with xfer := xfer })
  else .next (s.takeTrap h { h.cause e.2.kind e.2.detail with fault := bit e.1, va := e.2.va, acc := e.2.acc.code, xfer := xfer })

/-- The lowest lane whose unit cannot be read (R176). -/
def State.badLane (s : State) (who : Actor) (sp : List Spot) : Option Nat :=
  (sp.find? (fun p => (p.locs.getD []).any (s.unreadable who))).map (·.lane)

/-- Requests for bytes of other devices that reads of lanes send (R338). -/
def State.askAll (s : State) (h : Here) (sp : List Spot) : State := sp.foldl (fun s p => s.askRemote h.actor (p.locs.getD [])) s

/-- Lanes take what other devices have answered. -/
def State.takeAnswers (s : State) (h : Here) (sp : List Spot) : State := s.dropAsks h.actor.part (sp.flatMap (fun p => p.locs.getD []))

/-- Reads of lanes await the bytes of other devices: the fragment asks for them and waits until they have come (R338, R367). -/
def awaited (s : State) (h : Here) (sp : List Spot) (k : Out) : Out :=
  if sp.any (fun p => s.lacks h.actor (p.locs.getD [])) then .next ((s.askAll h sp).await h) else k

/-- The uncorrectable-error trap of a lane (R176). -/
def trapBad (s : State) (h : Here) (l : Nat) (va : BitVec 64) (acc : Access) (xfer : Nat) : Out :=
  .next (s.takeTrap h { h.cause kUncorr 0 with fault := bit l, va := va, acc := acc.code, xfer := xfer })

/-- The virtual or on-chip address of an element (tr.va). -/
def State.elementVa (s : State) (h : Here) (r : Rec) (i : Nat) : BitVec 64 :=
  let row := i / r.rowlen
  let n := unitIndex r.fmt (i % r.rowlen)
  match r.offset row n (unitSize r.fmt) with
  | .ok (some _) => s.unitAddr h.actor r row n (unitSize r.fmt) .read
  | _ => 0

/-- The instruction raises the determinism trap under det = 1 where `p` holds (R44). -/
def detStop (s : State) (h : Here) (p : Bool) (k : Out) : Out := if h.l.det && p then trap s h kDet else k

/-- The units that a waiting access located at issue stand for these lanes: each read through a publish record is an access of its own (R172,
R186), and a restored group locates anew on its core (R326). -/
def Here.holdsUnits (h : Here) (ls : List Nat) : Bool :=
  h.frag.kept.any (fun x => x.1.publish = 0 && ls.all (fun l => x.2.any (fun p => p.lane = l)))

/-- Locate every lane of `ls`, trapping on the lowest fault; a waiting access keeps the record and the units of its issue (R174). -/
def located (s : State) (h : Here) (slot : BitVec 5) (a : Reg) (acc : Access) (fmtOk : Nat → Bool) (needPad : Bool) (ls : List Nat)
    (k : State → Rec → List Spot → Out) : Out :=
  let r := (h.frag.kept.map (·.1)).getD (h.g.shapeRec slot.toNat)
  if h.holdsUnits ls then k s r (((h.frag.kept.map (·.2)).getD []).filter (fun p => ls.contains p.lane))
  else
    let idx := fun l => (s.reg h l a).toNat
    let s1 := s.noteSpots h r idx acc ls
    match s.spots h r idx acc (fmtOk r.fmt) needPad ls with
    | .error e => trapLoc s1 h e 0
    | .ok sp => k s1 r sp

/-- Trap if data of a located unit cannot be read (R176). -/
def readable (s : State) (h : Here) (r : Rec) (a : Reg) (acc : Access) (sp : List Spot) (k : Out) : Out :=
  awaited s h sp (match s.badLane h.actor sp with
    | some l => trapBad (s.takeAnswers h sp) h l (s.elementVa h r (s.reg h l a).toNat) acc 0
    | none => k)

/-- Widen of R175. -/
def widenUnit (fmt v : Nat) : Word :=
  if fmt = 11 || fmt = 13 then (BitVec.ofNat 8 v).signExtend 32 else wd v

/-- The value that a located unit reads. -/
def State.spotRead (s : State) (h : Here) (p : Spot) : Nat := match p.locs with | some ls => s.readNat h.actor ls | none => 0

/-- Value of a lane among results. -/
def laneVal (vs : List (Nat × Word)) (l : Nat) : Word := ((vs.find? (fun p => p.1 = l)).map (·.2)).getD 0

/-- Plain reads of lanes' units: values, and the state after them (R258, R260). -/
def State.plainReads (s : State) (h : Here) (sp : List Spot) : List (Nat × Nat) × State :=
  (sp.map (fun p => (p.lane, match p.locs with | some ls => s.plainNat (h.lane p.lane) ls | none => 0)),
    (sp.foldl (fun t p => t.sawPlain (h.lane p.lane) (p.locs.getD [])) s).useFresh (sp.any (fun p => s.raced (h.lane p.lane) (p.locs.getD []))))

/-- Granule of a unit's first byte (R175). -/
def granuleOf (ls : List Loc) : Nat := (ls.head?.map Loc.granule).getD 0
def State.isFull (s : State) (g : Nat) : Bool := getD false s.full g
def State.setFull (s : State) (g : Nat) (b : Bool) : State := { s with full := put false s.full g b }

/-- Releaser-mark key of a location's line (R269): device lines, then on-chip lines. -/
def Loc.markKey : Loc → Option Nat
  | .dram a => some (lineOf a)
  | .chip c o => some (2 ^ 33 + (2 ^ 20 * c + o) / 128)
  | .remote _ _ => none

/-- Set the releaser mark of a line to a core; a mark of another core is first promoted (R269). -/
def State.setMark (s : State) (core : Nat) (l : Loc) : State :=
  match l.markKey with
  | none => s
  | some k =>
    let m := getD 0 s.marks k
    let s := if m ≠ 0 && m ≠ core + 1 then s.flushCore (m - 1) else s
    { s with marks := put 0 s.marks k (core + 1) }

/-- A promoting acquire of a core at a line (R269). -/
def State.promote (s : State) (core : Nat) (l : Loc) : State :=
  match l.markKey with
  | none => s
  | some k =>
    let m := getD 0 s.marks k
    if m ≠ 0 && m ≠ core + 1 then { s.flushCore (m - 1) with marks := erase s.marks k } else s

/-- Set the marks of a lane's strong write: a core-scope release, or a write after a core-scope release fence (R269). -/
def State.markWrite (s : State) (h : Here) (coreRelease : Bool) (p : Spot) : State :=
  match p.locs with
  | some (l :: _) => if coreRelease || (s.thread (h.tk p.lane)).fences.any (·.1 = .core) then s.setMark h.core l else s
  | _ => s

/-! ## Loads -/

/-- A promoting acquire synchronises with a core-scope release that a lane reads as though it were at device scope: the line's mark names the
releaser's core, or none, since the release has been promoted (R269, R270). -/
def State.promotes (s : State) (h : Here) (scope : Scope) (ls : List Loc) (t : Sync) : Bool :=
  let m := ((ls.head?.bind Loc.markKey).map (getD 0 s.marks)).getD 0
  t.scope = .core && (m = 0 || m = t.core + 1) && h.matches scope { t with scope := .dev }

/-- The releases that a lane's acquire load synchronises with, of those it reads; `s` is the state before promotions (R263, R269). -/
def State.meets (s : State) (h : Here) (ord : LdOrd) (scope : Scope) (ls : List Loc) (ts : List Sync) : List Sync :=
  if ord = .acq || ord = .pacq then ts.filter (fun t => h.matches scope t || (ord = .pacq && s.promotes h scope ls t)) else []

/-- What strong loads of lanes read and acquire, in a state `t` after the promotions (R257, R263, R264). -/
def State.strongLoads (s : State) (h : Here) (ord : LdOrd) (scope : Scope) (sp : List Spot) (t : State) : State :=
  (sp.foldl (fun t p => t.strongRead h p.lane (p.locs.getD [])) t).acquire h
    (sp.flatMap (fun p => s.meets h ord scope (p.locs.getD []) (t.tagsAt (h.lane p.lane) (p.locs.getD []))))

/-- The writes to a granule, which the end of a wait for full comes after (R271). -/
def State.granuleIds (s : State) (g : Nat) : List Nat := ((s.races.filter (fun r => r.loc.isPad && r.loc.granule = g)).map (·.id)).eraseDups

/-- What a waiting load's lane has seen when it is done: the fill's bytes, and what its ordering adds (R271); `s` is the state before promotions. -/
def State.feLoads (s : State) (h : Here) (ord : LdOrd) (scope : Scope) (p : Spot) (t : State) : State :=
  let ls := p.locs.getD []
  let g := granuleOf ls
  let t1 := if (h.lane p.lane).races ls then t.passIds (t.granuleIds g) [.thread (h.tk p.lane)] else t
  if ord = .plain then t1
  else ((t1.strongRead h p.lane ls).noteReads h p.lane (getD [] t.gsync g)).acquire h
    (s.meets h ord scope ls (t.tagsAt (h.lane p.lane) ls ++ getD [] t.gsync g))

/-- A granule becomes full or empty; the releases that the transition makes stand with it (R161, R271). -/
def State.turnGranule (s : State) (g : Nat) (b : Bool) (ts : List Sync) : State := { s.setFull g b with gsync := put [] s.gsync g ts }

/-- Shift the latches of a waiting access's lanes and clear their done marks; their registers were written as each became done (R180). -/
def State.finishDone (s : State) (h : Here) (latch : Bool) : State :=
  h.lanes.foldl (fun s l => s.modThread (h.tk l) (fun t => { t.produce latch t.pend with done := false, pend := 0 })) s

/-- The fragment waits in a waiting access, keeping the record and the units it issued with (R25, R174, R180). -/
def State.awaitAccess (s0 : State) (h : Here) (r : Option (Rec × List Spot)) : State :=
  let s := if h.frag.wait = .access then s0 else s0.modWave h.wk (fun w => { w with issued := s0.now h, yielded := 0 })
  s.modFrag h (fun f => { f with wait := .access, kept := r, t0 := if f.wait = .access then f.t0 else s.now h })

/-- The lanes of a waiting access that are not done. -/
def Here.undone (s : State) (h : Here) : List Nat := h.lanes.filter (fun l => !(s.thread (h.tk l)).done)

/-- A waiting access retires: every lane is done, and no other retirement takes the turn (R180, R379). -/
def Here.over (s : State) (h : Here) : Bool := h.undone s = [] && !h.frag.defer

/-- A lane of a waiting load (R180): it is done where its granule is full, or at once where Locate returned None. -/
def State.feLoadLane (s0 : State) (h : Here) (d : Reg) (fmt : Nat) (take : Bool) (ord : LdOrd) (scope : Scope) (p : Spot) (s : State) : State :=
  match p.locs with
  | none => (s.setReg h p.lane d 0).modThread (h.tk p.lane) (fun t => { t with done := true, pend := 0 })
  | some ls =>
    if s.isFull (granuleOf ls) then
      let v := widenUnit fmt (s.readNat h.actor ls)
      let s := s0.feLoads h ord scope p s
      let s := if take then s.turnGranule (granuleOf ls) false [] else s
      (s.setReg h p.lane d v).modThread (h.tk p.lane) (fun t => { t with done := true, pend := v })
    else s

/-- `ld` (R177-R180). -/
def execLd (d a : Reg) (slot : BitVec 5) (fe : LdFe) (ord : LdOrd) (scope : Scope) (s : State) : Out :=
  withHere s fun h => checked s h [d, a] [a] (notInHandler s h (detStop s h ((fe ≠ .none || ord ≠ .plain) && scope ≠ .core) (
    if fe = .none then
      located s h slot a .read fmtLd false h.lanes fun s r sp =>
        let s0 := if ord = .pacq then sp.foldl (fun s p => (p.locs.getD []).foldl (fun s l => s.promote h.core l) s) s else s
        readable s0 h r a .read sp
          (let (us, s1) := if ord = .plain then s0.plainReads h sp else (sp.map (fun p => (p.lane, s0.spotRead h p)), s.strongLoads h ord scope sp s0)
          let vs := us.map (fun u => (u.1, widenUnit r.fmt u.2))
          .next (((s1.takeAnswers h sp).produce h d (readsLatch [a]) (laneVal vs)).retire h []))
    else
      located s h slot a .read fmtLd true (h.undone s) fun s r sp =>
        let s0 := if ord = .pacq then sp.foldl (fun s p => (p.locs.getD []).foldl (fun s l => s.promote h.core l) s) s else s
        let s1 := sp.foldl (fun t p => State.feLoadLane s h d r.fmt (fe = .wft) ord scope p t) s0
        if h.over s1 then .next ((s1.finishDone h (readsLatch [a])).retire h [])
        else .next (s1.awaitAccess h (some (r, sp))))))

/-! ## Stores -/

/-- A store of the low bytes of a word to a lane's located unit: plain and core-scope stores to device memory enter the store buffer unless
the record bypasses it (R166, R167). Plain stores find their place among the writes that they race with (R259, R260); `first` is the number of
the instruction's first write. -/
def State.storeLane (s : State) (h : Here) (r : Rec) (kind : WriteKind) (rel : Option Scope) (buffer : Bool) (first : Nat) (v : Word) (p : Spot) : State :=
  match p.locs with
  | none => s
  | some ls =>
    let who := h.lane p.lane
    let direct := fun (s : State) =>
      if kind = .plain then (if who.races ls then s.plainWrite who first v.toNat ls else s.writeNat who v.toNat ls) else s.laneWrite h p.lane kind rel v.toNat ls
    match ls with
    | .dram a :: _ =>
      if buffer && r.policy % 8 < 4 && ls.length ≠ 3 then
        (if who.races ls then (s.enroll h p.lane kind rel ls).bufferStore who v.toNat a ls.length s.wnum else s.bufferStore who v.toNat a ls.length 0)
      else direct (s.flushCore h.core)
    | _ => direct s

/-- Plain stores of lanes, in ascending order (R178, R259). -/
def State.plainStores (s : State) (h : Here) (r : Rec) (v : Nat → Word) (sp : List Spot) : State :=
  (sp.foldl (fun t p => t.storeLane h r .plain none true s.wnum (v p.lane) p) s).useFresh
    (sp.any (fun p => (p.locs.getD []).all Loc.isPad && s.raced (h.lane p.lane) (p.locs.getD [])))

/-- The kind of a store's writes and the scope of their release (R257). -/
def storeKind (ord : StOrd) : WriteKind := if ord = .plain then .plain else .strong
def storeScope (ord : StOrd) (scope : Scope) : Option Scope := if ord = .rel then some scope else none

/-- The releases that a store of a lane makes. -/
def State.storeReleases (s : State) (h : Here) (l : Nat) (ord : StOrd) (scope : Scope) : List Sync :=
  if ord = .plain then [] else s.releasesOf h l (storeScope ord scope) s.wnum

/-- A lane of a wait-empty-then-fill store (R180). -/
def State.feStoreLane (s : State) (h : Here) (d : Reg) (ord : StOrd) (scope : Scope) (p : Spot) : State :=
  match p.locs with
  | none => s.modThread (h.tk p.lane) (fun t => { t with done := true })
  | some ls =>
    if s.isFull (granuleOf ls) then s
    else ((s.laneWrite h p.lane (storeKind ord) (storeScope ord scope) (s.reg h p.lane d).toNat ls).turnGranule (granuleOf ls) true (s.storeReleases h p.lane ord scope)).modThread
      (h.tk p.lane) (fun t => { t with done := true })

/-- A lane of a store: a set-full one fills its granule after its bytes (R178, R179). -/
def State.stLane (s : State) (h : Here) (r : Rec) (fe : StFe) (ord : StOrd) (scope : Scope) (first : Nat) (v : Word) (p : Spot) : State :=
  let s1 := s.storeLane h r (storeKind ord) (storeScope ord scope) (ord = .plain || scope = .core) first v p
  match p.locs with
  | some ls => if fe = .sf then s1.turnGranule (granuleOf ls) true (s.storeReleases h p.lane ord scope) else s1
  | none => s1

/-- Clear the done marks of a waiting store's lanes. -/
def State.clearDone (s : State) (h : Here) : State := h.lanes.foldl (fun s l => s.modThread (h.tk l) (fun t => { t with done := false, pend := 0 })) s

/-- `st` (R178-R180). -/
def execSt (d a : Reg) (slot : BitVec 5) (fe : StFe) (ord : StOrd) (scope : Scope) (s : State) : Out :=
  withHere s fun h => checked s h [d, a] [d, a] (notInHandler s h (detStop s h ((fe ≠ .none || ord ≠ .plain) && scope ≠ .core) (
    let perform := fun (s : State) => if ord = .rel && scope ≠ .core then s.flushCore h.core else s
    let mark := fun (s : State) (sp : List Spot) => if ord = .plain then s else sp.foldl (fun s p => s.markWrite h (ord = .rel && scope = .core) p) s
    if fe ≠ .wef then
      located s h slot a .write fmtLd (fe ≠ .none) h.lanes fun s r sp =>
        let s1 := if ord = .plain && fe = .none then s.plainStores h r (fun l => s.reg h l d) sp
          else (sp.foldl (fun t p => t.stLane h r fe ord scope s.wnum (s.reg h p.lane d) p) (perform s)).useFresh
            (ord = .plain && sp.any (fun p => s.raced (h.lane p.lane) (p.locs.getD [])))
        .next ((mark s1 sp).leave h [d, a] (fun _ => .seq))
    else
      located s h slot a .write fmtLd true (h.undone s) fun s r sp =>
        let s1 := sp.foldl (fun s p => s.feStoreLane h d ord scope p) (perform s)
        let s2 := mark s1 (sp.filter (fun p => (s1.thread (h.tk p.lane)).done))
        if h.over s2 then .next ((s2.clearDone h).leave h [d, a] (fun _ => .seq)) else .next (s2.awaitAccess h (some (r, sp))))))

/-! ## Multi-register transfers (R181) -/

/-- Register `d + j`. -/
def regPlus (d : Reg) (j : Nat) : Reg := BitVec.ofNat 7 (d.toNat + j)

/-- Transfer registers `j` to `j + n - 1` in every active lane, one register at a time. A fault at a register keeps what the earlier
ones did and traps with its number. -/
def transfer (h : Here) (load : Bool) (d a : Reg) (r : Rec) : Nat → Nat → State → Out
  | 0, _, s => .next ((s.unproduce h (readsLatch [a])).retire h [])
  | n + 1, j, s =>
    let idx := fun l => (s.reg h l a + wd j).toNat
    let acc := if load then Access.read else .write
    let s := s.noteSpots h r idx acc h.lanes
    let at' := s.modFrag h (fun f => { f with xfer := j })
    match s.spots h r idx acc (fmtWord r.fmt) false h.lanes with
    | .error e => trapLoc at' h e j
    | .ok sp =>
      if load then
        awaited at' h sp (match s.badLane h.actor sp with
        | some l => trapBad (at'.takeAnswers h sp) h l (s.elementVa h r (idx l)) acc j
        | none =>
          let (vs, s1) := s.plainReads h sp
          transfer h load d a r n (j + 1) (vs.foldl (fun t v => t.setReg h v.1 (regPlus d j) (wd v.2)) (s1.takeAnswers h sp)))
      else transfer h load d a r n (j + 1) (s.plainStores h r (fun l => s.reg h l (regPlus d j)) sp)

/-- The registers of a transfer. -/
def transferRegs (d : Reg) (count : BitVec 6) : List Reg := (List.range (count.toNat + 1)).map (regPlus d)

/-- `ldm` (R181). -/
def execLdm (d a : Reg) (slot : BitVec 5) (count : BitVec 6) (s : State) : Out :=
  withHere s fun h => checked s h (transferRegs d count ++ [a]) [a] (notInHandler s h
    (transfer h true d a (h.g.shapeRec slot.toNat) (count.toNat + 1 - h.frag.xfer) h.frag.xfer s))
/-- `stm` (R181). -/
def execStm (d a : Reg) (slot : BitVec 5) (count : BitVec 6) (s : State) : Out :=
  withHere s fun h => checked s h (transferRegs d count ++ [a]) [a] (notInHandler s h
    (transfer h false d a (h.g.shapeRec slot.toNat) (count.toNat + 1 - h.frag.xfer) h.frag.xfer s))

/-! ## Atomics (R182-R184) -/

/-- The new word of an atomic, none where nothing is written, and its events (R183). -/
def atomNew (fn : AtomFn) (old v w : Word) : Option Word × Ev :=
  match fn with
  | .add => (some (old + v), evNone)
  | .and => (some (old &&& v), evNone)
  | .or => (some (old ||| v), evNone)
  | .xor => (some (old ^^^ v), evNone)
  | .mins => (some (minS old v), evNone)
  | .maxs => (some (maxS old v), evNone)
  | .minz => (some (minZ old v), evNone)
  | .maxz => (some (maxZ old v), evNone)
  | .xchg => (some v, evNone)
  | .cas => (if old = v then some w else none, evNone)
  | .fadd => let r := fp2 f32.add old v; (some r.1, r.2)

/-- One lane's read-modify-write: the state after it, the old word and the events. One that writes nothing is a strong read (R257); `atoma`
acquires and releases only where it writes (R182). -/
def State.atomLane (s : State) (h : Here) (fn : AtomFn) (v w : Word) (syncs : Option Scope) (p : Spot) : State × Word × Ev :=
  match p.locs with
  | none => (s, 0, evNone)
  | some ls =>
    let old := wd (s.readNat h.actor ls)
    let s1 := s.strongRead h p.lane ls
    match atomNew fn old v w with
    | (some x, ev) =>
      let s2 := match syncs with | some sc => s1.acquire h ((s.tagsAt (h.lane p.lane) ls).filter (h.matches sc)) | none => s1
      (((s2.laneWrite h p.lane .rmw syncs x.toNat ls).markWrite h (syncs = some .core) p), old, ev)
    | (none, ev) => (s1, old, ev)

/-- Lanes one after another in ascending order (R184). -/
def State.atomLanes (h : Here) (fn : AtomFn) (v w : Nat → Word) (syncs : Option Scope) : List Spot → State → State × List (Nat × Word) × List Ev
  | [], s => (s, [], [])
  | p :: rest, s =>
    let (s1, old, ev) := s.atomLane h fn (v p.lane) (w p.lane) syncs p
    let (s2, olds, evs) := State.atomLanes h fn v w syncs rest s1
    (s2, (p.lane, old) :: olds, ev :: evs)

/-- The shared body of `atom` and `atoma`; `syncs` is the scope at which `atoma` acquires and releases. -/
def atomic (d a : Reg) (slot : BitVec 5) (fn : AtomFn) (syncs : Option Scope) (s : State) : Out :=
  let regs := if fn = .cas then [d, a, regPlus d 1] else [d, a]
  withHere s fun h => checked s h regs regs (notInHandler s h (detStop s h true (
    located s h slot a .rmw fmtWord false h.lanes fun s r sp => readable s h r a .rmw sp (
      let s0 := (s.flushCore h.core).takeAnswers h sp
      let (s1, olds, evs) := State.atomLanes h fn (fun l => s.reg h l d) (fun l => s.reg h l (regPlus d 1)) syncs sp s0
      .next ((s1.produce h d (readsLatch regs) (laneVal olds)).retire h (countEvents evs))))))

/-- `atom` (R182). -/
def execAtom (d a : Reg) (slot : BitVec 5) (fn : AtomFn) (_scope : Scope) (s : State) : Out := atomic d a slot fn none s
/-- `atoma` (R182): an acquire and a release at its scope. -/
def execAtoma (d a : Reg) (slot : BitVec 5) (fn : AtomFn) (scope : Scope) (s : State) : Out := atomic d a slot fn (some scope) s

/-! ## Granules (R185) -/

/-- `feset` (R185). -/
def execFeset (a : Reg) (slot : BitVec 5) (scope : Scope) (s : State) : Out :=
  withHere s fun h => checked s h [a] [a] (notInHandler s h (detStop s h (scope ≠ .core) (
    located s h slot a .write (fun _ => true) true h.lanes fun s _ sp =>
      let s1 := sp.foldl (fun s p => match p.locs with
        | some ls => ((s.release h p.lane (some scope)).turnGranule (granuleOf ls) true (s.releasesOf h p.lane (some scope) s.wnum)).markWrite h (scope = .core) p
        | none => s) (if scope = .core then s else s.flushCore h.core)
      .next (s1.leave h [a] (fun _ => .seq)))))
/-- `feclr` (R185). -/
def execFeclr (a : Reg) (slot : BitVec 5) (scope : Scope) (s : State) : Out :=
  withHere s fun h => checked s h [a] [a] (notInHandler s h (detStop s h (scope ≠ .core) (
    located s h slot a .write (fun _ => true) true h.lanes fun s _ sp =>
      let s1 := sp.foldl (fun s p => match p.locs with
        | some ls => ((s.release h p.lane none).turnGranule (granuleOf ls) false (s.releasesOf h p.lane none s.wnum)).markWrite h false p
        | none => s) s
      .next (s1.leave h [a] (fun _ => .seq)))))
/-- `fetest` (R185). -/
def execFetest (d a : Reg) (slot : BitVec 5) (scope : Scope) (s : State) : Out :=
  withHere s fun h => checked s h [d, a] [a] (notInHandler s h (detStop s h (scope ≠ .core) (
    located s h slot a .read (fun _ => true) true h.lanes fun s _ sp =>
      let vs := sp.map (fun p => (p.lane, match p.locs with | some ls => flagWord (s.isFull (granuleOf ls)) | none => 0))
      let s1 := sp.foldl (fun t p => match p.locs with | some ls => t.noteReads h p.lane (getD [] s.gsync (granuleOf ls)) | none => t) s
      .next ((s1.produce h d (readsLatch [a]) (laneVal vs)).retire h []))))

/-! ## Waiting on a word (R186) -/

/-- The word of a located unit as a poll reads it: at a scope above core, without the stores that its own core still buffers (R186). -/
def State.pollRead (s : State) (h : Here) (scope : Scope) (p : Spot) : Word :=
  wd (if scope = .core then s.spotRead h p else { s with sbuf := [] }.spotRead h p)

/-- The reads of the lanes that are not done: a lane is done where its word differs from its expected value. -/
def State.wneLanes (s : State) (h : Here) (d : Reg) (scope : Scope) (sp : List Spot) (timeout : Bool) : State :=
  sp.foldl (fun s p =>
    let w := s.pollRead h scope p
    if timeout || p.locs.isNone || w ≠ s.reg h p.lane d then
      (s.strongRead h p.lane (p.locs.getD [])).modThread (h.tk p.lane) (fun t => { t with done := true, pend := w }) else s) s

/-- One poll of `wne`, or its timeout. At issue, a scope above core performs what its core buffers, so that each later poll meets the
writes performed at its scope and no others (R186). -/
def wneStep (d a : Reg) (slot : BitVec 5) (scope : Scope) (timeout : Bool) (s : State) : Out :=
  withHere s fun h => checked s h [d, a] [d, a] (notInHandler s h (detStop s h true (
    located s h slot a .read fmtWord false (h.undone s) fun s r sp => readable s h r a .read sp (
      let s0 := if scope = .core || h.frag.wait = .access then s else s.flushCore h.core
      let s1 := (s0.wneLanes h d scope sp timeout).takeAnswers h sp
      if h.undone s1 = [] then
        .next (((s1.produce h d (readsLatch [d, a]) (fun l => (s1.thread (h.tk l)).pend)).clearDone h).retire h [])
      else .next (s1.awaitAccess h (some (r, sp)))))))

/-- `wne` (R186). -/
def execWne (d a : Reg) (slot : BitVec 5) (scope : Scope) (s : State) : Out := wneStep d a slot scope false s

/-- Frequencies of R5 in MHz, by operating-point index. -/
def mhzOf (i : Nat) : Nat := [700, 850, 950, 1050, 1250, 1400, 1550, 1750].getD i 1400
/-- The timeslice of a core in its cycles, at the rate that the throttle leaves (R31, R294, R358). -/
def State.sliceCycles (s : State) (core : Nat) : Nat :=
  (s.core core).tslice.toNat * mhzOf (s.cluster (clusterOf core)).cur.toNat / (if s.throttle.on then 4 else 1)

/-- The `wne` that a fragment waits in. -/
def State.wneAt (s : State) (h : Here) : Option (Reg × Reg × BitVec 5 × Scope) :=
  if h.frag.wait ≠ .access || h.frag.mode ≠ .user then none
  else match decode (s.wordAt h h.frag.pc false) with
    | .ok (.wne d a slot scope) => some (d, a, slot, scope)
    | _ => none

/-- The timeout of a waiting `wne` has passed. -/
def State.wneExpired (s : State) (h : Here) : Bool := (s.wneAt h).isSome && h.frag.t0 + s.sliceCycles h.core ≤ s.now h

/-- WNE_TIMEOUT (R186): the fragment resumes with the words that its lanes read. -/
def execWneTimeout (core slot wave : Nat) (lanes : Mask) (s : State) : Out :=
  let s1 := { s with cur := { core := core, slot := slot, wave := wave, lanes := lanes } }
  match s1.here with
  | none => .next s
  | some h => match s1.wneAt h with
    | some (d, a, sl, scope) => if s1.wneExpired h then wneStep d a sl scope true s1 else .next s
    | none => .next s

/-! ## Fences (R187) -/

/-- Acquire at a fence: from the releases that each lane has read strongly (R263), and from earlier `fence.ar` (R268). -/
def State.fenceAcquire (s : State) (h : Here) (kind : FenceKind) (scope : Scope) : State :=
  let s1 := s.acquire h ((h.lanes.flatMap (fun l => (s.thread (h.tk l)).reads)).filter (h.matches scope))
  if kind = .ar then
    { s1 with writes := s1.writes.map (fun x => if x.2.fars.any (h.matches scope) then (x.1, { x.2 with known := (h.agents ++ x.2.known).eraseDups }) else x) }
  else s1

/-- Release at a fence: the strong writes that follow it in each lane release what it covers now, in place of what an earlier fence at the
scope did (R263); `fence.ar` marks its lanes' writes (R268). -/
def State.fenceRelease (s : State) (h : Here) (kind : FenceKind) (scope : Scope) : State :=
  let n := s.wnum
  let t : Sync := { num := n, thread := 128 * h.gk, core := h.core, part := h.l.part, scope := scope }
  let s1 := { s.passAll h.owns [.sync n] with wnum := n + 1 }
  let s2 := if kind = .ar then { s1 with writes := s1.writes.map (fun x => if h.owns x.2.agent then (x.1, { x.2 with fars := x.2.fars ++ [t] }) else x) } else s1
  h.lanes.foldl (fun s l => s.modThread (h.tk l) (fun t => { t with fences := t.fences.filter (fun f => f.1 ≠ scope) ++ [(scope, n)] })) s2

/-- `fence` (R187). -/
def execFence (kind : FenceKind) (scope : Scope) (s : State) : Out :=
  withHere s fun h => detStop s h (scope ≠ .core) (
    let s1 := if kind = .rel then s else s.fenceAcquire h kind scope
    let s2 := if kind = .acq then s1
      else (if scope = .core then s1 else s1.flushCore h.core).fenceRelease h kind scope
    .next (s2.leave h [] (fun _ => .seq)))

end Sys2Proof.Machine
end

