-- ==== Sys2Proof/Machine/Refill.lean ====
section
/-! DEFINITION. Refill regions (R145-R150). -/

namespace Sys2Proof.Machine

/-- The lanes of a wave whose threads have not ended. -/
def State.liveLanes (s : State) (h : Here) : Mask := maskWhere (~~~(0#32)) (fun l => !(s.thread (h.tk l)).ended)

/-- Hand out indices from `next` to lanes in ascending order while `next < stop` and fewer than `cap` are handed out (R146, R147). -/
def handOut (stop : Nat) : Nat → Nat → List Nat → List (Nat × Nat)
  | _, _, [] => []
  | 0, _, _ => []
  | cap + 1, next, l :: r => if next < stop then (l, next) :: handOut stop cap (next + 1) r else []

/-- Give register `r` and `%iter` of each lane its index. -/
def State.giveIndex (s : State) (h : Here) (r : Reg) (given : List (Nat × Nat)) : State :=
  given.foldl (fun s p => (s.setReg h p.1 r (wd p.2)).modThread (h.tk p.1) (fun t => { t with iter := wd p.2 })) s

/-- The offset after the first word of major 0x3E that follows offset `p` in the segment (R148). -/
def State.regionEnd (s : State) (h : Here) : Option (BitVec 10) :=
  let p := h.frag.pc.off.toNat
  match ((List.range (1023 - p)).map (p + 1 + ·)).find? (fun o =>
      (s.wordAt h { h.frag.pc with off := BitVec.ofNat 10 o } false).extractLsb' 25 7 = 0x3E#7) with
  | some o => if o < 1023 then some (BitVec.ofNat 10 (o + 1)) else none
  | none => none

/-- Lanes of the fragment park: they go on as one fragment, for which the latest of their instruction fences stands (R140, R147). -/
def State.parkFence (s : State) (h : Here) (m : Mask) : State :=
  if m = 0 then s else s.modWave h.wk (fun w => { w with rfFence := laterFence w.rfFence (some (h.frag.fence.getD s.ichg)) })

/-- Lanes that park hold no open proposal and no active loop level (R150). -/
def State.parkLanes (s : State) (h : Here) (m : Mask) : State :=
  (lanesOf m).foldl (fun s l => s.modThread (h.tk l) (fun t => { t with loops := [], isOpen := false })) (s.parkFence h m)

/-- `rbegin` (R146, R148). After Skip() no lane counts as parked, since none is (log 68). -/
def execRbegin (d a b : Reg) (s : State) : Out :=
  withHere s fun h => checked s h [d, a, b] [d, a, b] (notInHandler s h (
    if h.w.rfOpen || h.frag.lanes ≠ s.liveLanes h then trap s h kState
    else
      let first := s.uniform h a
      let stop := s.uniform h b
      let given := handOut stop.toNat (s.uniform h d).toNat first.toNat h.lanes
      match given with
      | [] => match s.regionEnd h with
        | none => trap s h kState
        | some o => .next ((s.modWave h.wk (fun w => { w with rfOpen := false, rfNext := first, rfEnd := stop, rfParked := 0 })).leave h [d, a, b]
            (fun _ => .jump { h.frag.pc with off := o }))
      | _ =>
        let took := maskOf (given.map (·.1))
        let s1 := (s.giveIndex h d given).modWave h.wk (fun w =>
          { w with rfOpen := true, rfNext := first + wd given.length, rfEnd := stop, rfFence := some 0, rfParked := h.frag.lanes &&& ~~~took })
        .next ((s1.leave h [d, a, b] (fun l => if took.getLsbD l then .seq else .leave)).parkLanes h (h.frag.lanes &&& ~~~took))))

/-- Drain() of R147: every parked lane becomes one fragment at the word after the `refill`. -/
def State.drain (s : State) (h : Here) : State :=
  let w := s.wave h.wk
  if w.rfOpen && w.rfParked = s.liveLanes h then
    let (_, pc, past) := advance h.frag.pc [] .seq
    let now := s.now h
    s.setWave h.wk { w with
      rfOpen := false, rfParked := 0
      frags := w.frags ++ [{ lanes := w.rfParked, pc := pc, past := past, mode := .user, wait := .none, xfer := 0, t0 := 0, retired := now, since := s.sinceNow h, after := none, nev := h.frag.nev, phw := 0, fence := w.rfFence }] }
  else s

/-- `refill` (R147). A lane that parks holds no loop level (R150). -/
def execRefill (a : Reg) (disp : BitVec 18) (s : State) : Out :=
  withHere s fun h => checked s h [a] [] (notInHandler s h (transfers s h (
    match dispTarget h.frag.pc disp with
    | none => trap s h kState
    | some t =>
      if !h.w.rfOpen || h.lanes.any (fun l => (s.thread (h.tk l)).isOpen) then trap s h kState
      else
        let given := handOut h.w.rfEnd.toNat 32 h.w.rfNext.toNat h.lanes
        let took := maskOf (given.map (·.1))
        let parked := h.frag.lanes &&& ~~~took
        let s1 := (s.giveIndex h a given).modWave h.wk (fun w =>
          { w with rfNext := w.rfNext + wd given.length, rfParked := w.rfParked ||| parked })
        let s2 := s1.leave h [] (fun l => if took.getLsbD l then .jump t else .leave)
        .next ((s2.parkLanes h parked).drain h))))

/-- `rindex` (R149). -/
def execRindex (d : Reg) (sel : BitVec 7) (s : State) : Out :=
  withHere s fun h => checked s h [d] [] (notInHandler s h
    (.next ((s.produce h d false (fun _ => match sel.toNat with
      | 0 => h.w.rfNext | 1 => h.w.rfEnd | 2 => h.w.rfParked | _ => flagWord h.w.rfOpen)).retire h [])))

/-- An instruction that R150 forbids while a region is open. -/
def notInRegion (s : State) (h : Here) (k : Out) : Out := if h.w.rfOpen then trap s h kState else k

end Sys2Proof.Machine
end

