-- ==== Sys2Proof/Machine/Clock.lean ====
section
/-! DEFINITION. Frequency requests and the steps of an operating-point move (R349-R353). -/

namespace Sys2Proof.Machine

/-- The converter ratio of an operating point, by rising voltage (R349). -/
def ratioOf (i : BitVec 4) : Nat := if i.toNat < 3 then 0 else if i.toNat < 6 then 1 else 2

/-- The requests of the groups resident on a cluster (R352). -/
def State.requests (s : State) (k : Nat) : List Nat :=
  s.groups.filterMap (fun p => if p.1 / 64 = k then p.2.perf.map (·.toNat) else none)

/-- ClusterTarget (R352; R350 where clk.min exceeds clk.max). -/
def State.clusterTarget (s : State) (k : Nat) : BitVec 4 :=
  let c := s.cluster k
  match c.lock, s.requests k with
  | true, _ => c.dflt
  | false, [] => c.dflt
  | false, r => BitVec.ofNat 4 (Nat.max (Nat.min (r.foldl Nat.max 0) c.max.toNat) (Nat.min c.min.toNat c.max.toNat))

/-- The point and the ratio agree with the target. -/
def Cluster.arrived (c : Cluster) : Bool := c.cur = c.tgt && ratioOf c.ratio = ratioOf c.tgt

/-- Recompute the target of a cluster; a move starts if none is under way (R352, R353). -/
def State.retarget (s : State) (k : Nat) : State :=
  let t := s.clusterTarget k
  s.modCluster k (fun c =>
    let c := { c with tgt := t }
    if c.busy || c.arrived then c else { c with busy := true, goal := t })

/-- The end of the step in progress: the ratio first where it rises, the frequency first otherwise; the next step moves toward the
target of that moment (R353). -/
def Cluster.stepEnd (c : Cluster) : Cluster :=
  let c1 :=
    if ratioOf c.ratio < ratioOf c.goal then { c with ratio := c.goal }
    else if c.cur ≠ c.goal then { c with cur := c.goal }
    else { c with ratio := c.goal }
  if c1.arrived then { c1 with busy := false, ratio := c1.tgt, goal := c1.tgt } else { c1 with goal := c1.tgt }

/-! ## Current reservations (R354, R356, R357) -/

/-- A requester holds a reservation of an amount, that of the macro-operation which is to run (R354). -/
def State.poweredFor (s : State) (core : Nat) (who : Requester) (n : Nat) : Bool :=
  (s.cluster (clusterOf core)).held.any (fun x => x.core = core && x.who = who && x.amount = n)

/-- A requester holds its reservation. -/
def State.powered (s : State) (core : Nat) (who : Requester) : Bool :=
  (s.cluster (clusterOf core)).held.any (fun x => x.core = core && x.who = who)

/-- Quanta of a list of reservations. -/
def quanta (xs : List Current) : Nat := xs.foldl (fun n x => n + x.amount) 0

/-- What was released in a cycle, which counts to its end. -/
def Cluster.freedIn (c : Cluster) (now : Nat) : List Current := match c.freed with | some (t, xs) => if t = now then xs else [] | none => []

/-- Quanta reserved in a cycle (R355, R356). -/
def Cluster.load (c : Cluster) (now : Nat) : Nat := quanta (c.held ++ c.freedIn now)

/-- Keep the reservations that `keep` names and release the others in a cycle (R354, R356). -/
def Cluster.release (c : Cluster) (now : Nat) (keep : Current → Bool) : Cluster :=
  let gone := c.held.filter (fun x => !keep x)
  if gone = [] then c else { c with held := c.held.filter keep, freed := some (now, c.freedIn now ++ gone) }

/-- Release a reservation (R354). -/
def State.unpower (s : State) (core : Nat) (who : Requester) : State :=
  s.modCluster (clusterOf core) (fun c => c.release (s.clockAt core) (fun x => !(x.core = core && x.who = who)))

end Sys2Proof.Machine
end

