-- ==== Sys2Proof/Machine/Settle.lean ====
section
/-! DEFINITION. What completes as soon as the last thread has arrived: barriers (R188, R233), copy operations that have their slices
(R197) and collective calls that every thread has joined (R238). -/

namespace Sys2Proof.Machine

/-- Threads of a group that have not ended, as 32 w + l. -/
def State.liveIds (s : State) (gk : Nat) (waves : Nat) : List Nat :=
  (List.range (32 * waves)).filter (fun t => !(s.thread (128 * gk + t)).ended)

/-- Lanes of a wave in handler mode or held. -/
def Wave.away (w : Wave) : Mask := (w.frags.filter (fun f => f.mode ≠ .user)).foldl (fun m f => m ||| f.lanes) 0

/-- Every thread that has not ended satisfies `p` and lies in no handler or held fragment (R298). -/
def State.allIn (s : State) (gk waves : Nat) (p : Thread → Bool) : Bool :=
  (s.liveIds gk waves).all (fun t => p (s.thread (128 * gk + t)) && !(s.wave (wkOf gk (t / 32))).away.getLsbD (t % 32))

/-- Change every thread of a group. -/
def State.modThreads (s : State) (gk waves : Nat) (f : Thread → Thread) : State :=
  (List.range (32 * waves)).foldl (fun s t => s.modThread (128 * gk + t) f) s

/-- Waves of the group in a slot. -/
def State.wavesOf (s : State) (gk : Nat) : Nat := match s.group gk with | some g => (s.launch g.launch).waves | none => 0

/-- The time of a wave (R26, R42). -/
def State.stamp (s : State) (gk wave : Nat) : Nat :=
  match s.group gk with
  | some g => if (s.launch g.launch).det then (s.wave (wkOf gk wave)).turns else s.clockAt (gk / 16)
  | none => 0

/-- The time from which the wait of a fragment of a wave counts: none passes while the group is pending (R26). -/
def State.sinceIn (s : State) (gk wave : Nat) : Nat :=
  match s.group gk with
  | some g => if (s.launch g.launch).det || g.active then s.stamp gk wave else 0
  | none => 0

/-- Fragments of a group that wait for `x` become eligible. -/
def State.wake (s : State) (gk : Nat) (x : Wait) : State :=
  (List.range (s.wavesOf gk)).foldl (fun s w =>
    let now := s.sinceIn gk w
    s.modWave (wkOf gk w) (fun v => { v with frags := v.frags.map (fun f => if f.wait = x then { f with wait := .none, since := now } else f) })) s

/-- Threads of a group that `p` names, as agents. -/
def State.threadsAs (s : State) (gk waves : Nat) (p : Thread → Bool) : List Agent :=
  ((s.liveIds gk waves).filter (fun t => p (s.thread (128 * gk + t)))).map (fun t => .thread (128 * gk + t))

/-- What the arrivals at a barrier cover comes before what the threads that wait at it, and later waits for it, do (R188, R265). -/
def State.barOrder (s : State) (gk : Nat) : State :=
  (s.pass (· = .barrier gk false) (.barrier gk true :: s.threadsAs gk (s.wavesOf gk) (·.inBar))).forget (· = .barrier gk false)

/-- Completion of the group barrier (R188). -/
def State.settleBar (s : State) (gk : Nat) : State :=
  let n := s.wavesOf gk
  if s.liveIds gk n ≠ [] && s.allIn gk n (·.barIn) then
    (((s.barOrder gk).modGroup gk (fun g => { g with bgen := g.bgen + 1 })).modThreads gk n (fun t => { t with barIn := false, inBar := false })).wake gk .barrier
  else s

/-- Slot key of the twin slot (R232). -/
def twinGk (gk : Nat) : Nat := gkOf (twinOf (gk / 16)) (gk % 16)

/-- An arrival at the twin barrier of a slot and its twin. -/
def Agent.atTwin (gk : Nat) (a : Agent) : Bool := a = .twin gk false || a = .twin (twinGk gk) false

/-- One group's side of a completed twin barrier; its threads come after what all arrivals cover (R233, R265). -/
def State.passTbar (s0 : State) (gk : Nat) : State :=
  let s := s0.pass (Agent.atTwin gk) (s0.threadsAs gk (s0.wavesOf gk) (·.inTbar))
  ((s.modGroup gk (fun g => { g with tbgen := g.tbgen + 1 })).modThreads gk (s.wavesOf gk) (fun t => { t with tbarIn := false, inTbar := false })).wake gk .tbarrier

/-- Completion of the twin barrier (R233): both groups' threads have arrived, or the twin group has ended. -/
def State.settleTbar (s : State) (gk : Nat) : State :=
  match s.group gk with
  | none => s
  | some g =>
    let n := s.wavesOf gk
    if s.liveIds gk n ≠ [] && s.allIn gk n (·.tbarIn) then
      let l := s.launch g.launch
      match s.group (twinGk gk), g.twin with
      | some t, some id =>
        if t.launch = g.launch && t.gid = id then
          (if s.allIn (twinGk gk) n (·.tbarIn) then ((s.passTbar gk).passTbar (twinGk gk)).forget (Agent.atTwin gk) else s)
        else if l.ended.contains id || l.dead.contains id then (s.passTbar gk).forget (Agent.atTwin gk) else s
      | none, some id => if l.ended.contains id || l.dead.contains id then (s.passTbar gk).forget (Agent.atTwin gk) else s
      | _, none => s
    else s

/-- The slots whose records a copy operation uses: source, index and destination (R201). -/
def copySlots (fn : Nat) (a b : Reg) : Nat × Nat × Nat :=
  let x := a.toNat % 32
  let y := b.toNat % 32
  if fn = 1 then (x + 1, x, y) else if fn = 2 then (x, y, y + 1) else (x, x, y)

/-- Start an operation: it takes its number and its records (R198, R208). -/
def Group.startCopy (g : Group) (o : CopyOp) : Group × CopyOp :=
  let (x, i, y) := copySlots o.fn o.a o.b
  ({ g with copyNum := g.copyNum + 1 },
    { o with started := true, num := g.copyNum + 1, src := g.shapeRec x, idx := g.shapeRec i, dst := g.shapeRec y })

/-- Start the operations that `ready` allows, in order; started operations stand before the waiting ones. -/
def Group.startReady (ready : CopyOp → Bool) : List CopyOp → Group → Group
  | [], g => g
  | o :: r, g =>
    if !o.started && ready o then
      let (g1, o1) := g.startCopy o
      let rest := g1.copies.erase o
      Group.startReady ready r { g1 with copies := rest.filter (·.started) ++ [o1] ++ rest.filter (fun x => !x.started) }
    else Group.startReady ready r g

/-- Operations that have every slice start (R197). -/
def State.settleCopies (s : State) (gk : Nat) : State :=
  s.modGroup gk (fun g => Group.startReady (fun o => (s.liveIds gk (s.launch g.launch).waves).all (fun t => o.k ≤ (s.thread (128 * gk + t)).copyCount)) g.copies g)

/-- Calls that every thread has joined are made: they take their records (R238, R240). -/
def State.settleCalls (s : State) (gk : Nat) : State :=
  s.modGroup gk (fun g => { g with calls := g.calls.map (fun c =>
    if !c.made && (s.liveIds gk (s.launch g.launch).waves).all (fun t => c.num ≤ getD 0 (s.thread (128 * gk + t)).callCounts c.level) then
      { c with made := true, src := g.shapeRec (c.a.toNat % 32), dst := g.shapeRec (c.b.toNat % 32) }
    else c) })

/-- Everything that an arrival, an end or a return may complete in a group and its twin. -/
def State.settle (s : State) (gk : Nat) : State :=
  ((((s.settleBar gk).settleTbar gk).settleTbar (twinGk gk)).settleCopies gk).settleCalls gk

end Sys2Proof.Machine
end

