-- ==== Sys2Proof/Machine/Sync.lean ====
section
/-! DEFINITION. Barriers, phases, system calls, device launch, special registers and hand-off cells (R188-R196, R247). -/

namespace Sys2Proof.Machine

/-! ## Barriers -/

/-- The fragment's lanes stop in a wait that ends elsewhere. -/
def State.park (s : State) (h : Here) (x : Wait) : State :=
  s.modWave h.wk (fun w => { w with frags := w.frags.map (fun f => if f.lanes &&& h.frag.lanes ≠ 0 then { f with wait := x } else f) })

/-- Change the thread of every active lane. -/
def State.modLanes (s : State) (h : Here) (f : Thread → Thread) : State := h.lanes.foldl (fun s l => s.modThread (h.tk l) f) s

/-- A lane of the fragment satisfies `p`. -/
def State.anyLane (s : State) (h : Here) (p : Thread → Bool) : Bool := h.lanes.any (fun l => p (s.thread (h.tk l)))

/-- An arrival at the group barrier: a second one of a generation traps (R188). -/
def arriveBar (s : State) (h : Here) (k : Out) : Out :=
  notInHandler s h (notInRegion s h (if s.anyLane h (·.barIn) then trap s h kState else k))

/-- `bar` (R188). -/
def execBar (s : State) : Out :=
  withHere s fun h => arriveBar s h
    (.next (((((s.passAll h.owns [.barrier h.gk false]).modLanes h (fun t => { t with barIn := true, inBar := true })).leave h [] (fun _ => .seq)).park h .barrier).settle h.gk))

/-- `bars.arrive` (R189). -/
def execBarsArrive (d : Reg) (s : State) : Out :=
  withHere s fun h => checked s h [d] [] (arriveBar s h
    (.next (((((s.passAll h.owns [.barrier h.gk false]).modLanes h (fun t => { t with barIn := true })).produce h d false (fun _ => h.g.bgen.setWidth 32)).retire h []).settle h.gk)))

/-- The barrier has completed generation `g` (R189). -/
def barPassed (now g : BitVec 16) : Bool := let n := (now - g).toNat; 0 < n && n < 32768

/-- `bars.wait` (R189). -/
def execBarsWait (d a : Reg) (s : State) : Out :=
  withHere s fun h => checked s h [d, a] [a] (notInHandler s h (notInRegion s h
    (if barPassed h.g.bgen ((s.uniform h a).setWidth 16) then
      .next (((s.pass (· = .barrier h.gk true) h.agents).produce h d (readsLatch [a]) (fun _ => h.g.bgen.setWidth 32)).retire h [])
    else .next (s.await h))))

/-! ## Phases -/

/-- The fragment waits at the phase boundary, standing at its `phase` or `phasew` (R32, R190). The instruction retires here (R379);
its lanes move on when the boundary occurs. -/
def State.arrivePhase (s : State) (h : Here) (a : Reg) (latch : Bool) : State :=
  let s1 := h.lanes.foldl (fun t l => t.modThread (h.tk l) (fun th => { th with endFlag := s.reg h l a ≠ 0, atPhase := true })) s
  let (nev, s2) := (s1.unproduce h latch).retireCount h []
  let now := s.now h
  let s3 := s2.modFrag h (fun f => { f with wait := .phase, retired := now, since := s2.sinceNow h, nev := f.nev ||| nev, xfer := 0, kept := none })
  s3.modWave h.wk (fun w => { w with issued := now, yielded := 0 })

/-- `phase` (R190). -/
def execPhase (a : Reg) (s : State) : Out :=
  withHere s fun h => checked s h [a] [a] (notInHandler s h (notInRegion s h (.next (s.arrivePhase h a (readsLatch [a])))))

/-- `phasew` (R191). -/
def execPhasew (slot : BitVec 5) (a b : Reg) (s : State) : Out :=
  withHere s fun h => checked s h [a, b] [a, b] (notInHandler s h (detStop s h true (notInRegion s h (
    let r := h.g.shapeRec slot.toNat
    match s.spot h r 0 .read (fmtWord r.fmt) false with
    | .error f => trapLoc s h (lowest h.frag.lanes, f) 0
    | .ok _ =>
      if r.space ≠ 0 then trap s h kState
      else
        let t := s.uniform h b
        .next ((s.arrivePhase h a (readsLatch [a, b])).modGroup h.gk (fun g =>
          { g with phasew := h.lanes.foldl (fun m l => insert m (32 * h.wave + l) (r, t)) g.phasew }))))))

/-! ## Yield, frequency, calls -/

/-- `yield` (R26, R27, R29, R192). -/
def execYield (s : State) : Out :=
  withHere s fun h => notInHandler s h
    (let s1 := s.leave h [] (fun _ => .seq)
    .next (if h.l.det || !h.w.progress then s1 else s1.modWave h.wk (fun w => { w with yielded := h.frag.lanes })))

/-- `setperf` (R192, R351). In a fixed-latency partition it changes nothing (R330). -/
def execSetperf (a : Reg) (s : State) : Out :=
  withHere s fun h => checked s h [a] [a] (notInHandler s h
    (if 8 ≤ (s.uniform h a).toNat then trap s h kState
    else
      let s1 := s.leave h [a] (fun _ => .seq)
      .next (if s.fixedPart h.l.part then s1
        else (s1.modGroup h.gk (fun g => { g with perf := some ((s.uniform h a).setWidth 3) })).retarget (clusterOf h.core))))

/-- Take the after-class trap that the fragment at the cursor carries (R296). -/
def State.takeAfter (s : State) (h0 : Here) : State :=
  match s.here with
  | none => s
  | some h => match h.frag.after with
    | some (kind, code) => s.takeTrap { h with l := h0.l } { h.cause kind 0 with code := code }
    | none => s

/-- The fragments that have joined a system-call window, as one mask (R304). -/
def Wave.joined (w : Wave) : Mask := (w.frags.filter (fun f => f.wait = .agg)).foldl (fun m f => m ||| f.lanes) 0

/-- Every fragment of the wave has joined the window. -/
def Wave.allJoined (w : Wave) : Bool := w.frags.all (fun f => f.wait = .agg)

/-- Take the aggregated system call of a wave (R304); it waits while another fragment is in handler mode or held (R297). -/
def State.takeAgg (s : State) (h : Here) : State :=
  let w := s.wave h.wk
  match w.agg with
  | none => s
  | some g => match w.frags.find? (fun f => f.wait = .agg && f.lanes &&& g.lead ≠ 0) with
    | none => s
    | some f =>
      let h1 := { h with frag := f, w := w }
      let all := w.joined
      let c := { h1.cause kScall 0 with fault := all, code := g.service, agg := true }
      if h.l.firmware then s.firmwareTrap h1 c all f.pc
      else if w.away ≠ 0 then s
      else s.takeTrapOf h1 c all f.pc
        ((w.frags.filter (fun x => x.wait = .agg)).foldl (fun m x => m ||| x.nev) 0)

/-- The aggregation window in cycles (%hagg, R294). -/
def State.aggWindow (s : State) (core : Nat) : Nat := (s.core core).hagg.toNat % 256

/-- `scall` (R192, R304): one that comes when the window has closed waits as one with a different service number does. -/
def execScall (a : Reg) (s : State) : Out :=
  withHere s fun h => checked s h [a] [a] (notInHandler s h (transfers s h (
    let service := s.uniform h a
    let s0 := s.unproduce h (readsLatch [a])
    if s.aggWindow h.core = 0 then .next ((s0.retireTo h [] (some (kScall, service)) (fun _ => .seq)).takeAfter h)
    else
      let join := (s0.retireTo h [] none (fun _ => .seq)).park h .agg
      match h.w.agg with
      | none =>
        let s1 := join.modWave h.wk (fun w => { w with agg := some { service := service, opened := s.now h, lead := h.frag.lanes } })
        .next (if (s1.wave h.wk).allJoined then s1.takeAgg h else s1)
      | some g =>
        if g.service ≠ service || g.opened + s.aggWindow h.core < s.now h then .next (s.await h)
        else .next (if (join.wave h.wk).allJoined then join.takeAgg h else join))))

/-- `trap` (R192). -/
def execTrap (a : Reg) (s : State) : Out :=
  withHere s fun h => checked s h [a] [a] (notInHandler s h (transfers s h
    (.next (((s.unproduce h (readsLatch [a])).retireTo h [] (some (kSoft, s.uniform h a)) (fun _ => .seq)).takeAfter h))))

/-- `nop` (R192). -/
def execNop (s : State) : Out := withHere s fun h => .next (s.leave h [] (fun _ => .seq))

/-- The next launch sequence number: mod 2^32, skipping 0 (R247). -/
def nextSeq (n : Word) : Word := if n + 1 = 0 then 1 else n + 1

/-- A launch record's address is one that R247 accepts. -/
def launchAddrOk (a : BitVec 64) : Bool := a.toNat % 256 = 0 && a.toNat < 2 ^ 52

/-- `launch` (R247). -/
def execLaunch (d a : Reg) (s : State) : Out :=
  withHere s fun h => checked s h [d, a, regPlus a 1] [] (notInHandler s h (detStop s h true (
    let addr := pair64 (s.uniform h a) (s.uniform h (regPlus a 1))
    if !launchAddrOk addr then trap s h kState
    else if 4 ≤ h.g.pend.length then .next ((s.produce h d false (fun _ => 0)).retire h [])
    else
      let n := nextSeq h.g.lseq
      let s1 := ((s.flushCore h.core).settled h.owns).modGroup h.gk (fun g =>
        { g with lseq := n, pend := g.pend ++ [{ addr := addr, seq := n, launch := none, beat := none }] })
      .next ((s1.produce h d false (fun _ => n)).retire h []))))

/-! ## Special registers (R60, R61, R43) -/

/-- `%coord` k (R17). -/
def Launch.coord (l : Launch) (g k : Nat) : Nat := if k + 1 < l.levels then g / l.unitSize (k + 1) % l.extent (k + 2) else 0

/-- The count that `%clock` reads (R43, R61). -/
def State.clockOf (s : State) (h : Here) : Nat :=
  if h.l.det then ((s.lcore (1024 * h.g.launch + h.g.lcore)).map (·.retired)).getD 0 else s.clockAt h.core

/-- PTP time in whole nanoseconds as `%ptpl` and `%ptph` read it (R43, R61). -/
def State.ptpOf (s : State) (h : Here) : Nat := if h.l.det then 0 else s.ptp / 2 ^ 16

/-- A special register as lane `l` reads it. A register of group scope that another wave has written reads as the new value also before a common
`bar`, one of the two that R62 allows (DESIGN CHOICE, log 82). -/
def State.sreg (s : State) (h : Here) (r : SReg) (l : Nat) : Word :=
  let t := s.thread (h.tk l)
  let w := s.wave h.wk
  let g := h.g
  match r with
  | .lane => wd l
  | .wave => wd h.wave
  | .group => wd g.gid
  | .role => wd (h.l.field (144 + 2 * h.wave) 2)
  | .core => wd (if h.l.det then g.lcore else h.core % 4)
  | .cluster => wd (if h.l.det then 0 else clusterOf h.core % 32)
  | .die => wd (if h.l.det then 0 else dieOf h.core)
  | .det => flagWord h.l.det
  | .coord k => wd (h.l.coord g.gid k.toNat)
  | .iter => t.iter
  | .prop => t.prop
  | .acpt => t.acpt
  | .pstate => 0#28 ++ (BitVec.ofBool t.isOpen ++ t.bank)
  | .wbase => wd t.wbase
  | .clock => wd (s.clockOf h)
  | .clockh => t.clockh
  | .ptpl => wd (s.ptpOf h)
  | .ptph => t.ptph
  | .progress => flagWord w.progress
  | .fair => w.fair.setWidth 32
  | .gkeyl => g.gkeyl
  | .gkeyh => g.gkeyh
  | .dkeyl => g.dkeyl
  | .dkeyh => g.dkeyh
  | .evtc k => getD 0 g.evtc k.toNat
  | .shape n j => getD 0 g.shape (8 * n.toNat + j.toNat)

/-- What a read of `%clock` or `%ptpl` fixes for `%clockh` or `%ptph` (R61). -/
def State.sregFix (s : State) (h : Here) (r : SReg) : State :=
  match r with
  | .clock => s.modLanes h (fun t => { t with clockh := wd (s.clockOf h / 2 ^ 32) })
  | .ptpl => s.modLanes h (fun t => { t with ptph := wd (s.ptpOf h / 2 ^ 32) })
  | _ => s

/-- `rdsr` (R60, R195). -/
def execRdsr (d : Reg) (r : SReg) (s : State) : Out :=
  withHere s fun h => checked s h [d] []
    (.next (((s.sregFix h r).produce h d false (fun l => s.sreg h r l)).retire h []))

/-- The value that `%fair` keeps (R28). -/
def fairOf (v : Word) : BitVec 16 := let x : BitVec 16 := v.setWidth 16; if x.toNat < 16 then 16 else x

/-- Write a special register: `u` to one of group or wave scope, `each` to one of thread scope (R60); RO registers take no write. -/
def State.assignSreg (s : State) (h : Here) (r : SReg) (u : Word) (each : Nat → Word) : State :=
  match r with
  | .prop => h.lanes.foldl (fun t l => t.modThread (h.tk l) (fun th => { th with prop := each l })) s
  | .acpt => h.lanes.foldl (fun t l => t.modThread (h.tk l) (fun th => { th with acpt := each l })) s
  | .progress => s.modWave h.wk (fun w => { w with progress := u.getLsbD 0 })
  | .fair => s.modWave h.wk (fun w => { w with fair := fairOf u })
  | .gkeyl => s.modGroup h.gk (fun g => { g with gkeyl := u })
  | .gkeyh => s.modGroup h.gk (fun g => { g with gkeyh := u })
  | .dkeyl => s.modGroup h.gk (fun g => { g with dkeyl := u })
  | .dkeyh => s.modGroup h.gk (fun g => { g with dkeyh := u })
  | .shape n j => s.modGroup h.gk (fun g => { g with shape := put 0 g.shape (8 * n.toNat + j.toNat) u })
  | .lane | .wave | .group | .role | .core | .cluster | .die | .det | .coord _ | .iter | .pstate | .wbase | .clock | .clockh | .ptpl | .ptph
  | .evtc _ => s

/-- Write a special register from register `a` (R60). -/
def State.setSreg (s : State) (h : Here) (r : SReg) (a : Reg) : State := s.assignSreg h r (s.uniform h a) (fun l => s.reg h l a)

/-- `wrsr` (R60, R195). -/
def execWrsr (r : SReg) (a : Reg) (s : State) : Out :=
  withHere s fun h => checked s h [a] [a] (.next ((s.setSreg h r a).leave h [a] (fun _ => .seq)))

/-- `wbase` (R47, R195). -/
def execWbase (imm : BitVec 11) (s : State) : Out :=
  withHere s fun h => notInHandler s h
    (if h.R < imm.toNat + 4 then trap s h kRange
    else if s.anyLane h (·.isOpen) then trap s h kState
    else .next ((s.modLanes h (fun t => { t with wbase := imm.toNat })).leave h [] (fun _ => .seq)))

/-! ## Hand-off cells (R196) -/

/-- Cell `c` of lane `l`. -/
def cellKey (l : Nat) (c : BitVec 4) : Nat := 16 * l + c.toNat

/-- A lane of `rgive`: it fills its cell if the cell is empty. -/
def State.giveLane (s : State) (h : Here) (a : Reg) (c : BitVec 4) (l : Nat) : State :=
  match s.group h.gk with
  | none => s
  | some g =>
    if getD false g.cellFull (cellKey l c) then s
    else ((s.pass (· = .thread (h.tk l)) [.cell h.gk (cellKey l c)]).setGroup h.gk { g with cells := put 0 g.cells (cellKey l c) (s.reg h l a), cellFull := put false g.cellFull (cellKey l c) true }).modThread (h.tk l) (fun t => { t with done := true })

/-- `rgive` (R196). -/
def execRgive (a : Reg) (c : BitVec 4) (s : State) : Out :=
  withHere s fun h => checked s h [a] [a] (notInHandler s h (
    let s1 := (h.undone s).foldl (fun t l => t.giveLane h a c l) s
    .next (if h.over s1 then (s1.clearDone h).leave h [a] (fun _ => .seq) else s1.awaitAccess h none)))

/-- A lane of `rclaim`: it takes the word of its cell if the cell is full. -/
def State.claimLane (s : State) (h : Here) (d : Reg) (c : BitVec 4) (l : Nat) : State :=
  match s.group h.gk with
  | none => s
  | some g =>
    if getD false g.cellFull (cellKey l c) then
      let v := getD 0 g.cells (cellKey l c)
      let s0 := (s.pass (· = .cell h.gk (cellKey l c)) [.thread (h.tk l)]).forget (· = .cell h.gk (cellKey l c))
      let s1 := s0.setGroup h.gk { g with cellFull := put false g.cellFull (cellKey l c) false }
      (s1.setReg h l d v).modThread (h.tk l) (fun t => { t with done := true, pend := v })
    else s

/-- `rclaim` (R196). -/
def execRclaim (d : Reg) (c : BitVec 4) (s : State) : Out :=
  withHere s fun h => checked s h [d] [] (notInHandler s h (
    let s1 := (h.undone s).foldl (fun t l => t.claimLane h d c l) s
    .next (if h.over s1 then (s1.finishDone h false).retire h [] else s1.awaitAccess h none)))

end Sys2Proof.Machine
end

