-- ==== Sys2Proof/Machine/Queue.lean ====
section
/-! DEFINITION. Queues (R53-R55, R193) and the copy-fault trap that a wait behind a suspended operation takes (R210, R243). -/

namespace Sys2Proof.Machine

/-! ## Suspended operations -/

/-- The copy operation that is suspended; later ones wait behind it (R199, R210). -/
def Group.suspCopy (g : Group) : Option (CopyOp × Susp) :=
  match g.copies with
  | o :: _ => o.susp.map (fun x => (o, x))
  | [] => none

/-- The collective call that is suspended (R243). -/
def Group.suspCall (g : Group) : Option (Call × Susp) :=
  (g.calls.find? (fun c => c.susp.isSome)).bind (fun c => c.susp.map (fun x => (c, x)))

/-- tr.cpstep, tr.cpwave and tr.cplane as one word (R299). -/
def placeWord (step wave lane : Nat) : Word := wd (step % 4 + 4 * (wave % 4) + 16 * (lane % 32))

/-- Cause of the copy-fault trap of a copy operation (R210). -/
def copyCause (h : Here) (o : CopyOp) (x : Susp) : Cause :=
  let j := o.jobs[o.job]?
  { h.cause kCopy 0 with
    va := x.va, acc := x.acc, op := o.num, job := wd o.job, index := o.index.getD 0
    place := placeWord o.step ((j.map (·.wave)).getD 0) ((j.map (·.lane)).getD 0) }

/-- Cause of the copy-fault trap of a collective call (R243). -/
def callCause (h : Here) (c : Call) (x : Susp) : Cause := { h.cause kCopy 1 with va := x.va, acc := x.acc, op := wd c.num }

/-- Set the suspension of the first copy operation. -/
def Group.setSuspCopy (g : Group) (x : Option Susp) : Group :=
  { g with copies := match g.copies with | o :: r => { o with susp := x } :: r | [] => [] }
/-- Set the suspension of a call. -/
def Group.setSuspCall (g : Group) (c : Call) (x : Option Susp) : Group :=
  { g with calls := g.calls.map (fun y => if y = c then { y with susp := x } else y) }

/-- The wave and lanes that a taken trap holds away, none if the trap has not been taken. -/
def State.awayOf (s : State) (h : Here) : Option (Nat × Mask) :=
  if (s.wave h.wk).away &&& h.frag.lanes = h.frag.lanes then some (h.wave, h.frag.lanes) else none

/-- A fragment that waits behind a suspension takes the copy-fault trap; the first waiting instruction after the trap's return resumes
the operation (R210). -/
def State.meetSusp (s : State) (h : Here) (x : Susp) (c : Cause) (set : Group → Option Susp → Group) : State :=
  match x.told with
  | none =>
    let s1 := s.takeTrap h c
    match s1.awayOf h with
    | some t => s1.modGroup h.gk (fun g => set g (some { x with told := some t }))
    | none => s1
  | some (w, m) =>
    if (s.wave (wkOf h.gk w)).away &&& m ≠ 0 then s.await h
    else (s.modGroup h.gk (fun g => set g none)).await h

/-- A wait for a copy operation to end (R209, R210). -/
def State.waitCopy (s : State) (h : Here) : State :=
  match h.g.suspCopy with
  | some (o, x) => s.meetSusp h x (copyCause h o x) Group.setSuspCopy
  | none => s.await h

/-- Calls that cannot end before a suspended call does: at each level those from the suspended one on, which end in order (R239, R243); `levels`
are those of the suspended calls before. -/
def stuckCalls : List Nat → List Call → Nat
  | _, [] => 0
  | levels, c :: r => if levels.contains c.level || c.susp.isSome then stuckCalls (c.level :: levels) r + 1 else stuckCalls levels r

/-- A wait for a collective call to end, with at most `n` to be outstanding (R243): a suspended call is met only where the condition needs one to
end (R210). -/
def State.waitCall (s : State) (h : Here) (n : Nat) : State :=
  match h.g.suspCall with
  | some (c, x) => if stuckCalls [] h.g.calls ≤ n then s.await h else s.meetSusp h x (callCause h c x) (fun g y => g.setSuspCall c y)
  | none => s.await h

/-! ## The queue instructions -/

/-- The beats that a queue of the group holds, for `qlen` (R193). -/
def State.beatsOf (s : State) (h : Here) (q : Nat) : List Beat :=
  if q = 0 then (if h.g.cfg.isSome then (s.core h.core).q0 else [])
  else if q = 1 then (if h.g.cfg.isSome then (s.core h.core).q1 else [])
  else if q = 7 then ((find s.rings h.gk).map (·.q7)).getD []
  else h.g.queue q

/-- The state with those beats in the queue; a freed place lets a waiting completion beat in (R55). -/
def State.setBeats (s : State) (h : Here) (q : Nat) (b : List Beat) : State :=
  if q = 0 then s.modCore h.core (fun c => { c with q0 := b })
  else if q = 1 then s.modCore h.core (fun c => { c with q1 := b })
  else if q = 7 then { s with rings := s.rings.map (fun p => if p.1 = h.gk then (p.1, { p.2 with q7 := b }) else p) }
  else s.modGroup h.gk (fun g => (g.setQueue q b).flush)

/-- Software may push the queue (R54, R55). -/
def canPush (h : Here) (q : Nat) : Bool := 8 ≤ q || (q ≤ 1 && h.g.cfg.isSome)

/-- The beat of the active lanes' words (R53). -/
def State.beat (s : State) (h : Here) (a : Reg) : Beat := (h.lanes.map (fun l => (l, s.reg h l a))).filter (fun p => p.2 ≠ 0)

/-- `qpush` (R193). -/
def execQpush (a : Reg) (q : BitVec 4) (s : State) : Out :=
  withHere s fun h => checked s h [a] [a] (notInHandler s h (
    if !canPush h q.toNat then trap s h kState
    else
      let bs := s.beatsOf h q.toNat
      .next (if queueCap q.toNat ≤ bs.length then s.await h
        else ((s.pass h.owns [.queue h.gk q.toNat]).setBeats h q.toNat (bs ++ [s.beat h a])).leave h [a] (fun _ => .seq))))

/-- The wait of a pop that finds its queue empty (R210, R243). -/
def State.waitPop (s : State) (h : Here) (q : Nat) : State := if q = 2 then s.waitCopy h else if q = 4 then s.waitCall h 0 else s.await h

/-- `qpop` (R193). -/
def execQpop (d : Reg) (q : BitVec 4) (s : State) : Out :=
  withHere s fun h => checked s h [d] [] (notInHandler s h (
    if q.toNat ≤ 1 then trap s h kState
    else match s.beatsOf h q.toNat with
      | [] => .next (s.waitPop h q.toNat)
      | b :: r => .next ((((s.pass (· = .queue h.gk q.toNat) h.agents).setBeats h q.toNat r).produce h d false (fun l => getD 0 b l)).retire h [])))

/-- The suspension behind which a pop of the queue finds it empty (R210, R243): its cause, and the operation with another suspension. -/
def Here.stuck (h : Here) (q : Nat) : Option (Susp × Cause × (Group → Option Susp → Group)) :=
  if q = 2 then h.g.suspCopy.map (fun p => (p.2, copyCause h p.1 p.2, Group.setSuspCopy))
  else if q = 4 then h.g.suspCall.map (fun p => (p.2, callCause h p.1 p.2, fun g y => g.setSuspCall p.1 y))
  else none

/-- `qtry` of a queue that holds no beat (R193): d is unchanged and a is 0. -/
def State.tryEmpty (s : State) (h : Here) (d a : Reg) : State :=
  (h.lanes.foldl (fun t l => t.setReg h l a 0) (s.produce h d false (fun l => s.reg h l d))).retire h []

/-- `qtry` (R193). Empty behind a suspended operation it takes the copy-fault trap, unless another fragment has taken it: it never waits
(R210). -/
def execQtry (d a : Reg) (q : BitVec 4) (s : State) : Out :=
  withHere s fun h => checked s h [d, a] [] (notInHandler s h (
    if q.toNat ≤ 1 then trap s h kState
    else match s.beatsOf h q.toNat with
      | [] =>
        match h.stuck q.toNat with
        | none => .next (s.tryEmpty h d a)
        | some (x, c, set) => match x.told with
          | none => .next (s.meetSusp h x c set)
          | some (w, m) => .next ((if (s.wave (wkOf h.gk w)).away &&& m ≠ 0 then s else s.modGroup h.gk (fun g => set g none)).tryEmpty h d a)
      | b :: r =>
        let s1 := ((s.pass (· = .queue h.gk q.toNat) h.agents).setBeats h q.toNat r).produce h d false (fun l => getD 0 b l)
        .next ((h.lanes.foldl (fun t l => t.setReg h l a 1) s1).retire h [])))

/-- `qlen` (R193). -/
def execQlen (d : Reg) (q : BitVec 4) (s : State) : Out :=
  withHere s fun h => checked s h [d] [] (notInHandler s h
    (.next ((s.produce h d false (fun _ => wd (s.beatsOf h q.toNat).length)).retire h [])))

end Sys2Proof.Machine
end

