-- ==== Sys2Proof/Machine/Matrix.lean ====
section
/-! DEFINITION. The matrix array, its configuration and operations (R214-R228, R235). -/

namespace Sys2Proof.Machine

/-! ## Configuration -/

/-- Fields of configuration word 0 (R214). -/
def cfgFmtA (cfg : List Word) : Nat := ((cfg.getD 0 0).extractLsb' 0 8).toNat
def cfgFmtB (cfg : List Word) : Nat := ((cfg.getD 0 0).extractLsb' 8 8).toNat
def cfgPair (cfg : List Word) : Nat := ((cfg.getD 0 0).extractLsb' 16 2).toNat

/-- Fields of a tile descriptor (R215). -/
def tdBase (d : BitVec 16) : Nat := (d.extractLsb' 9 7).toNat
def tdCols (d : BitVec 16) : Nat := (d.extractLsb' 4 4).toNat
def tdRows (d : BitVec 16) : Nat := (d.extractLsb' 0 4).toNat
/-- M and N (R215). -/
def tileM (d : BitVec 16) : Nat := 16 * tdRows d
def tileN (d : BitVec 16) : Nat := 16 * tdCols d
/-- The tile is present. -/
def present (d : BitVec 16) : Bool := tdRows d ≠ 0

/-- A descriptor breaks R215. -/
def badDesc (d : BitVec 16) : Bool :=
  if tdRows d = 0 then d ≠ 0 else d.getLsbD 8 || 8 < tdRows d || tdCols d = 0 || 8 < tdCols d || 128 < tdBase d + tdRows d * tdCols d

/-- Two present tiles share an element. -/
def overlap (a b : BitVec 16) : Bool :=
  present a && present b && tdBase a < tdBase b + tdRows b * tdCols b && tdBase b < tdBase a + tdRows a * tdCols a

/-- The configuration words break R216. -/
def badCfg (cfg : List Word) : Bool :=
  let ds := (List.range 4).map (descOf cfg)
  (cfg.getD 0 0).extractLsb' 18 14 ≠ 0 || cfgPair cfg = 3 || 19 < cfgFmtA cfg || 19 < cfgFmtB cfg
    || intFamily (cfgFmtA cfg) ≠ intFamily (cfgFmtB cfg) || ds.any badDesc || !ds.any present
    || (List.range 4).any (fun i => (List.range i).any (fun j => overlap (descOf cfg i) (descOf cfg j)))

/-- A copy operation has a FIFO destination (R200). -/
def CopyOp.toFifo (c : CopyOp) : Bool := c.fn ≠ 2 && (c.b = 32 || c.b = 64)

/-- Matrix operations outstanding in the group of a slot (R222); a drain whose beat waits for a place is one (R55). -/
def State.matOut (s : State) (core slot : Nat) : Nat :=
  ((s.core core).opsOf slot).length + ((s.group (gkOf core slot)).map (fun g => g.held3.length)).getD 0

/-- A copy operation with a FIFO destination is outstanding (R216); one that a release has ended (R217) is so only while its beat finds no place
(R55). -/
def Group.fifoOut (g : Group) : Bool := g.copies.any (fun o => o.toFifo && !(o.fin.isSome && o.stream = [] && g.hasRoom 2))

/-- `mcfg` (R216). -/
def execMcfg (a : Reg) (s : State) : Out :=
  withHere s fun h => checked s h ((List.range 5).map (regPlus a)) [] (notInHandler s h (
    let c := s.core h.core
    if c.holder.isSome && c.holder ≠ some h.slot then .next (s.await h)
    else
      let cfg := (List.range 5).map (fun j => s.uniform h (regPlus a j))
      detStop s h (cfgPair cfg ≠ 0) (
        if (h.g.cfg.isSome && s.matOut h.core h.slot ≠ 0) || h.g.fifoOut || c.q0 ≠ [] || c.q1 ≠ [] || badCfg cfg then trap s h kState
        else
          let s1 := ((s.modGroup h.gk (fun g => { g with cfg := some cfg, cfgOld := g.cfgOld ++ g.cfg.toList })).modCore h.core (fun c => { c with holder := some h.slot })).zeroTiles h.core cfg
          .next (s1.leave h [] (fun _ => .seq)))))

/-! ## Operand streams (R218) -/

/-- A length padded to a multiple of 4. -/
def pad4 (n : Nat) : Nat := (n + 3) / 4 * 4
/-- Bytes of a row's elements and of its block scales, each padded (R206, R218). -/
def rowElems (f k : Nat) : Nat := pad4 (k * elemBits f / 8)
def rowBytes (f k : Nat) : Nat := rowElems f k + pad4 (scaleBytes f (k / 32))
/-- Beats of an operand (R218). -/
def operandBeats (f rows k : Nat) (lane : Bool) : Nat :=
  if lane then (rows + 31) / 32 * k else (rows * rowBytes f k + 127) / 128

/-- Byte `b` of a stream of beats (R206). -/
def streamByte (bs : List Beat) (b : Nat) : Nat := ((getD 0 (bs.getD (b / 128) []) (b % 128 / 4)).extractLsb' (8 * (b % 4)) 8).toNat
/-- `n` bytes of a stream. -/
def streamNat (bs : List Beat) (b : Nat) : Nat → Nat
  | 0 => 0
  | n + 1 => streamByte bs b + 256 * streamNat bs (b + 1) n

/-- Element `k` of row `row` of an operand: its code, scale byte and special byte (R218). -/
def operandElem (bs : List Beat) (f len : Nat) (lane : Bool) (row k : Nat) : Nat × Nat × Nat :=
  if lane then ((getD 0 (bs.getD (row / 32 * len + k) []) (row % 32)).toNat, 0, 0)
  else
    let base := row * rowBytes f len
    let u := unitSize f
    let so := base + rowElems f len + (if f = 0 then 2 * (k / 32) else k / 32)
    (pickElem f k (streamNat bs (base + unitIndex f k * u) u), if fmtScaled f then streamByte bs so else 0, if f = 0 then streamByte bs (so + 1) else 0)

/-- The value of an operand element (R93, R220). -/
def operandVal (bs : List Beat) (f len : Nat) (lane : Bool) (tensor : Word) (row k : Nat) : Val :=
  let e := operandElem bs f len lane row k
  enter f e.1 e.2.1 e.2.2 tensor

/-- Blocks of an operand with a faulty scale (R102). -/
def faultyBlocks (bs : List Beat) (f rows len : Nat) (lane : Bool) (tensor : Word) : Nat :=
  if lane || !fmtScaled f then 0
  else ((List.range rows).map (fun r => ((List.range (len / 32)).filter (fun j => badBlock f (operandElem bs f len lane r (32 * j)).2.1 tensor)).length)).foldl (· + ·) 0

/-! ## Groups of 16 products (R97, R98) -/

/-- MatGroup of the float family (R97). -/
def matGroup (acc : Word) (as bs : List Val) : Word × Ev :=
  let ps := (as.zip bs).map (fun p => mulVals p.1 p.2)
  let a := f32.decode acc.toNat
  let t := sumVals (a :: ps.map (·.1))
  let r := f32.encode .rn t.1
  (wd r.1, ps.foldl (fun e p => e ||| p.2) (t.2 ||| r.2 ||| evIf (a.isNan || as.any Val.isNan || bs.any Val.isNan) evNan))

/-- The integer family's group (R98). -/
def intGroup (acc : Word) (as bs : List Int) : Word × Ev :=
  let t := (as.zip bs).foldl (fun x p => x + p.1 * p.2) acc.toInt
  (BitVec.ofInt 32 t, evIf (t < -(2 ^ 31) || 2 ^ 31 ≤ t) evIntOver)

/-- What an `mma` works on: configuration, tile descriptor and A beats. -/
structure Work where
  cfg : List Word
  desc : BitVec 16
  fmtA : Nat
  tensorA : Word
  abeats : List Beat
  deriving DecidableEq, Repr

/-- One group of products of an element (R220). -/
def groupOf (o : MatOp) (w : Work) (m n g : Nat) (acc : Word) : Word × Ev :=
  let ks := (List.range 16).map (16 * g + ·)
  if intFamily w.fmtA then
    intGroup acc (ks.map (fun k => codeInt w.fmtA (operandElem w.abeats w.fmtA o.k o.alane m k).1))
      (ks.map (fun k => codeInt (cfgFmtB w.cfg) (operandElem o.bbeats (cfgFmtB w.cfg) o.k o.blane n k).1))
  else
    matGroup acc (ks.map (operandVal w.abeats w.fmtA o.k o.alane w.tensorA m))
      (ks.map (operandVal o.bbeats (cfgFmtB w.cfg) o.k o.blane (w.cfg.getD 4 0) n))

/-- Key of the event bits of element `e` beside its accumulator. -/
def evKey (e : Nat) : Nat := 65536 + e

/-- Key of element `e` of a tile in the accumulator store (R215). -/
def tileKey (core : Nat) (d : BitVec 16) (e : Nat) : Nat := 32768 * core + 256 * tdBase d + e

/-- One pass over every element of a tile (R220, R235): running accumulators and event bits. -/
def State.passOf (s : State) (core : Nat) (o : MatOp) (w : Work) : MatOp :=
  let n := tileN w.desc
  let acc := (List.range (tileM w.desc * n)).foldl (fun m e =>
    let old := if o.g ≠ 0 then getD 0 m e else if o.zero then 0 else getD 0 s.acc (tileKey core w.desc e)
    let r := groupOf o w (e / n) (e % n) o.g old
    put 0 (put 0 m e r.1) (evKey e) (getD 0 m (evKey e) ||| r.2.setWidth 32)) o.acc
  { o with acc := acc, g := o.g + 1 }

/-! ## mma (R219-R222) -/

/-- The group of a slot holds the licence of its twin pair (R229). -/
def State.licensed (s : State) (gk : Nat) : Bool := (s.licence (pairOf (gk / 16))).holder = some gk

/-- The neighbour core of a pair (R221). -/
def neighbour (core : Nat) : Nat := if core % 2 = 0 then core + 1 else core - 1

/-- The follower of a paired `mma`: its slot, group and configuration (R221). -/
def State.follower (s : State) (core : Nat) : Option (Nat × Group × List Word) :=
  match (s.core (neighbour core)).holder with
  | none => none
  | some slot => match s.group (gkOf (neighbour core) slot) with
    | some g => g.cfg.map (fun c => (slot, g, c))
    | none => none

/-- The checks of R221 fail, or those of R219 on the operand of the follower. -/
def State.pairFails (s : State) (h : Here) (cfg : List Word) (t : Nat) (blane : Bool) (k : Nat) : Bool :=
  cfgPair cfg ≠ 1 || h.core % 2 ≠ 0 || match s.follower h.core with
    | none => true
    | some (slot, g, c) =>
      cfgPair c ≠ 2 || g.launch ≠ h.g.launch || !s.licensed (gkOf (neighbour h.core) slot) || !present (descOf c t)
        || (blane && !fmtWord (cfgFmtB c)) || (fmtScaled (cfgFmtB c) && k % 32 ≠ 0)
        || tdRows (descOf c t) ≠ tdRows (descOf cfg t) || cfgFmtA c ≠ cfgFmtA cfg || intFamily (cfgFmtB c) ≠ intFamily (cfgFmtB cfg)

/-- The illegal-state checks of `mma` (R219). -/
def State.mmaFails (s : State) (h : Here) (t : BitVec 2) (pair alane blane : Bool) (k : Nat) : Bool :=
  match h.g.cfg with
  | none => true
  | some cfg =>
    let fa := cfgFmtA cfg
    let fb := cfgFmtB cfg
    !present (descOf cfg t.toNat) || k % 16 ≠ 0 || k < 16 || 65536 < k || ((fmtScaled fa || fmtScaled fb) && k % 32 ≠ 0)
      || (alane && !fmtWord fa) || (blane && !fmtWord fb) || (pair && s.pairFails h cfg t.toNat blane k)

/-- An operation of a kind with nothing done. -/
def MatOp.start (kind : MatKind) (slot : Nat) (num : Word) (i : Instr) : MatOp :=
  { kind := kind, slot := slot, peer := none, lead := false, num := num, word := (Sys2Proof.encode i).getD 0, tile := 0, zero := false, alane := false, blane := false, k := 0, g := 0,
    abeats := [], bbeats := [], acc := [], res := none, drop := false, clr := false, row0 := 0, col0 := 0, thr := 0, f := 0, dst := 0, mask := 0,
    fin := none, events := [] }

/-- Accept an operation into a core's array (R222). -/
def State.acceptOp (s : State) (core : Nat) (o : MatOp) : State := s.modCore core (fun c => { c with ops := c.ops ++ [o] })

/-- `mma` (R219-R222). -/
def execMma (t : BitVec 2) (zero pair alane blane : Bool) (a : Reg) (s : State) : Out :=
  withHere s fun h => checked s h [a] [a] (notInHandler s h (detStop s h pair (
    let k := (s.uniform h a).toNat
    if !s.licensed h.gk then
      (if (s.licence (pairOf h.core)).revoked.contains h.gk then .next (s.await h) else trap s h kState)
    else if s.mmaFails h t pair alane blane k then trap s h kState
    else
      let full := 4 ≤ s.matOut h.core h.slot || (pair && match s.follower h.core with
        | some (slot, _, _) => 4 ≤ s.matOut (neighbour h.core) slot
        | none => false)
      if full then .next (s.await h)
      else
        let n := h.g.matNum + 1
        let o := { MatOp.start .mma h.slot n (.mma t zero pair alane blane a) with tile := t.toNat, zero := zero, alane := alane, blane := blane, k := k }
        let s1 := (s.pass h.owns [.array h.gk n.toNat]).modGroup h.gk (fun g => { g with matNum := n })
        let s2 := match pair, s.follower h.core with
          | true, some (slot, _, _) =>
            (s1.acceptOp h.core { o with peer := some (neighbour h.core), lead := true }).acceptOp (neighbour h.core)
              { o with slot := slot, num := 0, peer := some h.core }
          | _, _ => s1.acceptOp h.core o
        .next (s2.leave h [a] (fun _ => .seq)))))

/-- The mate of a paired operation in its own array. -/
def State.mate (s : State) (core : Nat) (o : MatOp) : Option MatOp :=
  o.peer.bind (fun p => (s.core p).ops.find? (fun x => x.peer = some core && x.lead ≠ o.lead))

/-- Configuration of the group of a slot. -/
def State.cfgOf (s : State) (core slot : Nat) : List Word := ((s.group (gkOf core slot)).bind (·.cfg)).getD []

/-- What the front `mma` of a core works on; the follower of a pair takes A from its leader (R221). -/
def State.workOf (s : State) (core : Nat) (o : MatOp) : Work :=
  let cfg := s.cfgOf core o.slot
  let d := descOf cfg o.tile
  match o.peer, o.lead, s.mate core o with
  | some p, false, some m =>
    let c := s.cfgOf p m.slot
    { cfg := cfg, desc := d, fmtA := cfgFmtA c, tensorA := c.getD 3 0, abeats := m.abeats }
  | _, _, _ => { cfg := cfg, desc := d, fmtA := cfgFmtA cfg, tensorA := cfg.getD 3 0, abeats := o.abeats }

/-- Both operands of an `mma` are in the array. -/
def MatOp.fed (o : MatOp) (w : Work) : Bool :=
  operandBeats w.fmtA (tileM w.desc) o.k o.alane ≤ w.abeats.length && operandBeats (cfgFmtB w.cfg) (tileN w.desc) o.k o.blane ≤ o.bbeats.length

/-- The array takes the beats that an `mma` still lacks from `q0` and `q1`; a follower takes only B (R220, R221). -/
def State.feed (s : State) (core : Nat) (o : MatOp) : State × MatOp :=
  let w := s.workOf core o
  let c := s.core core
  let na := if o.peer.isSome && !o.lead then 0 else operandBeats w.fmtA (tileM w.desc) o.k o.alane - o.abeats.length
  let nb := operandBeats (cfgFmtB w.cfg) (tileN w.desc) o.k o.blane - o.bbeats.length
  (s.setCore core { c with q0 := c.q0.drop na, q1 := c.q1.drop nb }, { o with abeats := o.abeats ++ c.q0.take na, bbeats := o.bbeats ++ c.q1.take nb })

/-- Replace the front operation of an array. -/
def State.setFront' (s : State) (core : Nat) (o : MatOp) : State :=
  s.modCore core (fun c => { c with ops := match c.ops with | _ :: r => o :: r | [] => [] })

/-- An operation of a core's array may progress: its group waits for no configuration or licence, and while it is being saved a paired
operation of it is still to end (R310, R321). -/
def State.arrayRuns (s : State) (core slot : Nat) : Bool :=
  match s.group (gkOf core slot) with
  | some g => (!g.frozen || ((s.core core).opsOf slot).any (fun o => o.peer.isSome)) && g.wantCfg.isNone && !g.wantLic
  | none => false

/-- The licences that an `mma` at the front of an array needs: its group's, and for a paired one that of the group of the other array too (R221,
R229). -/
def State.mmaLicensed (s : State) (core : Nat) (o : MatOp) : Bool :=
  s.licensed (gkOf core o.slot) && o.peer.all (fun p => (s.mate core o).any (fun m => s.licensed (gkOf p m.slot)))

/-- Quanta of a pass at the rate of a format (R90, R235). -/
def passQuanta (f : Nat) : Nat :=
  if fmt4 f then 56 else if f = 14 || f = 15 then 40 else if f = 16 then 32 else if f = 17 then 28 else 48

/-- Quanta of a pass of an `mma`, by the slower operand (R235). -/
def Work.quanta (w : Work) : Nat := Nat.min (passQuanta w.fmtA) (passQuanta (cfgFmtB w.cfg))

/-- MATRIX_PASS_END (R220, R235): the array takes waiting beats; with all of them present and current reserved, one pass runs. -/
def execMatrixPassEnd (core : Nat) (s : State) : Out :=
  match (s.core core).ops with
  | o :: _ =>
    if o.kind = .mma && s.arrayRuns core o.slot && s.mmaLicensed core o && 16 * o.g < o.k then
      let (s1, o1) := s.feed core o
      let s2 := s1.setFront' core o1
      let w := s2.workOf core o1
      if o1.fed w && s2.poweredFor core .array w.quanta then .next ((s2.setFront' core (s2.passOf core o1 w)).unpower core .array)
      else .next s2
    else .next s
  | [] => .next s

/-- Counts of the classes of a list of event bits. -/
def countBits (bits : List Word) : SMap Nat := countEvents (bits.map (fun b => b.setWidth 8))

/-- A matrix operation has ended: what it and the pushes into its queues follow comes before what a wait for it, or the pop of its beat, lets go
(R227). -/
def State.arrayEnds (s : State) (gk : Nat) (num : Word) : State :=
  s.pass (fun a => a = .array gk num.toNat || a = .queue gk 0 || a = .queue gk 1) [.queue gk 3]

/-- Write the tile of a finished `mma`, charge its events and take it from its array (R220). -/
def State.endMma (s : State) (core : Nat) (o : MatOp) (w : Work) : State :=
  let n := tileM w.desc * tileN w.desc
  let acc := (List.range n).foldl (fun m e => put 0 m (tileKey core w.desc e) (getD 0 o.acc e)) s.acc
  let blocks := faultyBlocks w.abeats w.fmtA (tileM w.desc) o.k o.alane w.tensorA
    + faultyBlocks o.bbeats (cfgFmtB w.cfg) (tileN w.desc) o.k o.blane (w.cfg.getD 4 0)
  let ev := addEvents (countBits ((List.range n).map (fun e => getD 0 o.acc (evKey e)))) (if blocks = 0 then [] else [(7, blocks)])
  ((({ s with acc := acc }).modCore core (fun c => { c with ops := c.ops.erase o })).chargeOp (gkOf core o.slot) ev waitsArray).arrayEnds (gkOf core o.slot) o.num

/-- MMA_OPERATION_END (R220, R221): a paired operation ends when both arrays have finished. -/
def execMmaOperationEnd (core : Nat) (s : State) : Out :=
  match (s.core core).ops with
  | o :: _ =>
    if o.kind = .mma && o.k ≤ 16 * o.g && s.arrayRuns core o.slot then
      match o.peer with
      | none => .next (s.endMma core o (s.workOf core o))
      | some p =>
        match (s.core p).ops with
        | m :: _ =>
          if o.lead && m.peer = some core && !m.lead && m.k ≤ 16 * m.g then
            let wo := s.workOf core o
            let wm := s.workOf p m
            .next ((s.endMma core o wo).endMma p m wm)
          else .next s
        | [] => .next s
    else .next s
  | [] => .next s

/-! ## mdrain (R223-R225) -/

/-- An on-chip address `a` lies outside the logical core's own region, or reaches kinds 2 and 3 of it (R207). -/
def outsideOwn (a : Nat) : Bool := 0xC0000 ≤ a
/-- Rows of a record that begin within its extent (log 92). -/
def Rec.rows (r : Rec) : Nat := if 0 < r.stride1 then (r.extent + r.stride1.toNat - 1) / r.stride1.toNat else if r.extent = 0 then 0 else 1

/-- Bytes of a record's scale side, or of a sparse one's metadata (R92, R170). -/
def Rec.sideBytes (r : Rec) (sparse : Bool) : Nat :=
  if fmtScaled r.fmt then scaleOffset r.fmt (r.rowlen / 32) r.rows else if sparse then r.rows * (r.rowlen / 8) else 0

/-- A record in space 1 breaks the last two rules of R207, its scale side and metadata among what it reaches. -/
def Rec.detBad (r : Rec) (sparse : Bool) : Bool :=
  let side := r.base + r.scaleoff
  r.space = 1 && (r.base + r.extent = 0 || outsideOwn r.base || outsideOwn (r.base + r.extent - 1)
    || (r.sideBytes sparse ≠ 0 && (outsideOwn side || outsideOwn (side + r.sideBytes sparse - 1))))

/-- `mdrain` (R223). -/
def execMdrain (t : BitVec 2) (res : Option (BitVec 2)) (drop clr : Bool) (slot : BitVec 5) (b : Reg) (s : State) : Out :=
  withHere s fun h => checked s h ((List.range 4).map (regPlus b)) [] (notInHandler s h (
    let dst := h.g.shapeRec slot.toNat
    detStop s h (dst.detBad false) (
      match h.g.cfg with
      | none => trap s h kState
      | some cfg =>
        let d := descOf cfg t.toNat
        let badRes := match res with
          | none => false
          | some q => let e := descOf cfg q.toNat; !present e || q = t || tdRows e ≠ tdRows d || tdCols e ≠ tdCols d
        if !present d || badRes || ((drop || res.isSome) && intFamily (cfgFmtA cfg)) then trap s h kState
        else if 4 ≤ s.matOut h.core h.slot then .next (s.await h)
        else
          let n := h.g.matNum + 1
          let o := { MatOp.start .drain h.slot n (.mdrain t res drop clr slot b) with
            tile := t.toNat, res := res.map (·.toNat), drop := drop, clr := clr, row0 := s.uniform h b, col0 := s.uniform h (regPlus b 1)
            thr := s.uniform h (regPlus b 2) &&& 0xFFFFFF, f := s.uniform h (regPlus b 3), dst := dst }
          .next ((((s.pass h.owns [.array h.gk n.toNat]).modGroup h.gk (fun g => { g with matNum := n })).acceptOp h.core o).leave h [] (fun _ => .seq)))))

/-- The engine of a slot as an actor, in the operation that `agent` names. -/
def State.engineOf (s : State) (core slot : Nat) (agent : Agent) : Actor :=
  match s.group (gkOf core slot) with
  | some g => { core := core, slot := slot, part := (s.launch g.launch).part, engine := true
                det := if (s.launch g.launch).det then some (1024 * g.launch + g.lcore) else none, agent := agent }
  | none => { core := core, slot := slot, part := 255, engine := true, det := none, agent := agent }

/-- A matrix operation of the group of a slot as an agent (R255). -/
def arrayAgent (gk : Nat) (num : Word) : Agent := .array gk num.toNat

/-- The value that a drain writes for an element, and its events (R224); a NaN that enters is counted for vector instructions and matrix groups
only (R102). The dropout key is read as each row is drained; R224 does not say when (DESIGN CHOICE, log 91). -/
def State.drainVal (s : State) (core : Nat) (g : Group) (cfg : List Word) (o : MatOp) (r c : Nat) : Val × Ev :=
  let d := descOf cfg o.tile
  let e := r * tileN d + c
  let v := getD 0 s.acc (tileKey core d e)
  if intFamily (cfgFmtA cfg) then (Val.ofInt v.toInt, evNone)
  else
    let x := if o.drop then
        (if o.thr.toNat ≤ ((beadMix g.dkeyl g.dkeyh (o.col0 + wd c) (o.row0 + wd r)) >>> 8).toNat then fp2 f32.mul v o.f else (0, evNone))
      else (v, evNone)
    let y := match o.res with
      | some q => let z := fp2 f32.add x.1 (getD 0 s.acc (tileKey core (descOf cfg q) e)); (z.1, x.2 ||| z.2)
      | none => x
    (f32.decode y.1.toNat, y.2 &&& ~~~evNan)

/-- Progress of a row of a drain: the state, elements done, elements written, events, faulty blocks, granules, and how it failed. -/
structure Drained where
  s : State
  at_ : Nat
  done : Nat
  ev : List Ev
  faults : Nat
  grs : List Nat
  err : Option (Nat × Nat)

/-- Write element (row, col) of a record as an engine: None of Locate drops it. -/
def State.putElemAt (s : State) (who : Actor) (r : Rec) (row col code : Nat) : Except Nat (Option (State × List Loc)) :=
  match s.locateAt who r row (unitIndex r.fmt col) (unitSize r.fmt) .write with
  | .error f => .error (faultStatus f.kind)
  | .ok none => .ok none
  | .ok (some ls) =>
    if !ls.all Loc.isPad then .error 1
    else .ok (some (s.engineWrite who (putElem r.fmt col (s.readNat who ls) code) ls, ls))

/-- Byte offset of an element from rec.base, mod 2^32 (R225). -/
def Rec.elemOffset (r : Rec) (row col : Nat) : Nat := ((unitIndex r.fmt col * r.stride0 + row * r.stride1) % 2 ^ 32).toNat

/-- Write the scale bytes of a block (R92). -/
def putScale (who : Actor) (r : Rec) (off : Nat) : List Nat → Drained → Drained
  | [], x => x
  | b :: rest, x => match x.err with
    | some _ => x
    | none => match x.s.locateSide who r off 1 .write with
      | .error f => { x with err := some (faultStatus f.kind, off) }
      | .ok ls =>
        if !ls.all Loc.isPad then { x with err := some (1, off) }
        else putScale who r (off + 1) rest { x with s := x.s.engineWrite who b ls, grs := addGranules x.grs ls }

/-- Write one element of a drain's row, with its block's scale after the last element of the block; `bad` says that the produced blocks count
as faulty (R102). -/
def drainElem (who : Actor) (r : Rec) (row col0 c : Nat) (code : Nat × Ev) (scales : List Nat) (bad : Bool) (x : Drained) : Drained :=
  match x.err with
  | some _ => x
  | none =>
    let col := col0 + c
    match x.s.putElemAt who r row col code.1 with
    | .error e => { x with err := some (e, r.elemOffset row col) }
    | .ok w =>
      let y := { x with at_ := x.at_ + 1, ev := code.2 :: x.ev }
      let y := match w with
        | some (s, ls) => { y with s := s, done := y.done + 1, grs := addGranules y.grs ls }
        | none => y
      if fmtScaled r.fmt && c % 32 = 31 then
        let per := if r.fmt = 0 then 2 else 1
        let n := r.rowlen / 32
        let off := scaleOffset r.fmt n row + per * (col / 32)
        let z := putScale who r off ((scales.drop (per * (c / 32))).take per) y
        match z.err with
        | none => { z with faults := z.faults + (if bad then 1 else 0) }
        | some e => { z with at_ := x.at_, err := some (e.1, r.elemOffset row col) }
      else y

/-- The first `limit` elements of row `row` of a drain. -/
def drainRow (core : Nat) (who : Actor) (g : Group) (cfg : List Word) (o : MatOp) (tensor : Word) (row limit : Nat) (s : State) : Drained :=
  let n := tileN (descOf cfg o.tile)
  let vals := (List.range n).map (fun c => s.drainVal core g cfg o row c)
  let (codes, scales, _) := produceRow o.dst.fmt (vals.map (·.1)) tensor
  let codes := (codes.zip vals).map (fun p => (p.1.1, p.1.2 ||| p.2.2))
  ((List.range (Nat.min n limit)).zip codes).foldl
    (fun x p => drainElem who o.dst (o.row0.toNat + row) o.col0.toNat p.1 p.2 scales (hasTensor o.dst.fmt && badTensor tensor) x)
    { s := s, at_ := 0, done := 0, ev := [], faults := 0, grs := [], err := none }

/-- The destination of a drain is one that R224 allows. -/
def State.drainDest (s : State) (part : Nat) (o : MatOp) (n : Nat) : Bool :=
  let r := o.dst
  !s.refused part r && r.fmt ≠ 16 && (r.space = 2 || (r.space = 1 && r.base % 2 ^ 20 < 0x80000)) && o.col0.toNat + n ≤ r.rowlen
    && (!fmtScaled r.fmt || (o.col0.toNat % 32 = 0 && n % 32 = 0))

/-- The tensor scale of a record's scale side; 0 for formats without one (R92). -/
def State.tensorOf (s : State) (who : Actor) (r : Rec) : Except Nat Word :=
  if !hasTensor r.fmt then .ok 0
  else match s.locateSide who r 0 4 .read with
    | .error f => .error (faultStatus f.kind)
    | .ok ls => if ls.any (s.unreadable who) then .error 5 else .ok (wd (s.readNat who ls))

/-- Granules that element `e` of a drain of rows of `n` elements writes, and those of its block's scale after the last element of a block. -/
def State.drainGrans (s : State) (who : Actor) (o : MatOp) (n e : Nat) : List Nat :=
  let r := o.dst
  let row := o.row0.toNat + e / n
  let col := o.col0.toNat + e % n
  let per := if r.fmt = 0 then 2 else 1
  (match s.locateAt who r row (unitIndex r.fmt col) (unitSize r.fmt) .write with | .ok (some ls) => granulesOf ls | _ => [])
    ++ (if fmtScaled r.fmt && e % n % 32 = 31 then
      (List.range per).flatMap (fun k => match s.locateSide who r (scaleOffset r.fmt (r.rowlen / 32) row + per * (col / 32) + k) 1 .write with
        | .ok ls => granulesOf ls
        | .error _ => [])
    else [])

/-- Write the first `limit` elements of a drain's next row and set full what no element from there on writes (R205, R224, R225). A failure
ends the drain. -/
def State.rowDrain (s : State) (core : Nat) (o : MatOp) (g : Group) (cfg : List Word) (limit : Nat) : State × MatOp :=
  let who := s.engineOf core o.slot (arrayAgent (gkOf core o.slot) o.num)
  let d := descOf cfg o.tile
  let n := tileN d
  let stop := fun (e : Nat) => (s, { o with fin := some { status := e, done := o.wrote, step := 0, addr := BitVec.ofNat 64 (o.dst.elemOffset (o.row0.toNat + o.row) o.col0.toNat) } })
  if !s.drainDest who.part o n then stop 1
  else match s.tensorOf who o.dst with
    | .error e => stop e
    | .ok t =>
      let x := drainRow core who g cfg o t o.row limit s
      let next := n * o.row + x.at_
      let later := (List.range (tileM d * n - next)).flatMap (fun k => x.s.drainGrans who o n (next + k))
      let grs := (o.grans ++ x.grs).eraseDups
      (x.s.fillGranules (grs.filter (fun k => !later.contains k)),
        { o with
          wrote := o.wrote + x.done
          grans := grs.filter later.contains
          events := addEvents o.events (addEvents (countEvents x.ev) (if x.faults = 0 then [] else [(7, x.faults)]))
          fin := x.err.map (fun e => { status := e.1, done := o.wrote + x.done, step := 0, addr := BitVec.ofNat 64 e.2 }) })

/-- One row of a drain (R224); the last one ends it. -/
def State.stepDrain (s : State) (core : Nat) (o : MatOp) (g : Group) (cfg : List Word) : State × MatOp :=
  let d := descOf cfg o.tile
  let (s1, o1) := s.rowDrain core o g cfg (tileN d)
  let o2 := { o1 with row := o.row + 1 }
  if o1.fin.isSome || o2.row < tileM d then (s1, o2)
  else (if o.clr then { s1 with acc := dropRange s1.acc (tileKey core d 0) (tileKey core d (tileM d * tileN d)) } else s1,
    { o2 with fin := some { status := 0, done := o2.wrote, step := 0, addr := 0 } })

/-- The beat of a drain (R225). -/
def drainBeat (num : Word) (e : OpEnd) : Beat := beatOf [num, wd e.status, wd e.done, lo32 e.addr]

/-- Push the beat of a finished drain if `q3` has room, and take the drain from the array (R55, R225). -/
def State.endDrain (s : State) (core : Nat) (o : MatOp) (e : OpEnd) : State :=
  let gk := gkOf core o.slot
  match s.group gk with
  | none => s
  | some g =>
    if g.hasRoom 3 then
      let s1 := (s.setGroup gk { g.push 3 (drainBeat o.num e) with matFail := if e.status = 0 then g.matFail else g.matFail + 1 }).modCore core
        (fun c => { c with ops := c.ops.erase o })
      (s1.chargeOp gk o.events waitsArray).arrayEnds gk o.num
    else s

/-- A drain at the front of its array has a row in hand: its group runs and the row's reservation is held (R235). -/
def State.drainRuns (s : State) (core : Nat) (o : MatOp) : Bool :=
  o.kind = .drain && o.fin.isNone && s.arrayRuns core o.slot && s.poweredFor core .array 6

/-- MDRAIN_OPERATION_END (R224, R225, R235): one row of the front drain, before the first of which the core's buffered stores are performed
(R227); the last ends the operation. -/
def execMdrainOperationEnd (core : Nat) (s : State) : Out :=
  match (s.core core).ops with
  | o :: _ =>
    if o.kind = .drain && s.arrayRuns core o.slot then
      match o.fin, s.group (gkOf core o.slot) with
      | some e, _ => .next (s.endDrain core o e)
      | none, some g =>
        if s.drainRuns core o then
          let (s1, o1) := (if o.row = 0 then s.flushCore core else s).stepDrain core o g (g.cfg.getD [])
          let s2 := (s1.unpower core .array).setFront' core o1
          .next (match o1.fin with | some e => s2.endDrain core o1 e | none => s2)
        else .next s
      | none, none => .next s
    else .next s
  | [] => .next s

/-! ## Releasing the configuration (R217, R228) -/

/-- Operations count as failed in the group of a slot (R217). -/
def State.failOps (s : State) (core slot n : Nat) : State :=
  if n = 0 then s else s.modGroup (gkOf core slot) (fun g => { g with matFail := g.matFail + n })

/-- The passes that an `mma` still lacks. -/
def State.passesOf (s : State) (core : Nat) (w : Work) : Nat → MatOp → MatOp
  | 0, o => o
  | n + 1, o => s.passesOf core w n (s.passOf core o w)

/-- The tile of a paired `mma` that is abandoned on the other array: any mixture of its elements before and after the operation, each whole
(R228). A free value says which elements were written (log 63); where operands are missing, no element has a value after the operation. -/
def State.mixTile (s : State) (core : Nat) (o : MatOp) : State :=
  let o1 := (s.feed core o).2
  let w := s.workOf core o1
  if !o1.fed w then s
  else
    let (n, s1) := s.takeFresh
    let done := s.passesOf core w (o1.k / 16 - o1.g) o1
    { s1 with acc := (List.range (tileM w.desc * tileN w.desc)).foldl (fun m e =>
        if (Config.freeNat n).testBit e then put 0 m (tileKey core w.desc e) (getD 0 done.acc e) else m) s1.acc }

/-- The paired operations that two arrays share: the peer core's operations without the partner of the leader or follower on `core`. Only the
operation at the front of its array can have begun. Beats that the array has not taken stay in the FIFOs (log 91). -/
def State.dropPeers (s0 : State) (core slot : Nat) : State :=
  ((s0.core core).opsOf slot).foldl (fun s o =>
    match o.peer with
    | none => s
    | some p =>
      match (s.core p).ops.filter (fun x => x.peer = some core && x.lead ≠ o.lead) with
      | [] => s
      | m :: _ => ((if (s0.core p).ops.head? = some m then (s.mixTile p m).unpower p .array else s).modCore p (fun c => { c with ops := c.ops.erase m })).failOps p m.slot 1) s0

/-- The operation counts as failed when it is abandoned: it has not ended with status 0 (R217). -/
def MatOp.fails (o : MatOp) : Bool := o.fin.all (fun e => e.status ≠ 0)

/-- A drain that is abandoned stops between two elements of the row in hand (R217): a free value says after how many. It reports the elements
written, with status 7 unless it has failed (R228), and with no failing element, so that word 3 of its beat is 0 (DESIGN CHOICE, log 91). -/
def State.cutDrain (s : State) (core : Nat) (o : MatOp) (g : Group) (cfg : List Word) : State × MatOp :=
  let (s1, o1) := if (s.core core).ops.head? = some o && s.drainRuns core o then
      (let (n, t) := s.takeFresh; (if o.row = 0 then t.flushCore core else t).rowDrain core o g cfg (Config.freeNat n % (tileN (descOf cfg o.tile) + 1)))
    else (s, o)
  (s1, { o1 with fin := some (o1.fin.getD { status := 7, done := o1.wrote, step := 0, addr := 0 }) })

/-- Abandon the drains of a group: each reports through `q3`, or waits for a place there, and its events are charged (R55, R102, R217). -/
def State.cutDrains (s : State) (core gk : Nat) (g : Group) (cfg : List Word) : List MatOp → State
  | [] => s
  | o :: r =>
    let (s1, o1) := s.cutDrain core o g cfg
    let beat := (o1.fin.map (drainBeat o1.num)).toList
    (((s1.modGroup gk (fun g => Group.flush { g with held3 := g.held3 ++ beat })).chargeOp gk o1.events waitsArray).arrayEnds gk o.num).cutDrains core gk g cfg r

/-- The operation has a burst to run; one whose stream still holds a beat waits for its FIFO, and one that awaits bytes of another device for
them (R206, R354, R367). -/
def CopyOp.runs (o : CopyOp) : Bool :=
  o.started && o.fin.isNone && o.susp.isNone && o.job < o.jobs.length && !(o.toFifo && 128 ≤ o.stream.length) && !o.stall

/-- Jobs of a FIFO operation whose bytes have all entered the FIFO (R206, R208). -/
def CopyOp.entered (o : CopyOp) : Nat :=
  let n := rowBytes o.src.fmt o.src.rowlen
  if n = 0 then 0 else (o.job * n - o.stream.length) / n

/-- A copy operation with a FIFO destination ends with status 7, without a failing address (R206, R217, log 72); one that has ended and holds nothing for the FIFO stays. -/
def CopyOp.release (o : CopyOp) : CopyOp :=
  if !o.toFifo || (o.fin.isSome && o.stream = []) then o
  else { o with
    fin := some { status := 7, done := o.entered, step := 2, addr := 0 }, stream := [], susp := none, buf := none
    events := addEvents o.events ((o.buf.map RowBuf.ev).getD []) }

/-- The FIFO operations of a group end; one that still waits for slices takes its number now, and slices that come later are dropped
(log 71). -/
def Group.releaseCopies (g : Group) : Group :=
  let late := g.copies.filter (fun o => o.toFifo && !o.started)
  let g1 := late.foldl (fun (g : Group) o =>
    let (g1, o1) := g.startCopy o
    let rest := g1.copies.erase o
    { g1 with copies := rest.filter (·.started) ++ [o1] ++ rest.filter (fun x => !x.started), copyGone := g1.copyGone ++ [o.k] }) g
  { g1 with copies := g1.copies.map CopyOp.release }

/-- The reservations of macro-operations that a release of the configuration ends are released (R354). -/
def State.dropPower (s : State) (core slot : Nat) (g : Group) : State :=
  let s1 := if (s.core core).ops.head?.any (fun o => o.slot = slot) then s.unpower core .array else s
  if g.copies.any (fun o => o.toFifo && o.runs) then s1.unpower core .copy else s1

/-- mrelc steps 1 to 5 for the group of a slot that holds the configuration (R217); every tile that the group has configured reads +0
(R63). -/
def State.releaseCfg (s : State) (core slot : Nat) : State :=
  let gk := gkOf core slot
  match s.group gk with
  | none => s
  | some g => match g.cfg with
    | none => s
    | some cfg =>
      let mine := (s.core core).opsOf slot
      let s1 := (s.dropPeers core slot).failOps core slot (mine.filter MatOp.fails).length
      let s2 := s1.cutDrains core gk g cfg (mine.filter (fun o => o.kind = .drain))
      let s3 := s2.modGroup gk (fun g => { g.releaseCopies with cfg := none, cfgOld := [] })
      let s4 := (cfg :: g.cfgOld).foldl (fun s c => s.zeroTiles core c) s3
      (s4.dropPower core slot g).modCore core (fun c => { c with ops := c.ops.filter (fun o => o.slot ≠ slot), q0 := [], q1 := [], holder := none })

/-- `mrelc` (R217). -/
def execMrelc (s : State) : Out :=
  withHere s fun h => notInHandler s h (.next ((s.releaseCfg h.core h.slot).leave h [] (fun _ => .seq)))

/-! ## mzero, mwait, mstat (R226) -/

/-- `mzero` (R226). -/
def execMzero (mask : BitVec 4) (s : State) : Out :=
  withHere s fun h => notInHandler s h (
    match h.g.cfg with
    | none => trap s h kState
    | some cfg =>
      if (List.range 4).any (fun t => mask.getLsbD t && !present (descOf cfg t)) then trap s h kState
      else if 4 ≤ s.matOut h.core h.slot then .next (s.await h)
      else
        let n := h.g.matNum + 1
        .next (((s.modGroup h.gk (fun g => { g with matNum := n })).acceptOp h.core { MatOp.start .zero h.slot n (.mzero mask) with mask := mask }).leave h [] (fun _ => .seq)))

/-- MZERO_OPERATION_END (R226). -/
def execMzeroOperationEnd (core : Nat) (s : State) : Out :=
  match (s.core core).ops with
  | o :: r =>
    if o.kind = .zero && s.arrayRuns core o.slot && s.poweredFor core .array 2 then
      let cfg := s.cfgOf core o.slot
      let acc := (List.range 4).foldl (fun m t =>
        if o.mask.getLsbD t then dropRange m (tileKey core (descOf cfg t) 0) (tileKey core (descOf cfg t) (tileM (descOf cfg t) * tileN (descOf cfg t))) else m) s.acc
      .next (({ s with acc := acc }.modCore core (fun c => { c with ops := r })).unpower core .array)
    else .next s
  | [] => .next s

/-- `mwait` (R226). -/
def execMwait (d a : Reg) (s : State) : Out :=
  withHere s fun h => checked s h [d, a] [a] (notInHandler s h (
    if (s.uniform h a).toNat < s.matOut h.core h.slot then .next (s.await h)
    else .next ((((s.pass (· = .queue h.gk 3) h.agents).modGroup h.gk (fun g => { g with matFail := 0 })).produce h d (readsLatch [a]) (fun _ => wd h.g.matFail)).retire h [])))

/-- The value of `mstat` (R226). -/
def State.mstatOf (s : State) (h : Here) (sel : Nat) : Word :=
  let holder := (s.licence (pairOf h.core)).holder
  let b (x : Bool) : BitVec 1 := BitVec.ofBool x
  if sel ≤ 2 then (h.g.cfg.getD []).getD sel 0
  else if sel = 3 then wd (s.matOut h.core h.slot)
  else 0#28 ++ (b h.g.cfg.isSome ++ (b (holder.any (fun k => k / 16 ≠ h.core)) ++ (b (holder.any (fun k => k / 16 = h.core && k ≠ h.gk)) ++ b (holder = some h.gk))))

/-- `mstat` (R226). -/
def execMstat (d : Reg) (sel : BitVec 7) (s : State) : Out :=
  withHere s fun h => checked s h [d] [] (notInHandler s h (.next ((s.produce h d false (fun _ => s.mstatOf h sel.toNat)).retire h [])))

end Sys2Proof.Machine
end

