-- ==== Sys2Proof/Machine/Copy.lean ====
section
/-! DEFINITION. The copy engine (R197-R213). -/

namespace Sys2Proof.Machine

/-! ## Issue (R197-R200, R207) -/

/-- Field b of a destination (R200). -/
def destField : CopyDest → Reg
  | .slot t => t.setWidth 7
  | .fifoA => 32
  | .fifoB => 64

/-- Field a of a copy word (R200). -/
def srcField (sparse solo : Bool) (slot : BitVec 5) : Reg := BitVec.ofBool sparse ++ (BitVec.ofBool solo ++ slot)

/-- The instruction raises the determinism trap at issue under det = 1 (R207). -/
def copyDetBad (g : Group) (fn : Nat) (a b : Reg) (fifo : Bool) : Bool :=
  let (x, i, y) := copySlots fn a b
  (g.shapeRec x).detBad (fn = 0 && a.getLsbD 6) || (fn ≠ 0 && (g.shapeRec i).detBad false) || (!fifo && ((g.shapeRec y).space = 0 || (g.shapeRec y).detBad false))

/-- A copy operation of the group of a slot as an agent (R255): a solo one by its number, another by its place in program order. -/
def CopyOp.agent (o : CopyOp) (gk : Nat) : Agent := .copy gk (if o.solo then 2 * o.num.toNat else 2 * o.k + 1)

/-- An operation with nothing done. -/
def CopyOp.start (fn : Nat) (a b : Reg) (solo : Bool) (k : Nat) : CopyOp :=
  { fn := fn, a := a, b := b, solo := solo, k := k, joined := [], jobs := [], started := false, num := 0, src := 0, idx := 0, dst := 0, job := 0,
    step := 1, index := none, susp := none, fin := none, stream := [], granules := [], events := [] }

/-- Insert a job in job order (R197). -/
def insJob (j : Job) : List Job → List Job
  | [] => [j]
  | x :: r => if 32 * j.wave + j.lane < 32 * x.wave + x.lane then j :: x :: r else x :: insJob j r

/-- Add a lane's job to an operation (R197). -/
def CopyOp.join (o : CopyOp) (j : Job) : CopyOp :=
  { o with joined := insert o.joined j.wave (getD 0 o.joined j.wave ||| bit j.lane), jobs := insJob j o.jobs }

/-- The job of a lane (R201). -/
def State.jobOf (s : State) (h : Here) (d : Reg) (l : Nat) : Job := { wave := h.wave, lane := l, x := s.reg h l d, y := s.reg h l (regPlus d 1) }

/-- Join lane `l`'s job to the group's collective operation `k`; one that a release of the configuration has ended takes no more slices
(log 71). -/
def Group.joinCopy (g : Group) (fn : Nat) (a b : Reg) (k : Nat) (j : Job) : Group :=
  if g.copyGone.contains k then g
  else if g.copies.any (fun o => !o.solo && o.k = k && !o.started) then
    { g with copies := g.copies.map (fun o => if !o.solo && o.k = k && !o.started then o.join j else o) }
  else { g with copies := g.copies ++ [(CopyOp.start fn a b false k).join j] }

/-- `cpy`, `cpyg` and `cpys` at issue (R197-R200). -/
def copyIssue (d : Reg) (fn : Nat) (a b : Reg) (solo : Bool) (s : State) : Out :=
  withHere s fun h => checked s h [d, regPlus d 1] [] (notInHandler s h (
    let fifo := fn ≠ 2 && (b = 32 || b = 64)
    let number := fun l => (s.thread (h.tk l)).copyCount + 1
    let joins := fun (o : CopyOp) l => !o.solo && !o.started && o.k = number l
    detStop s h (copyDetBad h.g fn a b fifo) (
      if (fifo && h.g.cfg.isNone) || (!solo && h.w.rfOpen)
          || (!solo && h.lanes.any (fun l => h.g.copies.any (fun o => joins o l && (o.fn ≠ fn || o.a ≠ a || o.b ≠ b)))) then trap s h kState
      else
        let fresh := if solo then 1 else ((h.lanes.map number).eraseDups.filter (fun k =>
          !h.g.copyGone.contains k && !h.g.copies.any (fun o => !o.solo && !o.started && o.k = k))).length
        if 8 < h.g.copies.length + fresh then .next (s.await h)
        else if solo then
          let o := { CopyOp.start fn a b true 0 with jobs := h.lanes.map (s.jobOf h d) }
          let (g, o1) := h.g.startCopy o
          let g1 := { g with copies := g.copies.filter (·.started) ++ [o1] ++ g.copies.filter (fun x => !x.started) }
          .next (((s.pass h.owns [o1.agent h.gk]).setGroup h.gk g1).leave h [] (fun _ => .seq))
        else
          let g1 := h.lanes.foldl (fun g l => g.joinCopy fn a b (number l) (s.jobOf h d l)) h.g
          let s0 := h.lanes.foldl (fun t l => t.pass (· = .thread (h.tk l)) [.copy h.gk (2 * number l + 1)]) s
          let s1 := (s0.setGroup h.gk g1).modLanes h (fun t => { t with copyCount := t.copyCount + 1 })
          .next ((s1.leave h [] (fun _ => .seq)).settleCopies h.gk))))

/-- `cpy` (R200, R201). -/
def execCpy (d : Reg) (sparse solo : Bool) (src : BitVec 5) (dst : CopyDest) (s : State) : Out :=
  copyIssue d 0 (srcField sparse solo src) (destField dst) solo s
/-- `cpyg` (R200, R201). -/
def execCpyg (d : Reg) (solo : Bool) (idx : BitVec 5) (dst : CopyDest) (s : State) : Out :=
  copyIssue d 1 (srcField false solo idx) (destField dst) solo s
/-- `cpys` (R200, R201). -/
def execCpys (d : Reg) (solo : Bool) (src idx : BitVec 5) (s : State) : Out :=
  copyIssue d 2 (srcField false solo src) (idx.setWidth 7) solo s

/-! ## Reads (R201, R208, R210) -/

/-- How an engine access fails: a status of R208 with an address, and the byte that could not be read (R312, R367),
or a translation fault that suspends (R210). The address of an end that has no access is 0 (log 72). -/
inductive Stop
  | status (code : Nat) (addr : BitVec 64) (lost : Option Loc)
  | susp (f : LocFault)
  deriving DecidableEq, Repr

/-- The table entry with an uncorrectable error that a stop met (R312, R340). -/
def State.stopLoss (s : State) (who : Actor) : Stop → Option Nat
  | .susp f => if f.detail = 5 then s.walkLoss who f.va.toNat else none
  | .status _ _ _ => none

/-- A fault of Locate as an engine meets it. -/
def stopOf (f : LocFault) : Stop := if f.kind = kTrans then .susp f else .status (faultStatus f.kind) f.va none

/-- Read located bytes as an engine (R208). -/
def State.readLocs (s : State) (who : Actor) (va : BitVec 64) (ls : List Loc) : Except Stop Nat :=
  match ls.find? (s.unreadable who) with
  | some l => .error (.status 5 va (some l))
  | none => .ok (s.plainNat who ls)

/-- Read the unit at (row, n) through a record; 0 for None. -/
def State.readUnit (s : State) (who : Actor) (r : Rec) (row n u : Nat) : Except Stop Nat :=
  match s.locateAt who r row n u .read with
  | .error f => .error (stopOf f)
  | .ok none => .ok 0
  | .ok (some ls) => s.readLocs who (s.unitAddr who r row n u .read) ls

/-- Read scale-side or metadata bytes. -/
def State.readSide (s : State) (who : Actor) (r : Rec) (off u : Nat) : Except Stop Nat :=
  match s.locateSide who r off u .read with
  | .error f => .error (stopOf f)
  | .ok ls => s.readLocs who (s.sideAddr who r off .read) ls

/-- Map over a list, stopping at the first error. -/
def mapStop {α β : Type} (f : α → Except Stop β) : List α → Except Stop (List β)
  | [] => .ok []
  | x :: r => match f x with
    | .error e => .error e
    | .ok y => match mapStop f r with
      | .error e => .error e
      | .ok ys => .ok (y :: ys)

/-- The element codes of a row of a record. -/
def State.rowCodes (s : State) (who : Actor) (r : Rec) (row : Nat) : Except Stop (List Nat) :=
  match mapStop (fun n => s.readUnit who r row n (unitSize r.fmt)) (List.range (r.rowlen / perUnit r.fmt)) with
  | .error e => .error e
  | .ok us => .ok ((us.map (fun v => (List.range (perUnit r.fmt)).map (fun c => pickElem r.fmt c v))).flatten)

/-- The scale bytes of a row (R92). -/
def State.rowScales (s : State) (who : Actor) (r : Rec) (row : Nat) : Except Stop (List Nat) :=
  let n := r.rowlen / 32
  mapStop (fun k => s.readSide who r (scaleOffset r.fmt n row + k) 1) (List.range (scaleBytes r.fmt n))

/-- The tensor scale that a record's values use (R92); 0 for formats without one. -/
def State.rowTensor (s : State) (who : Actor) (r : Rec) : Except Stop Word :=
  if hasTensor r.fmt then (match s.readSide who r 0 4 with | .error e => .error e | .ok v => .ok (wd v)) else .ok 0

/-- Formats of a sparse source (R170). -/
def sparseFmt (f : Nat) : Bool := f = 4 || f = 6 || f = 8 || f = 11 || f = 12 || f = 14 || f = 15 || f = 17

/-- The dense codes of a group of four from its metadata code and two compressed elements (R170). -/
def expand4 (code e0 e1 : Nat) : List Nat := (List.range 4).map (fun p => if p = code % 4 then e0 else if p = code / 4 then e1 else 0)

/-- The dense codes of a row of a 2:4 source (R170). -/
def State.sparseCodes (s : State) (who : Actor) (r : Rec) (row : Nat) : Except Stop (List Nat) :=
  if !sparseFmt r.fmt || r.rowlen % 8 ≠ 0 then .error (.status 1 0 none)
  else match mapStop (fun n => s.readUnit who r row n (unitSize r.fmt)) (List.range (r.rowlen / 2)) with
    | .error e => .error e
    | .ok es =>
      let one := fun g => match s.readSide who r (row * (r.rowlen / 8) + g / 2) 1 with
        | .error e => .error e
        | .ok b =>
          let code := b / 2 ^ (4 * (g % 2)) % 16
          if code / 4 ≤ code % 4 then .error (.status 6 (s.sideAddr who r (row * (r.rowlen / 8) + g / 2) .read) none)
          else .ok (expand4 code (es.getD (2 * g) 0) (es.getD (2 * g + 1) 0))
      match mapStop one (List.range (r.rowlen / 4)) with
      | .error e => .error e
      | .ok gs => .ok gs.flatten

/-! ## One job (R201-R206) -/

/-- A source row: codes and scale bytes. -/
structure Row where
  codes : List Nat
  scales : List Nat
  deriving DecidableEq, Repr

/-- The operation is sparse (R200). -/
def CopyOp.sparse (o : CopyOp) : Bool := o.a.getLsbD 6

/-- The pairing of source and destination is refused (R203-R206): a status, 0 for none. -/
def State.pairing (s : State) (who : Actor) (g : Group) (o : CopyOp) : Nat :=
  if s.refused who.part o.src then 1
  else if o.toFifo then
    (match g.cfg with
    | none => 7
    | some cfg => if o.src.fmt ≠ (if o.b = 32 then cfgFmtA cfg else cfgFmtB cfg) || o.sparse then 1 else 0)
  else if s.refused who.part o.dst || o.dst.rowlen ≠ o.src.rowlen || (o.dst.fmt = 16 && o.src.fmt ≠ 16) || (o.dst.space = 0 && o.dst.publish = 0)
      || (o.sparse && !(o.dst.space = 2 || (o.dst.space = 1 && o.dst.base % 2 ^ 20 < 0x80000))) then 1
  else 0

/-- Read a whole source row (R202). -/
def State.sourceRow (s : State) (who : Actor) (o : CopyOp) (row : Nat) : Except Stop Row :=
  match (if o.sparse then s.sparseCodes who o.src row else s.rowCodes who o.src row) with
  | .error e => .error e
  | .ok cs => match s.rowScales who o.src row with
    | .error e => .error e
    | .ok ss => .ok { codes := cs, scales := ss }

/-- Scale byte and special byte of block `j` of a row. -/
def Row.scale (r : Row) (f j : Nat) : Nat × Nat := if f = 0 then (r.scales.getD (2 * j) 0, r.scales.getD (2 * j + 1) 0) else (r.scales.getD j 0, 0)

/-- Blocks of a row that are read with a NaN scale, or with a faulty tensor scale where one is read (R102). -/
def Row.faults (r : Row) (f : Nat) (tensor : Option Word) : Nat :=
  if !fmtScaled f then 0
  else ((List.range (r.codes.length / 32)).filter (fun j => (r.scale f j).1 = 0xFF || tensor.any (fun t => hasTensor f && badTensor t))).length

/-- The row in the destination's format: codes, scale bytes and events (R203). -/
def State.convertRow (s : State) (who : Actor) (o : CopyOp) (row : Row) : Except Stop (List Nat × List Nat × SMap Nat) :=
  let sf := o.src.fmt
  let df := o.dst.fmt
  let faultEv := fun n : Nat => if n = 0 then ([] : SMap Nat) else [(7, n)]
  if sf = df then .ok (row.codes, row.scales, faultEv (row.faults sf none))
  else match s.rowTensor who o.src with
    | .error e => .error e
    | .ok t => match s.rowTensor who o.dst with
      | .error e => .error e
      | .ok t' =>
        let vals := ((List.range row.codes.length).zip row.codes).map (fun p => let b := row.scale sf (p.1 / 32); enter sf p.2 b.1 b.2 t)
        let (cs, ss, bad) := produceRow df vals t'
        .ok (cs.map (·.1), ss, addEvents (countEvents (cs.map (·.2))) (faultEv (row.faults sf (some t) + bad)))

/-- The unit values of a row of codes (R91). -/
def unitsOf (f : Nat) (codes : List Nat) : List Nat :=
  let p := perUnit f
  (List.range (codes.length / p)).map (fun n => (List.range p).foldl (fun v c => v + codes.getD (p * n + c) 0 * 2 ^ (elemBits f * c)) 0)

/-- A located unit lies in kinds 1 to 3 of the on-chip map (R157). -/
def offPad (ls : List Loc) : Bool := ls.any (fun l => match l with | .chip _ _ => !l.isPad | _ => false)

/-- An operation may write a located unit (R204, R205): outside scratchpad on chip only words of format 17, and a sparse operation only
scratchpad. -/
def CopyOp.mayWrite (o : CopyOp) (ls : List Loc) : Bool := !(offPad ls && o.dst.fmt ≠ 17) && !(o.sparse && !ls.all Loc.isPad)

/-- Write units of a row from unit index `n` up; the granules written are collected (R201, R205). -/
def writeUnits (who : Actor) (o : CopyOp) (row : Nat) : List Nat → Nat → State → List Nat → Except (Stop × State) (State × List Nat)
  | [], _, s, grs => .ok (s, grs)
  | v :: rest, n, s, grs =>
    match s.locateAt who o.dst row n (unitSize o.dst.fmt) .write with
    | .error f => .error (stopOf f, s)
    | .ok none => writeUnits who o row rest (n + 1) s grs
    | .ok (some ls) =>
      if !o.mayWrite ls then .error (.status 1 (s.unitAddr who o.dst row n (unitSize o.dst.fmt) .write) none, s)
      else writeUnits who o row rest (n + 1) (s.engineWrite who v ls) (addGranules grs ls)

/-- Write scale bytes of a row; kinds 1 to 3 of the map take words of format 17 only (R203, R205). -/
def writeScales (who : Actor) (r : Rec) : List Nat → Nat → State → List Nat → Except (Stop × State) (State × List Nat)
  | [], _, s, grs => .ok (s, grs)
  | b :: rest, off, s, grs =>
    match s.locateSide who r off 1 .write with
    | .error f => .error (stopOf f, s)
    | .ok ls =>
      if offPad ls then .error (.status 1 (s.sideAddr who r off .write) none, s)
      else writeScales who r rest (off + 1) (s.engineWrite who b ls) (addGranules grs ls)

/-- Bytes of a row in a FIFO stream (R206). -/
def streamRow (f : Nat) (row : Row) : List Byte :=
  let us := ((unitsOf f row.codes).map (fun v => bytesOf v (unitSize f))).flatten
  let ss := row.scales.map (fun b => BitVec.ofNat 8 b)
  us ++ List.replicate (pad4 us.length - us.length) 0 ++ ss ++ List.replicate (pad4 ss.length - ss.length) 0

/-- Read the row of step 2 of a job (R201, R202): row `r`, to be written as row `t`. -/
def State.readJob (s : State) (who : Actor) (g : Group) (o : CopyOp) (r t : Nat) : Except Stop RowBuf :=
  match s.pairing who g o with
  | 0 =>
    match s.sourceRow who o r with
    | .error e => .error e
    | .ok row =>
      if o.toFifo then
        let n := row.faults o.src.fmt none
        .ok { row := t, unit := 0, units := [], off := 0, scales := [], bytes := streamRow o.src.fmt row, passed := 0, grs := [], ev := if n = 0 then [] else [(7, n)] }
      else match s.convertRow who o row with
        | .error e => .error e
        | .ok (cs, ss, ev) => .ok { row := t, unit := 0, units := unitsOf o.dst.fmt cs, off := scaleOffset o.dst.fmt (o.dst.rowlen / 32) t, scales := ss
                                    bytes := [], passed := 0, grs := [], ev := ev }
  | st => .error (.status st 0 none)

/-- IndexWord (R201). -/
def State.indexWord (s : State) (who : Actor) (r : Rec) (p : Nat) : Except Stop Nat :=
  if s.refused who.part r then .error (.status 1 0 none) else s.readUnit who r (p / r.rowlen) (p % r.rowlen) 4

/-! ## What walks and reads leave behind, and what reads await (R338, R341, R367) -/

/-- The units that the read of a row takes from device memory: its elements, its scale bytes, and the metadata of a sparse one (R92, R170). -/
def State.rowReads (s : State) (who : Actor) (r : Rec) (row : Nat) (sparse : Bool) : List (List Loc) :=
  if r.space ≠ 0 then []
  else
    let side := fun off => (match s.locateSide who r off 1 .read with | .ok ls => [ls] | .error _ => [])
    (List.range (if sparse then r.rowlen / 2 else r.rowlen / perUnit r.fmt)).flatMap (fun n =>
        match s.locateAt who r row n (unitSize r.fmt) .read with | .ok (some ls) => [ls] | _ => [])
      ++ (List.range (scaleBytes r.fmt (r.rowlen / 32))).flatMap (fun k => side (scaleOffset r.fmt (r.rowlen / 32) row + k))
      ++ (List.range (if sparse then (r.rowlen / 4 + 1) / 2 else 0)).flatMap (fun k => side (row * (r.rowlen / 8) + k))

/-- The tensor scale of a record in device memory. -/
def State.tensorReads (s : State) (who : Actor) (r : Rec) : List (List Loc) :=
  if r.space = 0 && hasTensor r.fmt then (match s.locateSide who r 0 4 .read with | .ok ls => [ls] | .error _ => []) else []

/-- The units that step 2 of a job reads of source row `r` (R201-R203). -/
def State.jobReads (s : State) (who : Actor) (o : CopyOp) (r : Nat) : List (List Loc) :=
  s.rowReads who o.src r o.sparse ++ (if o.toFifo || o.src.fmt = o.dst.fmt then [] else s.tensorReads who o.src ++ s.tensorReads who o.dst)

/-- The index word that step 1 reads. -/
def State.indexReads (s : State) (who : Actor) (r : Rec) (p : Nat) : List (List Loc) :=
  match s.locateAt who r (p / r.rowlen) (p % r.rowlen) 4 .read with | .ok (some ls) => [ls] | _ => []

/-- The walks of a row of a record. -/
def State.touchRow (s : State) (who : Actor) (r : Rec) (row : Nat) (acc : Access) : State :=
  let u := unitSize r.fmt
  let ns := List.range (r.rowlen / perUnit r.fmt)
  let side := (List.range (scaleBytes r.fmt (r.rowlen / 32))).map (fun k => r.base + r.scaleoff + scaleOffset r.fmt (r.rowlen / 32) row + k)
  s.noteWalks who (ns.flatMap (fun n => s.unitVas who r row n u acc) ++ (if r.space = 0 then side.map (fun a => s.virtualOf who r a acc) else []))

/-- The walk of an index word. -/
def State.touchIndex (s : State) (who : Actor) (r : Rec) (p : Nat) : State := s.noteWalks who (s.unitVas who r (p / r.rowlen) (p % r.rowlen) 4 .read)

/-! ## Running (R199, R202, R205, R208, R210, R213) -/

/-- Granules that row `t` of a record reaches, its scale bytes among them. -/
def State.rowGranules (s : State) (who : Actor) (r : Rec) (t : Nat) : List Nat :=
  (List.range (r.rowlen / perUnit r.fmt)).flatMap (fun n => match s.locateAt who r t n (unitSize r.fmt) .write with
    | .ok (some ls) => granulesOf ls
    | _ => [])
  ++ (List.range (scaleBytes r.fmt (r.rowlen / 32))).flatMap (fun k => match s.locateSide who r (scaleOffset r.fmt (r.rowlen / 32) t + k) 1 .write with
    | .ok ls => granulesOf ls
    | .error _ => [])

/-- Set full the granules written so far that no later job writes (R161, R205). The rows that a `cpys` writes are known only when their jobs
read them, so its granules wait for the last job. -/
def State.fillDone (s : State) (who : Actor) (o : CopyOp) : State × CopyOp :=
  let rest := o.jobs.drop o.job
  if rest = [] then (s.fillGranules o.granules, { o with granules := [] })
  else if o.fn = 2 then (s, o)
  else
    let later := rest.flatMap (fun j => s.rowGranules who o.dst j.y.toNat)
    (s.fillGranules (o.granules.filter (fun g => !later.contains g)), { o with granules := o.granules.filter later.contains })

/-- Write a unit or leave it: byte by byte as a mask says, and whole outside scratchpad on chip and device memory (R48, R208). -/
def State.writeSome (s : State) (who : Actor) (v : Nat) (ls : List Loc) (mask : Nat) : State :=
  if offPad ls then (if mask.testBit 0 then s.writeNat who v ls else s)
  else if who.races ls then
    ((List.range ls.length).zip ((bytesOf v ls.length).zip ls)).foldl (fun s p => if mask.testBit p.1 then s.engineWrite who p.2.1.toNat [p.2.2] else s) s
  else
    let kept := ((List.range ls.length).zip ((bytesOf v ls.length).zip ls)).filter (fun p => mask.testBit p.1)
    s.writeUnit who (kept.map (fun p => p.2.1)) (kept.map (fun p => p.2.2))

/-- The bytes that a mask keeps of the units of a row, as far as they have a place. -/
def unitsSome (who : Actor) (o : CopyOp) (row : Nat) : List Nat → Nat → Nat → State → State
  | [], _, _, s => s
  | v :: rest, n, mask, s =>
    let s1 := match s.locateAt who o.dst row n (unitSize o.dst.fmt) .write with
      | .ok (some ls) => if o.mayWrite ls then s.writeSome who v ls mask else s
      | _ => s
    unitsSome who o row rest (n + 1) (mask / 2 ^ unitSize o.dst.fmt) s1

/-- The scale bytes of a row that a mask keeps. -/
def scalesSome (who : Actor) (r : Rec) : List Nat → Nat → Nat → State → State
  | [], _, _, s => s
  | b :: rest, off, mask, s =>
    let s1 := match s.locateSide who r off 1 .write with
      | .ok ls => if offPad ls then s else s.writeSome who b ls mask
      | .error _ => s
    scalesSome who r rest (off + 1) (mask / 2) s1

/-- What a mask keeps of the row in hand (R208). -/
def State.bufSome (s : State) (who : Actor) (o : CopyOp) (b : RowBuf) (mask : Nat) : State :=
  scalesSome who o.dst b.scales b.off (mask / 2 ^ (unitSize o.dst.fmt * b.units.length)) (unitsSome who o b.row b.units b.unit mask s)

/-- The row with which a later job leaves any subset of its bytes written: a free value is the mask (R208, log 2). -/
def State.rowFree (s : State) (who : Actor) (g : Group) (o : CopyOp) (r t : Nat) : State :=
  let (n, s1) := s.takeFresh
  match s.readJob who g o r t with
  | .error _ => s1
  | .ok b => s1.bufSome who o b (Config.freeNat n)

/-- What the jobs after a failing one may have written (R208, R210). -/
def State.scatter (who : Actor) (g : Group) (o : CopyOp) : List Job → State → State
  | [], s => s
  | j :: rest, s =>
    let s1 := if o.fn = 0 then s.rowFree who g o j.x.toNat j.y.toNat
      else match s.indexWord who o.idx (if o.fn = 1 then j.x else j.y).toNat with
        | .error _ => s
        | .ok v => s.rowFree who g o (if o.fn = 1 then v else j.x.toNat) (if o.fn = 2 then v else j.y.toNat)
    State.scatter who g o rest s1

/-- A job stops at a step: a status ends the operation, a translation fault suspends it, to restart the job there (R208, R210). The blocks
that it has read count (R102). An uncorrectable error in data or in the table entry that the stop met goes to the partition (R312, R340). -/
def State.stopJob (s : State) (who : Actor) (g : Group) (o : CopyOp) (step : Nat) (e : Stop) (loss : Option Nat) : State × CopyOp :=
  let s1 := State.scatter who g o (o.jobs.drop (o.job + 1)) s
  let o1 := { o with step := step, buf := none, events := addEvents o.events ((o.buf.map RowBuf.ev).getD []) }
  match e with
  | .susp f => (match loss with | some own => s1.contain who.part own | none => s1, { o1 with susp := some { cause := f.detail, va := f.va, acc := f.acc.code, told := none } })
  | .status c a line => (match line with | some l => s1.loseRead who l | none => s1, { o1 with fin := some { status := c, done := o.job, step := step, addr := a } })

/-- Step 2 fails with a row in hand: any subset of its bytes may have been written (R208). -/
def State.stopRow (s : State) (who : Actor) (g : Group) (o : CopyOp) (b : RowBuf) (e : Stop) (loss : Option Nat) : State × CopyOp :=
  let (n, s1) := s.takeFresh
  (s1.bufSome who o b (Config.freeNat n)).stopJob who g { o with buf := some b } 2 e loss

/-- The job in hand is complete. -/
def State.endJob (s : State) (who : Actor) (o : CopyOp) (b : RowBuf) : State × CopyOp :=
  s.fillDone who { o with
    job := o.job + 1, step := 1, index := none, buf := none, stream := o.stream ++ b.bytes
    granules := (o.granules ++ b.grs).eraseDups, events := addEvents o.events b.ev }

/-- One burst of a job whose row is in hand: up to 512 destination bytes (R213). -/
def State.burst (s : State) (who : Actor) (g : Group) (o : CopyOp) (b : RowBuf) : State × CopyOp :=
  if o.toFifo then
    (if b.passed + 512 < b.bytes.length then (s, { o with buf := some { b with passed := b.passed + 512 } }) else s.endJob who o b)
  else
    let n := Nat.min b.units.length (512 / unitSize o.dst.fmt)
    let m := 512 - n * unitSize o.dst.fmt
    match writeUnits who o b.row (b.units.take n) b.unit s b.grs with
    | .error (e, t) => s.stopRow who g o b e (t.stopLoss who e)
    | .ok (s1, grs) => match writeScales who o.dst (b.scales.take m) b.off s1 grs with
      | .error (e, t) => s.stopRow who g o b e (t.stopLoss who e)
      | .ok (s2, grs2) =>
        let b1 := { b with unit := b.unit + n, units := b.units.drop n, off := b.off + m, scales := b.scales.drop m, grs := grs2 }
        if b1.units = [] && b1.scales = [] then s2.endJob who o b1 else (s2, { o with buf := some b1 })

/-- The next job begins with step 1: the read of its index (R201). -/
def CopyOp.needsIndex (o : CopyOp) : Bool := o.fn ≠ 0 && o.step ≠ 2

/-- Step 1 of a job: the index read, a burst of its own (R201, R213), once a word of another device has come (R367). -/
def State.indexBurst (s : State) (who : Actor) (g : Group) (o : CopyOp) (j : Job) : State × CopyOp :=
  let p := (if o.fn = 1 then j.x else j.y).toNat
  let us := s.indexReads who o.idx p
  match s.askUnits who us with
  | some t => (t, { o with stall := true })
  | none =>
    let s1 := s.touchIndex who o.idx p
    match s.indexWord who o.idx p with
    | .error e => let r := s1.stopJob who g { o with index := none } 1 e (s.stopLoss who e); (r.1.dropAsks who.part us.flatten, r.2)
    | .ok v => ((s1.useFresh (s.races ≠ [])).dropAsks who.part us.flatten, { o with index := some (wd v), step := 2 })

/-- Step 2 of a job begins: its row is read whole, once bytes of other devices have come (R367), and the first burst of it is written (R202,
R213). -/
def State.rowBurst (s : State) (who : Actor) (g : Group) (o : CopyOp) (j : Job) : State × CopyOp :=
  let r := (if o.fn = 1 then o.index.getD 0 else j.x).toNat
  let t := (if o.fn = 2 then o.index.getD 0 else j.y).toNat
  let us := s.jobReads who o r
  match s.askUnits who us with
  | some t => (t, { o with stall := true })
  | none =>
    let s1 := s.touchRow who o.src r .read
    match s.readJob who g o r t with
    | .error e => let r := s1.stopJob who g o 2 e (s.stopLoss who e); (r.1.dropAsks who.part us.flatten, r.2)
    | .ok b => ((((if o.toFifo then s1 else s1.touchRow who o.dst t .write).useFresh (s.races ≠ [])).dropAsks who.part us.flatten).burst who g { o with step := 2 } b)

/-- The next burst of an operation, from its restart point on (R202, R210, R213). -/
def State.copyBurst (s : State) (who : Actor) (g : Group) (o : CopyOp) : State × CopyOp :=
  match o.jobs[o.job]?, o.buf with
  | none, _ => (s, o)
  | some _, some b => s.burst who g o b
  | some j, none => if o.needsIndex then s.indexBurst who g o j else s.rowBurst who g o j

/-- Replace the first copy operation of a group. -/
def Group.setCopy (g : Group) (o : CopyOp) : Group := { g with copies := match g.copies with | _ :: r => o :: r | [] => [] }

/-- The words of a beat from bytes. -/
def beatBytes (bs : List Byte) : Beat := beatOf ((List.range 32).map (fun k => wd (natOf ((bs.drop (4 * k)).take 4))))

/-- Push stream beats into a FIFO while it has room; the operation's last beat is padded, and only its end (`last`) pushes it (R206). -/
def pushStream (last : Bool) : Nat → List Byte → List Beat → List Byte × List Beat
  | 0, st, q => (st, q)
  | n + 1, st, q => if st = [] || 64 ≤ q.length || (!last && st.length < 128) then (st, q) else pushStream last n (st.drop 128) (q ++ [beatBytes (st.take 128)])

/-- Push what a FIFO operation still has to push. -/
def State.pushFifo (s : State) (core : Nat) (o : CopyOp) (last : Bool) : State × CopyOp :=
  let c := s.core core
  let (st, q) := pushStream last (o.stream.length + 1) o.stream (if o.b = 32 then c.q0 else c.q1)
  (s.setCore core (if o.b = 32 then { c with q0 := q } else { c with q1 := q }), { o with stream := st })

/-- The queue that a FIFO operation pushes into, as a place of synchronisation. -/
def CopyOp.fifoAgent (o : CopyOp) (gk : Nat) : Agent := .queue gk (if o.b = 32 then 0 else 1)

/-- What an operation does comes before what the pop of its beat or a wait for its end lets go (R212), and what its beats feed (R227). -/
def State.copyEnds (s : State) (gk : Nat) (o : CopyOp) : State :=
  s.pass (· = o.agent gk) (.queue gk 2 :: (if o.toFifo then [o.fifoAgent gk] else []))

/-- Quanta of the next burst of a copy operation (R213). -/
def CopyOp.quanta (o : CopyOp) : Nat :=
  if o.buf.isNone && o.needsIndex then 3 else if o.sparse || (!o.toFifo && o.src.fmt ≠ o.dst.fmt) then 5 else 3

/-- Nothing of the operation has been done. -/
def CopyOp.fresh (o : CopyOp) : Bool := o.job = 0 && o.index.isNone && o.buf.isNone

/-- COPY_OPERATION_START (R202, R210): the group's first operation starts, or goes on, with one burst, once current is reserved for it
(R213); what a FIFO operation has read enters its FIFO first (R206). Before its first access the core's buffered stores are performed
(R212). -/
def execCopyOperationStart (core slot : Nat) (s : State) : Out :=
  let gk := gkOf core slot
  match s.group gk with
  | none => .next s
  | some g => match g.copies with
    | o :: _ =>
      if g.frozen then .next s
      else if o.started && o.fin.isNone && o.toFifo && 128 ≤ o.stream.length then
        let (s1, o1) := s.pushFifo core o false
        .next ((s1.pass (· = o.agent gk) [o.fifoAgent gk]).modGroup gk (fun g => g.setCopy o1))
      else if o.runs && s.poweredFor core .copy o.quanta then
        let (s1, o1) := (if o.fresh then s.flushCore core else s).copyBurst (s.engineOf core slot (o.agent gk)) g o
        .next ((s1.modGroup gk (fun g => g.setCopy o1)).unpower core .copy)
      else .next s
    | [] => .next s

/-- The beat of an operation (R208). -/
def copyBeat (o : CopyOp) (e : OpEnd) : Beat := beatOf [o.num, wd e.status, wd o.jobs.length, wd e.done, wd e.step, lo32 e.addr, hi32 e.addr]

/-- COPY_OPERATION_END (R206, R208): the rest of the stream goes into its FIFO; then the operation ends and pushes its beat into `q2`. -/
def execCopyOperationEnd (core slot : Nat) (s : State) : Out :=
  let gk := gkOf core slot
  match s.group gk with
  | none => .next s
  | some g => match g.copies with
    | o :: r =>
      if o.started && o.susp.isNone && !g.frozen && (o.fin.isSome || o.jobs.length ≤ o.job) then
        let (s1, o1) := s.pushFifo core o true
        let s2 := s1.modGroup gk (fun g => g.setCopy o1)
        if o1.stream ≠ [] || !g.hasRoom 2 then .next s2
        else
          let e := o1.fin.getD { status := 0, done := o.jobs.length, step := 0, addr := 0 }
          .next (((s2.modGroup gk (fun g =>
            ({ g with copies := r, copyFail := if e.status = 0 then g.copyFail else g.copyFail + 1 }).push 2 (copyBeat o1 e))).chargeOp gk o1.events waitsCopy).copyEnds gk o)
      else .next s
    | [] => .next s

/-! ## cwait and publish (R209, R211) -/

/-- `cwait` (R209, R210). -/
def execCwait (d a : Reg) (s : State) : Out :=
  withHere s fun h => checked s h [d, a] [a] (notInHandler s h (
    if (s.uniform h a).toNat < h.g.copies.length then .next (s.waitCopy h)
    else .next ((((s.pass (· = .queue h.gk 2) h.agents).modGroup h.gk (fun g => { g with copyFail := 0 })).produce h d (readsLatch [a]) (fun _ => wd h.g.copyFail)).retire h [])))

/-- Write pub.front and pub.gen of an entry after a publication: the words at its bits 223:192 and 255:224 (R171, R211). -/
def State.swapPub (s : State) (part p : Nat) : State × Word :=
  let e := s.pubEntry part p
  let a := s.part part 576 64 + 32 * (p - 1)
  let gen : Word := e.extractLsb' 224 32 + 1
  (s.setDramBytes reserveKey (a + 24) (wordBytes [e.extractLsb' 192 32 ^^^ 1, gen]), gen)

/-- `publish` (R211). A fragment that waits keeps the record that it read and the number of the operations started before it; an entry with
a reserved bit set is refused (log 69). -/
def execPublish (d : Reg) (slot : BitVec 5) (s : State) : Out :=
  withHere s fun h => checked s h [d] [] (notInHandler s h (detStop s h true (
    let waits := h.frag.wait = .retry && h.frag.kept.isSome
    let r := (h.frag.kept.map (·.1)).getD (h.g.shapeRec slot.toNat)
    if !waits && (s.refused h.l.part r || r.publish = 0 || pubBad (s.pubEntry h.l.part r.publish)) then trap s h kRecord
    else
      let upto := if waits then h.frag.t0 else h.g.copyNum.toNat
      if h.g.copies.any (fun o => o.started && o.num.toNat ≤ upto) then .next ((s.await h).modFrag h (fun f => { f with t0 := upto, kept := some (r, []) }))
      else
        let (s1, gen) := ((s.flushCore h.core).settled (fun a => h.owns a || a = .queue h.gk 2)).swapPub h.l.part r.publish
        .next ((s1.produce h d false (fun _ => gen)).retire h []))))

end Sys2Proof.Machine
end

