-- ==== Sys2Proof/Machine/Code.lean ====
section
/-! DEFINITION. Code segments: fetching a word, loading a segment and waiting for it (R130-R133, R137-R139). -/

namespace Sys2Proof.Machine

/-! ## Reads by the device -/

/-- Read `n` bytes at a virtual address of a partition: status 1 for a translation fault, 2 for an uncorrectable error (R137). -/
def State.readVirtual (s : State) (who : Actor) (va n : Nat) (acc : Access) : Except Nat Nat :=
  match s.translateBytes who acc va n with
  | .error _ => .error 1
  | .ok ls => if ls.any (s.unreadable who) then .error 2 else .ok (s.readNat who ls)

/-- What a read of `n` bytes by the device leaves behind, page by page up to the first that fails (at most `k`): its walks, requests for
bytes of other devices, and the notice of an uncorrectable error in the bytes or in a page table (R312, R338, R340, R341). -/
def State.noteRead (s : State) (who : Actor) (acc : Access) : Nat → Nat → Nat → State
  | 0, _, _ => s
  | k + 1, va, n =>
    let m := Nat.min n (65536 - va % 65536)
    let s1 := s.noteWalks who [va]
    let next := fun (t : State) => if n = m then t else t.noteRead who acc k (va + m) (n - m)
    match s.translate who va acc with
    | .ok (.dram a) => (match (List.range m).find? (fun j => s.badFor (s.keyOf who.part) (a + j)) with
      | some j => s1.contain who.part (a + j)
      | none => next s1)
    | .ok (.remote d a) =>
      let t := s1.transmit d who.part 1 (s.keyOf who.part) (BitVec.ofNat 64 a) (bytesOf m 4)
      if Config.remoteFails s.fresh then t.failConn d who.part else next t
    | .ok _ => next s1
    | .error c => if c = 5 then s1.containWalk who va else s1

/-- The device acting for a launch at a core. -/
def deviceAt (core part : Nat) : Actor := { core := core, slot := 0, part := part, engine := true, det := none }

/-! ## Code table entries (R131) -/

def entryVa (e : BitVec 128) : BitVec 52 := e.extractLsb' 0 52
def entryStore (e : BitVec 128) : Nat := (e.extractLsb' 64 5).toNat
def entrySects (e : BitVec 128) : Nat := (e.extractLsb' 69 7).toNat
def entryWords (e : BitVec 128) : Nat := (e.extractLsb' 96 11).toNat

/-- A bad entry (R131). -/
def badEntry (e : BitVec 128) : Bool :=
  e.extractLsb' 107 21 ≠ 0 || e.extractLsb' 76 20 ≠ 0 || e.extractLsb' 52 12 ≠ 0 || entryWords e = 0 || 1024 < entryWords e || 64 < entrySects e
    || (entryVa e).toNat % 4 ≠ 0

/-- Read entry `c` of a launch's code table. -/
def State.readEntry (s : State) (core : Nat) (l : Launch) (c : Nat) : Except Nat (BitVec 128) :=
  match s.readVirtual (deviceAt core l.part) (l.field 64 64 + 16 * c) 16 .read with
  | .error e => .error e
  | .ok v => .ok (BitVec.ofNat 128 v)

/-- The store segment of an entry is tagged with its partition and image (R132). -/
def SegTag.isFor (t : SegTag) (part : Nat) (e : BitVec 128) : Bool := t.part = part && t.va = entryVa e

/-! ## Fetch (R132) -/

/-- What a fetch finds. -/
inductive Fetched
  | word (w : Word)
  | wait
  | fault (detail : Nat)
  deriving DecidableEq, Repr

/-- What the read of entry `c` of a launch's code table leaves behind (R312, R340, R341). -/
def State.noteTable (s : State) (core : Nat) (l : Launch) (c : Nat) : State := s.noteRead (deviceAt core l.part) .read 2 (l.field 64 64 + 16 * c) 16

/-- The launch's copy of entry `c`, read now if no load and no fetch has read it; none if the read fails (R132). -/
def State.segCopy (s : State) (core launch c : Nat) : State × Option (BitVec 128) :=
  let l := s.launch launch
  match find l.segs c with
  | some e => (s, some e)
  | none =>
    let t := s.noteTable core l c
    match s.readEntry core l c with
    | .error _ => (t, none)
    | .ok e => (t.modLaunch launch (fun l => { l with segs := insert l.segs c e }), some e)

/-- A load of segment `c` of a launch is outstanding at a core. -/
def Core.brings (c : Core) (launch seg : Nat) : Bool := c.loads.any (fun x => x.launch = launch && x.seg = seg)

/-- Fetch the word at a code address for a fragment of a launch with a fence (R132, R133, R140): a segment that is not resident is awaited
while its store segment is loading, or while a load of it is outstanding. -/
def State.fetch (s : State) (core launch : Nat) (pc : CodeAddr) (fence : Option Nat) : State × Fetched :=
  let c := pc.seg.toNat
  match s.segCopy core launch c with
  | (s1, none) => if (s.core core).brings launch c then (s, .wait) else (s1, .fault 2)
  | (s1, some e) =>
    let l := s1.launch launch
    if s1.resident core l.part e then (s1, .word (s1.storeWord (32768 * core + 1024 * entryStore e + pc.off.toNat) fence))
    else if (s1.tag (32 * core + entryStore e)).state = .loading || (s1.core core).brings launch c then (s1, .wait)
    else (s1, .fault (if badEntry e || l.badSegs.contains c then 2 else 0))

/-! ## Loads (R133, R137, R139) -/

/-- Loads of a slot that are outstanding. -/
def Core.loadsOf (c : Core) (slot : Nat) : List Load := c.loads.filter (fun x => x.slot = slot)

/-- A load has nothing to write: its entry is good and its store segment is loaded with the same tag (R137). -/
def Load.idle (x : Load) (part : Nat) (t : SegTag) : Bool := !badEntry x.entry && t.isFor part x.entry && t.state = .loaded

/-- Begin what may begin: a load whose store segment no other load fills, among the first four outstanding of its group, of which `held`
have beats that wait for a place; one whose segment is already resident has nothing to begin (R55, R133, R137, R139). -/
def beginLoads (core : Nat) (part held : Load → Nat) : List Load → List Load → SMap SegTag → List Load × SMap SegTag
  | _, [], m => ([], m)
  | before, x :: r, m =>
    let t := getD SegTag.init m (32 * core + x.store)
    let may := !x.begun && x.store < 32 && !before.any (fun y => y.store = x.store) && (before.filter (fun y => y.slot = x.slot)).length + held x < 4
      && !x.idle (part x) t
    let x1 := if may then { x with begun := true } else x
    let m1 := if may then put SegTag.init m (32 * core + x.store) { state := .loading, part := part x, va := entryVa x.entry, sects := [] } else m
    let (r', m') := beginLoads core part held (before ++ [x1]) r m1
    (x1 :: r', m')

/-- Completion beats of a slot's code loads that wait for a place in `q6`: their loads are outstanding (R55). -/
def State.heldLoads (s : State) (core slot : Nat) : Nat := ((s.group (gkOf core slot)).map (fun g => g.held6.length)).getD 0

/-- Begin the loads of a core that may begin. -/
def State.startLoads (s : State) (core : Nat) : State :=
  let (ls, m) := beginLoads core (fun x => (s.launch x.launch).part) (fun x => s.heldLoads core x.slot) [] (s.core core).loads s.itags
  { s.modCore core (fun c => { c with loads := ls }) with itags := m }

/-- Start a load of segment `c` for the group of a slot (R133, R137): the entry is read now. -/
def State.loadSegment (s : State) (core slot c : Nat) (report : Bool) : State :=
  match s.group (gkOf core slot) with
  | none => s
  | some g =>
    let s9 := s.flushCore core
    let l := s9.launch g.launch
    let s0 := s9.noteTable core l c
    let x : Load := { slot := slot, launch := g.launch, seg := c, store := 32, entry := 0, begun := false, report := report, code := 0 }
    match s0.readEntry core (s0.launch g.launch) c with
    | .error e => s0.modCore core (fun k => { k with loads := k.loads ++ [{ x with code := e }] })
    | .ok e =>
      let s1 := s0.modLaunch g.launch (fun l => { l with segs := insert l.segs c e })
      (s1.modCore core (fun k => { k with loads := k.loads ++ [{ x with entry := e, store := entryStore e, code := if badEntry e then 3 else 0 }] })).startLoads core

/-- Load a segment that is not resident, without a beat (R133). -/
def State.bringSegment (s : State) (core slot c : Nat) : State :=
  match s.group (gkOf core slot) with
  | none => s
  | some g => match s.segCopy core g.launch c with
    | (s1, some e) => if s1.resident core (s1.launch g.launch).part e then s1 else s1.loadSegment core slot c false
    | (_, none) => s.loadSegment core slot c false

/-- The segments of code addresses. -/
def segsOf (pcs : List CodeAddr) : List Nat := (pcs.map (fun a => a.seg.toNat)).eraseDups

/-- Load the segments at which the threads of a slot resume (R133). -/
def State.bringAll (s : State) (core slot : Nat) (pcs : List CodeAddr) : State :=
  (segsOf pcs).foldl (fun s c => s.bringSegment core slot c) s

/-- A section table is bad (R83, R137). -/
def badSects (ws : List Word) : Bool :=
  ws.any (fun w => w.extractLsb' 10 20 ≠ 0) || ws.head?.any (fun w => w.extractLsb' 0 10 ≠ 0)
    || (ws.zip ws.tail).any (fun p => p.2.extractLsb' 0 10 ≤ p.1.extractLsb' 0 10)

/-- The `n` words from a virtual address, read as code. -/
def State.codeWords (s : State) (who : Actor) : Nat → Nat → Except Nat (List Word)
  | _, 0 => .ok []
  | va, n + 1 => match s.readVirtual who va 4 .fetch with
    | .error e => .error e
    | .ok v => match s.codeWords who (va + 4) n with
      | .error e => .error e
      | .ok r => .ok (wd v :: r)

/-- Fill the store segment of a load (R137): its status, and the state with the words written. -/
def State.fillSegment (s : State) (core : Nat) (x : Load) : State × Nat :=
  let l := s.launch x.launch
  let who := deviceAt core l.part
  let va := (entryVa x.entry).toNat
  let k := 32 * core + x.store
  let fail := fun (s : State) (e : Nat) => (s.setTag k SegTag.init, e)
  if badEntry x.entry then fail s 3
  else match s.codeWords who va (entryWords x.entry) with
  | .error e => fail s e
  | .ok ws =>
    let base := 32768 * core + 1024 * x.store
    let s0 := s.noteCode (((List.range 1024).filter (fun j => getD 0 s.istore (base + j) ≠ ws.getD j 0)).map (base + ·))
    let s1 := { s0 with istore := putAll 0 (dropRange s0.istore base (base + 1024)) base ((List.range ws.length).zip ws) }
    match s1.codeWords who (va + 4 * entryWords x.entry) (entrySects x.entry) with
    | .error e => fail s1 e
    | .ok ts =>
      if badSects ts then fail s1 3
      else (s1.setTag k { state := .loaded, part := l.part, va := entryVa x.entry, sects := ts }, 0)

/-- The beat of a load (R137). Word 2 of a load whose entry could not be read is 0 (log 66). -/
def loadBeat (x : Load) (status : Nat) : Beat := beatOf [wd x.seg, wd status, wd (entryStore x.entry)]

/-- End a load with a status (R137): the launch remembers a failure, and the group receives its beat. -/
def State.endLoad (s : State) (core : Nat) (x : Load) (status : Nat) : State :=
  let s1 := s.modCore core (fun c => { c with loads := c.loads.erase x })
  let s2 := s1.modLaunch x.launch (fun l =>
    { l with badSegs := if status = 0 then l.badSegs.filter (· ≠ x.seg) else if l.badSegs.contains x.seg then l.badSegs else x.seg :: l.badSegs })
  let s3 := if x.report then s2.modGroup (gkOf core x.slot) (fun g => Group.flush { g with held6 := g.held6 ++ [loadBeat x status] }) else s2
  s3.startLoads core

/-- CODE_LOAD_END (R137): the first load of store segment `seg` ends; `seg` = 32 names loads whose entry could not be read. -/
def execCodeLoadEnd (core seg : Nat) (s : State) : Out :=
  match (s.core core).loads.find? (fun x => x.store = seg) with
  | none => .next s
  | some x =>
    if seg = 32 then .next (s.endLoad core x x.code)
    else if x.begun then
      let (s1, st) := s.fillSegment core x
      let s2 := if badEntry x.entry then s1
        else s1.noteRead (deviceAt core (s.launch x.launch).part) .fetch 2 (entryVa x.entry).toNat (4 * (entryWords x.entry + entrySects x.entry))
      .next (s2.endLoad core x st)
    else
      if x.idle (s.launch x.launch).part (s.tag (32 * core + seg)) then .next (s.endLoad core x 0) else .next s

/-! ## cfetch and cwaits -/

/-- The store segment of segment `c` is loading, or about to load, with another tag (R139). One with the same tag is joined: the load
completes when that one has (log 66). -/
def State.segBusy (s : State) (core : Nat) (l : Launch) (c : Nat) : Bool :=
  match (s.flushCore core).readEntry core l c with
  | .error _ => false
  | .ok e => (s.core core).loads.any (fun y => y.store = entryStore e && !((s.launch y.launch).part = l.part && entryVa y.entry = entryVa e))

/-- `cfetch` (R137, R139). -/
def execCfetch (a : Reg) (s : State) : Out :=
  withHere s fun h => checked s h [a] [a] (notInHandler s h (
    let c := (s.uniform h a).toNat
    if h.l.codeCount < c then trap s h kState
    else if 4 ≤ ((s.core h.core).loadsOf h.slot).length + s.heldLoads h.core h.slot || s.segBusy h.core h.l c then .next (s.await h)
    else .next (((s.pass h.owns [.queue h.gk 6]).loadSegment h.core h.slot c true).leave h [a] (fun _ => .seq))))

/-- `cwaits` (R138). Where the launch has no copy of the entry it reads the entry and keeps no copy, which only a load and a fetch make (R132);
one that cannot be read is not resident (log 51). -/
def execCwaits (d a : Reg) (s : State) : Out :=
  withHere s fun h => checked s h [d, a] [a] (
    let c := (s.uniform h a).toNat
    if h.l.codeCount < c then trap s h kState
    else
      let read := if (find h.l.segs c).isSome then s else s.noteTable h.core h.l c
      let done := fun (b : Bool) => Host.Outcome.next ((read.produce h d (readsLatch [a]) (fun _ => flagWord b)).retire h [])
      match (s.segCopy h.core h.g.launch c).2 with
      | none => done false
      | some e =>
        if (s.tag (32 * h.core + entryStore e)).state = .loading then .next (s.await h)
        else done (s.resident h.core h.l.part e))

end Sys2Proof.Machine
end

