-- ==== Sys2Proof/Machine/Slots.lean ====
section
/-! DEFINITION. Context slots: clearing and freeing them (R63, R32), and what a ring does at an admission (R251). -/

namespace Sys2Proof.Machine

/-- Clear a slot's threads, registers, scratchpad and granules to the content of R63. -/
def State.wipeSlot (s : State) (core slot : Nat) : State :=
  let gk := gkOf core slot
  { s with
    rf := dropRange s.rf (65536 * core + 4096 * slot) (65536 * core + 4096 * slot + 4096)
    pad := dropRange s.pad (524288 * core + 32768 * slot) (524288 * core + 32768 * slot + 32768)
    races := (s.dropRaces (fun l => match l with | .chip c o => c = core && 32768 * slot ≤ o && o < 32768 * slot + 32768 | _ => false)).races
    gsync := dropRange s.gsync (32768 * core + 2048 * slot) (32768 * core + 2048 * slot + 2048)
    full := dropRange s.full (32768 * core + 2048 * slot) (32768 * core + 2048 * slot + 2048)
    threads := dropRange s.threads (128 * gk) (128 * gk + 128)
    waves := dropRange s.waves (4 * gk) (4 * gk + 4) }

/-- A ring at an admission to its slot: the next entry is 0 and its `q7` is discarded (R251). -/
def State.restartRing (s : State) (gk : Nat) : State :=
  { s with rings := s.rings.map (fun p => if p.1 = gk then (p.1, { p.2 with next := 0, q7 := [] }) else p) }

/-- A slot keeps no fragment. -/
def State.dropFrags (s : State) (gk : Nat) : State := (List.range 4).foldl (fun s w => s.modWave (wkOf gk w) (fun v => { v with frags := [] })) s

/-- A tile of the configuration that a core's array holds contains an accumulator word. -/
def State.inTile (s : State) (key : Nat) : Bool :=
  match (s.core (key / 32768)).holder with
  | none => false
  | some slot =>
    let cfg := s.cfgOf (key / 32768) slot
    (List.range 4).any (fun t => let d := descOf cfg t; tileKey 0 d 0 ≤ key % 32768 && key % 32768 < tileKey 0 d (tileM d * tileN d))

/-- What the copy engine of a slot has written into accumulator stores goes with its group, but for elements of a tile that another group holds
(R63, log 90). -/
def State.dropAcc (s : State) (gk : Nat) : State :=
  let mine := (s.accBy.filter (fun p => p.2 = gk + 1)).map (·.1)
  { s with acc := s.acc.filter (fun p => !(mine.contains p.1 && !s.inTile p.1)), accBy := s.accBy.filter (fun p => p.2 ≠ gk + 1) }

/-- A fragment at its start. -/
def startFrag (now : Nat) (pc : CodeAddr) (lanes : Mask) : Frag :=
  { lanes := lanes, pc := pc, past := false, mode := .user, wait := .none, xfer := 0, t0 := 0, retired := now, since := now, after := none, nev := 0, phw := 0 }

/-- A group with nothing done and nothing held (R63). -/
def Group.blank (n gid lcore lslot now : Nat) : Group :=
  { launch := n, gid := gid, lcore := lcore, lslot := lslot, gkeyl := 0, gkeyh := 0, dkeyl := 0, dkeyh := 0
    shape := [], queues := [], cells := [], cellFull := [], bgen := 0, tbgen := 0, twin := none, evtc := [], evbase := [], nret := 0
    fired := 0, nev := [], nevDue := 0, copies := [], copyNum := 0, copyFail := 0, matNum := 0, matFail := 0, calls := [], callFail := 0
    held3 := [], held6 := [], pend := [], lseq := 0, perf := none, active := false, moved := now, resident := now, cfg := none
    cfgOld := [], phasew := [], saving := none, evict := false, wantCfg := none, wantLic := false }

/-- Release a slot (R32): the group leaves with its licence, its configuration and its frequency request. What it held stays in the slot until
the next admission clears it (R63, R161), and no program reads it there. -/
def State.freeSlot (s : State) (core slot : Nat) : State :=
  let gk := gkOf core slot
  let s1 := (((((s.releaseCfg core slot).dropAcc gk).releaseLic core gk).flushCore core).departed gk).dropFrags gk
  ({ s1 with groups := erase s1.groups gk }.modCore core (fun c =>
    { c with loads := c.loads.filter (fun x => x.slot ≠ slot), last := c.last.filter (fun p => p.1 ≠ slot) })).retarget (clusterOf core)

/-- A slot holds no group and none of a checker (R329), and none of a chained launch is to take it (R35). -/
def State.slotFree (s : State) (core slot : Nat) : Bool :=
  (s.group (gkOf core slot)).isNone && !s.heirs.any (fun x => x.core = core && x.slot = slot)
    && !s.checks.any (fun p => p.2.core = core && p.2.slots.any (fun q => q.2 = slot))

/-- Slots of a core that are not free. -/
def State.occupied (s : State) (core : Nat) : List Nat := (List.range 16).filter (fun sl => !s.slotFree core sl)

/-- The lowest free slot of a core, among those that R330 leaves it. -/
def State.freeSlotOf (s : State) (core : Nat) : Option Nat :=
  if s.fixedPart (s.owner core) && 8 ≤ (s.occupied core).length then none
  else (List.range 16).find? (s.slotFree core)

/-- The slots of a core that may take a group, among those that R330 leaves it. -/
def State.openSlots (s : State) (core : Nat) : List Nat :=
  ((List.range 16).filter (s.slotFree core)).take ((if s.fixedPart (s.owner core) then 8 else 16) - (s.occupied core).length)

/-- A slot admits a group: it is free, and its core has not reached the limit of R330. -/
def State.slotOpen (s : State) (core slot : Nat) : Bool :=
  s.slotFree core slot && !(s.fixedPart (s.owner core) && 8 ≤ (s.occupied core).length)

/-- The active groups of a core. -/
def State.activeOf (s : State) (core : Nat) : Nat := (s.groups.filter (fun p => p.1 / 16 = core && p.2.active)).length

end Sys2Proof.Machine
end

