-- ==== Sys2Proof/Machine/Launch.lean ====
section
/-! DEFINITION. Launch records, their acceptance and completion, and inheritance chains (R12-R20, R35-R40, R247-R249, R313). -/

namespace Sys2Proof.Machine

/-! ## Checks of a record (R14-R16, R20, R40) -/

/-- Two domains contain one another (R16): core-pair, cluster, die, stack, device, partition in a row; twin in stack. -/
def contains (outer inner : Nat) : Bool :=
  inner = 0 || inner = outer
    || (inner = 1 && 3 ≤ outer) || (inner = 2 && 5 ≤ outer) || (3 ≤ inner && inner < outer)

/-- Reserved bits that a launcher leaves zero, and the fields that the device writes (R13): low bit and length. -/
def zeroFields : List (Nat × Nat) :=
  [(1472, 576), (1152, 320), (651, 53), (608, 32), (480, 32), (270, 18), (263, 1), (206, 18), (199, 1), (178, 14), (171, 5), (157, 3), (155, 1),
    (138, 6), (133, 3), (24, 40), (10, 6)]

/-- The level table breaks R15. -/
def Launch.badLevels (l : Launch) : Bool :=
  let entry := fun j => l.field (896 + 32 * j) 32
  entry 0 ≠ 0
    || (List.range 8).any (fun j => (l.levels ≤ j && entry j ≠ 0) || l.field (896 + 32 * j + 27) 5 ≠ 0)
    || l.deepLevels.any (fun k => l.extent k = 0 || l.domain k = 0 || (k ≠ 2 && !contains (l.domain k) (l.domain (k - 1))))
    || 2 ^ 32 ≤ l.groups

/-- An address has bits 63:52 set. -/
def tooFar (a : Nat) : Bool := 2 ^ 52 ≤ a

/-- counter.addr breaks R15. -/
def Launch.badCounter (l : Launch) : Bool := l.field 512 64 % 8 ≠ 0 || tooFar (l.field 512 64)

/-- The det and place.lcores rules of R40 are broken. -/
def Launch.badDet (l : Launch) : Bool :=
  let n := l.field 640 11
  if l.det then n = 0 || 1024 < n || l.deepLevels.any (fun k => l.domain k ≠ 6) else n ≠ 0

/-- The record breaks R15. -/
def Launch.breaks (l : Launch) : Bool :=
  zeroFields.any (fun p => l.field p.1 p.2 ≠ 0)
    || 14 < l.field 128 5 || 4096 < l.waves * 32 * l.regs
    || (List.range 4).any (fun w => l.waves ≤ w && l.field (144 + 2 * w) 2 ≠ 0)
    || l.badLevels
    || 32 < l.field 200 6 || l.regs < l.field 192 7 + l.field 200 6 || 32 < l.field 264 6 || l.regs < l.field 256 7 + l.field 264 6
    || l.field 64 64 % 64 ≠ 0 || l.field 384 64 % 4 ≠ 0 || l.badCounter
    || [64, 320, 384].any (fun b => tooFar (l.field b 64))
    || l.field 448 32 % 4 ≠ 0 || l.codeCount < l.field 16 8 || l.badDet

/-- A level's units are gang-admitted (R20). -/
def gangDomain (d : Nat) : Bool := d = 1 || d = 2 || d = 3
/-- Groups that an instance of a gang-admitted domain holds (R20). -/
def capacity (d : Nat) : Nat := if d = 3 then 64 else 32
/-- Groups that one holds in a partition: half as many on the cores of a fixed-latency one (R316, R330). -/
def State.capacityIn (s : State) (part d : Nat) : Nat := if s.fixedPart part then capacity d / 2 else capacity d

/-- Units of core-pair levels of which a unit of a cluster level has more than the two core pairs of a cluster hold, each whole (R18, R316). -/
def State.crowded (s : State) (l : Launch) : Bool :=
  l.deepLevels.any (fun k => l.domain k = 3 && l.deepLevels.any (fun j =>
    l.domain j = 1 && 2 * (s.capacityIn l.part 1 / l.unitSize j) < l.unitSize k / l.unitSize j))

/-- A unit exceeds its domain or what the partition's instances can hold, or the partition holds no instance of a declared domain (R20,
R316). A partition that owns any unit of cores counts as holding an instance of every domain: for a die, a stack or a device that it owns
in part this is the model's choice (log 74). -/
def State.overflows (s : State) (l : Launch) : Bool :=
  l.deepLevels.any (fun k => gangDomain (l.domain k) && s.capacityIn l.part (l.domain k) < l.unitSize k)
    || s.crowded l || (l.levels ≠ 1 && !s.owners.any (fun o => o.2 = l.part))

/-! ## Writes into records (R37) -/

/-- The device at no core: it sees performed writes only. -/
def device (part : Nat) : Actor := deviceAt 1024 part

/-- Write bytes at a virtual address of a partition; the Bool says that it could be done. -/
def State.writeVirtual (s : State) (part va : Nat) (bs : List Byte) : State × Bool :=
  let s1 := s.noteWalks (device part) [va, va + bs.length - 1]
  match s.translateBytes (device part) .write va bs.length with
  | .error _ => (s1, false)
  | .ok ls => if ls.any (s.unreadable (device part)) then (s1, false) else (s1.writeUnit (device part) bs ls, true)

/-- The notice of a write into a record or counter that fails at a step of R37: the record, the address and the step. -/
def State.recordNotice (s : State) (l : Launch) (va step : Nat) : State :=
  s.notice 2 [wd l.part, lo32 l.addr, hi32 l.addr, wd va, wd (va / 2 ^ 32), wd step]

/-- Write bytes at an offset of a launch's record, with the notice of a failure. -/
def State.writeRecord (s : State) (l : Launch) (off step : Nat) (bs : List Byte) : State × Bool :=
  let (s1, ok) := s.writeVirtual l.part (l.addr.toNat + off) bs
  if ok then (s1, true) else (s1.recordNotice l (l.addr.toNat + off) step, false)

/-- A stamp as the record holds it: fraction, nanoseconds, zeros (R13). -/
def stampBytes (ptp : Nat) : List Byte := bytesOf (ptp % 2 ^ 16) 2 ++ bytesOf (ptp / 2 ^ 16) 8 ++ List.replicate 6 0

/-- Write status.code (R39). -/
def State.writeStatus (s : State) (l : Launch) (code step : Nat) : State × Bool := s.writeRecord l 176 step (bytesOf code 8)

/-! ## Acceptance (R12, R20, R35, R36) -/

/-- What a read of a launch record gives: 1 a translation fault, 2 an uncorrectable error. -/
def State.readRecord (s : State) (part : Nat) (addr : BitVec 64) : Except Nat (BitVec 2048) :=
  match s.readVirtual (device part) addr.toNat 256 .read with
  | .error e => .error e
  | .ok v => .ok (BitVec.ofNat 2048 v)

/-- What the read of a launch record leaves behind. -/
def State.noteRecord (s : State) (part : Nat) (addr : BitVec 64) : State := s.noteRead (device part) .read 2 addr.toNat 256

/-- Status with which a record is refused: 3 or 4 (R15, R20, R342); none if it is accepted. -/
def State.refusal (s : State) (l : Launch) : Option Nat :=
  if !s.partOk l.part || l.breaks then some 3 else if s.overflows l then some 4 else none

/-- The number of the next launch. -/
def State.newLaunch (s : State) : Nat := s.launches.length

/-- The load of a core (R326): resident groups of launches with det = 0, and logical cores mapped to it. -/
def State.loadOf (s : State) (core : Nat) : Nat :=
  (s.groups.filter (fun p => p.1 / 16 = core && !(s.launch p.2.launch).det)).length + (s.lcores.filter (fun p => p.2.phys = core)).length

/-- The least-loaded core of a list, the lowest between equals (R326). -/
def State.leastLoaded (s : State) : List Nat → Option Nat
  | [] => none
  | c :: r => match s.leastLoaded r with
    | some d => if s.loadOf c ≤ s.loadOf d then some c else some d
    | none => some c

/-- Logical core `c` is checked (R329). -/
def Launch.checks (l : Launch) (c : Nat) : Bool := (beadMix (wd (l.field 704 32)) (wd (l.field 736 32)) (wd c) 0).toNat < 2 ^ 22

/-- Map the logical cores of a launch with det = 1, in ascending order (R326). -/
def State.mapCores (s : State) (n : Nat) (l : Launch) : State :=
  let cores := s.coresOf l.part
  (List.range (l.field 640 11)).foldl (fun s c => match s.leastLoaded cores with
    | none => s
    | some p =>
      let v : LCore :=
        { launch := n, num := c, phys := p, retired := 0, round := 0, turn := 0, slots := [], rot := [], vacate := [], folded := false
          h0 := 0, h1 := 0 }
      { s with lcores := insert s.lcores (1024 * n + c) v }) s

/-! ## The checkers (R329) -/

/-- The core on which a checker of launch `n` runs: the least loaded that hosts no logical core of the launch and that `avoid` does not name (R329,
log 46). -/
def State.checkPlace (s : State) (n : Nat) (avoid : List Nat) : Option Nat :=
  s.leastLoaded ((s.coresOf (s.launch n).part).filter (fun c => !avoid.contains c && !s.lcores.any (fun p => p.2.launch = n && p.2.phys = c)))

/-- Start the checkers of the logical cores that a launch selects. -/
def State.startChecks (s : State) (n : Nat) (l : Launch) : State :=
  match s.checkPlace n [] with
  | none => s
  | some p => { s with checks := s.checks ++ ((List.range (l.field 640 11)).filter l.checks).map (fun c =>
      (1024 * n + c, { launch := n, num := c, core := p, slots := [], log := [], cur := { turns := [], folds := [] }, c0 := 0, c1 := 0, final := none })) }

/-- The checkers of a launch that stand on cores of a list are saved, each on its own, and go on elsewhere (R328, R329). -/
def State.shiftChecks (s : State) (n : Nat) (avoid : List Nat) : State :=
  { s with checks := s.checks.map (fun (p : Nat × Checker) =>
      if p.2.launch = n && avoid.contains p.2.core then (p.1, { p.2 with core := (s.checkPlace n avoid).getD p.2.core, slots := [] }) else p) }

/-- Change the checker of a logical core. -/
def State.modCheck (s : State) (k : Nat) (f : Checker → Checker) : State := { s with checks := s.checks.map (fun (p : Nat × Checker) => if p.1 = k then (k, f p.2) else p) }

/-- The primary has ended a round: its checker runs it next after those before. -/
def Checker.endRound (c : Checker) : Checker :=
  if c.cur.turns = [] && c.cur.folds = [] then c else { c with log := c.log ++ [c.cur], cur := { turns := [], folds := [] } }

/-- The primary's last group has ended: its digest stands. -/
def State.sealCheck (s : State) (k : Nat) : State :=
  match s.lcore k with
  | none => s
  | some c => s.modCheck k (fun x => if x.final.isSome then x else { x.endRound with final := some (c.h0, c.h1) })

/-- The slots that a checker needs for its next round beside those that it holds. -/
def Checker.lacking (c : Checker) : List Nat := match c.log with | r :: _ => r.turns.filter (fun t => (find c.slots t).isNone) | [] => []

/-- A checker can go on: it has a round to run and slots for the groups of that round, or it has run them all and the primary has ended. -/
def State.checkReady (s : State) (c : Checker) : Bool :=
  if c.log = [] then c.final.isSome else decide (c.lacking.length ≤ (s.openSlots c.core).length)

/-- A checker runs a round, and keeps the slots of the groups in it; when it has run the last, the digests are compared, and a mismatch sends a
check notice (R329). -/
def State.runCheck (s : State) (k : Nat) (c : Checker) : State :=
  match c.log with
  | r :: rest =>
    let h := foldAll (c.c0, c.c1) r.folds
    s.modCheck k (fun _ => { c with
      slots := c.slots.filter (fun p => r.turns.contains p.1) ++ c.lacking.zip (s.openSlots c.core), log := rest, c0 := h.1, c1 := h.2 })
  | [] =>
    let h := c.final.getD (c.c0, c.c1)
    let s1 : State := { s with checks := erase s.checks k }
    if h.1 ≠ c.c0 || h.2 ≠ c.c1 then s1.notice 4 [wd c.num, h.1, h.2, c.c0, c.c1] else s1

/-- The launch, its predecessors and its accepted successors: the records of a chain that have not completed. -/
def State.chainOf (s : State) : Nat → Nat → List Nat
  | 0, n => [n]
  | k + 1, n => n :: (match (s.launch n).pred with | some p => s.chainOf k p | none => [])

/-- The lowest number that a list lacks. -/
def lowestAbsent (xs : List Nat) : Nat := ((List.range (xs.length + 1)).find? (fun g => !xs.contains g)).getD 0

/-- The launch-queue entry of a chained launch: its groups are admitted as those of its predecessor end, and a skipped one counts as ended
(R35, R313). -/
def State.noteChained (s : State) (n : Nat) : State :=
  let mine := (s.groups.filter (fun p => p.2.launch = n)).map (fun p => p.2.gid) ++ (s.phased.filter (fun p => p.launch = n)).map (fun (p : Phased) => p.gid)
  s.modLaunch n (fun l =>
    let next := lowestAbsent (l.ended ++ mine)
    { l with next := next, queued := l.queued && next < l.groups })

/-- Skip group `g` down a chain (R35): it counts as ended without running. -/
def State.skipGroup (s : State) (g : Nat) : Nat → Option Nat → State
  | 0, _ => s
  | _, none => s
  | k + 1, some n =>
    let s1 := s.modLaunch n (fun l => { l with
      ended := if l.ended.contains g then l.ended else g :: l.ended, dead := if l.dead.contains g then l.dead else g :: l.dead, failed := true })
    (s1.noteChained n).skipGroup g k (s.launch n).succ

/-- Launch-queue entries of a partition in use (R313). -/
def State.queueLen (s : State) (part : Nat) : Nat := (s.launches.filter (fun p => p.2.part = part && p.2.queued)).length

/-- The launch names a successor. -/
def Launch.links (l : Launch) : Bool := l.field 320 64 ≠ 0

/-- The launch queue of a partition has an entry for a record and for the successor that is accepted together with it (R35, R313). -/
def State.queueRoom (s : State) (part : Nat) (raw : BitVec 2048) : Bool :=
  s.queueLen part + (if Launch.links { Launch.init with raw := raw } then 2 else 1) ≤ 256

/-- The launch queue has an entry for the successor that the first admission of a chained launch accepts (R35, R313, log 73). -/
def State.linkRoom (s : State) (n : Nat) : Bool :=
  let l := s.launch n
  !l.chained || l.admitted || !l.links || s.queueLen l.part < 256

/-- Read and accept the successor of launch `n`, or refuse the chain (R35, R36). It holds a launch-queue entry from here on (R313). An inherit.next that is not 256-byte aligned breaks no rule of R15 or R36: the record is read at that address, which is the
model's choice (log 73). -/
def State.acceptSuccessor (s : State) (n : Nat) : State :=
  let l := s.launch n
  let addr : BitVec 64 := BitVec.ofNat 64 (l.field 320 64)
  if addr = 0 then s
  else
    let bad := s.modLaunch n (fun l => { l with chainBad := true })
    let own := (s.chainOf s.launches.length n).any (fun k => let c := s.launch k; c.addr = addr && c.part = l.part && !c.done)
    if own then bad
    else match s.readRecord l.part addr with
      | .error _ => bad.noteRecord l.part addr
      | .ok raw =>
        let s := s.noteRecord l.part addr
        let bad := bad.noteRecord l.part addr
        let m := s.newLaunch
        let x := { Launch.init with addr := addr, part := l.part, firmware := l.firmware, raw := raw, queued := true, pred := some n, chained := true, waits := s.ptp }
        let differs := x.groups ≠ l.groups || x.field 128 5 ≠ l.field 128 5 || x.waves ≠ l.waves || x.det ≠ l.det || x.field 640 11 ≠ l.field 640 11
        match (if differs then some 3 else s.refusal x) with
        | some code => bad.setLaunch m { x with refused := some code, queued := false, noCounter := x.badCounter, chained := false, pred := none }
        | none =>
          let s1 := ((s.setLaunch m x).modLaunch n (fun l => { l with succ := some m }))
          let s2 := (s1.writeStatus x 1 0).1
          let s3 := if x.det then (s2.mapCores m x).startChecks m x else s2
          l.dead.foldl (fun s g => s.skipGroup g 1 (some m)) s3

/-- Accept a record that could be read (R12, R21): the launch and the state. -/
def State.acceptRecord (s : State) (part : Nat) (firmware : Bool) (addr : BitVec 64) (raw : BitVec 2048) (parent : Option (Nat × Nat)) : State × Nat :=
  let n := s.newLaunch
  let l := { Launch.init with addr := addr, part := part, firmware := firmware, raw := raw, parent := parent, waits := s.ptp }
  match s.refusal l with
  | some code => (s.setLaunch n { l with refused := some code, noCounter := l.badCounter }, n)
  | none =>
    let s1 := s.setLaunch n { l with queued := true }
    let s2 := (s1.writeStatus l 1 0).1
    let s3 := if l.det then (s2.mapCores n l).startChecks n l else s2
    (s3.acceptSuccessor n, n)

/-! ## Pending launches (R248) -/

/-- The first entry of a pending-launch queue that is not accepted yet. -/
def nextPend (ps : List Pend) : Option Pend := ps.find? (fun p => p.launch.isNone && p.beat.isNone)

/-- Set an entry of a pending-launch queue. -/
def setPend (ps : List Pend) (old new : Pend) : List Pend := ps.map (fun p => if p = old then new else p)

/-- Change the pending-launch queue of group `gid` of a launch, wherever it is: resident, in the phase queue or saved. -/
def State.modPend (s : State) (launch gid : Nat) (f : List Pend → List Pend) : State :=
  { s with
    groups := s.groups.map (fun (p : Nat × Group) => if p.2.launch = launch && p.2.gid = gid then (p.1, Group.flush { p.2 with pend := f p.2.pend }) else p)
    phased := s.phased.map (fun (p : Phased) => if p.launch = launch && p.gid = gid then { p with pend := f p.pend } else p)
    saves := s.saves.map (fun (p : Nat × Saved) => if p.2.group.launch = launch && p.2.group.gid = gid then (p.1, { p.2 with group := { p.2.group with pend := f p.2.group.pend } }) else p) }

/-- The pending-launch queue of a group. -/
def State.pendOf (s : State) (launch gid : Nat) : List Pend :=
  match s.groups.find? (fun p => p.2.launch = launch && p.2.gid = gid) with
  | some p => p.2.pend
  | none => match s.saves.find? (fun p => p.2.group.launch = launch && p.2.group.gid = gid) with
    | some p => p.2.group.pend
    | none => match s.phased.find? (fun p => p.launch = launch && p.gid = gid) with
      | some p => p.pend
      | none => []

/-- The beat of a launch (R249). -/
def launchBeat (seq : Word) (code : Nat) (addr : BitVec 64) (stamp : Option Nat) : Beat :=
  let ns := (stamp.map (· / 2 ^ 16)).getD 0
  beatOf [seq, wd code, lo32 addr, hi32 addr, wd ns, wd (ns / 2 ^ 32), wd ((stamp.map (· % 2 ^ 16)).getD 0)]

/-- PENDING_LAUNCH_ACCEPT (R248): the next entry of a group's queue, or of a group that has ended, once the launch queue has room
for it and for the successor that it names. -/
def execPendingLaunchAccept (launch group : Nat) (s : State) : Out :=
  let part := (s.launch launch).part
  if 256 ≤ s.queueLen part then .next s
  else match nextPend (s.pendOf launch group) with
    | some p =>
      let t := s.noteRecord part p.addr
      match s.readRecord part p.addr with
      | .error _ => .next (t.modPend launch group (fun ps => setPend ps p { p with beat := some (launchBeat p.seq 0x100 p.addr none) }))
      | .ok raw =>
        if !s.queueRoom part raw then .next s
        else
          let (s1, n) := t.acceptRecord part false p.addr raw (some (launch, p.seq.toNat))
          .next (s1.modPend launch group (fun ps => setPend ps p { p with launch := some n }))
    | none => match s.orphans.find? (fun o => o.1 = launch) with
      | none => .next s
      | some o =>
        let s1 := { s with orphans := s.orphans.erase o }.noteRecord part o.2
        match s.readRecord part o.2 with
        | .error _ => .next s1
        | .ok raw => if s.queueRoom part raw then .next (s1.acceptRecord part false o.2 raw none).1 else .next s

/-! ## Completion (R37, R39, R249) -/

/-- The status.code that a launch ends with (R39). -/
def Launch.status (l : Launch) : Nat :=
  match l.refused with
  | some c => c
  | none => if l.failed then 5 else if l.chainBad then 6 else 2

/-- Every group has ended, or the launch is refused (R37). -/
def Launch.finished (l : Launch) : Bool := !l.done && (l.refused.isSome || l.groups ≤ l.ended.length)

/-- Step 4 of R37: add counter.inc to the counter; the Bool says that it was done or that there is none. -/
def State.bumpCounter (s : State) (l : Launch) : State × Bool :=
  let a := l.field 512 64
  if l.noCounter then (s, false)
  else if a = 0 then (s, true)
  else
    let t := s.noteRead (device l.part) .rmw 2 a 8
    match s.translateBytes (device l.part) .rmw a 8 with
    | .error _ => (t.recordNotice l a 4, false)
    | .ok ls =>
      if ls.any (s.unreadable (device l.part)) then (t.recordNotice l a 4, false)
      else (t.writeUnit (device l.part) (bytesOf (s.readNat (device l.part) ls + l.field 576 32) 8) ls, true)

/-- Push a launch's beat into `q5` of the group whose queue holds its entry (R37, R249). -/
def State.beatLaunch (s : State) (n : Nat) (l : Launch) (code : Nat) (stamp : Option Nat) : State :=
  match l.parent with
  | none => s
  | some (pl, _) =>
    let hold := fun (ps : List Pend) => ps.map (fun p => if p.launch = some n then { p with launch := none, beat := some (launchBeat p.seq code l.addr stamp) } else p)
    { s with
      groups := s.groups.map (fun (p : Nat × Group) => if p.2.launch = pl then (p.1, Group.flush { p.2 with pend := hold p.2.pend }) else p)
      phased := s.phased.map (fun (p : Phased) => if p.launch = pl then { p with pend := hold p.pend } else p)
      saves := s.saves.map (fun (p : Nat × Saved) => if p.2.group.launch = pl then (p.1, { p.2 with group := { p.2.group with pend := hold p.2.group.pend } }) else p) }

/-- LAUNCH_COMPLETION (R37). -/
def execLaunchCompletion (launch : Nat) (s : State) : Out :=
  match find s.launches launch with
  | none => .next s
  | some l =>
    if !l.finished then .next s
    else
      let s1 := s.flushAll
      let stamped := l.field 177 1 = 1
      let (s2, ok2) := if stamped then s1.writeRecord l 160 2 (stampBytes s.ptp) else (s1, true)
      let (s3, ok3) := s2.writeStatus l l.status 3
      let (s4, ok4) := s3.bumpCounter l
      let code := l.status + (if ok4 then 0 else 512) + (if ok2 && ok3 then 0 else 1024)
      let s5 := s4.beatLaunch launch l code (if stamped && ok2 then some s.ptp else none)
      let s6 := (s5.lcores.filter (fun p => p.2.launch = launch)).foldl (fun s p => s.sealCheck p.1) s5
      .next ({ s6 with lcores := s6.lcores.filter (fun p => p.2.launch ≠ launch) }.modLaunch launch (fun l => { l with done := true, queued := false }))

end Sys2Proof.Machine
end

