-- ==== Sys2Proof/Machine/Coll.lean ====
section
/-! DEFINITION. Collectives (R237-R246). -/

namespace Sys2Proof.Machine

/-! ## Joining (R237-R239, R242) -/

/-- Code of a reduction operator (R241). -/
def redCode : RedOp → Nat
  | .add => 0 | .fadd => 1 | .mins => 2 | .maxs => 3 | .minz => 4 | .maxz => 5 | .and => 6 | .or => 7 | .xor => 8 | .fmin => 9 | .fmax => 10

/-- Field d of a collective word (R237). -/
def collField (lev : BitVec 3) (op : Nat) : Reg := lev ++ BitVec.ofNat 4 op

/-- A call that nobody has joined. -/
def Call.start (level num fn : Nat) (d a b : Reg) : Call :=
  { level := level, num := num, fn := fn, d := d, a := a, b := b, joined := [], made := false, src := 0, dst := 0, contrib := [], susp := none,
    beat := none, failed := false, events := [] }

/-- A lane joins a call; `v` is its contribution to a `cred` (R242). -/
def Call.join (c : Call) (wave lane : Nat) (v : Option Word) : Call :=
  { c with
    joined := insert c.joined wave (getD 0 c.joined wave ||| bit lane)
    contrib := match v with | some x => insert c.contrib lane (getD [] c.contrib lane ++ [x]) | none => c.contrib }

/-- Join lane `lane`'s call `num` at a level. -/
def Group.joinCall (g : Group) (new : Call) (wave lane : Nat) (v : Option Word) : Group :=
  if g.calls.any (fun c => c.level = new.level && c.num = new.num) then
    { g with calls := g.calls.map (fun c => if c.level = new.level && c.num = new.num then c.join wave lane v else c) }
  else { g with calls := g.calls ++ [new.join wave lane v] }

/-- A collective instruction of function `fn` (R237-R239); `cred` contributes register `a`. -/
def collIssue (fn : Nat) (lev : BitVec 3) (op : Nat) (a b : Reg) (regs : List Reg) (s : State) : Out :=
  withHere s fun h => checked s h regs regs (notInHandler s h (detStop s h true (
    let k := lev.toNat + 1
    let d := collField lev op
    let number := fun l => getD 0 (s.thread (h.tk l)).callCounts k + 1
    let same := fun (c : Call) l => c.level = k && c.num = number l
    if h.l.levels < k || h.w.rfOpen || h.lanes.any (fun l => h.g.calls.any (fun c => same c l && (c.fn ≠ fn || c.d ≠ d || c.a ≠ a || c.b ≠ b))) then trap s h kState
    else
      let new := ((h.lanes.map number).eraseDups.filter (fun n => !h.g.calls.any (fun c => c.level = k && c.num = n))).length
      if 4 < h.g.calls.length + new then .next (s.await h)
      else
        let g1 := h.lanes.foldl (fun g l =>
          g.joinCall (Call.start k (number l) fn d a b) h.wave l (if fn = 4 then some (s.reg h l a) else none)) h.g
        let joins := (h.lanes.map (fun l => Agent.call h.gk k (number l))).eraseDups
        let s1 := ((s.flushCore h.core).passAll h.owns joins).modGroup h.gk (fun g => { g with calls := g1.calls })
        let s2 := s1.modLanes h (fun t => { t with callCounts := insert t.callCounts k (getD 0 t.callCounts k + 1) })
        .next ((s2.leave h regs (fun _ => .seq)).settleCalls h.gk))))

/-- `cagat` (R240). -/
def execCagat (lev : BitVec 3) (src dst : BitVec 5) (s : State) : Out := collIssue 0 lev 0 (src.setWidth 7) (dst.setWidth 7) [] s
/-- `crsc` (R240). -/
def execCrsc (lev : BitVec 3) (op : RedOp) (src dst : BitVec 5) (s : State) : Out := collIssue 1 lev (redCode op) (src.setWidth 7) (dst.setWidth 7) [] s
/-- `ca2a` (R240). -/
def execCa2a (lev : BitVec 3) (src dst : BitVec 5) (s : State) : Out := collIssue 2 lev 0 (src.setWidth 7) (dst.setWidth 7) [] s
/-- `cbar` (R242). -/
def execCbar (lev : BitVec 3) (s : State) : Out := collIssue 3 lev 0 0 0 [] s
/-- `cred` (R242). -/
def execCred (lev : BitVec 3) (op : RedOp) (a : Reg) (s : State) : Out := collIssue 4 lev (redCode op) a 0 [a] s

/-- `cwaitc` (R243). -/
def execCwaitc (d a : Reg) (s : State) : Out :=
  withHere s fun h => checked s h [d, a] [a] (notInHandler s h (detStop s h true (
    if (s.uniform h a).toNat < h.g.calls.length then .next (s.waitCall h (s.uniform h a).toNat)
    else .next ((((s.pass (· = .queue h.gk 4) h.agents).modGroup h.gk (fun g => { g with callFail := 0 })).produce h d (readsLatch [a]) (fun _ => wd h.g.callFail)).retire h []))))

/-! ## Reduce (R241) -/

/-- Smallest or largest of binary32 values as `fmin` and `fmax` choose, over a set (R117, R241). -/
def pickAll (largest : Bool) (vs : List Word) : Word × Ev :=
  let ev := nanEvents (vs.map (fun v => f32.decode v.toNat))
  match vs.filter (fun v => !(f32.decode v.toNat).isNan) with
  | [] => (wd (f32.nan.getD 0), ev)
  | v :: r => (r.foldl (fun m x => wd (f32.pick largest m.toNat x.toNat).1) v, ev)

/-- Reduce of the values present; 0 with none present (R241). A NaN operand counts class 4, as for a vector instruction; R102 does not speak of
collectives (DESIGN CHOICE, log 91). -/
def reduce (op : Nat) (vs : List Word) : Word × Ev :=
  match vs with
  | [] => (0, evNone)
  | v :: r =>
    match op with
    | 0 => (r.foldl (· + ·) v, evNone)
    | 1 =>
      let xs := vs.map (fun v => f32.decode v.toNat)
      let t := sumVals xs
      let y := f32.encode .rn t.1
      (wd y.1, t.2 ||| y.2 ||| nanEvents xs)
    | 2 => (r.foldl minS v, evNone)
    | 3 => (r.foldl maxS v, evNone)
    | 4 => (r.foldl minZ v, evNone)
    | 5 => (r.foldl maxZ v, evNone)
    | 6 => (r.foldl (· &&& ·) v, evNone)
    | 7 => (r.foldl (· ||| ·) v, evNone)
    | 8 => (r.foldl (· ^^^ ·) v, evNone)
    | 9 => pickAll false vs
    | _ => pickAll true vs

/-! ## Running (R238, R240, R242, R243) -/

/-- A participant: its slot, rank and call. -/
structure Participant where
  gk : Nat
  rank : Nat
  call : Call
  deriving DecidableEq, Repr

/-- A participant's call as an agent (R255). -/
def Participant.agent (p : Participant) : Agent := .call p.gk p.call.level p.call.num

/-- What a group of the unit has done: it has ended, or has made the call, or neither. -/
inductive Made
  | gone
  | made (p : Participant)
  | open
  deriving DecidableEq, Repr

/-- The state of call `num` at a level in group `gid` of a launch. -/
def State.madeBy (s : State) (launch gid rank level num : Nat) : Made :=
  let l := s.launch launch
  if l.ended.contains gid || l.dead.contains gid then .gone
  else match s.groups.find? (fun p => p.2.launch = launch && p.2.gid = gid) with
    | none => .open
    | some (gk, g) => match g.calls.find? (fun c => c.level = level && c.num = num) with
      | some c => if c.made && c.beat.isNone && c.susp.isNone && c.todo.isNone && !g.frozen then .made { gk := gk, rank := rank, call := c } else .open
      | none => .open

/-- Replace a participant's call. -/
def State.setCall (s : State) (p : Participant) (c : Call) : State :=
  s.modGroup p.gk (fun g => { g with calls := g.calls.map (fun x => if x = p.call then c else x) })

/-- Participant `p`'s call ends with a beat (R243). -/
def State.endCall (s : State) (size : Nat) (p : Participant) (status written : Nat) (addr : BitVec 64) (result : Beat) (ev : SMap Nat) : State :=
  let beat := if p.call.fn = 4 then (if status = 0 then result else [])
    else beatOf [wd p.call.num, wd status, wd p.call.level, wd size, wd written, lo32 addr, hi32 addr]
  (s.pass (· = p.agent) [.queue p.gk 4]).setCall p { p.call with beat := some beat, failed := status ≠ 0, events := ev }

/-- Every participant's call ends with a status that is not 0. -/
def State.failCalls (s : State) (size : Nat) (ps : List Participant) (status : Nat) (addr : BitVec 64) : State :=
  ps.foldl (fun s p => s.endCall size p status 0 addr [] []) s

/-- The engine of a participant as an actor. -/
def State.partActor (s : State) (p : Participant) : Actor := s.engineOf (p.gk / 16) (p.gk % 16) p.agent

/-- Formats that `cagat` and `ca2a` move (R240). -/
def moveFmt (f : Nat) : Bool := (4 ≤ f && f ≤ 8) || (11 ≤ f && f ≤ 17)

/-- A participant's records break R240. -/
def State.badCallRecs (s : State) (p : Participant) : Bool :=
  let c := p.call
  let part := (s.partActor p).part
  s.refused part c.src || s.refused part c.dst || c.dst.space ≠ 2 || !(c.src.space = 2 || (c.src.space = 0 && c.src.publish = 0))
    || (if c.fn = 1 then c.src.fmt ≠ 17 || c.dst.fmt ≠ 17 else c.src.fmt ≠ c.dst.fmt || !moveFmt c.src.fmt) || c.dst.rowlen ≠ c.src.rowlen

/-- Element (row, e) of a participant's source, read once; none where Locate answers None. -/
def State.callRead (s : State) (p : Participant) (row e : Nat) : Except (Participant × Stop) (Option Nat) :=
  match s.locateAt (s.partActor p) p.call.src row e (unitSize p.call.src.fmt) .read with
  | .error f => .error (p, stopOf f)
  | .ok none => .ok none
  | .ok (some ls) => match s.readLocs (s.partActor p) (s.unitAddr (s.partActor p) p.call.src row e (unitSize p.call.src.fmt) .read) ls with
    | .error x => .error (p, x)
    | .ok v => .ok (some v)

/-- Map over a list, stopping at the first error. -/
def tryMap {α β ε : Type} (f : α → Except ε β) : List α → Except ε (List β)
  | [] => .ok []
  | x :: r => match f x with
    | .error e => .error e
    | .ok y => match tryMap f r with
      | .error e => .error e
      | .ok ys => .ok (y :: ys)

/-- The rows that a destination receives (R240): row, element, value and events. -/
def State.callRows (s : State) (ps : List Participant) (t : Participant) (op : Nat) : Except (Participant × Stop) (List (Nat × Nat × Nat × Ev)) :=
  let es := List.range t.call.src.rowlen
  if t.call.fn = 1 then
    tryMap (fun e => match tryMap (fun p => s.callRead p t.rank e) ps with
      | .error x => .error x
      | .ok vs => let r := reduce op (vs.filterMap (fun v => v.map wd)); .ok (0, e, r.1.toNat, r.2)) es
  else match tryMap (fun p => tryMap (fun e => match s.callRead p (if t.call.fn = 2 then t.rank else 0) e with
      | .error x => .error x
      | .ok v => .ok (p.rank, e, v.getD 0, evNone)) es) ps with
    | .error x => .error x
    | .ok rows => .ok rows.flatten

/-- The places of a destination's elements, before anything is written; a write for None is dropped. -/
def State.callPlaces (s : State) (t : Participant) (rows : List (Nat × Nat × Nat × Ev)) : Except (Participant × Stop) (List (List Loc × Nat)) :=
  match tryMap (fun (x : Nat × Nat × Nat × Ev) => match s.locateAt (s.partActor t) t.call.dst x.1 x.2.1 (unitSize t.call.dst.fmt) .write with
      | .error f => .error (t, stopOf f)
      | .ok none => .ok none
      | .ok (some ls) => .ok (some (ls, x.2.2.1))) rows with
  | .error x => .error x
  | .ok ps => .ok (ps.filterMap id)

/-- What one destination receives. -/
structure Receipt where
  dest : Participant
  writes : List (List Loc × Nat)
  ev : SMap Nat
  deriving DecidableEq, Repr

/-- Everything a data collective writes, or the participant whose access fails. -/
def State.callReceipts (s : State) (ps : List Participant) (op : Nat) : Except (Participant × Stop) (List Receipt) :=
  tryMap (fun t => match s.callRows ps t op with
    | .error x => .error x
    | .ok rows => match s.callPlaces t rows with
      | .error x => .error x
      | .ok w => .ok { dest := t, writes := w, ev := countEvents (rows.map (fun x => x.2.2.2)) }) ps

/-- Source rows of a participant. -/
def Participant.rows (p : Participant) (size : Nat) : List Nat := List.range (if p.call.fn = 0 then 1 else size)

/-- The walks of what a participant reads (R341). -/
def State.touchCall (s : State) (size : Nat) (p : Participant) : State :=
  (p.rows size).foldl (fun s r => s.touchRow (s.partActor p) p.call.src r .read) s

/-- The units that a participant reads from device memory. -/
def State.callUnits (s : State) (size : Nat) (p : Participant) : List (List Loc) :=
  (p.rows size).flatMap (fun r => s.rowReads (s.partActor p) p.call.src r false)

/-- The requests of the participants, where bytes of other devices have not come (R338, R367). -/
def State.askCalls (s : State) (size : Nat) (ps : List Participant) : Option State :=
  if ps.any (fun p => (s.callUnits size p).any (s.lacks (s.partActor p))) then
    some (ps.foldl (fun t p => (t.askUnits (s.partActor p) (s.callUnits size p)).getD t) s)
  else none

/-- What the participants have read is kept no longer. -/
def State.dropCalls (s : State) (size : Nat) (ps : List Participant) : State :=
  ps.foldl (fun t p => t.dropAsks (s.partActor p).part (s.callUnits size p).flatten) s

/-- A data collective begins (R240): its sources are read, once bytes of other devices have come (R367), and each participant has a destination
to write. A translation fault on a source suspends the call of its participant (R243); an uncorrectable error goes to the partition (R312,
R340). -/
def State.runData (s : State) (size : Nat) (ps : List Participant) (op : Nat) : State :=
  if ps.any s.badCallRecs then s.failCalls size ps 1 0
  else match s.askCalls size ps with
  | some t => t
  | none =>
    let s1 := (ps.foldl (fun s p => s.touchCall size p) s).useFresh (s.races ≠ [])
    match s.callReceipts ps op with
    | .ok rs => (rs.foldl (fun s x => s.setCall x.dest { x.dest.call with todo := some x.writes, events := x.ev }) s1).dropCalls size ps
    | .error (p, .susp f) => ((match s.stopLoss (s.partActor p) (.susp f) with | some own => s1.contain (s.partActor p).part own | none => s1).setCall p
        { p.call with susp := some { cause := f.detail, va := f.va, acc := f.acc.code, told := none } }).dropCalls size ps
    | .error (p, .status c a line) => ((match line with | some b => s1.loseRead (s.partActor p) b | none => s1).failCalls size ps c a).dropCalls size ps

/-- Elements of a burst of up to 512 destination bytes (R213, R246). -/
def burstLen (c : Call) : Nat := 512 / unitSize c.dst.fmt

/-- One burst of a participant of a running data collective (R240, R246); the last fills the granules and ends its call (R244). -/
def State.deliver (s : State) (size : Nat) (p : Participant) (ws : List (List Loc × Nat)) : State :=
  let now := ws.take (burstLen p.call)
  let s1 := now.foldl (fun s w => s.engineWrite (s.partActor p) w.2 w.1) s
  let c := { p.call with todo := some (ws.drop (burstLen p.call)), wrote := p.call.wrote + now.length, grs := now.foldl (fun g w => addGranules g w.1) p.call.grs }
  if ws.drop (burstLen p.call) ≠ [] then s1.setCall p c
  else (s1.fillGranules c.grs).endCall size p 0 c.wrote 0 [] p.call.events

/-- A `cred` (R242): the result of every lane, for every participant. -/
def State.runCred (s : State) (size : Nat) (ps : List Participant) (op : Nat) : State :=
  let rs := (List.range 32).map (fun i => reduce op ((ps.map (fun p => getD [] p.call.contrib i)).flatten))
  let ev := countEvents (rs.map (·.2))
  ps.foldl (fun s p => s.endCall size p 0 0 0 (beatOf (rs.map (·.1))) ev) s

/-- The participants disagree in fn, op or E (R240). -/
def disagree (ps : List Participant) : Bool :=
  match ps with
  | [] => false
  | p :: r => r.any (fun q => q.call.fn ≠ p.call.fn || q.call.d ≠ p.call.d || (p.call.fn ≤ 2 && q.call.src.rowlen ≠ p.call.src.rowlen))

/-- The participants of a call, none while a group of the unit has neither made it nor ended. -/
def allMade : List Made → Option (List Participant)
  | [] => some []
  | .open :: _ => none
  | .gone :: r => allMade r
  | .made p :: r => (allMade r).map (p :: ·)

/-- The participant of a running data collective in group `gid`, with what it has still to write, where its burst may run: current is
reserved for it, or nothing is left to write (R246). -/
def State.bursting (s : State) (launch gid rank level num : Nat) : Option (Participant × List (List Loc × Nat)) :=
  (s.groups.find? (fun p => p.2.launch = launch && p.2.gid = gid)).bind (fun p =>
    (p.2.calls.find? (fun c => c.level = level && c.num = num)).bind (fun c =>
      c.todo.bind (fun ws => if c.beat.isNone && (ws = [] || s.poweredFor (p.1 / 16) .copy 3) then some ({ gk := p.1, rank := rank, call := c }, ws) else none)))

/-- COLLECTIVE_RUN (R238, R240, R243): call `call` at `level` of unit `unit` of a launch begins, or one burst of it runs (R246). -/
def execCollectiveRun (launch unit level call : Nat) (s : State) : Out :=
  let size := (s.launch launch).unitSize level
  match (List.range size).findSome? (fun r => s.bursting launch (unit * size + r) r level call) with
  | some (p, ws) => .next (let t := s.deliver size p ws; if ws = [] then t else t.unpower (p.gk / 16) .copy)
  | none =>
    let ms := (List.range size).map (fun r => s.madeBy launch (unit * size + r) r level call)
    match allMade ms with
    | none | some [] => .next s
    | some (p :: r) =>
      let ps := p :: r
      let s := s.pass (fun a => ps.any (fun q => a = q.agent)) (ps.map Participant.agent)
      if ms.contains .gone then .next (s.failCalls size ps 9 0)
      else if disagree ps then .next (s.failCalls size ps 8 0)
      else
        let op := p.call.d.toNat % 16
        if p.call.fn = 3 then .next (ps.foldl (fun s q => s.endCall size q 0 0 0 [] []) s)
        else if p.call.fn = 4 then .next (s.runCred size ps op)
        else .next (s.runData size ps op)

/-- COLLECTIVE_END (R239, R243): the group's oldest call at `level` pushes its beat into `q4`. -/
def execCollectiveEnd (core slot level : Nat) (s : State) : Out :=
  let gk := gkOf core slot
  match s.group gk with
  | none => .next s
  | some g => match g.calls.find? (fun c => c.level = level) with
    | none => .next s
    | some c => match c.beat with
      | none => .next s
      | some b =>
        if g.hasRoom 4 then
          .next ((s.setGroup gk { g.push 4 b with calls := g.calls.erase c, callFail := if c.failed then g.callFail + 1 else g.callFail }).chargeOp gk c.events waitsCall)
        else .next s

end Sys2Proof.Machine
end

