-- ==== Sys2Proof/Machine/Twin.lean ====
section
/-! DEFINITION. The matrix licence and the twin window (R229-R234). -/

namespace Sys2Proof.Machine

/-! ## The licence -/

/-- Change the licence of a pair. -/
def State.modLicence (s : State) (p : Nat) (f : Licence → Licence) : State := s.setLicence p (f (s.licence p))

/-- Join the grant order, once, at time `now`: behind the requests that began earlier, and behind one of the same cycle from the lower die
(R230). -/
def Licence.ask (v : Licence) (gk now : Nat) : Licence :=
  if v.waiting.any (·.1 = gk) then v
  else
    let first := fun (x : Nat × Nat) => x.2 < now || (x.2 = now && dieOf (x.1 / 16) ≤ dieOf (gk / 16))
    { v with waiting := v.waiting.takeWhile first ++ (gk, now) :: v.waiting.dropWhile first }

/-- `mlic` (R230). -/
def execMlic (s : State) : Out :=
  withHere s fun h => notInHandler s h (
    let p := pairOf h.core
    let v := s.licence p
    if v.holder = some h.gk then .next (s.leave h [] (fun _ => .seq))
    else if v.holder.isNone && v.waiting = [] then .next ((s.setLicence p { v with holder := some h.gk }).leave h [] (fun _ => .seq))
    else .next ((s.setLicence p (v.ask h.gk s.ptp)).await h))

/-- LICENCE_GRANT (R230, R231): the first waiting group takes a free licence; a restored group's wait for it ends. -/
def execLicenceGrant (pair : Nat) (s : State) : Out :=
  let v := s.licence pair
  match v.holder, v.waiting with
  | none, (gk, _) :: r =>
    .next ((s.setLicence pair { holder := some gk, waiting := r, revoked := v.revoked.filter (· ≠ gk) }).modGroup gk (fun g => { g with wantLic := false }))
  | _, _ => .next s

/-- `mlicr` (R230). A group that does not hold the licence waits for the `mma`s of its array too (log 91). -/
def execMlicr (s : State) : Out :=
  withHere s fun h => notInHandler s h (
    if ((s.core h.core).opsOf h.slot).any (fun o => o.kind = .mma) then .next (s.await h)
    else
      let p := pairOf h.core
      .next ((s.modLicence p (fun v => if v.holder = some h.gk then { v with holder := none } else v)).leave h [] (fun _ => .seq)))

/-- `mlictry` (R230). -/
def execMlictry (d : Reg) (s : State) : Out :=
  withHere s fun h => checked s h [d] [] (notInHandler s h (
    let p := pairOf h.core
    let v := s.licence p
    let ok := v.holder.isNone || v.holder = some h.gk
    let s1 := if ok then s.setLicence p { holder := some h.gk, waiting := v.waiting.filter (·.1 ≠ h.gk), revoked := v.revoked.filter (· ≠ h.gk) } else s
    .next ((s1.produce h d false (fun _ => flagWord ok)).retire h [])))

/-! ## The twin window -/

/-- Where the twin group of a fragment is (R232, R233). -/
inductive Twin
  | here
  | away
  | missing
  deriving DecidableEq, Repr

/-- The twin group is resident, saved or missing (R232). -/
def State.twinState (s : State) (h : Here) : Twin :=
  if (s.group (twinGk h.gk)).any (fun t => t.launch = h.g.launch) then .here
  else if s.saves.any (fun p => p.2.group.launch = h.g.launch && some p.2.group.gid = h.g.twin) then .away else .missing

/-- Key of the twin thread of a lane. -/
def Here.twinTk (h : Here) (l : Nat) : Nat := tkOf (twinGk h.gk) h.wave l
/-- Register-file key of the twin's window register `code` (R232). -/
def State.twinKey (s : State) (h : Here) (code : Reg) (l : Nat) : Nat :=
  rfKey (twinOf h.core) h.slot h.R h.wave ((s.thread (h.twinTk l)).wbase + code.toNat) l

/-- The traps and the wait of a twin window access (R232, R236). -/
def twinAccess (s : State) (h : Here) (code : Reg) (k : Out) : Out :=
  detStop s h true (match s.twinState h with
    | .missing => trap s h kState
    | .away => .next (s.await h)
    | .here =>
      let bad := maskWhere h.frag.lanes (fun l => h.R ≤ (s.thread (h.twinTk l)).wbase + code.toNat)
      if bad ≠ 0 then trapIn s h kRange bad else k)

/-- `tget` (R232). -/
def execTget (d a : Reg) (s : State) : Out :=
  withHere s fun h => checked s h [d] [] (notInHandler s h (twinAccess s h a
    (.next ((s.produce h d false (fun l => getD 0 s.rf (s.twinKey h a l))).retire h []))))

/-- `tset` (R232). Writes to different twin-window registers become visible in program order; R234 leaves their order open (log 91). -/
def execTset (d a : Reg) (s : State) : Out :=
  withHere s fun h => checked s h [a] [a] (notInHandler s h (twinAccess s h d
    (.next (({ s with rf := h.lanes.foldl (fun m l => put 0 m (s.twinKey h d l) (s.reg h l a)) s.rf }).leave h [a] (fun _ => .seq)))))

/-- `tbar` (R233). Threads whose twin group is saved wait for it (log 91). -/
def execTbar (s : State) : Out :=
  withHere s fun h => notInHandler s h (detStop s h true (notInRegion s h (
    if s.anyLane h (·.tbarIn) || s.twinState h = .missing then trap s h kState
    else
      let twin := match s.group (twinGk h.gk) with | some t => if t.launch = h.g.launch then some t.gid else h.g.twin | none => h.g.twin
      let s1 := (((s.flushCore h.core).passAll h.owns [.twin h.gk false]).modLanes h (fun t => { t with tbarIn := true, inTbar := true })).modGroup h.gk (fun g => { g with twin := twin })
      .next (((s1.leave h [] (fun _ => .seq)).park h .tbarrier).settle h.gk))))

end Sys2Proof.Machine
end

