-- ==== Sys2Proof/Machine/Save.lean ====
section
/-! DEFINITION. Context save and restore: the save area and its checks (R310, R319-R325, R231). -/

namespace Sys2Proof.Machine

/-! ## The area (R322) -/

/-- Bytes and words of a save area. -/
def areaBytes : Nat := 0x45000
/-- Word of area.seal. -/
def sealWord : Nat := 0x44FFC / 4

/-- Words listed from word `base` up, zeros left out. -/
def chunk (base : Nat) (ws : List Word) : SMap Word := (((List.range ws.length).map (base + ·)).zip ws).filter (fun p => p.2 ≠ 0)
/-- A sparse map of words moved to `base`. -/
def chunkMap (base : Nat) (m : SMap Word) : SMap Word := m.map (fun p => (base + p.1, p.2))
/-- Words of a record. -/
def recWords (r : Rec) : List Word := (List.range 8).map (fun k => r.extractLsb' (32 * k) 32)
/-- The mask of a boolean map over `n` bits, as words. -/
def bitWords (n : Nat) (p : Nat → Bool) : List Word := (List.range (n / 32)).map (fun k => maskOf ((List.range 32).filter (fun j => p (32 * k + j))))

/-- The logical core of a group (R41). -/
def State.lcoreOf (s : State) (g : Group) : Option LCore := if (s.launch g.launch).det then s.lcore (1024 * g.launch + g.lcore) else none

/-- Header words (R323). -/
def State.areaHeader (s : State) (gk : Nat) (g : Group) (gen : Word) : List Word :=
  let l := s.launch g.launch
  let lc := if l.det then g.lcore else 0
  let slot := if l.det then g.lslot else gk % 16
  let b (x : Bool) : Nat := if x then 1 else 0
  let lic := (s.licence (pairOf (gk / 16))).holder = some gk || g.wantLic
  let cfg := if g.cfg.isSome then g.cfg else g.wantCfg.map (·.1)
  let per (m : SMap Word) := (List.range 8).map (fun k => getD 0 m k)
  [ gen, 1, lo32 l.addr, hi32 l.addr, wd g.gid,
    wd (l.field 128 5 + 2 ^ 5 * (l.waves - 1) + 2 ^ 7 * b l.det + 2 ^ 8 * b lic + 2 ^ 9 * b cfg.isSome + 2 ^ 10 * (g.perf.map (·.toNat)).getD 15
      + 2 ^ 14 * slot + 2 ^ 18 * (gk / 16) + 2 ^ 28 * (lc % 16)), wd (lc / 16),
    wd (((s.lcoreOf g).map (·.round)).getD 0), g.tbgen ++ g.bgen, g.lseq, g.gkeyl, g.gkeyh, g.dkeyl, g.dkeyh ]
  ++ (List.range 5).map (fun k => (cfg.getD []).getD k 0) ++ per g.nev ++ [wd g.nret] ++ per g.evtc ++ per g.evbase

/-- Lanes of a wave whose jobs an operation holds (R197). -/
def CopyOp.lanesIn (o : CopyOp) (wave : Nat) : Mask := maskOf ((o.jobs.filter (fun j => j.wave = wave)).map (·.lane))

/-- A copy entry (R322). -/
def copyEntry (o : CopyOp) : List Word :=
  [ o.num, wd (o.fn + 2 ^ 4 * o.b.toNat + 2 ^ 11 * o.a.toNat + 2 ^ 30 * (if o.susp.isSome then 1 else 0) + 2 ^ 31 * (if o.started then 1 else 0)) ]
  ++ (List.range 4).map o.lanesIn ++ [wd o.jobs.length, wd o.job, wd o.step, o.index.getD 0] ++ List.replicate 6 0
  ++ recWords o.src ++ recWords o.idx ++ recWords o.dst ++ List.replicate 24 0 ++ (o.jobs.map (fun j => [j.x, j.y])).flatten

/-- A matrix entry (R322): the array stands between two groups of products, at element (0, 0), or between two rows of a drain. -/
def matEntry (o : MatOp) : List Word :=
  [o.word, wd o.k, if o.kind = .drain then wd o.row else 0, 0, wd o.g, 0, 0, 0, o.row0, o.col0, o.thr, o.f, 0, 0, 0, 0] ++ recWords o.dst

/-- A collective entry (R322): a data collective that writes goes on after the elements that it has written (R243). -/
def callEntry (c : Call) : List Word :=
  [ 0x3C000000 + wd (2 ^ 18 * c.d.toNat + 2 ^ 11 * c.a.toNat + 2 ^ 4 * c.b.toNat + c.fn), wd c.num,
    maskOf ((List.range 4).filter (fun w => getD 0 c.joined w ≠ 0)), if c.todo.isSome then wd c.wrote else 0, 0, 0, 0, 0 ]
  ++ recWords c.src ++ recWords c.dst ++ List.replicate 8 0
  ++ (List.range 32).map (fun l => (reduce (c.d.toNat % 16) (getD [] c.contrib l)).1)

/-- The fragment in hand for a wave's own words: any fragment of the wave, or one without lanes. -/
def State.hereAt (s : State) (gk wave : Nat) (g : Group) : Here :=
  let w := s.wave (wkOf gk wave)
  let none' : Frag := { lanes := 0, pc := { seg := 0, off := 0 }, past := false, mode := .user, wait := .none, xfer := 0, t0 := 0, retired := 0, since := 0, after := none, nev := 0, phw := 0 }
  { core := gk / 16, slot := gk % 16, wave := wave, frag := w.frags.headD none', w := w, g := g, l := s.launch g.launch }

/-- The counts of R197 and R238 in words 12 and 13 of a lane block (R324). -/
def countWords (t : Thread) : Word × Word :=
  let byte := fun k => if k = 0 then t.copyCount % 256 else getD 0 t.callCounts (k + 1) % 256
  (wd (natOf ((List.range 4).map (fun k => BitVec.ofNat 8 (byte k)))), wd (natOf ((List.range 4).map (fun k => BitVec.ofNat 8 (byte (k + 4))))))

/-- A wave record (R324), written with the wave's current state: of a held trap the record holds what only the trap knows. -/
def State.waveRecord (s : State) (gk wave : Nat) (g : Group) : List Word :=
  let h := s.hereAt gk wave g
  let w := h.w
  let held := w.frags.find? (fun f => f.mode = .held)
  let parent := (held.map (·.lanes)).getD 0
  let clock := s.clockOf h
  let ended := maskWhere (~~~(0#32)) (fun l => (s.thread (h.tk l)).ended)
  let own : List (Nat × Word) := [(4, w.rfParked), (5, ended), (17, flagWord w.rfOpen), (18, w.rfNext), (19, w.rfEnd),
    (20, 0#15 ++ (BitVec.ofBool w.progress ++ w.fair)), (21, wd clock), (22, wd (clock / 2 ^ 32))]
  let header := (List.range 64).map (fun k => (find own k).getD (if held.isSome then getD 0 w.record k else 0))
  header ++ ((List.range 32).map (fun l =>
    let block := if parent.getLsbD l then (List.range 64).map (fun k => laneWord w l k)
      else match w.fragOf l with
        | some f => s.laneBlock h wave l w f.pc f.past
        | none => s.laneBlock h wave l w { seg := 0, off := 0 } false
    let c := countWords (s.thread (h.tk l))
    (block.set 12 c.1).set 13 c.2)).flatten

/-- The words of a tile configuration's accumulators. -/
def State.tilesOf (s : State) (core : Nat) (cfg : List Word) : SMap Word :=
  (takeRange s.acc (32768 * core) (32768 * core + 32768)).filter (fun p => (List.range 4).any (fun t =>
    let d := descOf cfg t
    tileKey 0 d 0 ≤ p.1 && p.1 < tileKey 0 d (tileM d * tileN d)))

/-- The image of a configuration's tiles at a save (R321, R322): the running sums of an `mma` that has begun stand in its tile. -/
def State.tileImage (s : State) (core : Nat) (cfg : List Word) (ops : List MatOp) : SMap Word :=
  (ops.filter (fun o => o.kind = .mma && o.g ≠ 0)).foldl (fun m o =>
    let d := descOf cfg o.tile
    (List.range (tileM d * tileN d)).foldl (fun m e => put 0 m (tileKey 0 d e) (getD 0 o.acc e)) m) (s.tilesOf core cfg)

/-- The words of beats, 32 each. -/
def beatsWords (bs : List Beat) : SMap Word := ((List.range bs.length).zip bs).flatMap (fun p => p.2.map (fun q => (32 * p.1 + q.1, q.2)))

/-- The operand FIFOs and the tiles that the group of a slot holds, or that it waits to have restored. -/
def State.fifosOf (s : State) (gk : Nat) (g : Group) : List Beat × List Beat :=
  if g.cfg.isSome then ((s.core (gk / 16)).q0, (s.core (gk / 16)).q1) else (g.queue 0, g.queue 1)

/-- The matrix operations of the group of a slot, in the array or still to be restored. -/
def State.opsHeld (s : State) (gk : Nat) (g : Group) : List MatOp :=
  match g.wantCfg with | some p => p.2.2 | none => (s.core (gk / 16)).opsOf (gk % 16)

/-- The words of the area that come before the scratchpad's (R322). -/
def State.headWords (s : State) (gk : Nat) (g : Group) (gen : Word) : SMap Word :=
  let core := gk / 16
  let slot := gk % 16
  let entries := fun (base size : Nat) (es : List (List Word)) => (((List.range es.length).zip es).map (fun p => chunk (base + size * p.1) p.2)).flatten
  let fifos := s.fifosOf gk g
  let queue := fun q => if q = 0 then fifos.1 else if q = 1 then fifos.2 else g.queue q
  chunk 0 (s.areaHeader gk g gen)
  ++ entries 64 320 (g.copies.map copyEntry)
  ++ entries 2624 32 ((s.opsHeld gk g).map matEntry)
  ++ entries 2752 64 (g.calls.map callEntry)
  ++ entries 3008 4 (g.pend.map (fun p => [lo32 p.addr, hi32 p.addr, p.seq, 0]))
  ++ chunkMap 3024 g.shape
  ++ chunk 3280 (bitWords 2048 (fun j => getD false s.full (32768 * core + 2048 * slot + j)))
  ++ chunk 3344 ((List.range 12).map (fun q => if q = 7 then 0 else wd (queue q).length))
  ++ chunk 3392 (((List.range 128).map (fun t => [(s.thread (128 * gk + t)).clockh, (s.thread (128 * gk + t)).ptph])).flatten)
  ++ ((List.range (s.launch g.launch).waves).map (fun w => chunk (4096 + 2304 * w) (s.waveRecord gk w g))).flatten
  ++ chunkMap 13312 (takeRange s.rf (65536 * core + 4096 * slot) (65536 * core + 4096 * slot + 4096))

/-- The words of a slot's scratchpad. -/
def State.padWords (s : State) (gk : Nat) : List Word :=
  (List.range 8192).map (fun k => wd (natOf ((List.range 4).map (fun j => getD 0 s.pad (524288 * (gk / 16) + 32768 * (gk % 16) + 4 * k + j)))))

/-- The words of the area from its queues up (R322). -/
def State.queueWords (s : State) (gk : Nat) (g : Group) : SMap Word :=
  let fifos := s.fifosOf gk g
  let tiles := match g.cfg, g.wantCfg with
    | some cfg, _ => s.tileImage (gk / 16) cfg (s.opsHeld gk g)
    | none, some p => p.2.1
    | none, none => []
  chunkMap 25600 (beatsWords fifos.1) ++ chunkMap 27648 (beatsWords fifos.2)
  ++ ((List.range 5).map (fun k => chunkMap (29696 + 1024 * k) (beatsWords (g.queue (k + 2))))).flatten
  ++ ((List.range 4).map (fun k => chunkMap (34816 + 512 * k) (beatsWords (g.queue (k + 8))))).flatten
  ++ chunkMap 36864 tiles

/-- Every word of the area but its seal (R322). -/
def State.areaWords (s : State) (gk : Nat) (g : Group) (gen : Word) : SMap Word :=
  s.headWords gk g gen ++ chunk 17408 (s.padWords gk) ++ s.queueWords gk g

/-! ## Writing an area -/

/-- An address that can hold an area: aligned to 4 KiB within this device's mapped DRAM (R169, R322). -/
def State.areaOk (s : State) (a : Nat) : Bool :=
  a % 4096 = 0 && (a + areaBytes ≤ s.usableTop || (s.reserveStart ≤ a && a + areaBytes ≤ s.towerCount * 72 * 2 ^ 30))

/-- The first byte of the area whose line has an error. -/
def State.areaBad (s : State) (a : Nat) : Option Nat := ((List.range (areaBytes / 128)).map (fun k => a + 128 * k)).find? (s.badFor reserveKey)

/-- Write bytes `lo` to `hi - 1` of an area, whole lines, from its words, under the reserve's key (R169, R344); caches may hold the table entries
that stood there (R341). -/
def State.writeArea (s : State) (a lo hi : Nat) (ws : SMap Word) : State :=
  let mine := ws.filter (fun p => lo ≤ 4 * p.1 && 4 * p.1 < hi)
  let bytes := mine.flatMap (fun p => (List.range 4).map (fun k => (4 * p.1 + k, p.2.extractLsb' (8 * k) 8)))
  let s := ((s.walks.map (·.1)).filter (fun d => a + lo ≤ 8 * d && 8 * d < a + hi)).foldl State.noteEntry s
  { s with
    bad := dropRange s.bad (lineOf (a + lo)) (lineOf (a + hi))
    dram := putAll 0 (dropRange s.dram (a + lo) (a + hi)) a (bytes.filter (fun p => p.2 ≠ 0))
    tags := (List.range ((hi - lo) / 128)).foldl (fun m k => put 0 m (lineOf (a + lo) + k) reserveKey) s.tags
    races := (s.dropRaces (Loc.inLine (fun n => lineOf (a + lo) ≤ n && n < lineOf (a + hi)))).races }

/-- A word of an area. -/
def State.areaWord (s : State) (a w : Nat) : Word := s.dramWord reserveKey (a + 4 * w)

/-! ## Saving (R310, R321) -/

/-- A slot that no save may start on: a fragment in handler mode, or a landing ring (R307, R310). -/
def State.saveBlocked (s : State) (gk : Nat) : Bool :=
  (find s.rings gk).isSome || (List.range 4).any (fun w => (s.wave (wkOf gk w)).frags.any (fun f => f.mode = .handler))

/-- What a save waits for has ended: paired operations and code loads with their beats (R321). A beat of an abandoned drain that waits for a place
in `q3` is kept beside the area (log 29). -/
def State.saveReady (s : State) (gk : Nat) (g : Group) : Bool :=
  let c := s.core (gk / 16)
  !(c.opsOf (gk % 16)).any (fun o => o.peer.isSome) && c.loadsOf (gk % 16) = [] && g.held6 = []

/-- A save begins (R310): the group stops, and area.gen is written. -/
def State.beginSave (s : State) (gk a : Nat) (gen : Word) : State :=
  (s.modGroup gk (fun g => { g with saving := some (s.clockAt (gk / 16), false) })).setDramBytes reserveKey a (bytesOf gen.toNat 4)

/-- Add to the stamps of a fragment the cycles in which its age stood still. -/
def Frag.delay (n : Nat) (active : Bool) (f : Frag) : Frag := { f with retired := f.retired + n, since := if active then f.since + n else f.since }

/-- A save stops without its seal (R310): the group goes on in its slot, its ages as they stood. One that the device began is over (R319, R320); a
`ctxsv` still has to report its expiry. -/
def State.abortSave (s : State) (gk : Nat) (expired : Bool) : State :=
  match s.group gk with
  | none => s
  | some g =>
    let n := match g.saving with | some (t, _) => s.clockAt (gk / 16) - t | none => 0
    let s1 := if (s.launch g.launch).det then s else (List.range 4).foldl (fun s w => s.modWave (wkOf gk w) (fun w => { w with frags := w.frags.map (Frag.delay n g.active) })) s
    s1.setGroup gk { g with
      saving := if expired && !g.evict then some (s.clockAt (gk / 16), true) else none, evict := false, saveArea := none, resident := if g.evict then s.ptp else g.resident }

/-- A fragment in a save: its stamps hold ages. -/
def Frag.toAge (now : Nat) (active : Bool) (f : Frag) : Frag := { f with retired := now - f.retired, since := if active then now - f.since else f.since }
/-- A restored fragment, whose group is pending: a `wne` restarts its timeout, and what waited tries again (R321). -/
def Frag.fromAge (now : Nat) (f : Frag) : Frag :=
  { f with retired := now - f.retired, t0 := now, wait := if f.wait = .retry then .none else f.wait }

/-- What the layout does not hold of the group of a slot. -/
def State.snapshot (s : State) (gk : Nat) (g : Group) (gen : Word) : Saved :=
  let det := (s.launch g.launch).det
  let now := s.clockAt (gk / 16)
  { gen := gen, home := gk, group := { g with saving := none, evict := false, saveArea := none }
    waves := (takeRange s.waves (4 * gk) (4 * gk + 4)).map (fun p => (p.1, if det then p.2 else { p.2 with frags := p.2.frags.map (Frag.toAge now g.active) }))
    threads := takeRange s.threads (128 * gk) (128 * gk + 128)
    ops := s.opsHeld gk g }

/-- A save ends: the body, then the seal; the slot, the licence and the configuration are released (R231, R272, R310, R321). -/
def State.finishSave (s0 : State) (gk a : Nat) (gen : Word) : State :=
  let core := gk / 16
  let s := s0.flushCore core
  match s.group gk with
  | none => s
  | some g =>
    let cfg := match g.cfg with | some c => some (c, s.tileImage core c (s.opsHeld gk g), s.opsHeld gk g) | none => g.wantCfg
    let lic := (s.licence (pairOf core)).holder = some gk || g.wantLic
    let (q0, q1) := s.fifosOf gk g
    let g1 := { g with cfg := none, wantCfg := cfg, wantLic := lic, revokedLic := g.revokedLic || (s.licence (pairOf core)).revoked.contains gk, queues := put [] (put [] g.queues 0 q0) 1 q1 }
    let s1 := s.writeArea a 0 areaBytes (s.areaWords gk g gen ++ [(sealWord, gen)])
    let s2 := { s1 with saves := insert s1.saves a (s.snapshot gk g1 gen) }
    let s3 := s2.modCore core (fun c => { c with
      ops := c.ops.filter (fun o => o.slot ≠ gk % 16), q0 := if g.cfg.isSome then [] else c.q0, q1 := if g.cfg.isSome then [] else c.q1
      holder := if c.holder = some (gk % 16) then none else c.holder })
    let s4 := (g.cfg.toList ++ g.cfgOld).foldl (fun s c => s.zeroTiles core c) s3
    let s5 := s4.modGroup gk (fun g => { g with cfg := none, cfgOld := [], copies := [], calls := [] })
    let s6 := { s5 with lcores := s5.lcores.map (fun (p : Nat × LCore) => if (s.launch g.launch).det && p.1 = 1024 * g.launch + g.lcore then (p.1, { p.2 with slots := erase p.2.slots g.lslot }) else p) }
    s6.freeSlot core (gk % 16)

/-- A save ends because a line of the area has an error: the words below it are written, the seal is not, and the partition learns of
the line (R310, R312). -/
def State.failSave (s : State) (gk a bad : Nat) (gen : Word) : State :=
  match s.group gk with
  | none => s
  | some g => (((s.flushCore (gk / 16)).writeArea a 0 (bad - a) (s.areaWords gk g gen)).contain (s.launch g.launch).part bad).abortSave gk false

/-! ## Checks of an area (R325) -/

/-- A word of the area has a bit outside `mask`. -/
def State.areaBits (s : State) (a w : Nat) (mask : Word) : Bool := s.areaWord a w &&& ~~~mask ≠ 0

/-- Reserved bits of a lane block at word `b` are set. -/
def State.badBlockBits (s : State) (a b : Nat) : Bool :=
  s.areaBits a (b + 2) 0xFFFD || s.areaBits a (b + 3) 0xFFFF007F || [8, 10].any (fun k => s.areaBits a (b + k) 0x03FF03FF)

/-- A wave record as a wave. -/
def State.areaWave (s : State) (a w : Nat) : Wave :=
  { Wave.init with record := ((List.range 2112).map (fun k => (k, s.areaWord a (4096 + 2304 * w + k)))).filter (fun (p : Nat × Word) => p.2 ≠ 0 && !(64 ≤ p.1 && (p.1 % 64 = 12 || p.1 % 64 = 13))) }

/-- The launch of a partition whose group an area describes. -/
def State.areaLaunch (s : State) (a part : Nat) : Option (Nat × Launch) :=
  s.launches.find? (fun p => p.2.addr = pair64 (s.areaWord a 2) (s.areaWord a 3) && p.2.part = part)

/-- The body of an area breaks its layout (R325, and R10 for the header of a wave record, R299): the checks of `hret` are those of the saved group's launch and registers. -/
def State.badArea (s : State) (a part : Nat) : Bool :=
  let ctl := s.areaWord a 5
  let regs := (ctl.extractLsb' 0 5).toNat
  let waves := (ctl.extractLsb' 5 2).toNat + 1
  let bits := fun base size (ks : List Nat) n => (List.range n).any (fun e => ks.any (fun k => s.areaWord a (base + size * e + k) ≠ 0))
  let head := [(0, 0x801FFFFF), (10, 3), (15, 0x1FF), (17, 1), (20, 0x1FFFF)] ++ (List.range 40).map (fun k => (24 + k, 0#32))
  s.areaWord a 1 ≠ 1 || s.areaBits a 6 0x3F || (List.range 20).any (fun k => s.areaWord a (44 + k) ≠ 0)
    || 14 < regs || 4096 < waves * 32 * (16 + 8 * regs)
    || bits 64 320 ((List.range 6).map (10 + ·) ++ (List.range 24).map (40 + ·)) 8
    || (List.range 8).any (fun e => s.areaBits a (64 + 320 * e + 1) 0xC003FFFF || s.areaWord a (64 + 320 * e + 6) < s.areaWord a (64 + 320 * e + 7))
    || bits 2624 32 [5, 6, 7, 12, 13, 14, 15, 24, 25, 26, 27, 28, 29, 30, 31] 4
    || (List.range 4).any (fun e => (s.areaWord a (2624 + 32 * e + 1)).toNat < 16 * (s.areaWord a (2624 + 32 * e + 4)).toNat)
    || (List.range 4).any (fun e => s.areaWord a (3008 + 4 * e + 3) ≠ 0)
    || bits 2752 64 [4, 5, 6, 7, 24, 25, 26, 27, 28, 29, 30, 31] 4
    || (List.range waves).any (fun w =>
      let wv := s.areaWave a w
      head.any (fun p => getD 0 wv.record p.1 &&& ~~~p.2 ≠ 0) || (List.range 32).any (fun l => s.badBlockBits a (4096 + 2304 * w + 64 + 64 * l)
        || (!(laneWord wv l 2).getLsbD 12 && !(laneWord wv l 2).getLsbD 13 && recordFails (((s.areaLaunch a part).map (fun p => p.2.codeCount)).getD 255) (16 + 8 * regs) none wv l)))

/-- The group that a twin-level unit places in the twin slot of `g`: the units' groups pair by rank (R232, log 17). -/
def Launch.twinGid (l : Launch) (g : Nat) : Option Nat :=
  match l.deepLevels.find? (fun k => l.domain k = 2) with
  | none => none
  | some k =>
    let r := g % l.unitSize k
    if r % 2 = 1 then some (g - 1) else if r + 1 < l.unitSize k then some (g + 1) else none

/-! ## Restoring (R310, R321) -/

/-- The saved group that an area describes: launch address, group id and generation. -/
def State.savedAs (s : State) (a : Nat) (part : Nat) : Option Saved :=
  let addr := pair64 (s.areaWord a 2) (s.areaWord a 3)
  (s.saves.find? (fun p => let l := s.launch p.2.group.launch
    p.2.gen = s.areaWord a 0 && l.addr = addr && l.part = part && wd p.2.group.gid = s.areaWord a 4)).map (·.2)

/-- A thread of a restored group, from its lane block and its words of the header region. -/
def State.restoredThread (s : State) (a : Nat) (wv : Wave) (t : Nat) (old : Thread) : Thread :=
  let l := t % 32
  let st := laneWord wv l 2
  if old.ended then old
  else { restoreLane wv l old with
    iter := laneWord wv l 1, prop := laneWord wv l 14, acpt := laneWord wv l 15, isOpen := st.getLsbD 10, bank := st.extractLsb' 7 3
    done := st.getLsbD 11, clockh := s.areaWord a (3392 + 2 * t), ptph := s.areaWord a (3393 + 2 * t), hregs := old.hregs, killed := old.killed }

/-- The fragments of a restored wave: each lane at its own lane.pc; a held fragment stays as its trap left it. A waiting access locates its units
on the core of the restore (R326), where the segments have been loaded anew (R133). -/
def restoredFrags (wv : Wave) (det : Bool) (now : Nat) (fs : List Frag) : List Frag :=
  (fs.map (fun f1 =>
    let f0 : Frag := { f1 with kept := f1.kept.map (fun x => (x.1, [])), fence := none }
    let f := if det then { f0 with wait := if f0.wait = .retry then .none else f0.wait } else f0.fromAge now
    if f.mode ≠ .user then [f]
    else splitLanes { f with lanes := 0 } (fun l => (CodeAddr.of (laneWord wv l 0), (laneWord wv l 2).getLsbD 0)) (lanesOf f.lanes) [])).flatten

/-- A restored wave. -/
def State.restoredWave (s : State) (a w : Nat) (det : Bool) (now : Nat) (old : Wave) : Wave :=
  let wv := s.areaWave a w
  let ctl := getD 0 wv.record 20
  let held := old.frags.any (fun f => f.mode = .held)
  { old with
    frags := restoredFrags wv det now old.frags
    fair := ctl.extractLsb' 0 16, progress := ctl.getLsbD 16
    rfOpen := (getD 0 wv.record 17).getLsbD 0, rfNext := getD 0 wv.record 18, rfEnd := getD 0 wv.record 19, rfParked := getD 0 wv.record 4, rfFence := none
    record := if held then wv.record else []
    agg := old.agg.map (fun x => if det then x else { x with opened := now })
    issued := if det then old.issued else now, yielded := 0 }

/-- The beats of a queue region with its count (R322). -/
def State.areaBeats (s : State) (a base count cap : Nat) : List Beat :=
  (List.range (Nat.min (s.areaWord a count).toNat cap)).map (fun k => beatOf ((List.range 32).map (fun j => s.areaWord a (base + 32 * k + j))))

/-- Group state that the header and the queue regions hold. -/
def State.restoredGroup (s : State) (a : Nat) (g : Group) (ops : List MatOp) (now : Nat) : Group :=
  let w := s.areaWord a
  let per := fun base => chunk 0 ((List.range 8).map (fun k => w (base + k)))
  let perf := ((w 5).extractLsb' 10 4)
  let lic := (w 5).getLsbD 8
  let cells := (List.range 32).foldl (fun g l => restoreCells (s.areaWave a 0) l g) g
  { cells with
    gkeyl := w 10, gkeyh := w 11, dkeyl := w 12, dkeyh := w 13, lseq := w 9, bgen := (w 8).extractLsb' 0 16, tbgen := (w 8).extractLsb' 16 16
    perf := if perf.toNat < 8 then some (perf.setWidth 3) else none
    nev := per 19, nret := (w 27).toNat, evtc := per 28, evbase := per 36
    shape := chunk 0 ((List.range 256).map (fun k => w (3024 + k)))
    queues := ((List.range 12).filter (fun q => q ≠ 7)).foldl (fun m q =>
      put [] m q (s.areaBeats a (if q ≤ 1 then 25600 + 2048 * q else if q ≤ 6 then 29696 + 1024 * (q - 2) else 34816 + 512 * (q - 8)) (3344 + q) (queueCap q))) []
    wantCfg := if (w 5).getLsbD 9 then some ((List.range 5).map (fun k => w (14 + k)), chunk 0 ((List.range 32768).map (fun k => w (36864 + k))), ops) else none
    wantLic := lic, saving := none, evict := false, saveArea := none, active := false, moved := now, resident := now, hungry := false, waited := 0, cfgOld := [] }

/-- A granule of the slot `old` in the slot `new`. -/
def moveGran (old new g : Nat) : Nat := if g / 2048 = old then 2048 * new + g % 2048 else g

/-- A scratchpad byte of the slot `old` in the slot `new`. -/
def moveLoc (old new : Nat) : Loc → Loc
  | .chip c o => if c = old / 16 && o / 32768 = old % 16 then .chip (new / 16) (32768 * (new % 16) + o % 32768) else .chip c o
  | l => l

/-- What engine operations of a saved group have still to do lies in the slot of the restore (R321). -/
def Group.moveTo (g : Group) (old new : Nat) : Group :=
  { g with
    copies := g.copies.map (fun o => { o with granules := o.granules.map (moveGran old new), buf := o.buf.map (fun b => { b with grs := b.grs.map (moveGran old new) }) })
    calls := g.calls.map (fun c => { c with
      todo := c.todo.map (fun ws => ws.map (fun w => (w.1.map (moveLoc old new), w.2))), grs := c.grs.map (moveGran old new) }) }

/-- An operation of an array in the slot of the restore. -/
def MatOp.moveTo (o : MatOp) (old new : Nat) : MatOp := { o with slot := new % 16, grans := o.grans.map (moveGran old new) }

/-- The request of a restored group whose licence `mlicgv` had revoked joins the grant order (R231, R311). -/
def State.askRevoked (s : State) (gk : Nat) (g : Group) : State :=
  if g.revokedLic then
    let v := Licence.ask (s.licence (pairOf (gk / 16))) gk s.ptp
    s.setLicence (pairOf (gk / 16)) { v with revoked := v.revoked ++ [gk] }
  else s

/-- Restore a saved group from its area into a free slot, and load the segments at which its threads resume (R133, R310). -/
def State.restoreArea (s : State) (a : Nat) (v : Saved) (core slot : Nat) : State :=
  let gk := gkOf core slot
  let l := s.launch v.group.launch
  let now := s.clockAt core
  let s0 := (s.wipeSlot core slot).flushAll
  let g1 := (s.restoredGroup a v.group (v.ops.map (fun o => o.moveTo v.home gk)) s.ptp).moveTo v.home gk
  let g := Group.flush { g1 with revokedLic := false }
  let ws := (List.range l.waves).map (fun w => (w, s.restoredWave a w l.det now (getD Wave.init v.waves w)))
  let ts := (List.range (32 * l.waves)).map (fun t => (t, s.restoredThread a (s.areaWave a (t / 32)) t (getD Thread.init v.threads t)))
  let s1 := { s0 with
    saves := s0.saves.filter (fun p => p.2 ≠ v)
    waves := putAll Wave.init s0.waves (4 * gk) ws
    threads := putAll Thread.init s0.threads (128 * gk) ts
    rf := putAll 0 s0.rf (65536 * core + 4096 * slot) (chunk 0 ((List.range 4096).map (fun k => s.areaWord a (13312 + k))))
    pad := putAll 0 s0.pad (524288 * core + 32768 * slot) (((List.range 32768).map (fun k => (k, s.dramByte reserveKey (a + 0x11000 + k)))).filter (fun p => p.2 ≠ 0))
    full := putAll false s0.full (32768 * core + 2048 * slot)
      (((List.range 2048).map (fun j => (j, (s.areaWord a (3280 + j / 32)).getLsbD (j % 32)))).filter (fun p => p.2))
    lcores := s0.lcores.map (fun (p : Nat × LCore) => if l.det && p.1 = 1024 * g.launch + g.lcore then (p.1, { p.2 with slots := insert p.2.slots g.lslot slot }) else p) }
  ((((s1.setGroup gk g).askRevoked gk v.group).retarget (clusterOf core)).settle gk).bringAll core slot (ws.flatMap (fun p => p.2.frags.map (·.pc)))

/-- What a restored group still waits for: first the configuration, as `mcfg` waits (R216), then the licence (R231, R321). -/
def State.advanceRestore (s : State) (core slot : Nat) : State :=
  let gk := gkOf core slot
  match s.group gk with
  | none => s
  | some g => match g.wantCfg with
    | some (cfg, tiles, ops) =>
      if (s.core core).holder.isSome then s
      else
        let s1 := (s.setGroup gk { g with cfg := some cfg, wantCfg := none, queues := put [] (put [] g.queues 0 []) 1 [] }).modCore core
          (fun c => { c with holder := some slot, q0 := g.queue 0, q1 := g.queue 1, ops := c.ops ++ ops })
        { s1 with acc := putAll 0 s1.acc (32768 * core) tiles }
    | none => if g.wantLic then s.setLicence (pairOf core) (Licence.ask (s.licence (pairOf core)) gk s.ptp) else s

end Sys2Proof.Machine
end

