-- ==== Sys2Proof/Machine/Rebuild.lean ====
section
/-! DEFINITION. A saved group from the words of its area alone (R310, R322-R324): what `ctxld` restores where the device remembers no more of the
group than the area holds. What the layout has no place for stands as at a start (log 29). -/

namespace Sys2Proof.Machine

/-- A record of an area. -/
def State.areaRec (s : State) (a w : Nat) : Rec := BitVec.ofNat 256 (natOf ((List.range 8).flatMap (fun k => bytesOf (s.areaWord a (w + k)).toNat 4)))

/-- Counts taken mod 256 that lie close together, in order again (R324). -/
def unwrap (all : List Nat) (x : Nat) : Nat := if all.any (fun y => 192 ≤ y) && x < 64 then x + 256 else x

/-- Lane words of every thread of an area: word `k` of the block of thread 32 w + l. -/
def State.areaLane (s : State) (a t k : Nat) : Word := s.areaWord a (4096 + 2304 * (t / 32) + 64 + 64 * (t % 32) + k)

/-- Byte `k` of a thread's counts (R324). -/
def State.areaCount (s : State) (a t k : Nat) : Nat := ((s.areaLane a t (12 + k / 4)).extractLsb' (8 * (k % 4)) 8).toNat

/-- Threads of an area that have not ended. -/
def State.areaLive (s : State) (a waves : Nat) : List Nat := (List.range (32 * waves)).filter (fun t => !(s.areaLane a t 2).getLsbD 12)

/-- The count of a thread, in order again. -/
def State.areaTally (s : State) (a waves t k : Nat) : Nat := unwrap ((s.areaLive a waves).map (fun u => s.areaCount a u k)) (s.areaCount a t k)

/-- A thread as its lane block has it. -/
def State.areaThread (s : State) (a waves t : Nat) : Thread :=
  { Thread.init with
    ended := (s.areaLane a t 2).getLsbD 12, copyCount := s.areaTally a waves t 0, stood := s.areaLane a t 0
    callCounts := ((List.range 7).map (fun k => (k + 2, s.areaTally a waves t (k + 1)))).filter (fun p => p.2 ≠ 0) }

/-- The waves of an area: its live lanes in one fragment that `restoredFrags` divides, waiting where some lane of it is done in its access; a held
trap keeps its lanes apart (R297, R324). -/
def State.areaFrags (s : State) (a w : Nat) : Wave :=
  let wv := s.areaWave a w
  let parent := if (getD 0 wv.record 0).extractLsb' 0 8 = 0 then 0 else getD 0 wv.record 1
  let live := maskWhere (~~~(0#32)) (fun l => !(laneWord wv l 2).getLsbD 12 && !(laneWord wv l 2).getLsbD 13)
  let mine := live &&& ~~~parent
  let waits := maskWhere mine (fun l => (laneWord wv l 2).getLsbD 11)
  let frag := fun (m : Mask) => if m = 0 then [] else [startFrag 0 { seg := 0, off := 0 } m]
  { Wave.init with
    frags := frag (mine &&& ~~~waits) ++ (frag waits).map (fun f => { f with wait := .access })
      ++ (frag parent).map (fun f => { f with mode := .held, pc := CodeAddr.of (getD 0 wv.record 6), xfer := (getD 0 wv.record 11).toNat }) }

/-- A copy operation of an area, without its place in program order; none where the entry is empty. -/
def State.areaCopy (s : State) (a e : Nat) : Option CopyOp :=
  let w := fun k => s.areaWord a (64 + 320 * e + k)
  let lanes := (List.range 4).flatMap (fun v => (lanesOf (w (2 + v))).map (fun l => (v, l)))
  if !(w 1).getLsbD 31 && lanes = [] then none
  else
    let jobs := ((List.range (w 6).toNat).zip lanes).map (fun p => ({ wave := p.2.1, lane := p.2.2, x := w (64 + 2 * p.1), y := w (65 + 2 * p.1) } : Job))
    let b : Reg := (w 1).extractLsb' 4 7
    let src : Reg := (w 1).extractLsb' 11 7
    some { CopyOp.start ((w 1).extractLsb' 0 4).toNat src b (src.getLsbD 5) 0 with
      joined := ((List.range 4).map (fun v => (v, w (2 + v)))).filter (fun p => p.2 ≠ 0)
      jobs := jobs, started := (w 1).getLsbD 31, num := w 0, src := s.areaRec a (64 + 320 * e + 16), idx := s.areaRec a (64 + 320 * e + 24)
      dst := s.areaRec a (64 + 320 * e + 32), job := (w 7).toNat, step := (w 8).toNat, index := if (w 8).toNat = 2 then some (w 9) else none }

/-- The copy operations of an area: the collective ones are the latest that the threads have joined (R197, R199, R324). -/
def State.areaCopies (s : State) (a waves : Nat) : List CopyOp :=
  let ops := (List.range 8).filterMap (s.areaCopy a)
  let joint := (ops.filter (fun o => !o.solo)).length
  let last := ((s.areaLive a waves).map (fun t => s.areaTally a waves t 0)).foldl Nat.max 0
  (List.range ops.length).zip ops |>.map (fun p =>
    if p.2.solo then p.2 else { p.2 with k := last + 1 + ((ops.take p.1).filter (fun o => !o.solo)).length - joint })

/-- A matrix operation of an area. The beats of the groups that an `mma` has finished are gone; its running sums stand in its tile (R322). -/
def State.areaMat (s : State) (a e slot : Nat) (cfg : List Word) : Option MatOp :=
  let w := fun k => s.areaWord a (2624 + 32 * e + k)
  match decode (w 0) with
  | .ok (.mma t zero pair alane blane x) =>
    let d := descOf cfg t.toNat
    let g := (w 4).toNat
    let beats := fun fmt n lane => List.replicate (operandBeats fmt n (16 * g) lane) ([] : Beat)
    some { MatOp.start .mma slot (wd (e + 1)) (.mma t zero pair alane blane x) with
      tile := t.toNat, zero := zero, alane := alane, blane := blane, k := (w 1).toNat, g := g
      abeats := beats (cfgFmtA cfg) (tileM d) alane, bbeats := beats (cfgFmtB cfg) (tileN d) blane
      acc := if g = 0 then [] else chunk 0 ((List.range (tileM d * tileN d)).map (fun k => s.areaWord a (36864 + tileKey 0 d k))) }
  | .ok (.mdrain t res drop clr n b) =>
    some { MatOp.start .drain slot (wd (e + 1)) (.mdrain t res drop clr n b) with
      tile := t.toNat, res := res.map (·.toNat), drop := drop, clr := clr, row := (w 2).toNat, row0 := w 8, col0 := w 9, thr := w 10, f := w 11
      dst := s.areaRec a (2624 + 32 * e + 16) }
  | .ok (.mzero mask) => some { MatOp.start .zero slot (wd (e + 1)) (.mzero mask) with mask := mask }
  | _ => none

/-- A collective call of an area: a thread whose count has reached its number has joined it (R238, R324). -/
def State.areaCall (s : State) (a e waves : Nat) : Option Call :=
  let b := 2752 + 64 * e
  let w := fun k => s.areaWord a (b + k)
  if w 0 = 0 then none
  else
    let d : Reg := (w 0).extractLsb' 18 7
    let level := (d.extractLsb' 4 3).toNat + 1
    let num := (w 1).toNat
    let joins := fun t => (s.areaCount a t (level - 1) + 256 - num % 256) % 256 < 128
    let ts := (s.areaLive a waves).filter joins
    let masks := (List.range waves).map (fun v => (v, maskOf ((ts.filter (fun t => t / 32 = v)).map (· % 32))))
    some { Call.start level num ((w 0).extractLsb' 0 4).toNat d ((w 0).extractLsb' 11 7) ((w 0).extractLsb' 4 7) with
      joined := masks.filter (fun p => p.2 ≠ 0), made := ts = s.areaLive a waves, src := s.areaRec a (b + 8), dst := s.areaRec a (b + 16)
      contrib := ((List.range 32).filter (fun l => ts.any (fun t => t % 32 = l))).map (fun l => (l, [w (32 + l)])) }

/-- Pending launches of an area. -/
def State.areaPend (s : State) (a : Nat) : List Pend :=
  ((List.range 4).map (fun e => ({ addr := pair64 (s.areaWord a (3008 + 4 * e)) (s.areaWord a (3009 + 4 * e)), seq := s.areaWord a (3010 + 4 * e), launch := none, beat := none } : Pend))).filter
    (fun p => p.addr ≠ 0 || p.seq ≠ 0)

/-- The saved group of an area from its words alone: a group of an accepted launch of the partition, of that launch's shape (log 29). -/
def State.rebuilt (s : State) (a part : Nat) : Option Saved :=
  let w := s.areaWord a
  match s.areaLaunch a part with
  | none => none
  | some (n, l) =>
    let gid := (w 4).toNat
    if l.done || l.refused.isSome || l.groups ≤ gid || ((w 5).extractLsb' 0 5).toNat ≠ l.field 128 5 || ((w 5).extractLsb' 5 2).toNat + 1 ≠ l.waves || (w 5).getLsbD 7 ≠ l.det then none
    else
      let waves := l.waves
      let lcore := ((w 5).extractLsb' 28 4).toNat + 16 * ((w 6).extractLsb' 0 6).toNat
      let cfg := (List.range 5).map (fun k => w (14 + k))
      let ops := (List.range 4).filterMap (fun e => s.areaMat a e 0 cfg)
      let copies := s.areaCopies a waves
      some {
        gen := w 0, home := 16384
        group := { Group.blank n gid (if l.det then lcore else 0) ((w 5).extractLsb' 14 4).toNat s.ptp with
          twin := l.twinGid gid, copies := copies, copyNum := (copies.filter (·.started)).foldl (fun m o => if m < o.num then o.num else m) 0
          matNum := wd ops.length, calls := (List.range 4).filterMap (fun e => s.areaCall a e waves), pend := s.areaPend a }
        waves := (List.range waves).map (fun v => (v, s.areaFrags a v))
        threads := (List.range (32 * waves)).map (fun t => (t, s.areaThread a waves t))
        ops := ops }

/-- The group that `ctxld` restores from an area: what the device remembers of its save, or what the area holds (R310). -/
def State.restorable (s : State) (a part : Nat) : Option Saved := (s.savedAs a part).orElse (fun _ => s.rebuilt a part)

end Sys2Proof.Machine
end

