-- ==== Sys2Proof/Machine/Privileged.lean ====
section
/-! DEFINITION. Privileged instructions (R293, R294, R301-R303, R310, R311), words that are no instruction (R72, R132), and the watchdogs and
the aggregation window of traps (R304, R308-R310). -/

namespace Sys2Proof.Machine

/-! ## Privilege (R293) -/

/-- An instruction of both handlers and firmware. -/
def needsLevel (s : State) (h : Here) (k : Out) : Out := if h.level = 0 then trap s h kPriv else k

/-- A handler-only instruction with register fields `named` of which it reads `reads` (R293): at level 2 the illegal-state trap comes after the
checks of the fields (R73). -/
def handlerOnly (s : State) (h : Here) (named reads : List Reg) (k : Out) : Out :=
  if h.level = 0 then trap s h kPriv else checked s h named reads (if h.level = 2 then trap s h kState else k)

/-- A level-2 instruction (R293). -/
def firmwareOnly (s : State) (h : Here) (k : Out) : Out := if h.level ≠ 2 then trap s h kPriv else k

/-! ## Privileged registers (R294) -/

/-- A privileged register as a fragment of a core, group and wave reads it. -/
def State.privReg (s : State) (core level : Nat) (g : Option Group) (w : Wave) : PReg → Word
  | .priv => wd level
  | .tkind => wd w.tkind
  | .tseq => w.tseq
  | .hmask => (s.core core).hmask
  | .hfwd => (s.core core).hfwd
  | .hagg => (s.core core).hagg
  | .hwd => (s.core core).hwd
  | .svwd => (s.core core).svwd
  | .tslice => (s.core core).tslice
  | .part => wd (s.owner core)
  | .fwbell => (s.core core).fwbell
  | .nev k => match g with | some g => g.nevOf k.toNat | none => 0

/-- The low 16 bits of a word. -/
def low16 (v : Word) : Word := (v.extractLsb' 0 16).setWidth 32

/-- The new value of an event control register: bit 29 reads 0, and action 3 leaves the action unchanged (R104). -/
def nevWrite (old v : Word) : Word :=
  let act := if v.extractLsb' 30 2 = 3 then old.extractLsb' 30 2 else v.extractLsb' 30 2
  act ++ (0#1 ++ v.extractLsb' 0 29)

/-- Write a privileged register (R294, R104); RO registers take no write. -/
def State.setPrivReg (s : State) (core gk : Nat) (r : PReg) (v : Word) : State :=
  match r with
  | .hmask => s.modCore core (fun c => { c with hmask := v })
  | .hfwd => s.modCore core (fun c => { c with hfwd := v })
  | .hagg => s.modCore core (fun c => { c with hagg := (v.extractLsb' 0 8).setWidth 32 })
  | .hwd => s.modCore core (fun c => { c with hwd := low16 v })
  | .svwd => s.modCore core (fun c => { c with svwd := low16 v })
  | .tslice => s.modCore core (fun c => { c with tslice := if low16 v = 0 then c.tslice else low16 v })
  | .fwbell => s.modCore core (fun c => { c with fwbell := if v.getLsbD 0 then c.fwbell else 0 })
  | .nev k => s.modGroup gk (fun g => { g with nev := put 0 g.nev k.toNat (nevWrite (g.nevOf k.toNat) v) })
  | .priv | .tkind | .tseq | .part => s

/-- A register that a handler may write (RW1 of R294). -/
def handlerWrites : PReg → Bool
  | .nev _ => true
  | _ => false

/-- `rdpr` (R294). -/
def execRdpr (d : Reg) (r : PReg) (s : State) : Out :=
  withHere s fun h => needsLevel s h (checked s h [d] []
    (.next ((s.produce h d false (fun _ => s.privReg h.core h.level (some h.g) h.w r)).retire h [])))

/-- `wrpr` (R294). -/
def execWrpr (r : PReg) (d : Reg) (s : State) : Out :=
  withHere s fun h => needsLevel s h (checked s h [d] [d]
    (if h.level = 1 && !handlerWrites r then trap s h kPriv
    else .next ((s.setPrivReg h.core h.gk r (s.uniform h d)).leave h [d] (fun _ => .seq))))

/-! ## Handler instructions (R302, R303) -/

/-- A selector that R302 allows. -/
def selectorOk (h : Here) (x : Nat) : Bool := (x ≤ 127 && x < h.R) || (0x100 ≤ x && x < 0x140) || (0x200 ≤ x && x < 0x240)

/-- Selection `x` of a lane. -/
def State.selected (s : State) (h : Here) (x l : Nat) : Word :=
  if x ≤ 127 then s.front h l x
  else if x < 0x200 then laneWord (s.wave h.wk) l (x - 0x100)
  else getD 0 (s.wave h.wk).record (x - 0x200)

/-- The DH bits of word `w` of a lane block (R300). -/
def dhMask (w : Nat) : Word :=
  if w = 0 then 0xFFFFFFFF else if w = 2 then 0x7C else if w = 3 then 0xFFFF007F else if 4 ≤ w && w ≤ 7 then 0xFFFFFFFF
  else if w = 8 || w = 10 then 0x03FF03FF else if w = 9 || w = 11 then 0xFFFFFFFF
  else if (16 ≤ w && w < 32) || 48 ≤ w then 0xFFFFFFFF else 0

/-- Set a word of a wave's record. -/
def State.setRecord (s : State) (wk k : Nat) (v : Word) : State := s.modWave wk (fun w => { w with record := put 0 w.record k v })

/-- Write word `w` of lane `l`'s block as a handler does (R302): its DH bits change, and a write of word 0 clears lane.past. -/
def State.writeBlock (s : State) (wk l w : Nat) (v : Word) : State :=
  let old := laneWord (s.wave wk) l w
  let s1 := s.setRecord wk (64 + 64 * l + w) ((old &&& ~~~dhMask w) ||| (v &&& dhMask w))
  if w = 0 then s1.setRecord wk (64 + 64 * l + 2) (laneWord (s1.wave wk) l 2 &&& ~~~1#32) else s1

/-- `hwr` (R302). -/
def execHwr (a b : Reg) (s : State) : Out :=
  withHere s fun h => handlerOnly s h [a, b] [a, b] (
    let x := (s.uniform h a).toNat
    if !selectorOk h x then trap s h kState
    else
      let s1 := h.lanes.foldl (fun t l =>
        if x ≤ 127 then t.setFront h l x (s.reg h l b)
        else if x < 0x200 then t.writeBlock h.wk l (x - 0x100) (s.reg h l b)
        else t) s
      .next (s1.leave h [a, b] (fun _ => .seq)))

/-- `hrd` (R302). -/
def execHrd (d a : Reg) (s : State) : Out :=
  withHere s fun h => handlerOnly s h [d, a] [a] (
    let x := (s.uniform h a).toNat
    if !selectorOk h x then trap s h kState
    else .next ((s.produce h d (readsLatch [a]) (fun l => s.selected h x l)).retire h []))

/-- A lane of `hskip` (R302): it resumes after the trapping instruction. -/
def State.skipLane (s : State) (h : Here) (l : Nat) : State :=
  let w := s.wave h.wk
  let pc := getD 0 w.record 6
  let last := pc.extractLsb' 0 10 = 1023#10
  let st := laneWord w l 2
  let s1 := s.setRecord h.wk (64 + 64 * l) (if last then pc else pc + 1)
  s1.setRecord h.wk (66 + 64 * l) (if last then st ||| 1 else st &&& ~~~1#32)

/-- `hskip` (R302): for a precise kind only. -/
def execHskip (s : State) : Out :=
  withHere s fun h => handlerOnly s h [] [] (
    let kind := ((getD 0 h.w.record 0).extractLsb' 0 8).toNat
    let s1 := if 1 ≤ kind && kind ≤ 15 then h.lanes.foldl (fun t l => t.skipLane h l) s else s
    .next (s1.leave h [] (fun _ => .seq)))

/-- `hkill` (R302). -/
def execHkill (s : State) : Out :=
  withHere s fun h => handlerOnly s h [] [] (.next ((s.modLanes h (fun t => { t with killed := true })).leave h [] (fun _ => .seq)))

/-- `hret` (R303): it waits for the other handler fragments of its trap, and the last one leaves for all of them. -/
def execHret (s : State) : Out :=
  withHere s fun h => handlerOnly s h [] [] (
    if h.w.frags.any (fun f => f.lanes ≠ h.frag.lanes && f.mode = .handler && f.wait ≠ .hret) then
      .next (s.modFrag h (fun f => { f with wait := .hret }))
    else .next ((s.leaveTrap h).settle h.gk))

/-! ## Context save and restore (R310) -/

/-- A status of `ctxsv` or `ctxld`. -/
def saveStatus (s : State) (h : Here) (d : Reg) (v : Nat) : Out := .next ((s.produce h d false (fun _ => wd v)).retire h [])

/-- The save of the group of a slot for a `ctxsv` (R310). A thread that saves its own group leaves with it: it stands at this instruction when it is
restored (log 31). -/
def saveGroup (s : State) (h : Here) (d : Reg) (gk area : Nat) (gen : Word) (g : Group) : Out :=
  match g.saving with
  | some (_, true) => saveStatus (s.modGroup gk (fun g => { g with saving := none })) h d 2
  | _ =>
    if !s.areaOk area then saveStatus (s.abortSave gk false) h d 3
    else
      let s1 := if g.frozen then s else s.beginSave gk area gen
      if !s1.saveReady gk g then .next (s1.await h)
      else match s1.areaBad area with
        | some bad => saveStatus (s1.failSave gk area bad gen) h d 3
        | none =>
          if gk = h.gk then .next (s1.finishSave gk area gen)
          else saveStatus (s1.finishSave gk area gen) h d 0

/-- `ctxsv` (R310). -/
def execCtxsv (d a : Reg) (s : State) : Out :=
  withHere s fun h => firmwareOnly s h (checked s h (d :: (List.range 4).map (regPlus a)) [] (
    let area := (pair64 (s.uniform h a) (s.uniform h (regPlus a 1))).toNat
    let gen := s.uniform h (regPlus a 2)
    let target := (s.uniform h (regPlus a 3)).toNat
    match s.group target with
    | none => saveStatus s h d 1
    | some g =>
      if (s.launch g.launch).part ≠ s.owner h.core then saveStatus s h d 1
      else if s.saveBlocked target then saveStatus s h d 4
      else saveGroup s h d target area gen g))

/-- `ctxld` (R310). A word that cannot be read is no match for G, and answers status 3 (log 29). -/
def execCtxld (d a : Reg) (s : State) : Out :=
  withHere s fun h => firmwareOnly s h (checked s h (d :: (List.range 4).map (regPlus a)) [] (
    let area := (pair64 (s.uniform h a) (s.uniform h (regPlus a 1))).toNat
    let gen := s.uniform h (regPlus a 2)
    let target := (s.uniform h (regPlus a 3)).toNat
    let core := target / 16
    if 1024 ≤ core || s.owner core ≠ s.owner h.core || !s.slotOpen core (target % 16) then saveStatus s h d 1
    else if !s.areaOk area then saveStatus s h d 3
    else match (if s.badFor reserveKey area then some area else if s.badFor reserveKey (area + 4 * sealWord) then some (area + 4 * sealWord) else none) with
      | some bad => saveStatus (s.contain h.l.part bad) h d 3
      | none =>
        if s.areaWord area 0 ≠ gen || s.areaWord area sealWord ≠ gen then saveStatus s h d 2
        else match s.areaBad area with
          | some bad => saveStatus (s.contain h.l.part bad) h d 3
          | none =>
            if s.badArea area h.l.part then saveStatus s h d 4
            else match s.restorable area h.l.part with
              | none => saveStatus s h d 4
              | some v => saveStatus ((s.restoreArea area v core (target % 16)).advanceRestore core (target % 16)) h d 0))

/-! ## Other firmware instructions (R311) -/

/-- `tlbinv` (R311, R341): no core of the partition holds a replaced translation, and the accesses of every core are performed. For its lanes it
is an acquire and a release at device scope, as a fence is (log 86). -/
def execTlbinv (a b : Reg) (s : State) : Out :=
  withHere s fun h => firmwareOnly s h (checked s h [a, regPlus a 1, b] [b]
    (if 2 ≤ (s.uniform h b).toNat then trap s h kState else
      let va := (s.uniform h a).toNat + 2 ^ 32 * (s.uniform h (regPlus a 1)).toNat
      let s1 := (s.fenceAcquire h .acq .dev).flushAll.invalidate (s.owner h.core) va (s.uniform h b = 1)
      .next ((s1.fenceRelease h .rel .dev).leave h [b] (fun _ => .seq))))

/-- `mlicgv` (R311). -/
def execMlicgv (a : Reg) (s : State) : Out :=
  withHere s fun h => firmwareOnly s h (checked s h [a] [a] (
    let c := (s.uniform h a).toNat
    if 1024 ≤ c || s.owner c ≠ s.owner h.core then trap s h kState
    else
      let s1 := s.modLicence (pairOf c) (fun v => match v.holder with
        | some gk => { v.ask gk s.ptp with holder := none, revoked := gk :: v.revoked.filter (· ≠ gk) }
        | none => v)
      .next (s1.leave h [a] (fun _ => .seq))))

/-- `slotclr` (R311). -/
def execSlotclr (a : Reg) (s : State) : Out :=
  withHere s fun h => firmwareOnly s h (checked s h [a] [a] (
    let x := (s.uniform h a).toNat
    if 16 ≤ x || !s.slotFree h.core x then trap s h kState
    else .next ((s.wipeSlot h.core x).leave h [a] (fun _ => .seq))))

/-- `idle` (R311). -/
def execIdle (s : State) : Out :=
  withHere s fun h => firmwareOnly s h (.next (if (s.core h.core).fwbell.getLsbD 0 then s.leave h [] (fun _ => .seq) else s.await h))

/-! ## Words that are no instruction -/

/-- ILLEGAL_INSTRUCTION_WORD (R72, R73): a word of major 0x40 needs privilege first. -/
def execIllegalInstructionWord (w : Word) (s : State) : Out :=
  withHere s fun h => trap s h (if h.level = 0 && w.extractLsb' 25 7 = 0x40#7 then kPriv else kIllegal)

/-- FETCH_FAULT (R132, R295). -/
def execFetchFault (detail : Nat) (s : State) : Out := withHere s fun h => .next (s.takeTrap h (h.cause kFetch detail))

/-! ## Watchdogs and windows -/

/-- Limit of the hang watchdog of a core in the units of its ages; 0 disables it (R294, R308). -/
def State.hangLimit (s : State) (core : Nat) : Nat := 65536 * (low16 (s.core core).hwd).toNat

/-- A fragment whose age has reached the limit, one in handler mode first, since its expiry is a double trap (R308). -/
def State.expired (s : State) (gk wave : Nat) : Option Frag :=
  let lim := s.hangLimit (gk / 16)
  if lim = 0 then none else 
    let old := (s.wave (wkOf gk wave)).frags.filter (fun f => f.retired + lim ≤ s.stamp gk wave)
    match old.find? (fun f => f.mode = .handler) with | some f => some f | none => old.head?

/-- A trap that R296 takes before a hang-watchdog trap is due in the wave. -/
def Wave.dueFirst (w : Wave) : Bool := w.frags.any (fun f => f.after.isSome || f.nev ≠ 0 || f.wait = .agg)

/-- Take the pending hang-watchdog trap of a wave (R309). tr.pc and tr.word are the expired fragment's; R299 defines them for the precise and after
classes only (DESIGN CHOICE, log 91). -/
def State.takeHang (s : State) (gk wave : Nat) (g : Group) (lanes : Mask) : State :=
  let w := s.wave (wkOf gk wave)
  match w.frags.find? (fun f => f.lanes &&& lanes ≠ 0) with
  | none => s.modWave (wkOf gk wave) (fun w => { w with hang := none })
  | some f =>
    let s1 := s.modWave (wkOf gk wave) (fun w => { w with hang := none })
    let h := { s1.hereAt gk wave g with frag := f }
    let all := w.frags.foldl (fun m f => m ||| f.lanes) 0
    let c := { h.cause kHang 0 with fault := f.lanes }
    if h.l.firmware then s1.firmwareTrap h c all f.pc else s1.takeTrapOf h c all f.pc 0

/-- HANG_WATCHDOG_EXPIRY (R308, R309): an age reaches the limit, or a pending trap may be taken. -/
def execHangWatchdogExpiry (core slot wave : Nat) (s : State) : Out :=
  let gk := gkOf core slot
  match s.group gk with
  | none => .next s
  | some g =>
    let w := s.wave (wkOf gk wave)
    if g.frozen then .next s
    else
      let f := s.expired gk wave
      if f.any (fun f => f.mode = .handler) then .next (s.doubleTrap (s.hereAt gk wave g))
      else match w.hang, f with
      | some lanes, _ => .next (if w.away = 0 && !w.dueFirst then s.takeHang gk wave g lanes else s)
      | none, some f =>
          let s1 := s.modWave (wkOf gk wave) (fun w => { w with hang := some f.lanes })
          .next (if w.away = 0 && !w.dueFirst then s1.takeHang gk wave g f.lanes else s1)
      | none, none => .next s

/-- SCALL_AGGREGATION_EXPIRY (R304): the window has passed, or every fragment of the wave has joined. -/
def execScallAggregationExpiry (core slot wave : Nat) (s : State) : Out :=
  let gk := gkOf core slot
  match s.group gk with
  | none => .next s
  | some g =>
    let h := s.hereAt gk wave g
    match h.w.agg with
    | none => .next s
    | some x =>
      if !g.frozen && (x.opened + s.aggWindow core ≤ s.now h || h.w.allJoined) then .next (s.takeAgg h) else .next s

end Sys2Proof.Machine
end

