-- ==== Sys2Proof/Machine/Admit.lean ====
section
/-! DEFINITION. Placement, admission of groups, phase boundaries, readmission and `phasew` conditions (R17-R22, R32-R36, R41, R63, R133, R191,
R313-R316). -/

namespace Sys2Proof.Machine

/-! ## Placement (R18, R20, R232, R316) -/

/-- The place, in its kind of domain, that holds a core (R16, R158); a partition and its device are one place. -/
def domainOf (d core : Nat) : Nat :=
  match d with
  | 1 => core / 2
  | 2 => pairOf core
  | 3 => clusterOf core
  | 4 => dieOf core
  | 5 => core / 256
  | _ => 0

/-- Key of the unit of level `k` that holds group `g`. -/
def Launch.unitKey (l : Launch) (k g : Nat) : Nat := 2 ^ 32 * k + g / l.unitSize k
/-- Place of that unit, once it has one. -/
def Launch.home (l : Launch) (k g : Nat) : Option Nat := find l.place (l.unitKey k g)
/-- Group `g` stands on a core: each of its units keeps its place from now on (R18). -/
def Launch.settleAt (l : Launch) (g core : Nat) : Launch :=
  l.deepLevels.foldl (fun m k => if (m.home k g).isSome then m else { m with place := insert m.place (m.unitKey k g) (domainOf (m.domain k) core) }) l

/-- The outermost gang-admitted level (R20); 1 if there is none. -/
def Launch.gangLevel (l : Launch) : Nat := ((l.deepLevels.filter (fun k => gangDomain (l.domain k))).getLast?).getD 1
/-- Groups of the unit that is admitted in one step with group `g`. -/
def Launch.gangOf (l : Launch) (g : Nat) : List Nat :=
  let n := l.unitSize l.gangLevel
  (List.range n).map (g / n * n + ·)
/-- A group on its way to a slot: group, core, slot. -/
structure Seat where
  gid : Nat
  core : Nat
  slot : Nat
  deriving DecidableEq, Repr

/-- An entry whose groups free slots take: those of a chained launch take the slots of its predecessor's (R35, R313). -/
def Launch.waitsInQueue (l : Launch) : Bool := l.queued && !l.chained

/-- Groups that a core may still take, when `taken` go to their slots (R330). -/
def State.roomOn (s : State) (taken : List Seat) (core : Nat) : Nat :=
  (if s.fixedPart (s.owner core) then 8 else 16) - (s.occupied core).length - (taken.filter (fun t => t.core = core)).length
/-- A slot is open beside the slots of `taken`. -/
def State.spotOpen (s : State) (taken : List Seat) (core slot : Nat) : Bool :=
  s.slotFree core slot && !taken.any (fun t => t.core = core && t.slot = slot) && s.roomOn taken core ≠ 0
/-- Free slots of the place of a domain that holds a core. -/
def State.roomAt (s : State) (part d core : Nat) (taken : List Seat) : Nat :=
  ((s.coresOf part).filter (fun c => domainOf d c = domainOf d core)).foldl (fun n c => n + s.roomOn taken c) 0

/-- A core lies in the place of each unit of a group, and a gang-admitted unit without a place finds room for all its groups (R18, R316). -/
def State.suits (s : State) (l : Launch) (taken : List Seat) (g core : Nat) : Bool :=
  l.deepLevels.all (fun k => match l.home k g with
    | some i => domainOf (l.domain k) core = i
    | none => !gangDomain (l.domain k) || l.unitSize k ≤ s.roomAt l.part (l.domain k) core taken)

/-- A slot keeps a twin-level pair in twin slots (log 17). -/
def State.twinFits (s : State) (n : Nat) (l : Launch) (taken : List Seat) (g core slot : Nat) : Bool :=
  match l.twinGid g with
  | none => true
  | some t =>
    if l.ended.contains t || l.dead.contains t then true
    else match taken.find? (fun x => x.gid = t) with
      | some x => x.core = twinOf core && x.slot = slot
      | none => match s.groups.find? (fun p => p.2.launch = n && p.2.gid = t) with
        | some p => p.1 = gkOf (twinOf core) slot
        | none => s.spotOpen taken (twinOf core) slot

/-- A core takes a group of a launch at a slot. -/
def State.takes (s : State) (n : Nat) (l : Launch) (taken : List Seat) (g : Nat) (p : Nat × Nat) : Bool :=
  s.spotOpen taken p.1 p.2 && s.suits l taken g p.1 && s.twinFits n l taken g p.1 p.2

/-- Slots of a partition, cores and slots ascending. -/
def State.slotsOf (s : State) (part : Nat) : List (Nat × Nat) := (s.coresOf part).flatMap (fun c => (List.range 16).map (fun k => (c, k)))

/-- Slots for a list of groups, all or none, on cores that `ok` allows: the first at `first`, each further one at the first slot that takes
it. -/
def State.spotsFor (s : State) (ok : Nat → Bool) (n : Nat) (first : Option (Nat × Nat)) : List Nat → Launch → List Seat → Option (List Seat)
  | [], _, acc => some acc
  | g :: r, l, acc =>
    let choices := match first with | some p => [p] | none => s.slotsOf l.part
    match choices.find? (fun p => ok p.1 && s.takes n l acc g p) with
    | none => none
    | some p => s.spotsFor ok n none r (l.settleAt g p.1) (acc ++ [{ gid := g, core := p.1, slot := p.2 }])

/-- Logical slots of a logical core that hold a group or keep their place for a saved one (R41, R328). -/
def State.usedLslots (s : State) (n lc : Nat) : List Nat :=
  (s.groups.filter (fun p => p.2.launch = n && p.2.lcore = lc)).map (fun p => p.2.lslot)
    ++ (s.phased.filter (fun p => p.launch = n && p.lcore = lc && p.state = 2)).map (·.lslot)

/-- Under det = 1 the lowest free logical slot of a logical core (R41). -/
def State.freeLslot (s : State) (n lc : Nat) : Option Nat :=
  let used := s.usedLslots n lc
  (List.range 16).find? (fun k => !used.contains k)

/-- A logical core stands between two rounds on a core (R41, R42). -/
def State.betweenRounds (s : State) (n lc core : Nat) : Bool :=
  match s.lcore (1024 * n + lc) with
  | some c => c.phys = core && c.turn = 0 && c.vacate = []
  | none => false

/-! ## A group at its start (R22, R63) -/

/-- Shape slots at admission: `s0` describes the argument block (R22). -/
def Launch.startShape (l : Launch) : SMap Word :=
  let a := l.field 384 64
  let n := l.field 448 32
  if n = 0 then [] else chunk 0 [wd a, wd (a / 2 ^ 32), wd n, 0x11000001, 0, 4]

/-- Default event controls of a partition (R104, R342). -/
def State.startNev (s : State) (part : Nat) : SMap Word := chunk 0 ((List.range 8).map (fun j => nevWrite 0 (wd (s.part part (768 + 32 * j) 32))))

/-- The group state of R22 and R63. -/
def State.newGroup (s : State) (n : Nat) (l : Launch) (g core lcore lslot : Nat) : Group :=
  let key := fun b => wd (l.field b 32)
  { Group.blank n g lcore lslot s.ptp with
    gkeyl := key 768, gkeyh := key 800, dkeyl := key 832, dkeyh := key 864
    shape := l.startShape, twin := l.twinGid g, nev := s.startNev l.part, active := s.activeOf core < 8 }

/-- Entry point of a launch. -/
def Launch.entry (l : Launch) : CodeAddr := { seg := BitVec.ofNat 8 (l.field 16 8), off := BitVec.ofNat 10 (l.field 0 10) }

/-- A logical core's slot map takes a group in (R326). -/
def State.mapSlot (s : State) (n lc lslot core slot : Nat) : State :=
  if (s.launch n).det then
    { s with lcores := s.lcores.map (fun (p : Nat × LCore) => if p.1 = 1024 * n + lc then (p.1, { p.2 with phys := core, slots := insert p.2.slots lslot slot }) else p) }
  else s

/-- Clear a slot and start a group in it with the given waves and threads (R22, R63). No time of a group that starts pending counts for R26. -/
def State.seat (s : State) (core slot : Nat) (g : Group) (ws : SMap Wave) (ts : SMap Thread) : State :=
  let gk := gkOf core slot
  let s1 := ((s.flushCore core).wipeSlot core slot).restartRing gk
  let late := !g.active && !(s.launch g.launch).det
  let ws := if late then ws.map (fun p => (p.1, { p.2 with frags := p.2.frags.map (fun f => { f with since := 0 }) })) else ws
  let s2 := { s1 with waves := putAll Wave.init s1.waves (4 * gk) ws, threads := putAll Thread.init s1.threads (128 * gk) ts }
  ((s2.setGroup gk g).mapSlot g.launch g.lcore g.lslot core slot).retarget (clusterOf core)

/-- The first admission of a launch (R21, R35): stamp.launch is written, and a chained launch's own successor is read. -/
def State.firstAdmission (s : State) (n : Nat) : State :=
  let l := s.launch n
  if l.admitted then s
  else
    let s1 := s.modLaunch n (fun l => { l with admitted := true })
    let s2 := if l.field 176 1 = 1 then (s1.writeRecord l 144 0 (stampBytes s.ptp)).1 else s1
    if l.chained then s2.acceptSuccessor n else s2

/-- Waves of a group at its start. -/
def Launch.startWaves (l : Launch) (now : Nat) : SMap Wave :=
  (List.range l.waves).map (fun w => (w, { Wave.init with frags := [startFrag now l.entry 0xFFFFFFFF], issued := now }))

/-- Admit group `g` of launch `n` into an open slot (R21, R22, R63, R133). -/
def State.admitAt (s : State) (n g core slot lslot : Nat) : State :=
  let l := s.launch n
  let lc := if l.det then g % l.field 640 11 else 0
  let now := if l.det then 0 else s.clockAt core
  let s1 := s.seat core slot (s.newGroup n l g core lc lslot) (l.startWaves now) []
  let s2 := (s1.modLaunch n (fun l => l.settleAt g core)).firstAdmission n
  s2.bringSegment core slot l.entry.seg.toNat

/-! ## What a free slot takes (R315, R316) -/

/-- Items in order of falling priority, kept in their order within one. -/
def byPrio {α : Type} (prio : α → Nat) (xs : List α) : List α := (List.range 8).flatMap (fun j => xs.filter (fun x => prio x = 7 - j))

/-- Sort by a number, equal ones as they stand. -/
def insBy {α : Type} (key : α → Nat) (x : α) : List α → List α
  | [] => [x]
  | y :: r => if key x ≤ key y then x :: y :: r else y :: insBy key x r
def sortBy {α : Type} (key : α → Nat) : List α → List α
  | [] => []
  | x :: r => insBy key x (sortBy key r)

/-- The phase queue of a partition in the order of R315: ready groups and saved ones. -/
def State.readyQueue (s : State) (part : Nat) : List Phased :=
  byPrio (fun p => (s.launch p.launch).prio) (sortBy (·.order) (s.phased.filter (fun p => (s.launch p.launch).part = part && p.state ≠ 1)))

/-- Groups that go back with a queued one: the saved members of its gang-admitted unit (R320). -/
def State.comrades (s : State) (p : Phased) : List Phased :=
  if p.state = 2 then
    let l := s.launch p.launch
    let gang := l.gangOf p.gid
    p :: s.phased.filter (fun q => q.launch = p.launch && q.state = 2 && q.gid ≠ p.gid && gang.contains q.gid)
  else [p]

/-- Under det = 1, a queued group that goes before another one of its logical core (R41). -/
def Phased.before (q p : Phased) : Bool :=
  q.launch = p.launch && q.lcore = p.lcore && (q.state = 2 && p.state ≠ 2 || (q.state = p.state && (q.round < p.round || (q.round = p.round && q.lslot < p.lslot))))

/-- Slots that a queued group and its comrades take, the group itself at the given slot; none if it cannot use the slot (R315, R41, R328). -/
def State.seats (s : State) (p : Phased) (core slot : Nat) : Option (List Seat) :=
  let l := s.launch p.launch
  if l.det && !(s.betweenRounds p.launch p.lcore core && !s.phased.any (fun q => q.before p) && (p.state = 2 || (s.freeLslot p.launch p.lcore).isSome)) then none
  else s.spotsFor (fun _ => true) p.launch (some (core, slot)) ((s.comrades p).map (·.gid)) l []

/-- A saved group's area holds its group (R325). -/
def State.areaGood (s : State) (p : Phased) : Bool :=
  let l := s.launch p.launch
  (s.areaBad p.area).isNone && s.areaWord p.area 0 = p.gen && s.areaWord p.area sealWord = p.gen && !s.badArea p.area l.part && (s.savedAs p.area l.part).isSome

/-- The first queued group that can use a slot, with its slots. -/
def State.nextQueued (s : State) (core slot : Nat) : Option (Phased × List Seat) :=
  (s.readyQueue (s.owner core)).findSome? (fun p =>
    if p.state = 2 && !(s.comrades p).all (fun q => s.areaGood q) then none else (s.seats p core slot).map (fun x => (p, x)))

/-- An entry reserves instances that could hold its unit, and a core lies in one of them (R316). -/
def State.reserved (s : State) (n core : Nat) : Bool :=
  s.launches.any (fun p => p.1 ≠ n && p.2.part = s.owner core && p.2.waitsInQueue && p.2.gang && (s.launch n).prio ≤ p.2.prio
    && p.2.deepLevels.all (fun k => match p.2.home k p.2.next with | some i => domainOf (p.2.domain k) core = i | none => true))

/-- Slots that the head of a launch-queue entry takes, its first group at the given slot. -/
def State.headSpots (s : State) (n core slot : Nat) : Option (List Seat) :=
  let l := s.launch n
  let g := l.next
  if l.det then
    let lc := g % l.field 640 11
    if s.betweenRounds n lc core && (s.freeLslot n lc).isSome && !s.phased.any (fun (q : Phased) => q.launch = n && q.lcore = lc && q.state ≠ 1) then
      s.spotsFor (fun c => !s.reserved n c) n (some (core, slot)) [g] l []
    else none
  else s.spotsFor (fun c => !s.reserved n c) n (some (core, slot)) (l.gangOf g) l []

/-- The first launch-queue entry of a core's partition that can use a slot. -/
def State.nextEntry (s : State) (core slot : Nat) : Option (Nat × List Seat) :=
  (byPrio (fun (p : Nat × Launch) => p.2.prio) (s.launches.filter (fun p => p.2.part = s.owner core && p.2.waitsInQueue))).findSome?
    (fun p => (s.headSpots p.1 core slot).map (fun x => (p.1, x)))

/-- A slot is offered to the waiting work of its partition (R315, R342). -/
def State.offered (s : State) (core slot : Nat) : Bool := s.owner core ≤ 62 && s.slotOpen core slot && s.partOk (s.owner core)

/-- Admit the head unit of a launch-queue entry (R21, R313). -/
def State.admitEntry (s : State) (n : Nat) (spots : List Seat) : State :=
  let s1 := spots.foldl (fun s x => s.admitAt n x.gid x.core x.slot
    (if (s.launch n).det then (s.freeLslot n (x.gid % (s.launch n).field 640 11)).getD 0 else x.slot)) s
  s1.modLaunch n (fun l =>
    let next := l.next + spots.length
    { l with next := next, queued := decide (next < l.groups), waits := s.ptp, gang := false })

/-- The smallest timeslice among a partition's cores, in PTP units (R294). -/
def State.smallSlice (s : State) (part : Nat) : Nat :=
  65536000 * ((s.coresOf part).foldl (fun m c => Nat.min m (s.core c).tslice.toNat) 65535)

/-- A gang unit waits at the head of an entry. -/
def Launch.gangWaits (l : Launch) : Bool := l.waitsInQueue && l.gangLevel ≠ 1 && (l.home l.gangLevel l.next).isNone

/-- GANG_WAIT_TIMESLICE (R316). -/
def execGangWaitTimeslice (part launch : Nat) (s : State) : Out :=
  match find s.launches launch with
  | none => .next s
  | some l =>
    if l.part = part && l.gangWaits && !l.gang && l.waits + s.smallSlice part ≤ s.ptp then .next (s.modLaunch launch (fun l => { l with gang := true }))
    else .next s

/-! ## The end of a group (R33, R35, R248, R305, R329) -/

/-- The words of a slot's registers that pass to a successor, by register-file key within the slot (R35). -/
def State.heirloom (s : State) (l : Launch) (core slot : Nat) : SMap Word :=
  (takeRange s.rf (65536 * core + 4096 * slot) (65536 * core + 4096 * slot + 4096)).filter (fun p =>
    let x := p.1 / 32 % l.regs
    l.field 256 7 ≤ x && x < l.field 256 7 + l.field 264 6)

/-- The words of shape slots that a mask names. -/
def slotWords (shape : SMap Word) (mask : Nat) : SMap Word := shape.filter (fun p => mask.testBit (p.1 / 8))
/-- A shape with the slots of a mask replaced. -/
def mergeSlots (shape : SMap Word) (mask : Nat) (ws : SMap Word) : SMap Word :=
  putAll 0 (shape.filter (fun p => !mask.testBit (p.1 / 8))) 0 ws

/-- Every group of a logical core has ended. -/
def Launch.lcoreEnded (l : Launch) (lc : Nat) : Bool := (List.range l.groups).all (fun g => g % l.field 640 11 ≠ lc || l.ended.contains g)

/-- The successor's group takes the slot of the group that ended (R35), in the same logical slot where that is free, else in the lowest free one
(R41). The slot of the predecessor is what it takes, also where the successor's own unit asks for one place or for admission in one step (R18,
R20): the model's choice (log 73). -/
def State.succeed (s : State) (x : Heir) : State :=
  let l := s.launch x.pred
  let lc := x.gid % Nat.max 1 ((s.launch x.launch).field 640 11)
  let used := s.usedLslots x.launch lc
  let lslot := if (s.launch x.launch).det && used.contains x.lslot then (s.freeLslot x.launch lc).getD 0 else x.lslot
  let regs := s.heirloom l x.core x.slot
  let s0 : State := { s with heirs := s.heirs.erase x }
  let s1 := (s0.admitAt x.launch x.gid x.core x.slot lslot).noteChained x.launch
  let s2 := s1.modGroup (gkOf x.core x.slot) (fun g => { g with shape := mergeSlots g.shape (l.field 288 32) x.shape })
  { s2 with rf := putAll 0 s2.rf (65536 * x.core + 4096 * x.slot) regs }

/-- A successor's group can take its slot now: its partition admits groups, the launch queue has room for the next link, and under det = 1 its logical core stands between two rounds with a
logical slot free and no group ready to go back (R41, R342). -/
def State.heirGoes (s : State) (x : Heir) : Bool :=
  let l := s.launch x.launch
  let lc := x.gid % l.field 640 11
  s.partOk l.part && s.linkRoom x.launch && (!l.det || ((s.lcore (1024 * x.launch + lc)).any (fun (c : LCore) => c.turn = 0) && (s.freeLslot x.launch lc).isSome
    && !s.phased.any (fun (q : Phased) => q.launch = x.launch && q.lcore = lc && q.state ≠ 1)))

/-- A group has ended: it leaves its slot, its launches go on without it, and its chain goes on in the slot, at once or when the successor's
group can take it (R33, R35, R41, R248, R342). -/
def State.endGroup (s : State) (core slot : Nat) (g : Group) (killed : Bool) : State :=
  let l := s.launch g.launch
  let s1 := s.freeSlot core slot
  let s2 := s1.modLaunch g.launch (fun l => { l with ended := if l.ended.contains g.gid then l.ended else g.gid :: l.ended })
  let s3 := { s2 with
    orphans := s2.orphans ++ (g.pend.filter (fun (p : Pend) => p.launch.isNone && p.beat.isNone)).map (fun (p : Pend) => (g.launch, p.addr))
    lcores := s2.lcores.map (fun (p : Nat × LCore) => if l.det && p.1 = 1024 * g.launch + g.lcore then (p.1, { p.2 with slots := erase p.2.slots g.lslot, rot := erase p.2.rot g.lslot }) else p) }
  let s4 := if l.det && (s3.launch g.launch).lcoreEnded g.lcore then s3.sealCheck (1024 * g.launch + g.lcore) else s3
  let s5 := match l.succ with
    | none => s4
    | some m =>
      if killed then s4.skipGroup g.gid s4.launches.length (some m)
      else
        let x : Heir := { launch := m, gid := g.gid, core := core, slot := slot, pred := g.launch, lslot := if l.det then g.lslot else slot, shape := slotWords g.shape (l.field 288 32) }
        let s5 : State := { s4 with heirs := s4.heirs ++ [x] }
        if !(s.launch m).det && s5.heirGoes x then s5.succeed x else s5
  s5.settle (twinGk (gkOf core slot))

/-- GROUP_ADMISSION (R21, R22, R35, R315, R316): a successor's group takes its predecessor's slot, or a slot that no queued group can use takes the next launch-queue entry's group, with its whole
gang-admitted unit. -/
def execGroupAdmission (core slot : Nat) (s : State) : Out :=
  match s.heirs.find? (fun x => x.core = core && x.slot = slot) with
  | some x => .next (if s.heirGoes x then s.succeed x else s)
  | none =>
    if !s.offered core slot || (s.nextQueued core slot).isSome then .next s
    else match s.nextEntry core slot with
      | none => .next s
      | some (n, spots) => .next (s.admitEntry n spots)

/-! ## The phase boundary (R32, R190, R191, R305) -/

/-- The front operation of a core's array can end by itself: a drain, a zeroing, or an `mma` whose beats are there (R305). -/
def State.opEnds (s : State) (core : Nat) (o : MatOp) : Bool :=
  o.kind ≠ .mma || o.k ≤ 16 * o.g || (s.licensed (gkOf core o.slot) && (let p := s.feed core o; p.2.fed (p.1.workOf core p.2)))

/-- The array of a core still works for the group of a slot. -/
def State.arrayBusy (s : State) (core slot : Nat) : Bool :=
  match (s.core core).ops with
  | o :: _ => o.slot = slot && s.arrayRuns core slot && s.opEnds core o
      && (match o.peer with
        | none => true
        | some p => match (s.core p).ops with | m :: _ => m.peer = some core && s.opEnds p m | [] => false)
  | [] => false

/-- A copy that cannot go on by itself: it pushes into an operand FIFO which nothing empties, or its beat has no room. -/
def State.copyStuck (s : State) (core slot : Nat) (g : Group) (o : CopyOp) : Bool :=
  let ended := o.fin.isSome || o.jobs.length ≤ o.job
  let fifo := if o.b = 32 then (s.core core).q0 else (s.core core).q1
  (o.toFifo && 64 ≤ fifo.length && !s.arrayBusy core slot && (128 ≤ o.stream.length || (ended && o.stream ≠ [])))
    || (ended && o.stream = [] && !g.hasRoom 2)

/-- A terminated group still waits for operations that can end by themselves (R305). -/
def State.deadBusy (s : State) (core slot : Nat) (g : Group) : Bool :=
  (s.core core).loadsOf slot ≠ [] || s.arrayBusy core slot
    || (match g.copies with | o :: _ => o.started && o.susp.isNone && !s.copyStuck core slot g o | [] => false)

/-- The arrived threads trap for a reason of `Frag.phw`, and no boundary occurs (R32, R191, R199, R210). -/
def State.refuseBoundary (s : State) (gk n why : Nat) : State :=
  let s1 := (s.modThreads gk n (fun t => { t with atPhase := false })).modGroup gk (fun g => { g with phasew := [] })
  (List.range n).foldl (fun s w => s.modWave (wkOf gk w) (fun v =>
    { v with frags := v.frags.map (fun f => if f.wait = .phase then { f with wait := .none, phw := why, since := s.sinceIn gk w } else f) })) s1

/-- A check of R32 or R191 fails. -/
def State.boundaryFails (s : State) (gk n : Nat) (g : Group) : Bool :=
  let c := s.core (gk / 16)
  (g.cfg.isSome && (c.q0 ≠ [] || c.q1 ≠ [])) || [8, 9, 10, 11].any (fun q => g.queue q ≠ [])
    || (List.range (32 * n)).any (fun t => (s.thread (128 * gk + t)).isOpen) || (List.range n).any (fun w => (s.wave (wkOf gk w)).rfOpen)
    || (match g.phasew with | [] => false | p :: r => r.any (fun q => q.2 ≠ p.2))

/-- Carry-set registers of a thread (R32). -/
def State.carried (s : State) (l : Launch) (core slot w lane : Nat) : List Word :=
  (List.range (l.field 200 6)).map (fun k => getD 0 s.rf (rfKey core slot l.regs w (l.field 192 7 + k) lane))

/-- What a thread leaves in the phase record: it goes on after its `phase` (R32). -/
def State.phaseThread (s : State) (l : Launch) (gk t : Nat) : PThread :=
  let th := s.thread (128 * gk + t)
  let dest := match (s.wave (wkOf gk (t / 32))).fragOf (t % 32) with
    | some f => (advance f.pc th.loops .seq).2
    | none => ({ seg := 0, off := 0 }, false)
  { pc := dest.1, past := dest.2, wbase := th.wbase, carry := s.carried l (gk / 16) (gk % 16) (t / 32) (t % 32), fences := th.fences, reads := th.reads }

/-- A number for a phase record: the lowest that no group of the phase queue has. -/
def State.recordNum (s : State) : Nat := lowestAbsent (s.phased.map (·.num))

/-- The next place in the order of readiness (R315). -/
def State.nextOrder (s : State) : Nat := (s.phased.foldl (fun m p => Nat.max m p.order) 0) + 1

/-- The phase record of a group at a boundary (R32, R314). -/
def State.phaseRecord (s : State) (l : Launch) (gk : Nat) (g : Group) : Phased :=
  let n := l.waves
  let stays := (s.liveIds gk n).filter (fun t => !(s.thread (128 * gk + t)).endFlag)
  let goes := fun w => maskWhere (~~~(0#32)) (fun k => !stays.contains (32 * w + k))
  let cond := g.phasew.head?.map (·.2)
  { launch := g.launch, gid := g.gid, lcore := g.lcore, lslot := g.lslot, state := if cond.isSome then 1 else 0, fault := 0
    threads := stays.map (fun t => (t, s.phaseThread l gk t))
    ended := (List.range n).map (fun w => (w, goes w))
    waves := (List.range n).map (fun w => (w, (s.wave (wkOf gk w)).fair, (s.wave (wkOf gk w)).progress))
    slots := slotWords g.shape (l.field 224 32), pend := g.pend, lseq := g.lseq
    wrec := (cond.map (·.1)).getD 0, target := (cond.map (·.2)).getD 0, order := s.nextOrder
    round := if l.det then ((s.lcoreOf g).map (·.round)).getD 0 else 0, area := 0, gen := 0, num := s.recordNum }

/-- The group leaves its slot at a boundary: it ends, or it enters the phase queue (R32, R33). -/
def State.leavePhase (s : State) (core slot : Nat) (g : Group) (l : Launch) : State :=
  let gk := gkOf core slot
  let p := s.phaseRecord l gk g
  if p.threads = [] then s.endGroup core slot g false
  else
    let s1 := s.freeSlot core slot
    ({ s1 with
      phased := s1.phased ++ [p]
      lcores := s1.lcores.map (fun (q : Nat × LCore) => if l.det && q.1 = 1024 * g.launch + g.lcore then (q.1, { q.2 with slots := erase q.2.slots g.lslot, rot := erase q.2.rot g.lslot }) else q) }).settle (twinGk gk)

/-- Operations of a group that a boundary waits for (R32, R321). -/
def State.boundaryWaits (s : State) (core slot : Nat) (g : Group) : Bool :=
  g.copies ≠ [] || (s.core core).opsOf slot ≠ [] || g.calls ≠ [] || (s.core core).loadsOf slot ≠ [] || g.held3 ≠ [] || g.held6 ≠ []
    || g.wantCfg.isSome || g.wantLic

/-- PHASE_BOUNDARY (R32, R33, R191, R199, R210, R305). The arrival that R199 speaks of is that of the last live thread of the group (DEDUCED,
log 85). -/
def execPhaseBoundary (core slot : Nat) (s : State) : Out :=
  let gk := gkOf core slot
  match s.group gk with
  | none => .next s
  | some g =>
    let l := s.launch g.launch
    let n := l.waves
    if l.dead.contains g.gid then .next (if s.deadBusy core slot g then s else s.endGroup core slot g true)
    else if g.frozen || !s.allIn gk n (·.atPhase) then .next s
    else if g.copies.any (fun o => !o.started) then .next (s.refuseBoundary gk n 3)
    else match g.suspCopy, g.suspCall with
      | some (_, x), _ =>
        if x.told.isNone then .next ((s.modGroup gk (fun g => g.setSuspCopy (some { x with told := some (0, 0) }))).refuseBoundary gk n 4)
        else .next (s.modGroup gk (fun g => g.setSuspCopy none))
      | none, some (c, x) =>
        if x.told.isNone then .next ((s.modGroup gk (fun g => g.setSuspCall c (some { x with told := some (0, 0) }))).refuseBoundary gk n 5)
        else .next (s.modGroup gk (fun g => g.setSuspCall c none))
      | none, none =>
        if s.boundaryWaits core slot g then .next s
        else if s.boundaryFails gk n g then .next (s.refuseBoundary gk n 3)
        else .next (s.leavePhase core slot g l)

/-! ## Readmission (R34, R133) -/

/-- Threads of a readmitted group. -/
def Phased.startThreads (p : Phased) (n : Nat) : SMap Thread :=
  (List.range (32 * n)).map (fun t => (t, match find p.threads t with
    | some x => { Thread.init with wbase := x.wbase, fences := x.fences, reads := x.reads }
    | none => { Thread.init with ended := true }))

/-- Waves of a readmitted group: one fragment for each distinct recorded program counter. -/
def Phased.startWaves (p : Phased) (n now : Nat) : SMap Wave :=
  (List.range n).map (fun w =>
    let v := getD (256, true) p.waves w
    let base := { startFrag now { seg := 0, off := 0 } 0 with phw := p.fault }
    let lanes := (List.range 32).filter (fun k => (find p.threads (32 * w + k)).isSome)
    (w, { Wave.init with
      frags := splitLanes base (fun k => match find p.threads (32 * w + k) with | some x => (x.pc, x.past) | none => ({ seg := 0, off := 0 }, false)) lanes []
      fair := v.1, progress := v.2, issued := now }))

/-- Registers that a readmitted group brings. -/
def Phased.startRegs (p : Phased) (l : Launch) : SMap Word :=
  p.threads.flatMap (fun q => ((List.range q.2.carry.length).zip q.2.carry).map (fun x =>
    (rfKey 0 0 l.regs (q.1 / 32) (l.field 192 7 + x.1) (q.1 % 32), x.2)))

/-- Readmit a queued group into an open slot (R34). -/
def State.readmit (s : State) (p : Phased) (core slot : Nat) : State :=
  let l := s.launch p.launch
  let gk := gkOf core slot
  let now := if l.det then 0 else s.clockAt core
  let lslot := if l.det then (s.freeLslot p.launch p.lcore).getD 0 else slot
  let g0 := s.newGroup p.launch l p.gid core p.lcore lslot
  let g := Group.flush { g0 with shape := mergeSlots g0.shape (l.field 224 32) p.slots, pend := p.pend, lseq := p.lseq }
  let s0 : State := { s with phased := s.phased.erase p }
  let s1 := s0.seat core slot g (p.startWaves l.waves now) (p.startThreads l.waves)
  let s2 := { s1 with rf := putAll 0 s1.rf (65536 * core + 4096 * slot) (p.startRegs l) }
  let s3 := s2.bringAll core slot (p.threads.map (fun q => q.2.pc))
  s3.settle gk

/-- GROUP_READMISSION (R34, R315): the first queued group that can use the slot is one that left at a phase boundary. -/
def execGroupReadmission (core slot : Nat) (s : State) : Out :=
  if !s.offered core slot then .next s
  else match s.nextQueued core slot with
    | some (p, _) => .next (if p.state = 2 then s else s.readmit p core slot)
    | none => .next s

/-! ## phasew (R191) -/

/-- What an evaluation of a `phasew` condition finds: the word, or the detail of the phase-wait fault. -/
def State.condWord (s : State) (part : Nat) (r : Rec) : Except Nat Word :=
  match s.locate (device part) r 0 .read with
  | .error _ => .error 1
  | .ok none => .ok 0
  | .ok (some ls) => if ls.any (s.unreadable (device part)) then .error 2 else .ok (wd (s.readNat (device part) ls))

/-- What the evaluation leaves behind: the walk, a request, and the notice of an uncorrectable error, which no fragment awaits (R312, R340). -/
def State.noteCond (s : State) (part : Nat) (r : Rec) : State :=
  match s.unitVas (device part) r 0 0 4 .read with
  | va :: _ => s.noteRead (device part) .read 1 va 4
  | [] => s

/-- The evaluation acquires at system scope from the releases that it reads; the threads that it lets go are before nothing that races (R191,
R265, log 86). -/
def State.condAcquire (s : State) (part : Nat) (r : Rec) : State :=
  match s.locate (device part) r 0 .read with
  | .ok (some ls) =>
    let ids := (s.races.filter (fun e => ls.contains e.loc)).reverse
    let ts := (ls.filterMap (fun l => (ids.find? (fun e => e.loc = l)).bind (fun e => find s.writes e.id))).flatMap (·.rel)
    s.settled (ofSyncs (ts.filter (fun t => t.scope = .sys && t.part = part)))
  | _ => s

/-- PHASEW_EVALUATION (R191). -/
def execPhasewEvaluation (launch group : Nat) (s : State) : Out :=
  match s.phased.find? (fun p => p.launch = launch && p.gid = group && p.state = 1) with
  | none => .next s
  | some p =>
    let ready := fun (s : State) (fault : Nat) => { s with phased := s.phased.map (fun (q : Phased) => if q = p then { p with state := 0, fault := fault, order := s.nextOrder } else q) }
    let t := (s.noteCond (s.launch launch).part p.wrec).condAcquire (s.launch launch).part p.wrec
    match s.condWord (s.launch launch).part p.wrec with
    | .error e => .next (ready t e)
    | .ok w => .next (if (w - p.target).toNat < 2 ^ 31 then ready t 0 else t)

end Sys2Proof.Machine
end

