-- ==== Sys2Proof/Machine/Crypto.lean ====
section
/-! DEFINITION. The algorithms that the spec names by their standards: SHA-256 (FIPS 180-4; R345-R347), AES-256-GCM (FIPS 197, SP 800-38D; R366),
the verification of SLH-DSA-SHA2-128s (FIPS 205; R345) and the CRC-32 of IEEE 802.3 (R375). Bytes stand in the order of the standards
(log 11). -/

namespace Sys2Proof.Machine

/-! ## Bytes -/

/-- A number of bytes, most significant first. -/
def bigNat (bs : List Byte) : Nat := bs.foldl (fun n b => 256 * n + b.toNat) 0
/-- The last `n` bytes of a number, most significant first. -/
def bigBytes (v n : Nat) : List Byte := (List.range n).map (fun k => BitVec.ofNat 8 (v / 256 ^ (n - 1 - k)))
/-- Bytes combined by exclusive or. -/
def xorBytes (a b : List Byte) : List Byte := (a.zip b).map (fun p => p.1 ^^^ p.2)
/-- Bytes in pieces of `n`, at most `k` of them. -/
def pieces (n : Nat) : Nat → List Byte → List (List Byte)
  | 0, _ => []
  | k + 1, bs => if bs = [] then [] else bs.take n :: pieces n k (bs.drop n)
/-- `n` zero bytes. -/
def zeroBytes (n : Nat) : List Byte := List.replicate n 0

/-! ## SHA-256 (FIPS 180-4) -/

/-- The greatest number whose `k`th power is at most `n`, among those that add to `x` some of the `b` low bits. -/
def rootFrom (k n : Nat) : Nat → Nat → Nat
  | 0, x => x
  | b + 1, x => rootFrom k n b (if (x + 2 ^ b) ^ k ≤ n then x + 2 ^ b else x)

/-- The first 64 primes. -/
def shaPrimes : List Nat := (List.range 312).filter (fun n => 2 ≤ n && (List.range 18).all (fun d => d < 2 || n ≤ d || n % d ≠ 0))

/-- The first 32 bits of the fraction of the `k`th root of each number of a list (FIPS 180-4, 4.2.2 and 5.3.3). -/
def rootWords (k : Nat) (ps : List Nat) : List Word := ps.map (fun p => BitVec.ofNat 32 (rootFrom k (p * 2 ^ (32 * k)) 38 0))

/-- The round constants, from the cube roots of the first 64 primes. -/
def shaK : List Word := rootWords 3 shaPrimes

/-- The initial hash value, from the square roots of the first eight primes. -/
def shaInit : List Word := rootWords 2 (shaPrimes.take 8)

/-- Three rotations, or two and a shift, of a word. -/
def shaMix (a b c : Nat) (shift : Bool) (x : Word) : Word := x.rotateRight a ^^^ x.rotateRight b ^^^ (if shift then x >>> c else x.rotateRight c)

/-- The message schedule from its last sixteen words on: `n` words more. -/
def shaExpand : Nat → List Word → List Word
  | 0, w => w
  | n + 1, w =>
    w.headD 0 :: shaExpand n (w.drop 1 ++ [shaMix 17 19 10 true (w.getD 14 0) + w.getD 9 0 + shaMix 7 18 3 true (w.getD 1 0) + w.headD 0])

/-- One round. -/
def shaRound (v : List Word) (kw : Word × Word) : List Word :=
  match v with
  | [a, b, c, d, e, f, g, h] =>
    let t1 := h + shaMix 6 11 25 false e + ((e &&& f) ^^^ (~~~e &&& g)) + kw.1 + kw.2
    let t2 := shaMix 2 13 22 false a + ((a &&& b) ^^^ (a &&& c) ^^^ (b &&& c))
    [t1 + t2, a, b, c, d + t1, e, f, g]
  | _ => v

/-- One block of 64 bytes. -/
def shaBlock (h : List Word) (bs : List Byte) : List Word :=
  let w := shaExpand 48 ((pieces 4 16 bs).map (fun p => BitVec.ofNat 32 (bigNat p)))
  (h.zip ((shaK.zip w).foldl shaRound h)).map (fun p => p.1 + p.2)

/-- A message with its padding. -/
def shaPad (m : List Byte) : List Byte := m ++ [0x80#8] ++ zeroBytes ((119 - m.length % 64) % 64) ++ bigBytes (8 * m.length) 8

/-- The digest, as its 32 bytes. -/
def shaBytes (m : List Byte) : List Byte :=
  let p := shaPad m
  (((pieces 64 (p.length / 64) p).foldl shaBlock shaInit).map (fun w => bigBytes w.toNat 4)).flatten

/-- The digest as a register of 256 bits holds it, its first byte lowest (R9). -/
def sha256 (m : List Byte) : BitVec 256 := BitVec.ofNat 256 (bigNat (shaBytes m).reverse)

/-! ## AES-256 (FIPS 197) -/

/-- Multiplication by x in GF(2^8). -/
def xtime (a : Byte) : Byte := (a <<< 1) ^^^ (if a.msb then 0x1B#8 else 0)
/-- Multiplication in GF(2^8), over the `n` low bits of the second factor. -/
def gmul (a : Byte) : Nat → Byte → Byte
  | 0, _ => 0
  | n + 1, b => (if b.getLsbD 0 then a else 0) ^^^ gmul (xtime a) n (b >>> 1)
/-- The inverse in GF(2^8), 0 for 0: the power 254. -/
def ginv (a : Byte) : Byte :=
  let sq := fun x => gmul x 8 x
  let a3 := gmul (sq a) 8 a
  let a15 := gmul (sq (sq a3)) 8 a3
  let a63 := gmul (sq (sq a15)) 8 a3
  sq (gmul (sq a63) 8 a)
/-- The S-box. -/
def sbox (a : Byte) : Byte :=
  let b := ginv a
  b ^^^ b.rotateLeft 1 ^^^ b.rotateLeft 2 ^^^ b.rotateLeft 3 ^^^ b.rotateLeft 4 ^^^ 0x63#8
/-- The S-box as a table. -/
def sboxTable : List Byte := (List.range 256).map (fun k => sbox (BitVec.ofNat 8 k))
def subByte (a : Byte) : Byte := sboxTable.getD a.toNat 0

/-- The next words of the key schedule: word `i` from the eight before it. -/
def aesExpand : Nat → Nat → List (List Byte) → List (List Byte)
  | 0, _, w => w
  | n + 1, i, w =>
    let t := w.getD 7 []
    let t1 := if i % 8 = 0 then xorBytes ((t.drop 1 ++ t.take 1).map subByte) [BitVec.ofNat 8 (2 ^ (i / 8 - 1)), 0, 0, 0]
      else if i % 8 = 4 then t.map subByte else t
    w.headD [] :: aesExpand n (i + 1) (w.drop 1 ++ [xorBytes (w.headD []) t1])

/-- The fifteen round keys of a key of 32 bytes. -/
def aesKeys (key : List Byte) : List (List Byte) := pieces 16 15 (aesExpand 52 8 (pieces 4 8 key)).flatten

/-- Row `r` of a state shifts by `r` columns. -/
def shiftRows (s : List Byte) : List Byte := (List.range 16).map (fun k => s.getD ((k + 4 * (k % 4)) % 16) 0)
/-- One column mixed. -/
def mixColumn (c : List Byte) : List Byte :=
  (List.range 4).map (fun k =>
    let x := fun j => c.getD ((k + j) % 4) 0
    xtime (x 0) ^^^ (xtime (x 1) ^^^ x 1) ^^^ x 2 ^^^ x 3)
/-- A round of the cipher; the last one does not mix columns. -/
def aesRound (last : Bool) (s rk : List Byte) : List Byte :=
  let t := shiftRows (s.map subByte)
  xorBytes (if last then t else ((pieces 4 4 t).map mixColumn).flatten) rk
/-- The cipher under round keys. -/
def aesBlock (ks : List (List Byte)) (b : List Byte) : List Byte :=
  aesRound true (((ks.drop 1).take 13).foldl (aesRound false) (xorBytes b (ks.headD []))) (ks.getD 14 [])

/-! ## GCM (SP 800-38D) -/

/-- The product of blocks: `n` bits of `x` remain, the first bit of a block being the highest of its number. -/
def gcmMul : Nat → BitVec 128 → BitVec 128 → BitVec 128
  | 0, _, _ => 0
  | n + 1, x, v => (if x.msb then v else 0) ^^^ gcmMul n (x <<< 1) ((v >>> 1) ^^^ (if v.getLsbD 0 then 0xE1#128 <<< 120 else 0))
/-- A block as a number. -/
def blockOf (bs : List Byte) : BitVec 128 := BitVec.ofNat 128 (bigNat (bs ++ zeroBytes (16 - bs.length)))
/-- The hash of blocks. -/
def ghash (h : BitVec 128) (bs : List (List Byte)) : BitVec 128 := bs.foldl (fun y b => gcmMul 128 (y ^^^ blockOf b) h) 0

/-- Counter mode from counter 2 on. -/
def gcmStream (ks : List (List Byte)) (nonce bs : List Byte) : List Byte :=
  let ps := pieces 16 (bs.length / 16 + 1) bs
  (((List.range ps.length).zip ps).map (fun p => xorBytes p.2 (aesBlock ks (nonce ++ bigBytes (p.1 + 2) 4)))).flatten

/-- The tag of a ciphertext and its additional data. -/
def gcmTag (ks : List (List Byte)) (nonce aad ct : List Byte) : List Byte :=
  let h := blockOf (aesBlock ks (zeroBytes 16))
  let cut := fun (bs : List Byte) => pieces 16 (bs.length / 16 + 1) bs
  let y := ghash h (cut aad ++ cut ct ++ [bigBytes (8 * aad.length) 8 ++ bigBytes (8 * ct.length) 8])
  xorBytes (bigBytes y.toNat 16) (aesBlock ks (nonce ++ bigBytes 1 4))

/-- The round keys of a key register, whose first byte is the lowest (R9, R372). -/
def keysOf (key : BitVec 256) : List (List Byte) := aesKeys (bigBytes key.toNat 32).reverse

/-- Seal a payload under a key, a nonce of 96 bits and the additional data: ciphertext and tag (R366). -/
def gcmSeal (key : BitVec 256) (nonce aad pt : List Byte) : List Byte × List Byte :=
  let ks := keysOf key
  let ct := gcmStream ks nonce pt
  (ct, gcmTag ks nonce aad ct)

/-- Open a sealed payload; none where the tag fails (R366). -/
def gcmOpen (key : BitVec 256) (nonce aad ct tag : List Byte) : Option (List Byte) :=
  let ks := keysOf key
  if gcmTag ks nonce aad ct = tag then some (gcmStream ks nonce ct) else none

/-! ## CRC-32 (IEEE 802.3) -/

/-- One bit of the reflected register. -/
def crcBit (c : Word) : Word := (c >>> 1) ^^^ (if c.getLsbD 0 then 0xEDB88320#32 else 0)
/-- The check of bytes. -/
def crc32 (bs : List Byte) : Word :=
  ~~~(bs.foldl (fun c b => (List.range 8).foldl (fun c _ => crcBit c) (c ^^^ b.setWidth 32)) 0xFFFFFFFF#32)

/-! ## SLH-DSA-SHA2-128s verification (FIPS 205) -/

/-- An address of a hash (FIPS 205, 4.2): layer, tree, type and its three words. -/
structure HashAddr where
  layer : Nat
  tree : Nat
  type : Nat
  w1 : Nat
  w2 : Nat
  w3 : Nat

/-- The compressed address of 22 bytes (FIPS 205, 11.2). -/
def HashAddr.bytes (a : HashAddr) : List Byte := bigBytes a.layer 1 ++ bigBytes a.tree 8 ++ bigBytes a.type 1 ++ bigBytes a.w1 4 ++ bigBytes a.w2 4 ++ bigBytes a.w3 4

/-- F, H and T: the first 16 bytes of SHA-256 over the padded seed, the address and the message. -/
def slhHash (seed : List Byte) (a : HashAddr) (m : List Byte) : List Byte := (shaBytes (seed ++ zeroBytes 48 ++ a.bytes ++ m)).take 16

/-- `n` steps of a chain from step `i`. -/
def slhChain (seed : List Byte) (a : HashAddr) : Nat → Nat → List Byte → List Byte
  | 0, _, x => x
  | n + 1, i, x => slhChain seed a n (i + 1) (slhHash seed { a with w3 := i } x)

/-- `n` digits of `b` bits of a byte string, most significant first. -/
def digitsOf (b n : Nat) (bs : List Byte) : List Nat := (List.range n).map (fun k => bigNat bs / 2 ^ (8 * bs.length - b * (k + 1)) % 2 ^ b)

/-- The 35 digits of a WOTS+ message of 16 bytes with its checksum (FIPS 205, algorithm 8). -/
def wotsDigits (m : List Byte) : List Nat :=
  let ds := digitsOf 4 32 m
  let sum := ds.foldl (fun n d => n + (15 - d)) 0
  ds ++ digitsOf 4 3 (bigBytes (16 * sum) 2)

/-- The WOTS+ public key that a signature gives (FIPS 205, algorithm 8). -/
def wotsKey (seed : List Byte) (a : HashAddr) (sig m : List Byte) : List Byte :=
  let ends := ((List.range 35).zip ((pieces 16 35 sig).zip (wotsDigits m))).map (fun p =>
    slhChain seed { a with type := 0, w2 := p.1 } (15 - p.2.2) p.2.2 p.2.1)
  slhHash seed { a with type := 1, w2 := 0, w3 := 0 } ends.flatten

/-- The root that an authentication path gives from a leaf: `i` is the node's index at its height, and `k` that height (FIPS 205, algorithms 11
and 17). -/
def pathRoot (seed : List Byte) (a : HashAddr) : List (List Byte) → Nat → Nat → List Byte → List Byte
  | [], _, _, node => node
  | x :: r, k, i, node =>
    let h := slhHash seed { a with w2 := k + 1, w3 := i / 2 } (if i % 2 = 0 then node ++ x else x ++ node)
    pathRoot seed a r (k + 1) (i / 2) h

/-- The root of an XMSS tree that a signature of 44 strings gives (FIPS 205, algorithm 11). -/
def xmssRoot (seed : List Byte) (a : HashAddr) (leaf : Nat) (sig m : List Byte) : List Byte :=
  let node := wotsKey seed { a with w1 := leaf } (sig.take 560) m
  pathRoot seed { a with type := 2, w1 := 0 } (pieces 16 9 (sig.drop 560)) 0 leaf node

/-- The root of the hypertree that a signature gives, layer by layer (FIPS 205, algorithm 13). -/
def htRoot (seed : List Byte) : List (List Byte) → Nat → Nat → Nat → List Byte → List Byte
  | [], _, _, _, m => m
  | sig :: r, layer, tree, leaf, m =>
    htRoot seed r (layer + 1) (tree / 2 ^ 9) (tree % 2 ^ 9) (xmssRoot seed { layer := layer, tree := tree, type := 0, w1 := 0, w2 := 0, w3 := 0 } leaf sig m)

/-- The FORS public key that a signature gives (FIPS 205, algorithm 17). -/
def forsKey (seed : List Byte) (a : HashAddr) (sig md : List Byte) : List Byte :=
  let roots := ((List.range 14).zip ((pieces 208 14 sig).zip (digitsOf 12 14 md))).map (fun p =>
    let i := 4096 * p.1 + p.2.2
    pathRoot seed { a with type := 3 } (pieces 16 12 (p.2.1.drop 16)) 0 i (slhHash seed { a with type := 3, w2 := 0, w3 := i } (p.2.1.take 16)))
  slhHash seed { a with type := 4, w2 := 0, w3 := 0 } roots.flatten

/-- The digest of a message of 30 bytes (FIPS 205, 11.2): MGF1 over SHA-256. -/
def slhDigest (r seed root m : List Byte) : List Byte := (shaBytes (r ++ seed ++ shaBytes (r ++ seed ++ root ++ m) ++ zeroBytes 4)).take 30

/-- Verification of a signature of a message under a public key, in pure mode with an empty context (FIPS 205, algorithms 20 and 24). -/
def slhVerify (key m sig : List Byte) : Bool :=
  let seed := key.take 16
  let root := key.drop 16
  let d := slhDigest (sig.take 16) seed root (zeroBytes 2 ++ m)
  let tree := bigNat ((d.drop 21).take 7) % 2 ^ 54
  let leaf := bigNat (d.drop 28) % 2 ^ 9
  let fors := forsKey seed { layer := 0, tree := tree, type := 3, w1 := leaf, w2 := 0, w3 := 0 } ((sig.drop 16).take 2912) (d.take 21)
  key.length = 32 && sig.length = 7856 && htRoot seed (pieces 704 7 (sig.drop 2928)) 0 tree leaf fors = root

end Sys2Proof.Machine
end

