-- ==== Sys2Proof/Machine/Schedule.lean ====
section
/-! DEFINITION. The active and pending sets, pre-emption, restores and the folding of logical cores (R317-R321, R328). -/

namespace Sys2Proof.Machine

/-! ## Active and pending sets (R317) -/

/-- Fragments of a group that have not ended. -/
def State.fragsOf (s : State) (gk : Nat) : List Frag := (List.range (s.wavesOf gk)).flatMap (fun w => (s.wave (wkOf gk w)).frags)

/-- A wait that stalls a group (R317). -/
def Wait.stalls : Wait → Bool
  | .retry | .access | .barrier | .tbarrier | .phase => true
  | .none | .agg | .hret => false

/-- The device has found the fragment eligible (R26): a waiting access has issued and is not. -/
def Frag.eager (f : Frag) : Bool := f.mode ≠ .held && (f.wait = .none || f.wait = .retry) && f.able
/-- Every wave of the group waits. -/
def State.stalled (s : State) (gk : Nat) : Bool := (s.fragsOf gk).all (fun f => f.wait.stalls && !f.eager)
/-- The group has an eligible wave, as the device last found it (R317). -/
def State.maybeEligible (s : State) (gk : Nat) : Bool := (s.fragsOf gk).any Frag.eager

/-- The earliest of a list of groups by the time of its last move. -/
def longest (gs : List (Nat × Group)) : Option (Nat × Group) := (sortBy (fun p => p.2.moved) gs).head?

/-- Move a group between the sets. What its fragments have waited stands still while it is pending (R26). -/
def State.setActive (s : State) (gk : Nat) (b : Bool) : State :=
  let s1 := if (s.group gk).any (fun g => g.active ≠ b && !(s.launch g.launch).det) then
      (List.range (s.wavesOf gk)).foldl (fun s w => s.modWave (wkOf gk w) (fun v =>
        { v with frags := v.frags.map (fun f => { f with since := s.clockAt (gk / 16) - f.since }) })) s
    else s
  s1.modGroup gk (fun g => { g with active := b, moved := s.ptp, hungry := false, waited := 0 })

/-- The pending group that the core picks (R317). -/
def State.nextPending (s : State) (gs : List (Nat × Group)) : Option (Nat × Group) :=
  (byPrio (fun (p : Nat × Group) => (s.launch p.2.launch).prio) (sortBy (fun p => p.2.moved) gs)).head?

/-- Groups of a core. -/
def State.onCore (s : State) (core : Nat) : List (Nat × Group) := s.groups.filter (fun p => p.1 / 16 = core)

/-- ACTIVE_SET_SWAP (R317): a pending group takes a free place in the active set, or the place of a stalled group. -/
def execActiveSetSwap (core : Nat) (s : State) : Out :=
  let pending := (s.onCore core).filter (fun p => !p.2.active && !p.2.frozen)
  if s.activeOf core < 8 then
    match s.nextPending pending with
    | some p => .next (s.setActive p.1 true)
    | none => .next s
  else match s.nextPending (pending.filter (fun p => s.maybeEligible p.1)), longest ((s.onCore core).filter (fun p => p.2.active && !p.2.frozen && s.stalled p.1)) with
    | some p, some q => .next ((s.setActive q.1 false).setActive p.1 true)
    | _, _ => .next s

/-- The timeslice of a core in PTP units (R294). -/
def State.slice (s : State) (core : Nat) : Nat := 65536000 * (s.core core).tslice.toNat

/-- How long a pending group has had an eligible wave, in PTP time. -/
def Group.hunger (g : Group) (now : Nat) : Nat := if g.hungry then now - g.waited else g.waited

/-- PENDING_LIMIT_EXPIRY (R317): the group displaces the one that has been active longest. Its time counts while it has an eligible wave. -/
def execPendingLimitExpiry (core slot : Nat) (s : State) : Out :=
  let gk := gkOf core slot
  match s.group gk with
  | none => .next s
  | some g =>
    if g.active || g.frozen || g.hunger s.ptp < s.slice core || !s.maybeEligible gk then .next s
    else if s.activeOf core < 8 then .next (s.setActive gk true)
    else match longest ((s.onCore core).filter (fun p => p.2.active && !p.2.frozen)) with
      | some q => .next ((s.setActive q.1 false).setActive gk true)
      | none => .next s

/-! ## Pre-emption (R319, R321) -/

/-- A core lies in every place that a group's units have (R18). -/
def Launch.homeOn (l : Launch) (g core : Nat) : Bool :=
  l.deepLevels.all (fun k => match l.home k g with | some i => domainOf (l.domain k) core = i | none => true)

/-- What waits for a slot of a core: a queued group or the head of a launch-queue entry. -/
inductive Rival
  | queued (p : Phased)
  | entry (n : Nat)
  deriving DecidableEq, Repr

/-- A rival's launch. -/
def Rival.launch : Rival → Nat | .queued p => p.launch | .entry n => n

/-- A rival could use a slot of the core and finds none open anywhere (R31). -/
def State.rivals (s : State) (core : Nat) (r : Rival) : Bool :=
  let l := s.launch r.launch
  let pair : Nat × List Nat := match r with | .queued p => (p.gid, (s.comrades p).map (fun (q : Phased) => q.gid)) | .entry _ => (l.next, if l.det then [l.next] else l.gangOf l.next)
  let g := pair.1
  let gang := pair.2
  let there := if l.det then (s.lcore (1024 * r.launch + g % l.field 640 11)).any (fun (c : LCore) => c.phys = core && c.vacate = []) else l.homeOn g core
  there && (s.spotsFor (fun _ => true) r.launch none gang l []).isNone

/-- Rivals for a core in the order of R315. -/
def State.rivalsOf (s : State) (core : Nat) : List Rival :=
  let part := s.owner core
  if !s.partOk part then [] else
  let queued := ((s.readyQueue part).filter (fun p => p.state ≠ 2 || s.areaGood p)).map Rival.queued
  let entries := byPrio (fun (p : Nat × Launch) => p.2.prio) (s.launches.filter (fun p => p.2.part = part && p.2.waitsInQueue))
  (queued ++ entries.map (fun p => Rival.entry p.1)).filter (s.rivals core)

/-- The rival that makes the group of a slot eligible for pre-emption (R319). -/
def State.rivalOf (s : State) (gk : Nat) (g : Group) : Option Rival :=
  let core := gk / 16
  let mine := (s.launch g.launch).prio
  (s.rivalsOf core).find? (fun r =>
    let prio := (s.launch r.launch).prio
    (mine ≤ prio && g.resident + s.slice core ≤ s.ptp) || (mine < prio && 8 * g.resident + s.slice core ≤ 8 * s.ptp))

/-- Slots of the resident members of a group's gang-admitted unit. -/
def State.unitGks (s : State) (g : Group) : List Nat :=
  let gang := (s.launch g.launch).gangOf g.gid
  (s.groups.filter (fun p => p.2.launch = g.launch && gang.contains p.2.gid)).map (·.1)

/-- A group that no save excludes (R307, R319, R328, R330). -/
def State.canSave (s : State) (gk : Nat) : Bool :=
  match s.group gk with
  | none => false
  | some g =>
    let l := s.launch g.launch
    !s.saveBlocked gk && !s.fixedPart l.part && !l.dead.contains g.gid && (!l.det || (s.lcoreOf g).any (fun c => c.turn = 0))

/-- Save areas of a partition's pool that hold no saved group and that no save is to fill (R319, R342). -/
def State.freeAreas (s : State) (part : Nat) : List Nat :=
  ((List.range (s.part part 480 16)).map (fun i => s.part part 640 64 + areaBytes * i)).filter (fun a =>
    s.areaOk a && !s.phased.any (fun p => p.state = 2 && p.area = a) && (find s.saves a).isNone
      && !s.groups.any (fun p => p.2.saveArea.any (fun x => x.1 = a)) && (s.areaBad a).isNone)

/-- The group of a slot stops for a save by the device into an area (R310), whose area.gen is written first (R322). The generation is one more than
the area's last (log 19). -/
def State.freeze (s : State) (gk area : Nat) : State :=
  let gen := s.areaWord area 0 + 1
  (s.beginSave gk area gen).modGroup gk (fun g => { g with evict := true, saveArea := some (area, gen) })

/-- Save the group of a slot to the area that stands ready for it; it enters the phase queue (R314, R320). -/
def State.saveTo (s : State) (gk : Nat) : State :=
  match s.group gk with
  | none => s
  | some g => match g.saveArea with
    | none => s
    | some (area, gen) =>
      let l := s.launch g.launch
      let s1 := s.finishSave gk area gen
      let lslot := if l.det then g.lslot else gk % 16
      let p : Phased :=
        { launch := g.launch, gid := g.gid, lcore := g.lcore, lslot := lslot, state := 2, fault := 0, threads := [], ended := [], waves := [], slots := []
          pend := g.pend, lseq := g.lseq, wrec := 0, target := 0, order := s.nextOrder, round := if l.det then ((s.lcoreOf g).map (·.round)).getD 0 else 0
          area := area, gen := gen, num := s.recordNum }
      { s1 with
        phased := s1.phased ++ [p]
        lcores := s1.lcores.map (fun (q : Nat × LCore) => if l.det && q.1 = 1024 * g.launch + g.lcore then (q.1, { q.2 with folded := true }) else q) }

/-- Every group of a unit that the device saves has an area: those that have none yet take free ones of the pool; none if too few are free
(R319). -/
def State.freezeAll (s : State) (part : Nat) (unit : List Nat) : Option State :=
  let need := unit.filter (fun gk => (s.group gk).any (fun g => g.saveArea.isNone))
  let areas := (s.freeAreas part).take need.length
  if areas.length < need.length then none else some ((need.zip areas).foldl (fun s p => s.freeze p.1 p.2) s)

/-- The save of a unit by the device cannot be written: a line of an area has an error (R310, R312). -/
def State.areasLost (s : State) (unit : List Nat) : Bool :=
  unit.any (fun gk => (s.group gk).any (fun g => g.saveArea.any (fun x => (s.areaBad x.1).isSome)))

/-- A unit that stands ready is saved whole; where an area cannot be written it goes on in its slots, and the partition learns of each such line
(R310, R312). -/
def State.saveUnit (s : State) (unit : List Nat) : State :=
  if s.areasLost unit then
    unit.foldl (fun s gk => match s.group gk with
      | some g => (match g.saveArea.bind (fun x => s.areaBad x.1) with | some bad => s.contain (s.launch g.launch).part bad | none => s).abortSave gk false
      | none => s) s
  else unit.foldl State.saveTo s

/-- Groups that the device saves with a group in one step: its gang-admitted unit (R319), or under det = 1 the groups of its logical core (R328). -/
def State.savedWith (s : State) (g : Group) : List Nat :=
  if (s.lcoreOf g).any (fun (c : LCore) => c.vacate ≠ []) then (s.groups.filter (fun p => p.2.launch = g.launch && p.2.lcore = g.lcore)).map (·.1) else s.unitGks g

/-- SAVE_WATCHDOG_EXPIRY (R310): the save stops without its seal, and the group goes on; a save by the device ends for every group that it takes
together, and a logical core stays where it is. -/
def execSaveWatchdogExpiry (core slot : Nat) (s : State) : Out :=
  let gk := gkOf core slot
  match s.group gk with
  | none => .next s
  | some g => match g.saving with
    | some (t, false) =>
      if s.clockAt core < t + 65536 * Nat.max 1 (low16 (s.core core).svwd).toNat then .next s
      else if !g.evict then .next (s.abortSave gk true)
      else
        let s1 := (s.savedWith g).foldl (fun s k => s.abortSave k true) s
        .next { s1 with lcores := s1.lcores.map (fun (p : Nat × LCore) => if (s.launch g.launch).det && p.1 = 1024 * g.launch + g.lcore then (p.1, { p.2 with vacate := [] }) else p) }
    | _ => .next s

/-- Every group of a list has ended what its save waits for (R321). -/
def State.allReady (s : State) (gks : List Nat) : Bool :=
  gks.all (fun gk => match s.group gk with | some g => s.saveReady gk g | none => false)

/-- A logical core whose saved groups are all placed goes on (R328). -/
def State.unfold (s : State) (n lc : Nat) : State :=
  if s.phased.any (fun q => q.launch = n && q.lcore = lc && q.state = 2) then s
  else { s with lcores := s.lcores.map (fun (q : Nat × LCore) => if q.1 = 1024 * n + lc then (q.1, { q.2 with folded := false }) else q) }

/-- Restore a queued saved group into a slot (R310, R320, R133). -/
def State.restoreSaved (s : State) (p : Phased) (core slot : Nat) : State :=
  match s.savedAs p.area (s.launch p.launch).part with
  | none => s
  | some v =>
    let s0 : State := { s with phased := s.phased.erase p }
    ((s0.restoreArea p.area v core slot).advanceRestore core slot).unfold p.launch p.lcore

/-- Give a free slot to a rival (R319), while the partition is valid (R342). -/
def State.giveSlot (s : State) (core slot : Nat) (r : Rival) : State :=
  if !s.partOk (s.owner core) then s else
  match r with
  | .queued p => match s.seats p core slot with
    | none => s
    | some spots =>
      if p.state ≠ 2 then s.readmit p core slot
      else spots.foldl (fun s x => match s.phased.find? (fun q => q.launch = p.launch && q.gid = x.gid && q.state = 2) with
        | some q => if s.areaGood q then s.restoreSaved q x.core x.slot else s
        | none => s) s
  | .entry n => match s.headSpots n core slot with
    | some spots => s.admitEntry n spots
    | none => s

/-- PREEMPTION_SAVE (R319-R321): the device saves an eligible group with its whole gang-admitted unit, and the rival takes the slot. -/
def execPreemptionSave (core slot : Nat) (s : State) : Out :=
  let gk := gkOf core slot
  match s.group gk with
  | none => .next s
  | some g => match g.evict, g.saving with
    | false, some _ => .next s
    | _, _ =>
      let rival := s.rivalOf gk g
      let unit := s.unitGks g
      if !(g.evict || rival.isSome) || !unit.all s.canSave then .next s
      else match s.freezeAll (s.launch g.launch).part unit with
        | none => .next s
        | some s1 =>
          if !s1.allReady unit then .next s1
          else
            let s2 := s1.saveUnit unit
            .next (match rival with | some r => if (s2.group gk).isNone then s2.giveSlot core slot r else s2 | none => s2)

/-- CONTEXT_RESTORE (R310, R315, R320, R321): a saved group takes a free slot with the saved members of its unit; a restored group then
waits for its configuration and its licence. -/
def execContextRestore (core slot : Nat) (s : State) : Out :=
  let gk := gkOf core slot
  match s.group gk with
  | some g => .next (if g.wantCfg.isSome || g.wantLic then s.advanceRestore core slot else s)
  | none =>
    if !s.offered core slot then .next s
    else match s.nextQueued core slot with
      | some (p, _) => .next (if p.state = 2 then s.giveSlot core slot (.queued p) else s)
      | none => .next s

/-! ## Folding (R328) -/

/-- The core that a logical core moves to: the surviving core of the launch with the fewest logical cores, or the one that R326 chooses. -/
def State.foldTarget (s : State) (n : Nat) (vacated : List Nat) : Option Nat :=
  let mine := (s.lcores.filter (fun p => p.2.launch = n)).map (fun p => p.2.phys)
  let alive := (mine.eraseDups).filter (fun c => !vacated.contains c)
  let count := fun c => (mine.filter (· = c)).length
  match (sortBy (fun c => 1024 * count c + c) alive).head? with
  | some c => some c
  | none => s.leastLoaded ((s.coresOf (s.launch n).part).filter (fun c => !vacated.contains c))

/-- DET_PREEMPTION_FOLD (R328): between two rounds the groups of a logical core on a vacated core are saved, and it moves. -/
def execDetPreemptionFold (launch lcore : Nat) (s : State) : Out :=
  let k := 1024 * launch + lcore
  match s.lcore k with
  | none => .next s
  | some c =>
    if c.vacate = [] || c.turn ≠ 0 || s.heirs.any (fun x => x.launch = launch && x.gid % (s.launch launch).field 640 11 = lcore) then .next s
    else
      let unit := (s.groups.filter (fun p => p.2.launch = launch && p.2.lcore = lcore)).map (·.1)
      match (if unit.all s.canSave then s.freezeAll (s.launch launch).part unit else none) with
      | none => .next s
      | some s1 =>
        if !s1.allReady unit then .next s1
        else if s1.areasLost unit then
          let s2 := s1.saveUnit unit
          .next { s2 with lcores := s2.lcores.map (fun (q : Nat × LCore) => if q.1 = k then (q.1, { q.2 with vacate := [] }) else q) }
        else match s.foldTarget launch c.vacate with
          | none => .next s
          | some core =>
            let s2 := s1.saveUnit unit
            .next (State.shiftChecks (n := launch) (avoid := [core]) { s2 with lcores := s2.lcores.map (fun (q : Nat × LCore) => if q.1 = k then (q.1, { q.2 with phys := core, vacate := [] }) else q) })

end Sys2Proof.Machine
end

