-- ==== Sys2Proof/Machine/Power.lean ====
section
/-! DEFINITION. The Steelyard, operating-point moves and the fast throttle (R235, R353-R359). -/

namespace Sys2Proof.Machine

/-- One microsecond of PTP time. -/
def micro : Nat := 65536000

/-! ## The Steelyard (R354, R356) -/

/-- What the array of a core requests (R354). -/
def State.arrayNeed (s : State) (core : Nat) : Option Nat :=
  match (s.core core).ops with
  | [] => none
  | o :: _ =>
    if !s.arrayRuns core o.slot then none
    else match o.kind with
      | .zero => some 2
      | .drain => if o.fin.isNone then some 6 else none
      | .mma =>
        let p := s.feed core o
        let w := p.1.workOf core p.2
        if s.mmaLicensed core o && 16 * o.g < o.k && p.2.fed w then some w.quanta else none

/-- What the bursts of a group's copy operation and data collectives need (R213, R246). -/
def Group.burstNeeds (g : Group) : List Nat :=
  (match g.copies with | o :: _ => if o.runs && !g.frozen then [o.quanta] else [] | [] => [])
    ++ (g.calls.filter (fun c => c.beat.isNone && (match c.todo with | some (_ :: _) => true | _ => false))).map (fun _ => 3)

/-- What the bursts of a core's copy engine need. -/
def State.copyNeeds (s : State) (core : Nat) : List Nat := (s.onCore core).flatMap (fun p => p.2.burstNeeds)

/-- What the copy engine of a core requests: of the bursts of several operations, which run in any order (R199), a free value picks one
(log 2). -/
def State.copyNeed (s : State) (pick core : Nat) : Option Nat :=
  match s.copyNeeds core with
  | [n] => some n
  | ns => ns[Config.freeNat pick / 1024 ^ (core % 4) % Nat.max 1 ns.length]?

/-- What the vector pipe of a core requests: some active group has an eligible instruction. -/
def State.pipeNeed (s : State) (core : Nat) : Option Nat :=
  if (s.onCore core).any (fun p => p.2.active && !p.2.frozen && s.maybeEligible p.1) then some 3 else none

/-- What a requester requests. -/
def State.need (s : State) (pick core : Nat) : Requester → Option Nat
  | .array => s.arrayNeed core
  | .pipe => s.pipeNeed core
  | .copy => s.copyNeed pick core

/-- The macro-operation of a request or a reservation is still to run. -/
def State.stands (s : State) (x : Current) : Bool :=
  match x.who with
  | .array => s.arrayNeed x.core = some x.amount
  | .pipe => (s.pipeNeed x.core).isSome
  | .copy => (s.copyNeeds x.core).contains x.amount

/-- Order of the requesters of one core (R356). -/
def Requester.rank : Requester → Nat | .array => 0 | .pipe => 1 | .copy => 2

/-- The requests of a cluster in a cycle: those that stand, and the new ones of this cycle. A requester holds its reservation to the end of the
cycle in which it is released, and has one at a time (R354, R356). A reservation whose macro-operation is gone is released. -/
def State.gather (s : State) (pick now k : Nat) (c : Cluster) : Cluster :=
  let c1 := c.release now (fun x => x.who = .pipe || s.stands x)
  let taken := c1.waiting.filter s.stands ++ c1.held ++ c1.freedIn now
  let fresh := (List.range 4).flatMap (fun i => [Requester.array, .pipe, .copy].filterMap (fun w =>
    let core := 4 * k + i
    if taken.any (fun x => x.core = core && x.who = w) then none
    else (s.need pick core w).map (fun a => ({ core := core, who := w, amount := a, arrived := now } : Current))))
  { c1 with waiting := c1.waiting.filter s.stands ++ fresh }

/-- Requests in the order of R356. -/
def Cluster.ordered (c : Cluster) : List Current := sortBy (fun x => 16 * x.arrived + 4 * (x.core % 4) + x.who.rank) c.waiting

/-- The request that is granted in a cycle (R356). -/
def Cluster.choice (c : Cluster) (now : Nat) : Option Current :=
  let fits := fun (x : Current) => c.load now + x.amount ≤ c.budget
  match c.ordered.find? (fun x => x.arrived + c.age ≤ now) with
  | some b => if fits b then some b else none
  | none => c.ordered.find? fits

/-- Requests are granted in a cycle. -/
def Cluster.grant (c : Cluster) (now : Nat) (xs : List Current) : Cluster :=
  let c1 := { c with waiting := c.waiting.filter (fun x => !xs.contains x), held := c.held ++ xs.map (fun (x : Current) => ({ x with since := now } : Current)), granted := some now }
  { c1 with peak := Nat.max c1.peak (c1.load now) }

/-- What a cluster's Steelyard grants in a cycle: every request in share mode, else at most one (R356, R357). -/
def Cluster.grants (c : Cluster) (now : Nat) : List Current :=
  if c.share then c.waiting else if c.granted = some now then [] else (c.choice now).toList

/-- STEELYARD_GRANT (R354, R356, R357): a cluster's Steelyard takes requests and grants what the cycle allows. -/
def execSteelyardGrant (cluster : Nat) (s : State) : Out :=
  let now := s.clockAt (4 * cluster)
  let c := s.gather s.fresh now cluster (s.cluster cluster)
  let xs := c.grants now
  let s1 := (s.useFresh (c.waiting ≠ (s.cluster cluster).waiting)).setCluster cluster (if xs = [] then c else c.grant now xs)
  .next ((xs.filter (fun x => x.who = .pipe)).foldl (fun s x => s.modCore x.core (fun v => { v with pipe := some now })) s1)

/-- The vector pipe of a core holds its reservation, and the window of 64 cycles has not run out: the core issues (R354). -/
def State.pipeOn (s : State) (core : Nat) : Bool :=
  s.powered core .pipe && (s.core core).pipe.any (fun t => s.clockAt core < t + 64)

/-- VECTOR_PIPE_WINDOW_END (R354): the window of 64 cycles runs out. -/
def execVectorPipeWindowEnd (core : Nat) (s : State) : Out :=
  match (s.core core).pipe with
  | none => .next s
  | some t => .next (if t + 64 ≤ s.clockAt core then (s.unpower core .pipe).modCore core (fun v => { v with pipe := none }) else s)

/-! ## Operating points (R353) -/

/-- OPERATING_POINT_STEP_END (R353). -/
def execOperatingPointStepEnd (cluster : Nat) (s : State) : Out :=
  .next (if (s.cluster cluster).busy then s.modCluster cluster Cluster.stepEnd else s)

/-! ## The throttle (R358, R359) -/

/-- The throttle register. -/
def Throttle.word (t : Throttle) : Word :=
  t.hold ++ (t.tlim ++ (0#4 ++ (t.en ++ (t.src ++ (0#3 ++ BitVec.ofBool t.on)))))

/-- An enabled source is asserted. -/
def Throttle.driven (t : Throttle) : Bool := t.en &&& t.src ≠ 0

/-- Enter the throttle if an enabled source is asserted: it is counted, and a notice is sent (R359). The hold time starts when the last
enabled source is gone. -/
def State.throttleTo (s : State) (t : Throttle) : State :=
  let since := if s.throttle.driven && !t.driven then s.ptp else t.since
  if t.driven && !t.on then
    let t1 := { t with on := true, cnt := t.cnt + 1, since := since }
    ({ s with throttle := t1 }).notice 5 [t1.word, t1.cnt]
  else { s with throttle := { t with since := since } }

/-- THROTTLE_ASSERT (R358). -/
def execThrottleAssert (source : BitVec 2) (s : State) : Out :=
  .next (s.throttleTo { s.throttle with src := s.throttle.src ||| (1#4 <<< source.toNat) })

/-- THROTTLE_SOURCE_DEASSERT (R358). -/
def execThrottleSourceDeassert (source : BitVec 2) (s : State) : Out :=
  .next (s.throttleTo { s.throttle with src := s.throttle.src &&& ~~~(1#4 <<< source.toNat) })

/-- THROTTLE_HOLD_EXPIRY (R358). -/
def execThrottleHoldExpiry (s : State) : Out :=
  let t := s.throttle
  .next (if t.on && !t.driven && t.since + micro * t.hold.toNat ≤ s.ptp then { s with throttle := { t with on := false } } else s)

end Sys2Proof.Machine
end

