-- ==== Sys2Proof/Machine/Channel.lean ====
section
/-! DEFINITION. The management channel: rights, replies, and reads and writes at management addresses (R348, R371-R374). -/

namespace Sys2Proof

/-- A session with firmware rights; a session on the pins has them (R375). -/
def Req.firm (r : Req) : Bool := r.firmware || r.pins

/-- Scope of a register: 0 core, 1 group, 2 wave, 3 thread (R61, R294). -/
def SReg.scopeNum : SReg → Nat
  | .clock | .ptpl => 0
  | .group | .core | .cluster | .die | .det | .coord _ | .gkeyl | .gkeyh | .dkeyl | .dkeyh | .evtc _ | .shape _ _ => 1
  | .role | .progress | .fair => 2
  | .lane | .wave | .iter | .prop | .acpt | .pstate | .wbase | .clockh | .ptph => 3
/-- Scope of a privileged register. -/
def PReg.scopeNum : PReg → Nat
  | .hmask | .hfwd | .hagg | .hwd | .svwd | .tslice | .part | .fwbell => 0
  | .nev _ => 1
  | .tkind | .tseq => 2
  | .priv => 3

end Sys2Proof

namespace Sys2Proof.Machine

/-! ## Rights and replies (R348, R371, R372) -/

/-- The right that a command requires (R371). -/
inductive Right | any | part | firmware
  deriving DecidableEq, Repr

/-- A session bound to a partition that may read back its state. -/
def State.bound (s : State) (r : Req) : Bool := r.part ≤ 62 && s.part r.part 2 1 = 1

/-- A session holds a right. -/
def State.holds (s : State) (r : Req) : Right → Bool
  | .any => true
  | .part => r.firm || s.bound r
  | .firmware => r.firm

/-- Words of a reply (R372). -/
def replyWords (op tag status idx : Nat) (data : List Word) : List Word :=
  [wd (op % 256 + 65536 * (tag % 65536)), wd status, wd idx, 0, wd data.length] ++ data

/-- Data of a reply in parts of at most 1,016 words, with the index of each part's first word; at least one part. -/
def replyParts : Nat → Nat → List Word → List (Nat × List Word)
  | 0, _, _ => []
  | n + 1, idx, ws => (idx, ws.take 1016) :: (if ws.length ≤ 1016 then [] else replyParts n (idx + 1016) (ws.drop 1016))

/-- Send one reply to its session (R365, R371, R375): what came over the pins has been acknowledged. -/
def State.sendReply (s : State) (r : Req) (ws : List Word) : State :=
  if r.pins then { s with pinAck := some true, outbox := s.outbox ++ [{ pins := true, node := 0, notice := false, words := ws }] }
  else s.transmit r.node r.session 4 (if r.firm then 255 else s.keyOf r.part) 0 (wordBytes ws)

/-- Reply to a command. -/
def State.reply (s : State) (r : Req) (op status : Nat) (data : List Word) : State :=
  (replyParts (data.length + 1) 0 data).foldl (fun s p => s.sendReply r (replyWords op r.tag status p.1 p.2)) s

/-- What a command does: the state, the status and the data of its reply. -/
structure Served where
  state : State
  status : Nat
  data : List Word

/-- A command that ends with a status and changes nothing. -/
def State.status (s : State) (n : Nat) : Served := { state := s, status := n, data := [] }

/-- Serve a command of a session: nothing is heard in reset, and recovery refuses every command but the image load (R345, R348, R375). -/
def State.serve (s : State) (r : Req) (op : Nat) (need : Right) (k : Served) : Out :=
  .next (match s.boot with
    | .held => s
    | .recovery => if r.pins then s.reply r op 4 [] else s
    | .running => if s.holds r need then k.state.reply r op k.status k.data else s.reply r op 1 [])

/-! ## Management addresses (R373) -/

/-- Bits `lo` to `lo + len - 1` of a number. -/
def bitsOf (a lo len : Nat) : Nat := a / 2 ^ lo % 2 ^ len

/-- Four bytes of this device's DRAM stand at an address: between the usable top and the reserve nothing is mapped (R168, R169). -/
def State.chanMapped (s : State) (b : Nat) : Bool :=
  b % 4 = 0 && (b + 4 ≤ s.usableTop || (s.reserveStart ≤ b && b + 4 ≤ s.towerCount * 72 * 2 ^ 30))

/-- An address of space 5. -/
def tableAddr (table core slot wave word : Nat) : Nat := 5 * 2 ^ 60 + table * 2 ^ 52 + wave * 2 ^ 30 + slot * 2 ^ 26 + core * 2 ^ 16 + 4 * word

/-- A session may see a core: firmware, or a session bound to the partition that owns it (R348). -/
def State.sees (s : State) (r : Req) (core : Nat) : Bool := r.firm || (s.bound r && s.owner core = r.part)

/-- The word lies in a launch record of the session's partition. -/
def State.ownRecord (s : State) (r : Req) (a : Nat) : Bool :=
  s.launches.any (fun p => p.2.part = r.part && (match s.translate (device r.part) p.2.addr.toNat .read with
    | .ok (.dram b) => b ≤ a && a < b + 256
    | _ => false))

/-- The key id under which a session reads a DRAM byte, none where it has no right: a session with firmware rights reads the memory of every
partition, each line under the key id that it carries, but no session holds key id 0 (R344, R348, R374, log 12). -/
def State.chanKey (s : State) (r : Req) (a : Nat) : Option Nat :=
  if s.reserveStart ≤ a then (if r.firm || a < s.reserveStart + 64 then some reserveKey else none)
  else if r.firm then (let k := getD 0 s.tags (lineOf a); some (if k = 0 then reserveKey else k))
  else if s.bound r || s.ownRecord r a then some (s.keyOf r.part)
  else none

/-! ## Registers (space 2) -/

/-- A register that an address of space 2 names. -/
inductive RegName
  | priv (r : PReg)
  | spec (r : SReg)
  deriving DecidableEq, Repr

/-- Its scope. -/
def RegName.scope : RegName → Nat | .priv r => r.scopeNum | .spec r => r.scopeNum
/-- It reads the slot's clock (R373). -/
def RegName.isClock : RegName → Bool | .spec .clock => true | .spec .clockh => true | _ => false

/-- The register of an address of space 2. -/
def regName (a : Nat) : Option RegName :=
  if bitsOf a 37 23 ≠ 0 || bitsOf a 15 1 ≠ 0 then none
  else if bitsOf a 14 1 = 0 then (PReg.of (BitVec.ofNat 7 (bitsOf a 7 7)) (BitVec.ofNat 7 (bitsOf a 0 7))).map .priv
  else if bitsOf a 11 3 ≠ 0 then none else (SReg.of (BitVec.ofNat 11 (bitsOf a 0 11))).map .spec

/-- A place in space 2: core, slot, wave, lane. -/
structure RegPlace where
  core : Nat
  slot : Nat
  wave : Nat
  lane : Nat
  deriving DecidableEq, Repr

/-- The place of an address. -/
def regPlace (a : Nat) : RegPlace := { core := bitsOf a 16 10, slot := bitsOf a 26 4, wave := bitsOf a 30 2, lane := bitsOf a 32 5 }

/-- Fields that the register's scope does not use are zero (R373). -/
def RegPlace.fits (p : RegPlace) (n : RegName) (read : Bool) : Bool :=
  (1 ≤ n.scope || (read && n.isClock) || p.slot = 0) && (2 ≤ n.scope || p.wave = 0) && (3 ≤ n.scope || p.lane = 0)

/-- The fragment of one lane of a place; none where no group or no such wave is. -/
def State.placed (s : State) (p : RegPlace) : Option Here :=
  let gk := gkOf p.core p.slot
  match s.group gk with
  | none => none
  | some g =>
    if (s.launch g.launch).waves ≤ p.wave then none
    else
      let h := s.hereAt gk p.wave g
      let f := (h.w.fragOf p.lane).getD h.frag
      some { h with frag := { f with lanes := bit p.lane } }

/-- Read a register of a place. -/
def State.readReg (s : State) (p : RegPlace) (n : RegName) : Except Nat Word :=
  if !p.fits n true then .error 2
  else match n, s.placed p with
    | .spec .clock, none => .ok (wd (s.clockAt p.core))
    | .spec .clockh, none => if (s.group (gkOf p.core p.slot)).isSome then .error 2 else .ok (wd (s.clockAt p.core / 2 ^ 32))
    | .spec .clockh, some h => .ok (wd (s.clockOf h / 2 ^ 32))
    | .spec .ptpl, _ => .ok (wd (s.ptp / 2 ^ 16))
    | .priv r, some h => .ok (s.privReg p.core h.level (some h.g) h.w r)
    | .priv r, none => if r.scopeNum = 0 then .ok (s.privReg p.core 0 none Wave.init r) else .error 2
    | .spec r, some h => .ok (s.sreg h r p.lane)
    | .spec _, none => .error 2

/-- Write a register of a place; one of core scope takes the value on every core of the partition (R294). -/
def State.writeReg (s : State) (p : RegPlace) (n : RegName) (v : Word) : Except Nat State :=
  if !p.fits n false then .error 2
  else match n with
    | .priv r =>
      if !r.writable then .error 2
      else if r.scopeNum = 0 then
        let o := s.owner p.core
        .ok ((if o ≤ 62 then s.coresOf o else [p.core]).foldl (fun s c => s.setPrivReg c 0 r v) s)
      else match s.placed p with | some _ => .ok (s.setPrivReg p.core (gkOf p.core p.slot) r v) | none => .error 2
    | .spec r =>
      if !r.writable then .error 2
      else match s.placed p with | some h => .ok (s.assignSreg h r v (fun _ => v)) | none => .error 2

/-! ## Cluster and device registers (spaces 3 and 4) -/

/-- Clock control register (R350). -/
def Cluster.clockWord (c : Cluster) : Word :=
  0#4 ++ (c.cur ++ (c.tgt ++ (BitVec.ofBool c.busy ++ (0#3 ++ (c.dflt ++ (c.max ++ (c.min ++ (0#3 ++ BitVec.ofBool c.lock))))))))
/-- Steelyard control and status (R355, R357). -/
def Cluster.ctlWord (c : Cluster) : Word := wd ((if c.share then 2 ^ 31 + 256 else c.budget) + 2 ^ 16 * c.age)
def Cluster.statWord (c : Cluster) (now : Nat) : Word := wd (c.load now + 2 ^ 9 * c.waiting.length + 2 ^ 14 * c.peak)

/-- An index field after a write (R350). -/
def indexWrite (old new : BitVec 4) : BitVec 4 := if 8 ≤ new.toNat then old else new

/-- Write clock control (R350, R352). -/
def State.writeClock (s : State) (k : Nat) (v : Word) : State :=
  (s.modCluster k (fun c => { c with
    dflt := indexWrite c.dflt (v.extractLsb' 12 4), max := indexWrite c.max (v.extractLsb' 8 4), min := indexWrite c.min (v.extractLsb' 4 4)
    lock := v.getLsbD 0 })).retarget k

/-- Write Steelyard control (R355, R357). -/
def State.writeSteelyard (s : State) (k : Nat) (v : Word) : State :=
  let now := s.clockAt (4 * k)
  s.modCluster k (fun c =>
    let share := v.getLsbD 31
    { c with
      share := share, age := Nat.max 64 (v.extractLsb' 16 12).toNat, budget := Nat.max 64 (Nat.min 256 (v.extractLsb' 0 9).toNat)
      peak := c.load now, waiting := if share then [] else c.waiting })

/-- Write the throttle register (R359). -/
def State.writeThrottle (s : State) (v : Word) : State :=
  let hold : BitVec 8 := v.extractLsb' 24 8
  s.throttleTo { s.throttle with hold := if hold = 0 then 1 else hold, tlim := v.extractLsb' 16 8, en := v.extractLsb' 8 4 ||| 1 }

/-! ## Phase records (R314) -/

/-- Where the record of a group of the phase queue begins: firmware has set aside a place in the device reserve for each number (log 38). -/
def State.phaseAt (s : State) (p : Phased) : Nat := s.reserveStart + 4096 * (1 + Config.phasePool % 2 ^ 17) + 20480 * p.num

/-- ph.ctl. -/
def State.phaseCtl (s : State) (p : Phased) : Word :=
  let l := s.launch p.launch
  wd (p.pend.length + (if l.det then 2 ^ 8 else 0) + 2 ^ 9 * l.prio + 2 ^ 12 * p.fault + 2 ^ 14 * p.state)

/-- Word `k` of the phase record of a group; that of a saved group holds only words 0 to 7. -/
def State.phaseImage (s : State) (p : Phased) (k : Nat) : Word :=
  let l := s.launch p.launch
  let pend := fun j => (p.pend[j]?).map (fun q => (q.addr, q.seq))
  let thread := fun t => find p.threads t
  match k with
  | 0 => lo32 l.addr
  | 1 => hi32 l.addr
  | 2 => wd p.gid
  | 3 => s.phaseCtl p
  | 4 => p.lseq
  | 5 => p.target
  | 6 => wd p.round
  | 7 => wd (p.round / 2 ^ 32)
  | _ =>
    if p.state = 2 then 0
    else if k < 16 then ((pend ((k - 8) / 2)).map (fun q => if k % 2 = 0 then lo32 q.1 else hi32 q.1)).getD 0
    else if k < 20 then ((pend (k - 16)).map (·.2)).getD 0
    else if k < 28 then p.wrec.extractLsb' (32 * (k - 20)) 32
    else if 32 ≤ k && k < 36 then getD 0 p.ended (k - 32)
    else if 36 ≤ k && k < 40 then ((find p.waves (k - 36)).map (fun v => wd (v.1.toNat + (if v.2 then 2 ^ 16 else 0)))).getD 0
    else if 64 ≤ k && k < 192 then ((thread (k - 64)).map (·.pc.word)).getD 0
    else if 192 ≤ k && k < 320 then ((thread (k - 192)).map (fun x => wd x.wbase)).getD 0
    else if 512 ≤ k && k < 768 then getD 0 p.slots (k - 512)
    else if 1024 ≤ k && k < 5120 then ((thread ((k - 1024) % 128)).map (fun x => x.carry.getD ((k - 1024) / 128) 0)).getD 0
    else 0

/-- The word of a phase record that stands at a DRAM address. -/
def State.phaseWord (s : State) (a : Nat) : Option Word :=
  (s.phased.find? (fun p => s.phaseAt p ≤ a && a < s.phaseAt p + 20480)).map (fun p => s.phaseImage p ((a - s.phaseAt p) / 4))

/-! ## Tables (space 5) -/

/-- Bits of word `k` of a match-table entry that are not reserved (R10, R368). -/
def matchMask (k : Nat) : Word :=
  match k % 8 with | 0 => 1 | 1 => 0 | 2 => 0 | 3 => 0xFFFFC000 | 4 => 0xFFFFC01F | _ => 0xFFFFFFFF

/-- The wave of a trap-record address: none where no group or no such wave is. -/
def State.tableWave (s : State) (core slot wave : Nat) : Option Wave :=
  match s.group (gkOf core slot) with
  | some g => if wave < (s.launch g.launch).waves then some (s.wave (wkOf (gkOf core slot) wave)) else none
  | none => none

/-- A fragment of the wave is held (R297). -/
def Wave.held (w : Wave) : Bool := w.frags.any (fun f => f.mode = .held)

/-- Write a word of a held wave's record: DH fields only, as `hwr` writes them (R302, R373). -/
def State.writeTrap (s : State) (core slot wave word : Nat) (v : Word) : Except Nat State :=
  match s.tableWave core slot wave with
  | none => .error 2
  | some w =>
    let wk := wkOf (gkOf core slot) wave
    let l := (word - 64) / 64
    if !w.held then .error 3
    else .ok (if word < 64 then s else s.writeBlock wk l ((word - 64) % 64) v)

/-- Bits of a landing-ring binding (R251); reserved bits are ignored (R10). -/
def ringCount (b : Word) : Nat := (b.extractLsb' 24 8).toNat + 1
def ringSize (b : Word) : Nat := (b.extractLsb' 16 7).toNat + 1
def ringBase (b : Word) : Nat := (b.extractLsb' 0 11).toNat

/-- Write a landing-ring binding (R251). -/
def State.writeRing (s : State) (core slot : Nat) (v : Word) : Except Nat State :=
  let b := v &&& 0xFF7F07FF
  if 2048 < ringBase b + ringCount b * ringSize b then .error 2
  else .ok { s with rings := insert s.rings (gkOf core slot) { binding := b, next := 0, drops := 0, landed := 0, q7 := [] } }

/-- A word of a slot's full/empty bits. -/
def State.fullWord (s : State) (core slot word : Nat) : Word :=
  maskOf ((List.range 32).filter (fun j => getD false s.full (32768 * core + 2048 * slot + 32 * word + j)))

/-- Write a word of an unoccupied slot's full/empty bits (R373). -/
def State.writeFull (s : State) (core slot word : Nat) (v : Word) : Except Nat State :=
  if (s.group (gkOf core slot)).isSome then .error 3
  else .ok { s with full := putAll false s.full (32768 * core + 2048 * slot + 32 * word) ((List.range 32).map (fun j => (j, v.getLsbD j))) }

/-- A launch-queue entry (R313). -/
def State.queueEntry (s : State) (part e : Nat) : List Word :=
  match (s.launches.filter (fun p => p.2.part = part && p.2.queued))[e]? with
  | none => [0, 0, 0, 0]
  | some p =>
    let l := p.2
    let age := Nat.min 65535 ((s.ptp - l.waits) / Nat.max 1 (s.smallSlice part))
    [wd ((if l.gangWaits then 2 else 1) + 4 * l.prio + 256 * age), wd l.next, lo32 l.addr, hi32 l.addr]

/-- A word of the measurement registers. -/
def State.measWord (s : State) (w : Nat) : Word := (getD 0 s.meas (w / 8)).extractLsb' (32 * (w % 8)) 32

/-- Fields of a table address. -/
structure TableRef where
  table : Nat
  core : Nat
  slot : Nat
  wave : Nat
  part : Nat
  word : Nat
  deriving DecidableEq, Repr

/-- Words of a table for one address, and the bits that its addresses use beside the table number: (word field length, others). -/
def tableShape : Nat → Option (Nat × Nat × Nat)
  | 0 => some (2112, 12, 0xFFFF0000)
  | 1 => some (1024, 10, 0x03FF0000)
  | 2 => some (64, 6, 0x3FFF0000)
  | 3 => some (1, 0, 0x3FFF0000)
  | 4 => some (512, 9, 0)
  | 5 => some (1024, 10, 0x3F00000000)
  | 6 => some (64, 6, 0)
  | _ => none

/-- The table word at `k` words past an address of space 5. -/
def tableRef (a k : Nat) : Option TableRef :=
  match tableShape (bitsOf a 52 8) with
  | none => none
  | some (n, len, mask) =>
    let body := bitsOf a 0 52
    let word := bitsOf a 2 len + k
    if (BitVec.ofNat 52 body &&& ~~~(BitVec.ofNat 52 (mask + 4 * (2 ^ len - 1)))) ≠ 0 || n ≤ word then none
    else some { table := bitsOf a 52 8, core := bitsOf a 16 10, slot := bitsOf a 26 4, wave := bitsOf a 30 2, part := bitsOf a 32 6, word := word }

/-- A session may read a table (R348). -/
def State.tableSeen (s : State) (r : Req) (t : TableRef) : Bool :=
  if t.table ≤ 3 then s.sees r t.core else if t.table = 5 then r.firm || (s.bound r && t.part = r.part) else r.firm

/-- Read a table word. -/
def State.readTable (s : State) (t : TableRef) : Except Nat Word :=
  match t.table with
  | 0 => match s.tableWave t.core t.slot t.wave with
    | some w => .ok (getD 0 w.record t.word)
    | none => .error 2
  | 1 => .ok (getD 0 s.hstore (1024 * t.core + t.word))
  | 2 => .ok (s.fullWord t.core t.slot t.word)
  | 3 => .ok (((find s.rings (gkOf t.core t.slot)).map (·.binding)).getD 0)
  | 4 => .ok (getD 0 s.matchTable t.word)
  | 5 => .ok ((s.queueEntry t.part (t.word / 4)).getD (t.word % 4) 0)
  | _ => .ok (s.measWord t.word)

/-- Write a table word. -/
def State.writeTable (s : State) (t : TableRef) (v : Word) : Except Nat State :=
  match t.table with
  | 0 => s.writeTrap t.core t.slot t.wave t.word v
  | 1 => .ok { s with hstore := put 0 s.hstore (1024 * t.core + t.word) v }
  | 2 => s.writeFull t.core t.slot t.word v
  | 3 => s.writeRing t.core t.slot v
  | 4 => .ok { s with matchTable := put 0 s.matchTable t.word (v &&& matchMask t.word) }
  | _ => .error 2

/-! ## Transfers -/

/-- Read the word `k` words past a management address. -/
def State.chanRead (s : State) (r : Req) (addr k : Nat) : Except Nat Word :=
  let a := bitsOf addr 0 60
  match addr / 2 ^ 60 with
  | 0 =>
    let b := a + 4 * k
    if bitsOf a 40 20 ≠ 0 || !s.chanMapped b then .error 2
    else match s.chanKey r b with
      | none => .error 1
      | some key => match s.phaseWord b with
        | some w => .ok w
        | none => if s.badFor key b then .error 5 else .ok (s.dramWord key b)
  | 1 =>
    let b := a + 4 * k
    if bitsOf a 30 30 ≠ 0 || b % 4 ≠ 0 || 2 ^ 30 < b + 4 then .error 2
    else if !s.sees r (b / 2 ^ 20) then .error 1
    else .ok (wd (natOf ((List.range 4).map (fun j => s.chipByte (b / 2 ^ 20) (b % 2 ^ 20 + j)))))
  | 2 => match regName a with
    | none => .error 2
    | some n => if s.sees r (regPlace a).core then s.readReg (regPlace a) n else .error 1
  | 3 =>
    if bitsOf a 24 36 ≠ 0 || bitsOf a 8 8 ≠ 0 || 2 < bitsOf a 0 8 then .error 2
    else if !r.firm then .error 1
    else
      let c := s.cluster (bitsOf a 16 8)
      .ok (if bitsOf a 0 8 = 0 then c.clockWord else if bitsOf a 0 8 = 1 then c.ctlWord else c.statWord (s.clockAt (4 * bitsOf a 16 8)))
  | 4 => if a ≠ 0 then .error 2 else if !r.firm then .error 1 else .ok s.throttle.word
  | 5 => match tableRef a k with
    | none => .error 2
    | some t => if s.tableSeen r t then s.readTable t else .error 1
  | _ => .error 2

/-- Write the word `k` words past a management address; only sessions with firmware rights write. -/
def State.chanWrite (s : State) (r : Req) (addr k : Nat) (v : Word) : Except Nat State :=
  let a := bitsOf addr 0 60
  match addr / 2 ^ 60 with
  | 0 =>
    let b := a + 4 * k
    if bitsOf a 40 20 ≠ 0 || !s.chanMapped b then .error 2
    else .ok (s.performBytes 255 (if s.reserveStart ≤ b then reserveKey else r.key) b (bytesOf v.toNat 4))
  | 1 =>
    let b := a + 4 * k
    if bitsOf a 30 30 ≠ 0 || b % 4 ≠ 0 || 2 ^ 30 < b + 4 then .error 2
    else .ok ((List.range 4).foldl (fun s j => s.setChip (b / 2 ^ 20) (b % 2 ^ 20 + j) (v.extractLsb' (8 * j) 8)) s)
  | 2 => match regName a with
    | none => .error 2
    | some n => s.writeReg (regPlace a) n v
  | 3 =>
    if bitsOf a 24 36 ≠ 0 || bitsOf a 8 8 ≠ 0 then .error 2
    else if bitsOf a 0 8 = 0 then .ok (s.writeClock (bitsOf a 16 8) v)
    else if bitsOf a 0 8 = 1 then .ok (s.writeSteelyard (bitsOf a 16 8) v)
    else .error 2
  | 4 => if a ≠ 0 then .error 2 else .ok (s.writeThrottle v)
  | 5 => match tableRef a k with
    | none => .error 2
    | some t => s.writeTable t v
  | _ => .error 2

/-- The words of a read. -/
def State.chanWords (s : State) (r : Req) (addr : Nat) : Nat → Nat → Except Nat (List Word)
  | _, 0 => .ok []
  | k, n + 1 => match s.chanRead r addr k with
    | .error e => .error e
    | .ok w => match s.chanWords r addr (k + 1) n with
      | .error e => .error e
      | .ok ws => .ok (w :: ws)

/-- The word of a read whose line has an uncorrectable error, as a DRAM address. -/
def State.chanLoss (s : State) (r : Req) (addr n : Nat) : Option Nat :=
  ((List.range n).find? (fun k => match s.chanRead r addr k with | .error 5 => true | _ => false)).map (fun k => bitsOf addr 0 60 + 4 * k)

/-- Write words in order from an address. -/
def State.chanPut (r : Req) (addr : Nat) : Nat → List Word → State → Except Nat State
  | _, [], s => .ok s
  | k, w :: ws, s => match s.chanWrite r addr k w with
    | .error e => .error e
    | .ok s1 => State.chanPut r addr (k + 1) ws s1

/-- The bytes of a digest register, first byte in bits 7:0. -/
def digestBytes (d : BitVec 256) : List Byte := bytesOf d.toNat 32

/-- Extend a measurement register (R346). -/
def State.extend (s : State) (k : Nat) (x : BitVec 256) : State :=
  { s with meas := put 0 s.meas k (sha256 (digestBytes (getD 0 s.meas k) ++ digestBytes x)) }

/-- Spaces in which a command moves one word (R373). -/
def oneWord (addr : Nat) : Bool := 2 ≤ addr / 2 ^ 60 && addr / 2 ^ 60 ≤ 4

/-- The bytes of a core's handler store. -/
def State.storeBytes (s : State) (core : Nat) : List Byte := wordBytes ((List.range 1024).map (fun k => getD 0 s.hstore (1024 * core + k)))

/-- Command 0x03: nothing is written unless every word can be; a handler image that becomes complete extends m2 (R373). -/
def State.transfer (s : State) (r : Req) (addr : Nat) (data : List Word) : Served :=
  if oneWord addr && data.length ≠ 1 then s.status 2
  else if data = [] || 1016 < data.length then s.status 4
  else match State.chanPut r addr 0 data s with
    | .error e => s.status e
    | .ok s1 =>
      let complete := addr / 2 ^ 52 = 5 * 256 + 1 && bitsOf addr 2 10 + data.length = 1024
      (if complete then s1.extend 2 (sha256 (s1.storeBytes (bitsOf addr 16 10))) else s1).status 0

end Sys2Proof.Machine
end

