-- ==== Sys2Proof/Machine/Manage.lean ====
section
/-! DEFINITION. The commands of the management channel (R251, R297, R320, R344-R348, R350, R355, R359, R366, R371-R375). -/

namespace Sys2Proof.Machine

/-! ## Launches, reads and writes -/

/-- MGMT_SUBMIT_LAUNCH (R12, R313, R371, R372). -/
def execMgmtSubmitLaunch (req : Req) (addr : BitVec 64) (s : State) : Out :=
  s.serve req 0x01 .any (
    if !launchAddrOk addr then s.status 2
    else if 256 ≤ s.queueLen req.part then s.status 3
    else match s.readRecord req.part addr with
      | .error 2 => (s.noteRecord req.part addr).status 5
      | .error _ => (s.noteRecord req.part addr).status 2
      | .ok raw => if !s.queueRoom req.part raw then s.status 3 else ((s.noteRecord req.part addr).acceptRecord req.part req.firm addr raw none).1.status 0)

/-- A session reads no more than its own launch records and the memory map (R348, R374). -/
def State.onlyOwn (s : State) (r : Req) (addr n : Nat) : Bool :=
  addr / 2 ^ 60 = 0 && (List.range n).all (fun k => (s.chanKey r (addr + 4 * k)).isSome)

/-- MGMT_READ (R348, R371-R374). An uncorrectable error sends a containment notice (R312). -/
def execMgmtRead (req : Req) (addr : BitVec 64) (count : Nat) (s : State) : Out :=
  s.serve req 0x02 .any (
    if count = 0 then s.status (if oneWord addr.toNat then 2 else 4)
    else if !s.holds req .part && !s.onlyOwn req addr.toNat count then s.status 1
    else if oneWord addr.toNat && count ≠ 1 then s.status 2
    else match s.chanWords req addr.toNat 0 count with
      | .error e => (match s.chanLoss req addr.toNat count with | some a => s.contain req.part a | none => s).status e
      | .ok ws => { state := s, status := 0, data := ws })

/-- MGMT_WRITE (R371-R373). -/
def execMgmtWrite (req : Req) (addr : BitVec 64) (data : List Word) (s : State) : Out :=
  s.serve req 0x03 .firmware (s.transfer req addr.toNat data)

/-- CLOCK_CONTROL_WRITE (R350, R352, R373). -/
def execClockControlWrite (req : Req) (cluster : Nat) (value : Word) (s : State) : Out :=
  s.serve req 0x03 .firmware (if 256 ≤ cluster then s.status 2 else s.transfer req (3 * 2 ^ 60 + cluster * 2 ^ 16) [value])

/-- STEELYARD_CONTROL_WRITE (R355, R373). -/
def execSteelyardControlWrite (req : Req) (cluster : Nat) (value : Word) (s : State) : Out :=
  s.serve req 0x03 .firmware (if 256 ≤ cluster then s.status 2 else s.transfer req (3 * 2 ^ 60 + cluster * 2 ^ 16 + 1) [value])

/-- THROTTLE_CONTROL_WRITE (R359, R373). -/
def execThrottleControlWrite (req : Req) (value : Word) (s : State) : Out := s.serve req 0x03 .firmware (s.transfer req (4 * 2 ^ 60) [value])

/-- HANDLER_STORE_WRITE (R301, R346, R373). -/
def execHandlerStoreWrite (req : Req) (core word : Nat) (data : List Word) (s : State) : Out :=
  s.serve req 0x03 .firmware (if 1024 ≤ core || 1024 ≤ word then s.status 2 else s.transfer req (tableAddr 1 core 0 0 word) data)

/-- LANDING_RING_BINDING_WRITE (R251, R373). -/
def execLandingRingBindingWrite (req : Req) (core slot : Nat) (value : Word) (s : State) : Out :=
  s.serve req 0x03 .firmware (if 1024 ≤ core || 16 ≤ slot then s.status 2 else s.transfer req (tableAddr 3 core slot 0 0) [value])

/-- FULL_EMPTY_TABLE_WRITE (R373). -/
def execFullEmptyTableWrite (req : Req) (core slot word : Nat) (data : List Word) (s : State) : Out :=
  s.serve req 0x03 .firmware (if 1024 ≤ core || 16 ≤ slot || 64 ≤ word then s.status 2 else s.transfer req (tableAddr 2 core slot 0 word) data)

/-- TRAP_RECORD_WRITE (R302, R373). -/
def execTrapRecordWrite (req : Req) (core slot wave word : Nat) (data : List Word) (s : State) : Out :=
  s.serve req 0x03 .firmware (if 1024 ≤ core || 16 ≤ slot || 4 ≤ wave || 2112 ≤ word then s.status 2 else s.transfer req (tableAddr 0 core slot wave word) data)

/-! ## Held fragments (R297, R303) -/

/-- The held fragment whose wave an address names: a status where there is none. -/
def State.heldAt (s : State) (addr : Nat) : Except Nat Here :=
  if addr / 2 ^ 52 ≠ 5 * 256 then .error 2
  else match tableRef (bitsOf addr 0 60) 0 with
    | none => .error 2
    | some t =>
      let gk := gkOf t.core t.slot
      match t.word, s.group gk, s.tableWave t.core t.slot t.wave with
      | 0, some g, some w => match w.frags.find? (fun f => f.mode = .held) with
        | some f => if g.frozen then .error 3 else .ok { s.hereAt gk t.wave g with frag := f }
        | none => .error 3
      | _, _, _ => .error 2

/-- MGMT_RESUME (R297): it acts as `hret`. -/
def execMgmtResume (req : Req) (addr : BitVec 64) (s : State) : Out :=
  s.serve req 0x04 .firmware (match s.heldAt addr.toNat with
    | .error e => s.status e
    | .ok h => ((s.leaveTrap h).settle h.gk).status 0)

/-- MGMT_KILL (R297): it acts as `hkill` and then `hret`. -/
def execMgmtKill (req : Req) (addr : BitVec 64) (s : State) : Out :=
  s.serve req 0x05 .firmware (match s.heldAt addr.toNat with
    | .error e => s.status e
    | .ok h => ((((lanesOf (getD 0 (s.wave h.wk).record 1)).foldl (fun s l => s.modThread (h.tk l) (fun t => { t with killed := true })) s).leaveTrap h).settle h.gk).status 0)

/-! ## Spatial pre-emption (R320, R328) -/

/-- Slots of a launch's groups on a core. -/
def State.victims (s : State) (n core : Nat) : List Nat := ((s.onCore core).filter (fun p => p.2.launch = n)).map (·.1)

/-- The cores of a victim that a request vacates: those with the fewest of its groups, which a checker runs too (R329), higher numbers first, none with a group that R319
excludes. -/
def State.vacated (s : State) (n count : Nat) : List Nat :=
  let l := s.launch n
  let cores := if l.det then ((s.lcores.filter (fun p => p.2.launch = n)).map (fun p => p.2.phys) ++ (s.checks.filter (fun p => p.2.launch = n)).map (fun p => p.2.core)).eraseDups
    else (List.range 1024).filter (fun c => s.victims n c ≠ [])
  let free := cores.filter (fun c => (s.onCore c).all (fun p => !s.saveBlocked p.1 && !s.fixedPart (s.launch p.2.launch).part))
  let held := fun (c : Nat) => (s.victims n c).length + ((s.checks.filter (fun p => p.2.launch = n && p.2.core = c)).flatMap (fun p => p.2.slots)).length
  (sortBy (fun c => 1024 * held c + (1023 - c)) free).take count

/-- Take a victim's groups from the chosen cores: each is saved by PREEMPTION_SAVE, or its logical core by DET_PREEMPTION_FOLD. -/
def State.vacate (s : State) (n : Nat) (cores : List Nat) : State :=
  if (s.launch n).det then
    State.shiftChecks (n := n) (avoid := cores) { s with lcores := s.lcores.map (fun (p : Nat × LCore) => if p.2.launch = n && cores.contains p.2.phys then (p.1, { p.2 with vacate := cores }) else p) }
  else { s with groups := s.groups.map (fun (p : Nat × Group) => if p.2.launch = n && cores.contains (p.1 / 16) then (p.1, { p.2 with evict := true }) else p) }

/-- MGMT_SPATIAL_PREEMPTION (R320, R371, R372). Firmware names a launch of any partition, first one of its session's own (log 77). -/
def execMgmtSpatialPreemption (req : Req) (victim : BitVec 64) (count prio : Nat) (s : State) : Out :=
  s.serve req 0x06 .firmware (
    let ls := s.launches.filter (fun p => p.2.addr = victim && !p.2.done && p.2.refused.isNone)
    match (ls.filter (fun p => p.2.part = req.part) ++ ls).head? with
    | none => s.status 6
    | some (n, l) =>
      if prio ≤ l.prio then s.status 6
      else
        let cores := s.vacated n count
        { state := (s.vacate n cores).notice 6 (wd count :: cores.map wd), status := 0, data := wd cores.length :: cores.map wd })

/-! ## Keys, measurements and images (R344-R347, R366) -/

/-- MGMT_SCRUB (R344): the lines that carry a key id are rewritten, and carry none. -/
def execMgmtScrub (req : Req) (keyid : Nat) (s : State) : Out :=
  s.serve req 0x07 .firmware (
    if keyid = 0 || 254 < keyid then s.status 4
    else
      let s0 := s.flushAll
      let lines := (s0.tags.filter (fun p => p.2 = keyid)).map (·.1)
      let s1 := ((s0.walks.map (·.1)).filter (fun d => lines.contains (d / 16))).foldl State.noteEntry (s0.dropRaces (Loc.inLine lines.contains))
      { state := { s1 with
          dram := s1.dram.filter (fun c => !lines.contains (lineOf c.1)), bad := s1.bad.filter (fun p => !lines.contains p.1)
          tags := s1.tags.filter (fun p => p.2 ≠ keyid) }
        status := 0, data := [] })

/-- 256 bits of eight words, the first lowest. -/
def wide (ws : List Word) : BitVec 256 := BitVec.ofNat 256 (natOf (wordBytes (ws.take 8)))

/-- MGMT_EXTEND (R346). -/
def execMgmtExtend (req : Req) (reg : Nat) (digest : List Word) (s : State) : Out :=
  s.serve req 0x08 .part (if reg < 4 || 7 < reg || digest.length ≠ 8 then s.status 4 else (s.extend reg (wide digest)).status 0)

/-- Exactly `n` bytes. -/
def fixLen (n : Nat) (bs : List Byte) : List Byte := (List.range n).map (fun k => bs.getD k 0)

/-- Words of a list of bytes. -/
def bytesToWords (bs : List Byte) : List Word := (List.range (bs.length / 4)).map (fun k => wd (natOf ((bs.drop (4 * k)).take 4)))

/-- The signed part of the report (R347). -/
def State.reportBody (s : State) (r : Req) (nonce : List Word) : List Byte :=
  bytesOf 1 4 ++ bytesOf (if r.firm then 0xFF else r.part) 4 ++ bytesOf s.svn.toNat 8 ++ fixLen 32 (wordBytes nonce)
    ++ ((List.range 8).map (fun k => digestBytes (getD 0 s.meas k))).flatten
    ++ (if r.firm then List.replicate 32 0 else digestBytes (sha256 (bytesOf (s.partEntry r.part).toNat 128)))
    ++ fixLen 32 Config.devicePublicKey ++ bytesOf (s.ptp / 2 ^ 16) 8 ++ bytesOf (s.ptp % 2 ^ 16) 2 ++ List.replicate 6 0

/-- MGMT_ATTESTATION_REPORT (R347). -/
def execMgmtAttestationReport (req : Req) (nonce : List Word) (s : State) : Out :=
  s.serve req 0x09 .any (
    if nonce.length ≠ 8 then s.status 4
    else
      let body := s.reportBody req nonce
      { state := s, status := 0, data := bytesToWords (body ++ fixLen 7856 (Config.slhSign body)) })

/-- MGMT_DOORBELL (R294, R371, R372). -/
def execMgmtDoorbell (req : Req) (cores : List Word) (s : State) : Out :=
  s.serve req 0x0A .firmware (
    if cores.length ≠ 32 then s.status 4
    else ((List.range 1024).foldl (fun s c => if (cores.getD (c / 32) 0).getLsbD (c % 32) then s.modCore c (fun v => { v with fwbell := 1 }) else s) s).status 0)

/-- A byte of the image being loaded. -/
def State.imageNat (s : State) (a n : Nat) : Nat := natOf ((List.range n).map (fun k => getD 0 s.image (a + k)))
/-- Bytes of the image. -/
def State.imageBytes (s : State) (a n : Nat) : List Byte := (List.range n).map (fun k => getD 0 s.image (a + k))

/-- The boot ROM accepts the image (R345): the layout is that of version 1 and ends where the chunks end (log 80). -/
def State.imageGood (s : State) : Bool :=
  let l := s.imageNat 8 8
  s.imageNat 0 4 = 1 && s.imageLen = (64 + l + 7856 + 3) / 4 * 4 && sha256 (s.imageBytes 16 32) = Config.fusedKeyDigest && slhVerify (s.imageBytes 16 32) (s.imageBytes 0 (64 + l)) (s.imageBytes (64 + l) 7856)
    && Config.fusedMinSvn.toNat ≤ s.imageNat 4 4 && s.imageNat 48 16 = 0

/-- The configuration that firmware gives each port: free values, since the spec names no command for it (R363, R364, log 78). -/
def State.setPorts (s : State) : State :=
  let (n, s1) := s.takeFresh
  let pick := fun (k : Nat) => Config.freeNat n / 9 ^ k
  { s1 with ports := (List.range 18).map (fun k => (k, { Port.init with
      mode := if pick k % 3 = 0 then .gb1600 else if pick k % 3 = 1 then .gb800 else .gb400
      role := if pick k / 3 % 3 = 0 then .passive else if pick k / 3 % 3 = 1 then .timeTransmitter else .timeReceiver })) }

/-- Run an accepted image (R345, R346, R378): it is measured and sets the ports, and training leaves every line with key id 0. -/
def State.startImage (s : State) : State :=
  let l := s.imageNat 8 8
  let s1 := ({ s with svn := wd (s.imageNat 4 4), boot := .running }).setPorts.extend 1 (sha256 (s.imageBytes 0 (64 + l + 7856)))
  if s.boot = .running then s1 else { s1 with dram := [], tags := [], bad := [], marks := [], walks := [], held := [], races := [] }

/-- The image has ended: what is loaded next is another. -/
def State.clearImage (s : State) : State := { s with image := [], imageLen := 0 }

/-- Check the image and run it, or stay as the device is (R345). -/
def State.checkImage (s : State) : State × Nat := if s.imageGood then (s.startImage.clearImage, 0) else (s.clearImage, 6)

/-- MGMT_LOAD_FIRMWARE_IMAGE (R345, R372, R375): the one command that recovery performs, over the management pins. -/
def execMgmtLoadFirmwareImage (req : Req) (offset : BitVec 64) (data : List Word) (s : State) : Out :=
  let r := if data = [] then s.checkImage
    else if 1016 < data.length then (s, 4)
    else ({ s with
      image := putAll 0 s.image offset.toNat ((List.range (4 * data.length)).zip (wordBytes data)), imageLen := Nat.max s.imageLen (offset.toNat + 4 * data.length) }, 0)
  .next (match s.boot with
    | .held => s
    | .recovery => if req.pins then r.1.reply req 0x0B r.2 [] else s
    | .running => if req.firm then r.1.reply req 0x0B r.2 [] else s.reply req 0x0B 1 [])

/-- MGMT_LOAD_TRANSPORT_KEY (R366, R372). -/
def execMgmtLoadTransportKey (req : Req) (keyid : Nat) (key : BitVec 256) (s : State) : Out :=
  s.serve req 0x0C .firmware (
    if 255 < keyid then s.status 4
    else if s.conns.any (fun p => p.2.key = keyid && p.2 ≠ Conn.init) then s.status 6
    else ({ s with tkeys := insert s.tkeys keyid key }).status 0)

end Sys2Proof.Machine
end

