-- ==== Sys2Proof/Machine/Fabric.lean ====
section
/-! DEFINITION. The fabric ports: frames, the match table and landing rings, the transport, and PTP messages (R251-R253, R363-R368, R371). -/

namespace Sys2Proof

/-- The header's bytes (R365). -/
def TFrame.header (f : TFrame) : List Byte :=
  Machine.bytesOf (f.addr.toNat + 2 ^ 80 * f.len + 2 ^ 96 * f.sack.toNat + 2 ^ 128 * f.ack.toNat + 2 ^ 160 * f.seq.toNat + 2 ^ 192 * f.conn + 2 ^ 208 * f.res0
    + 2 ^ 64 * f.res1 + 2 ^ 216 * f.keyid + 2 ^ 224 * f.dst + 2 ^ 236 * f.src + 2 ^ 248 * f.type + 2 ^ 252 * f.ver) 32

/-- The nonce's bytes, first field first (R366). -/
def TFrame.nonce (f : TFrame) : List Byte := (Machine.bytesOf (2 ^ 84 * f.src + 2 ^ 72 * f.dst + 2 ^ 56 * f.conn + 2 ^ 24 * f.seq.toNat) 12).reverse

end Sys2Proof

namespace Sys2Proof.Machine

/-- A frame that the device sends, sealed (R365, R366). -/
def Wire.frame (w : Wire) : Option TFrame := w.key.map (fun key =>
  let f : TFrame := { ver := 1, type := w.type, src := w.src, dst := w.node, keyid := w.keyid, conn := w.conn, seq := w.seq, ack := w.ack, sack := w.sack,
                      len := w.payload.length, addr := w.addr, payload := [], tag := [] }
  let p := gcmSeal key f.nonce f.header w.payload
  { f with payload := p.1, tag := p.2 })

/-! ## Landing (R252, R253) -/

/-- First granule of entry `j` of a ring, within its slot. -/
def Ring.entry (r : Ring) (j : Nat) : Nat := ringBase r.binding + j * ringSize r.binding

/-- Count a frame that a ring drops (R252). -/
def State.dropAt (s : State) (gk : Nat) (r : Ring) : State := { s with rings := insert s.rings gk { r with drops := r.drops + 1 } }

/-- Count a frame that a port drops (R363, R368). -/
def State.dropPort (s : State) (port : Nat) : State := { s with drops := put 0 s.drops port (getD 0 s.drops port + 1) }

/-- The notification of a landing (R253). -/
def landingBeat (r : Ring) (bytes landed port rule skip ns frac : Nat) : Beat :=
  beatOf [wd (16 * r.entry r.next), wd landed, wd bytes, wd ((if landed < bytes - skip then 1 else 0) + (if r.drops = 0 then 0 else 2)), r.drops,
    wd rule, wd ns, wd (ns / 2 ^ 32), wd frac, wd port, r.landed + 1]

/-- The free check of a landing acquires at core scope from the releases that emptied the granules (R252, R254). -/
def State.freeCheck (s : State) (core gk : Nat) (granules : List Nat) : State :=
  let part := ((s.group gk).map (fun g => (s.launch g.launch).part)).getD 255
  s.pass (ofSyncs ((granules.flatMap (fun g => getD [] s.gsync g)).filter (fun t => inScope t.scope t.core t.part core part && t.core = core))) [.landing gk]

/-- Write the words of a landing at byte `o` of a core's scratchpad, zero past the bytes of the frame (R252). -/
def State.landWords (s : State) (who : Actor) (o n : Nat) (bs : List Byte) : State :=
  (List.range n).foldl (fun s k => s.engineWrite who (natOf ((bs.drop (4 * k)).take 4)) ((List.range 4).map (fun j => .chip who.core (o + 4 * k + j)))) s

/-- PACKET_LANDING (R252, R253). -/
def execPacketLanding (port core slot rule skip : Nat) (stampNs : BitVec 64) (stampFrac : BitVec 16) (bytes : List Byte) (s : State) : Out :=
  let gk := gkOf core slot
  if 18 ≤ port then .next s
  else match find s.rings gk with
  | none => .next (s.dropPort port)
  | some r =>
    let body := bytes.drop skip
    let granule := fun k => 32768 * core + 2048 * slot + r.entry r.next + k
    if body = [] || (s.group gk).isNone || (List.range (ringSize r.binding)).any (fun k => getD false s.full (granule k)) || 64 ≤ r.q7.length then
      .next (s.dropAt gk r)
    else
      let landed := body.take (16 * ringSize r.binding)
      let n := (landed.length + 15) / 16
      let s1 := (s.freeCheck core gk ((List.range (ringSize r.binding)).map granule)).landWords (s.engineOf core slot (.landing gk)) (32768 * slot + 16 * r.entry r.next) (4 * n) landed
      let s2 := ((List.range n).foldl (fun s k => s.turnGranule (granule k) true []) s1).pass (· = .landing gk) [.queue gk 7]
      .next { s2 with
        rings := insert s.rings gk { r with
          next := (r.next + 1) % ringCount r.binding, drops := 0, landed := r.landed + 1
          q7 := r.q7 ++ [landingBeat r bytes.length landed.length port rule skip stampNs.toNat stampFrac.toNat] } }

/-! ## The match table (R368) -/

/-- A number of bytes in network order. -/
def netNat (bs : List Byte) : Nat := bs.foldl (fun n b => 256 * n + b.toNat) 0
/-- `n` bytes of a frame from offset `o`, in network order. -/
def frameNat (bs : List Byte) (o n : Nat) : Nat := netNat ((bs.drop o).take n)

/-- A field of match-table entry `e`. -/
def State.mt (s : State) (e lo len : Nat) : Nat :=
  (natOf (wordBytes ((List.range 8).map (fun k => getD 0 s.matchTable (8 * e + k))))) / 2 ^ lo % 2 ^ len

/-- Offset of the UDP header of an IPv4 UDP frame (RFC 791, 768; log 20). -/
def udpAt (bs : List Byte) : Option Nat :=
  if frameNat bs 12 2 = 0x0800 && frameNat bs 23 1 = 17 then some (14 + 4 * (frameNat bs 14 1 % 16)) else none

/-- Entry `e` matches a frame of a port. -/
def State.matches (s : State) (e port : Nat) (bs : List Byte) : Bool :=
  let ip := BitVec.ofNat 32 (s.mt e 224 32)
  let mask := BitVec.ofNat 32 (s.mt e 192 32)
  let dst := BitVec.ofNat 32 (frameNat bs 30 4)
  s.mt e 0 1 = 1 && (s.mt e 142 18).testBit port && s.mt e 176 16 = frameNat bs 12 2
    && (mask = 0 || (frameNat bs 12 2 = 0x0800 && (dst ^^^ ip) &&& mask = 0))
    && (s.mt e 132 1 = 0 || (match udpAt bs with | some o => frameNat bs (o + 2) 2 = s.mt e 160 16 | none => false))

/-- The transport frame in an Ethernet frame (R365); none where the frame is too short for it. -/
def frameOf (bs : List Byte) : Option TFrame :=
  let h := natOf ((bs.drop 14).take 32)
  let f := fun lo len => h / 2 ^ lo % 2 ^ len
  let n := f 80 16
  if bs.length < 62 + n then none
  else some { ver := f 252 4, type := f 248 4, src := f 236 12, dst := f 224 12, keyid := f 216 8, conn := f 192 16, seq := wd (f 160 32),
              ack := wd (f 128 32), sack := wd (f 96 32), len := n, addr := BitVec.ofNat 64 (f 0 64),
              payload := (bs.drop 46).take n, tag := (bs.drop (46 + n)).take 16, res0 := f 208 8, res1 := f 64 16 }

/-- What a good frame is passed on as: the event that follows it, none where it is dropped (R363, R364, R368). -/
def State.follow (s : State) (port : Nat) (bs : List Byte) : Option Instr :=
  let etype := frameNat bs 12 2
  if etype = 0x88B5 then (frameOf bs).map Instr.transportFrameReceive
  else if etype = 0x88F7 then some (.ptpEventMessage port bs)
  else match (List.range 64).find? (fun e => s.matches e port bs) with
    | none => none
    | some e =>
      let core := s.mt e 114 10
      let slot := s.mt e 110 4
      if (find s.rings (gkOf core slot)).isNone then none
      else some (.packetLanding port core slot e (s.mt e 124 8) (BitVec.ofNat 64 (s.ptp / 2 ^ 16)) (BitVec.ofNat 16 s.ptp) bs)

/-- A port takes a priority flow control frame (IEEE 802.1Qbb, log 20): the classes that it enables pause for a number of quanta of 512 bit times;
classes past 1 are not honoured (R363). -/
def Port.pause (p : Port) (bs : List Byte) (now : Nat) : Port :=
  let stop := fun (k old : Nat) => if (frameNat bs 16 2).testBit k then now + frameNat bs (18 + 2 * k) 2 * 512 * 65536 / p.mode.rate else old
  { p with pause0 := stop 0 p.pause0, pause1 := stop 1 p.pause1 }

/-- FRAME_RECEIVE (R2, R363, R368): a frame of 64 to 9,216 bytes, four of which are its FCS, is passed on where that is good, and what it is passed
on as happens next; a MAC control frame is the port's own. The device has eighteen ports. -/
def execFrameReceive (port : Nat) (bytes : List Byte) (fcsOk : Bool) (s : State) : Out :=
  if 18 ≤ port then .next s
  else if !fcsOk || bytes.length < 60 || 9212 < bytes.length then .next (s.dropPort port)
  else if frameNat bytes 12 2 = 0x8808 then
    .next (if frameNat bytes 14 2 = 0x0101 then { s with ports := put Port.init s.ports port ((getD Port.init s.ports port).pause bytes s.ptp) } else s)
  else match s.follow port bytes with
    | some i => .next { s with inputs := i :: s.inputs }
    | none => .next (s.dropPort port)

/-- A number of bytes in network order. -/
def netBytes (v n : Nat) : List Byte := (bytesOf v n).reverse

/-- A PTP time as a message carries it: 48 bits of seconds and 32 bits of nanoseconds. -/
def ptpTime (ptp : Nat) : Nat := 2 ^ 32 * (ptp / 2 ^ 16 / 1000000000) + ptp / 2 ^ 16 % 1000000000

/-- A PTP message of a port as a frame without its FCS: the type, the sequence number, the time and what follows it (IEEE 1588-2019 and IEEE 802.3,
log 78). -/
def ptpMessage (port type seq time : Nat) (rest : List Byte) : List Byte :=
  let body := netBytes time 10 ++ rest
  netBytes 0x011B19000000 6 ++ List.replicate 6 0 ++ netBytes 0x88F7 2
    ++ netBytes type 1 ++ netBytes 2 1 ++ netBytes (34 + body.length) 2 ++ List.replicate 24 0 ++ netBytes (port + 1) 2 ++ netBytes seq 2 ++ List.replicate 2 0 ++ body

/-- A port sends a PTP message. -/
def State.ptpSend (s : State) (port : Nat) (bs : List Byte) : State := { s with ptpOut := s.ptpOut ++ [(port, bs)] }

/-- A `timeTransmitter` port whose next Sync is due sends it, stamped as it leaves, and takes a free time to the next (R364, log 78). -/
def State.ptpSync (s : State) (port : Nat) : State :=
  let p := getD Port.init s.ports port
  let (n, s1) := s.takeFresh
  let s2 := s1.ptpSend port (ptpMessage port 0 p.syncNum (ptpTime s.ptp) [])
  { s2 with
    ports := put Port.init s2.ports port { p with syncNum := (p.syncNum + 1) % 65536, syncAt := s.ptp + Config.freeNat n + 1 }
    ptpStamps := put 0 s2.ptpStamps port s.ptp }

/-- What a PTP message leaves at a port (IEEE 1588-2019, log 78): a `timeReceiver` keeps the latest Sync, whose time a two-step one takes from its
Follow_Up, and the latest Delay_Resp; a `timeTransmitter` keeps the latest Delay_Req. -/
def Port.take (p : Port) (bs : List Byte) (now : Nat) : Port :=
  let type := frameNat bs 14 1 % 16
  let seq := frameNat bs 44 2
  let time := frameNat bs 48 10
  let twoStep := frameNat bs 20 1 / 2 % 2 = 1
  match p.role, type with
  | .timeReceiver, 0 => { p with sync := some { seq := seq, carried := if twoStep then none else some time, passed := now } }
  | .timeReceiver, 8 => { p with sync := p.sync.map (fun x => if x.seq = seq then { x with carried := some time } else x) }
  | .timeReceiver, 9 => { p with response := some { seq := seq, carried := some time, passed := now } }
  | .timeTransmitter, 1 => { p with request := some { seq := seq, carried := none, passed := now } }
  | _, _ => p

/-- The answer of a port to a PTP message: a `timeTransmitter` answers a delay request with the time at which it came, and a `timeReceiver` sends its
delay request after each Sync (log 78). -/
def State.ptpAnswer (s : State) (port : Nat) (bs : List Byte) : State :=
  let p := getD Port.init s.ports port
  match p.role, frameNat bs 14 1 % 16 with
  | .timeTransmitter, 1 => s.ptpSend port (ptpMessage port 9 (frameNat bs 44 2) (ptpTime s.ptp) ((bs.drop 34).take 10))
  | .timeReceiver, 0 =>
    let n := ((p.asked.map (·.seq)).getD 0 + 1) % 65536
    let s1 := s.ptpSend port (ptpMessage port 1 n 0 [])
    { s1 with
      ports := put Port.init s1.ports port { p with asked := some { seq := n, carried := none, passed := s.ptp } }
      ptpStamps := put 0 s1.ptpStamps port s.ptp }
  | _, _ => s

/-- PTP_EVENT_MESSAGE (R364): an event message (IEEE 1588 message types 0-3, log 20) is timestamped, the port keeps what the servo uses, and it
answers. -/
def execPtpEventMessage (port : Nat) (bytes : List Byte) (s : State) : Out :=
  if 18 ≤ port then .next s
  else
    let s1 : State := { s with ports := put Port.init s.ports port ((getD Port.init s.ports port).take bytes s.ptp) }
    .next ((if frameNat bytes 14 1 % 16 < 4 then { s1 with ptpStamps := put 0 s1.ptpStamps port s.ptp } else s1).ptpAnswer port bytes)

/-! ## Commands in frames (R371, R372) -/

/-- The payload that the bytes of a command carry (R375): on the pins, none unless the header byte, the length and the CRC of a transaction hold. -/
def payloadOf (r : Req) (raw : List Byte) (crc : Word) : Option (List Byte) :=
  if !r.pins then some raw
  else
    let n := natOf ((raw.drop 1).take 2)
    if raw.head? = some 0x5A && n ≤ 4084 && raw.length = n + 3 && crc = crc32 (raw.drop 1) then some (raw.drop 3) else none

/-- The bytes of a reply transaction after its header (R375): the length, the payload and the CRC. -/
def replyBytes (ws : List Word) : List Byte :=
  let bs := bytesOf (4 * ws.length) 2 ++ wordBytes ws
  bs ++ bytesOf (crc32 bs).toNat 4

/-- MGMT_PIN_REPLY_READ (R375): the oldest waiting reply or notice leaves; with none waiting the header is not acknowledged. -/
def execMgmtPinReplyRead (s : State) : Out :=
  .next (match s.outbox.find? (·.pins) with
    | some m => { s with outbox := s.outbox.erase m, pinReply := replyBytes m.words, pinAck := some true }
    | none => { s with pinReply := [], pinAck := some false })

/-- The command that a payload carries (R372): none of an unknown code or layout. -/
def decodeCommand (r0 : Req) (bs : List Byte) : Option Instr :=
  let ws := bytesToWords bs
  let w := fun k => ws.getD k 0
  let op := (w 0).toNat % 256
  let r := { r0 with tag := (w 0).toNat / 65536 }
  let addr := pair64 (w 2) (w 3)
  let count := (w 4).toNat
  let data := ws.drop 5
  let d := fun k => data.getD k 0
  if bs.length % 4 ≠ 0 || ws.length < 5 || (w 0).toNat / 256 % 256 ≠ 0 || w 1 ≠ 0 || (op ≠ 2 && data.length ≠ count) || (op = 2 && data ≠ []) then none
  else match op with
    | 0x01 => if data = [] then some (.mgmtSubmitLaunch r addr) else none
    | 0x02 => some (.mgmtRead r addr count)
    | 0x03 => some (.mgmtWrite r addr data)
    | 0x04 => if data = [] then some (.mgmtResume r addr) else none
    | 0x05 => if data = [] then some (.mgmtKill r addr) else none
    | 0x06 => if addr = 0 && count = 4 then some (.mgmtSpatialPreemption r (pair64 (d 0) (d 1)) (d 2).toNat (d 3).toNat) else none
    | 0x07 => if addr = 0 && count = 1 then some (.mgmtScrub r (d 0).toNat) else none
    | 0x08 => if addr = 0 && count = 9 then some (.mgmtExtend r (d 0).toNat (data.drop 1)) else none
    | 0x09 => if addr = 0 then some (.mgmtAttestationReport r data) else none
    | 0x0A => if addr = 0 then some (.mgmtDoorbell r data) else none
    | 0x0B => some (.mgmtLoadFirmwareImage r addr data)
    | 0x0C => if addr = 0 && count = 9 then some (.mgmtLoadTransportKey r (d 0).toNat (wide (data.drop 1))) else none
    | _ => none

/-- MALFORMED_COMMAND (R372, R375): a transaction whose CRC does not hold performs nothing and its last byte is not acknowledged, and an unknown code or layout gives status 4. Bytes that
carry a command after all are passed on as that command, which happens next. -/
def execMalformedCommand (req : Req) (raw : List Byte) (crc : Word) (s : State) : Out :=
  match payloadOf req raw crc with
  | none => .next (if s.boot = .held then s else { s with pinAck := some false })
  | some bs => match decodeCommand req bs with
    | some i => .next { s with inputs := i :: s.inputs }
    | none => s.serve { req with tag := natOf ((bs.drop 2).take 2) } (natOf (bs.take 1)) .any (s.status 4)

/-! ## The transport (R365-R367) -/

/-- Index of the transport's drop counter, past those of the ports. -/
def transportDrops : Nat := 18

/-- Send an acknowledgement of a connection (R367). It takes no sequence number. -/
def State.sendAck (s : State) (node conn : Nat) : State :=
  let k := 65536 * node + conn
  let c := getD Conn.init s.conns k
  { s with
    conns := put Conn.init s.conns k { c with owed := 0 }
    wire := s.wire ++ [s.wireOf node conn 3 c.key c.next c 0 []] }

/-- Frames before `ack` leave the sender; those that `sack` names are marked (R367). -/
def Conn.acked (c : Conn) (ack sack : Word) : Conn :=
  let gone := fun (x : Sent) => (ack - x.seq - 1).toNat < 2 ^ 31
  let named := fun (x : Sent) => (x.seq - ack - 1).toNat < 32 && sack.getLsbD (x.seq - ack - 1).toNat
  { c with sent := (c.sent.filter (fun x => !gone x)).map (fun x => if named x then { x with marked := true } else x) }

/-- Answer a read of `n` bytes from an address in frames of up to 4,096 bytes (R365); a frame whose bytes cannot be read is empty (log 59). -/
def State.answerRead (s : State) (src conn keyid part : Nat) (addr : BitVec 64) : Nat → Nat → State
  | 0, _ => s
  | k + 1, n =>
    let m := Nat.min n 4096
    let a := bitsOf addr.toNat 0 40
    let bytes := List.range m
    let s1 :=
      if a + m ≤ s.usableTop && !bytes.any (fun j => s.badFor keyid (a + j)) then s.transmit src conn 2 keyid addr (bytes.map (fun j => s.dramByte keyid (a + j)))
      else (s.contain part a).transmit src conn 2 keyid addr []
    if n ≤ 4096 then s1 else s1.answerRead src conn keyid part (addr + 4096) k (n - 4096)

/-- The bytes of a response reach the reads that await them; an empty one says that the read has failed (R365, log 59). -/
def State.takeAnswer (s : State) (node conn a : Nat) (bs : List Byte) : State :=
  { s.answered with asks := s.asks.map (fun (x : Ask) =>
      if x.node = node && x.part = conn && x.addr = a && x.answer.isNone && (bs = [] || x.len ≤ bs.length) then { x with answer := some (if bs = [] then none else some bs) } else x) }

/-- Perform a frame that its turn has come for: the state, and the command that it carries (R338, R365, R371). The notices go from then on to the
node and session from which firmware's last command came (log 34). -/
def State.performFrame (s : State) (src conn keyid : Nat) (f : Nat × BitVec 64 × List Byte) : State × List Instr :=
  let a := bitsOf f.2.1.toNat 0 40
  let part := s.partOfKey keyid
  match f.1 with
  | 0 => (if a + f.2.2.length ≤ s.usableTop then s.performBytes part keyid a f.2.2 else s.contain part a, [])
  | 1 => (s.answerRead src conn keyid part f.2.1 (natOf f.2.2 / 4096 + 1) (natOf f.2.2), [])
  | 2 => (s.takeAnswer src conn f.2.1.toNat f.2.2, [])
  | 4 =>
    let r : Req := { pins := false, firmware := keyid = 255, part := part, key := keyid, node := src, session := conn, tag := 0 }
    ({ s with noticeTo := if keyid = 255 then some (src, conn) else s.noticeTo }, [(decodeCommand r f.2.2).getD (.malformedCommand r f.2.2 0)])
  | _ => (s, [])

/-- Perform the received frames of a connection in sequence order (R367). -/
def State.performRun (src conn keyid : Nat) : Nat → State → State × List Instr
  | 0, s => (s, [])
  | n + 1, s =>
    let k := 65536 * src + conn
    let c := getD Conn.init s.conns k
    match c.early.find? (fun x => x.1 = c.expect) with
    | none => (s, [])
    | some x =>
      let s1 : State := { s with conns := put Conn.init s.conns k { c with
        expect := c.expect + 1, early := c.early.erase x } }
      let p := s1.performFrame src conn keyid x.2
      let q := State.performRun src conn keyid n p.1
      (q.1, p.2 ++ q.2)

/-- Take a frame whose tag holds into its connection (R367). -/
def State.takeFrame (s : State) (f : TFrame) (payload : List Byte) : State :=
  let k := 65536 * f.src + f.conn
  let c := { (getD Conn.init s.conns k).acked f.ack f.sack with key := f.keyid }
  let s1 : State := { s with conns := put Conn.init s.conns k c }
  if f.type = 3 then s1
  else if 32 ≤ (f.seq - c.expect).toNat || c.early.any (fun x => x.1 = f.seq) then s1.sendAck f.src f.conn
  else
    let s2 : State := { s1 with conns := put Conn.init s1.conns k { c with
      early := c.early ++ [(f.seq, f.type, f.addr, payload)], owed := c.owed + 1, owedAt := if c.owed = 0 then s.ptp else c.owedAt } }
    let p := State.performRun f.src f.conn f.keyid 32 s2
    let s3 : State := { p.1 with inputs := p.2 ++ p.1.inputs }
    if 8 ≤ (getD Conn.init s3.conns k).owed then s3.sendAck f.src f.conn else s3

/-- TRANSPORT_FRAME_RECEIVE (R365-R367). -/
def execTransportFrameReceive (frame : TFrame) (s : State) : Out :=
  .next (
    if frame.ver ≠ 1 || 5 < frame.type || frame.dst ≠ s.node || 4096 < frame.len || frame.len ≠ frame.payload.length then s
    else match find s.tkeys frame.keyid with
      | none => s.dropPort transportDrops
      | some key => match gcmOpen key frame.nonce frame.header frame.payload frame.tag with
        | none => s.dropPort transportDrops
        | some payload => s.takeFrame frame payload)

/-- TRANSPORT_ACK_TIMER (R367): 2 µs with something unacknowledged. -/
def execTransportAckTimer (node conn : Nat) (s : State) : Out :=
  let c := getD Conn.init s.conns (65536 * node + conn)
  .next (if c.owed ≠ 0 && c.owedAt + 2 * micro ≤ s.ptp then s.sendAck node conn else s)

/-- The retry timer of a kept frame has run out (R367). -/
def Sent.late (x : Sent) (now : Nat) : Bool := !x.marked && x.stamp + 16 * micro * 2 ^ x.retries ≤ now

/-- TRANSPORT_RETRY_TIMEOUT (R367): every kept frame that is not marked is sent again, or the connection fails after a seventh retry. -/
def execTransportRetryTimeout (node conn : Nat) (s : State) : Out :=
  let k := 65536 * node + conn
  let c := getD Conn.init s.conns k
  .next (
    if !c.sent.any (fun x => x.late s.ptp) then s
    else if c.sent.any (fun x => x.late s.ptp && 7 ≤ x.retries) then s.failConn node conn
    else
      let again := c.sent.filter (fun x => !x.marked)
      { s with
        conns := put Conn.init s.conns k { c with sent := c.sent.map (fun x => if x.marked then x else { x with retries := x.retries + 1, stamp := s.ptp }) }
        wire := s.wire ++ again.map (fun x => s.wireOf node conn x.type c.key x.seq c x.addr x.payload) })

end Sys2Proof.Machine
end

