-- ==== Sys2Proof/Machine/Boot.lean ====
section
/-! DEFINITION. Reset, and what the device does when firmware changes its tables (R342-R344, R346, R378). -/

namespace Sys2Proof.Machine

/-- RESET_RELEASE (R346, R378): the boot ROM extends m0 and checks the image; without a good one the device is in recovery. -/
def execResetRelease (s : State) : Out :=
  .next (match s.boot with
    | .held =>
      let s1 := { s with boot := .recovery }.extend 0 Config.romDigest
      if s1.image = [] then s1 else s1.checkImage.1
    | .recovery | .running => s)

/-- RESET_ASSERT (R378): the device is as after reset; the outside world and the part's live towers are as they were. -/
def execResetAssert (s : State) : Out := .next { State.reset with inputs := s.inputs, fresh := s.fresh, towers := s.towers }

/-- A new key in a key store slot: what lines of its key id hold was written under the old one, so reads of them give free bytes (R344, log 16). -/
def State.rekey (s : State) (keyid : Nat) : State :=
  let lines := (s.tags.filter (fun p => p.2 = keyid)).map (·.1)
  { s with
    keys := insert s.keys keyid (Config.randomKey s.fresh), fresh := s.fresh + 1
    dram := (lines.flatMap (fun l => (List.range 128).map (fun k => 128 * l + k))).foldl (fun m a => put 0 m a ((Config.freeWord (s.fresh + a)).setWidth 8)) s.dram
    races := (s.dropRaces (Loc.inLine lines.contains)).races }

/-- PARTITION_VALID_SET (R344, R346): the device fills the partition's key slot and measures its entry when it sees part.valid set. -/
def execPartitionValidSet (part : Nat) (s : State) : Out :=
  let valid := s.part part 0 1 = 1
  let seen := getD false s.valids part
  .next (
    if s.boot ≠ .running || 62 < part || decide valid = seen then s
    else if valid then
      let s1 := (s.extend 3 (sha256 (bytesOf (s.partEntry part).toNat 128)))
      { s1 with valids := put false s1.valids part true }.rekey (s.keyOf part)
    else { s with valids := put false s.valids part false })

/-- The unit map's owner of a unit (R343). -/
def State.mappedOwner (s : State) (unit : Nat) : Nat := (s.dramByte reserveKey (s.mm 192 64 + unit)).toNat

/-- Clear one core of a unit whose owner changes (R343). -/
def State.clearCore (s : State) (core : Nat) : State :=
  let s1 := (List.range 16).foldl (fun s k => s.wipeSlot core k) (s.flushCore core)
  let s2 := s1.modCore core (fun c => { c with ops := [], q0 := [], q1 := [], holder := none, loads := [] })
  { s2 with
    acc := dropRange s2.acc (32768 * core) (32768 * core + 32768), accBy := dropRange s2.accBy (32768 * core) (32768 * core + 32768), itags := dropRange s2.itags (32 * core) (32 * core + 32)
    rings := dropRange s2.rings (16 * core) (16 * core + 16), lics := erase s2.lics (pairOf core) }

/-- No translation is cached for some cores (R343). -/
def State.dropCores (s : State) (cs : List Nat) : State :=
  { s with
    walks := (s.walks.map (fun p => (p.1, p.2.filter (fun x => !cs.contains x.2)))).filter (fun p => p.2 ≠ [])
    held := (s.held.map (fun p => (p.1, p.2.filter (fun x => !cs.contains x.2.1)))).filter (fun p => p.2 ≠ []) }

/-- UNIT_OWNER_CHANGE (R343): once every group on the unit is gone, the unit takes the owner that the unit map gives, and its cores are
cleared. -/
def execUnitOwnerChange (unit owner : Nat) (s : State) : Out :=
  .next (
    if s.boot ≠ .running || 128 ≤ unit || s.mappedOwner unit ≠ owner || getD 255 s.owners unit = owner
        || (unitCores unit).any (fun c => s.occupied c ≠ []) then s
    else
      let s1 := (unitCores unit).foldl State.clearCore s
      { s1 with owners := put 255 s1.owners unit owner }.dropCores (unitCores unit))

end Sys2Proof.Machine
end

