-- ==== Sys2Proof/Machine/Convert.lean ====
section
/-! DEFINITION. Conversions (R123-R125). -/

namespace Sys2Proof.Machine

/-- `cvtfs` (R123). -/
def execCvtfs (d a : Reg) (s : State) : Out := daE s d a (fpToInt (-(2 ^ 31)) (2 ^ 31 - 1))

/-- `cvtfz` (R123). -/
def execCvtfz (d a : Reg) (s : State) : Out := daE s d a (fpToInt 0 (2 ^ 32 - 1))

/-- `cvtsf.rz` (R123). -/
def execCvtsfRz (d a : Reg) (s : State) : Out := da s d a (fun x => intToFp .rz x.toInt)

/-- `cvtzf.rz` (R123). -/
def execCvtzfRz (d a : Reg) (s : State) : Out := da s d a (fun x => intToFp .rz x.toNat)

/-- `cvtsf.rn` (R123). -/
def execCvtsfRn (d a : Reg) (s : State) : Out := da s d a (fun x => intToFp .rn x.toInt)

/-- `cvtzf.rn` (R123). -/
def execCvtzfRn (d a : Reg) (s : State) : Out := da s d a (fun x => intToFp .rn x.toNat)

/-- `frint.rn` (R124). -/
def execFrintRn (d a : Reg) (s : State) : Out := daE s d a (fpRint .rn)

/-- `frint.rz` (R124). -/
def execFrintRz (d a : Reg) (s : State) : Out := daE s d a (fpRint .rz)

/-- `frint.dn` (R124). -/
def execFrintDn (d a : Reg) (s : State) : Out := daE s d a (fpRint .dn)

/-- `frint.up` (R124). -/
def execFrintUp (d a : Reg) (s : State) : Out := daE s d a (fpRint .up)

/-- `cvtbf2` (R125). -/
def execCvtbf2 (d a b : Reg) (s : State) : Out := dabE s d a b (narrow2 bf16)

/-- `cvth2` (R125). -/
def execCvth2 (d a b : Reg) (s : State) : Out := dabE s d a b (narrow2 f16)

/-- `cvtbfl` (R125). -/
def execCvtbfl (d a : Reg) (s : State) : Out := daE s d a (widen bf16 false)

/-- `cvtbfh` (R125). -/
def execCvtbfh (d a : Reg) (s : State) : Out := daE s d a (widen bf16 true)

/-- `cvthl` (R125). -/
def execCvthl (d a : Reg) (s : State) : Out := daE s d a (widen f16 false)

/-- `cvthh` (R125). -/
def execCvthh (d a : Reg) (s : State) : Out := daE s d a (widen f16 true)

end Sys2Proof.Machine
end

