-- ==== Sys2Proof/Machine/Float.lean ====
section
/-! DEFINITION. Binary32 instructions (R116-R122). -/

namespace Sys2Proof.Machine

/-- `fadd` (R116). -/
def execFadd (d a b : Reg) (s : State) : Out := dabE s d a b (fp2 f32.add)

/-- `fsub` (R116). -/
def execFsub (d a b : Reg) (s : State) : Out := dabE s d a b (fp2 f32.sub)

/-- `fmul` (R116). -/
def execFmul (d a b : Reg) (s : State) : Out := dabE s d a b (fp2 f32.mul)

/-- `ffma` (R116). -/
def execFfma (d a b : Reg) (s : State) : Out := dDabE s d a b (fun v x y => let r := f32.fma false x.toNat y.toNat v.toNat; (wd r.1, r.2))

/-- `ffms` (R116). -/
def execFfms (d a b : Reg) (s : State) : Out := dDabE s d a b (fun v x y => let r := f32.fma true x.toNat y.toNat v.toNat; (wd r.1, r.2))

/-- `fmin` (R117). -/
def execFmin (d a b : Reg) (s : State) : Out := dabE s d a b (fp2 (f32.pick false))

/-- `fmax` (R117). -/
def execFmax (d a b : Reg) (s : State) : Out := dabE s d a b (fp2 (f32.pick true))

/-- `fabs` (R120). -/
def execFabs (d a : Reg) (s : State) : Out := da s d a (fun x => x &&& 0x7FFFFFFF)

/-- `fneg` (R120). -/
def execFneg (d a : Reg) (s : State) : Out := da s d a (fun x => x ^^^ 0x80000000)

/-- `fseq` (R118). -/
def execFseq (d a b : Reg) (s : State) : Out := dabE s d a b (fun u v => fpTest true u v (fun x y => x.same y))

/-- `fslt` (R118). -/
def execFslt (d a b : Reg) (s : State) : Out := dabE s d a b (fun u v => fpTest false u v (fun x y => x.below y && !x.same y))

/-- `fsle` (R118). -/
def execFsle (d a b : Reg) (s : State) : Out := dabE s d a b (fun u v => fpTest false u v (fun x y => x.below y || x.same y))

/-- `fsun` (R118). -/
def execFsun (d a b : Reg) (s : State) : Out := dabE s d a b (fun u v => fpTest true u v (fun x y => x.isNan || y.isNan))

/-- `fclass` (R119). -/
def execFclass (d a : Reg) (s : State) : Out := da s d a fpClass

/-- `faddmin` (R121). -/
def execFaddmin (d a b : Reg) (s : State) : Out := dDabE s d a b fpAddMin

/-- `fcopysign` (R120). -/
def execFcopysign (d a b : Reg) (s : State) : Out := dab s d a b (fun x y => (x &&& 0x7FFFFFFF) ||| (y &&& 0x80000000))

/-- `fsqrt` (R122). -/
def execFsqrt (d a : Reg) (s : State) : Out := daE s d a fpSqrt

/-- `frcp` (R122). -/
def execFrcp (d a : Reg) (s : State) : Out := daE s d a fpRcp

/-- `frsq` (R122). -/
def execFrsq (d a : Reg) (s : State) : Out := daE s d a fpRsq

/-- `fexp2` (R122). -/
def execFexp2 (d a : Reg) (s : State) : Out := daE s d a fpExp2

/-- `flog2` (R122). -/
def execFlog2 (d a : Reg) (s : State) : Out := daE s d a fpLog2

/-- `fdiv` (R122). -/
def execFdiv (d a b : Reg) (s : State) : Out := dabE s d a b fpDiv

end Sys2Proof.Machine
end

