-- ==== Sys2Proof/Machine/Lane.lean ====
section
/-! DEFINITION. Cross-lane instructions (R127-R129). -/

namespace Sys2Proof.Machine

/-- A move (R127): lane i takes A of lane `src i`, its own A where that lane is not active. -/
def laneMove (s : State) (d a b : Reg) (src : State → Here → Nat → Nat) : Out :=
  produceAll s [d, a, b] [a, b] d (fun s h i =>
    let j := src s h i
    s.reg h (if h.frag.lanes.getLsbD j then j else i) a) noEvents
/-- A reduction over the values of the active lanes: `f` takes each lane's value, the active lanes and the lane written (R128). -/
def laneFold (s : State) (d a : Reg) (f : (Nat → Word) → List Nat → Nat → Word) : Out :=
  produceAll s [d, a] [a] d (fun s h i => f (fun j => s.reg h j a) h.lanes i) noEvents
/-- The active lanes whose value is non-zero (R128). -/
def laneSet (v : Nat → Word) (ls : List Nat) : List Nat := ls.filter (fun j => v j ≠ 0)
/-- The sum of the lanes' values. -/
def laneSum (v : Nat → Word) (ls : List Nat) : Word := ls.foldl (fun t j => t + v j) 0
/-- The lanes' binary32 values. -/
def laneVals (s : State) (h : Here) (a : Reg) : List Val := h.lanes.map (fun j => f32.decode (s.reg h j a).toNat)
/-- The sum of `lfsum` and its event on the lowest active lane (R129). -/
def laneFsum (s : State) (h : Here) (a : Reg) : Word × Ev :=
  let t := sumVals (laneVals s h a)
  let y := f32.encode .rn t.1
  (wd y.1, t.2 ||| y.2)

/-- `lshup` (R127). -/
def execLshup (d a b : Reg) (s : State) : Out := laneMove s d a b (fun s h i => let n := (s.uniform h b).toNat; if i < n then 32 else i - n)

/-- `lshdn` (R127). -/
def execLshdn (d a b : Reg) (s : State) : Out := laneMove s d a b (fun s h i => i + (s.uniform h b).toNat)

/-- `lrot` (R127). -/
def execLrot (d a b : Reg) (s : State) : Out := laneMove s d a b (fun s h i => (i + (s.uniform h b).toNat) % 32)

/-- `lbc` (R127). -/
def execLbc (d a b : Reg) (s : State) : Out := laneMove s d a b (fun s h _ => (s.uniform h b).toNat)

/-- `lperm` (R127). -/
def execLperm (d a b : Reg) (s : State) : Out := laneMove s d a b (fun s h i => (s.reg h i b).toNat)

/-- `lsum` (R128). -/
def execLsum (d a : Reg) (s : State) : Out := laneFold s d a (fun v ls _ => laneSum v ls)

/-- `lmin` (R128). -/
def execLmin (d a : Reg) (s : State) : Out := laneFold s d a (fun v ls i => ls.foldl (fun m j => minS m (v j)) (v i))

/-- `lmax` (R128). -/
def execLmax (d a : Reg) (s : State) : Out := laneFold s d a (fun v ls i => ls.foldl (fun m j => maxS m (v j)) (v i))

/-- `lfsum` (R129). -/
def execLfsum (d a : Reg) (s : State) : Out := 
  produceAll s [d, a] [a] d (fun s h _ => (laneFsum s h a).1) (fun s h =>
    let one := (laneFsum s h a).2
    let nans := (laneVals s h a).filter Val.isNan
    addEvents (countEvents [one ||| evIf (nans.any Val.isSig) evInvalid]) (countEvents (nans.map (fun _ => evNan))))

/-- `lscan` (R128). -/
def execLscan (d a : Reg) (s : State) : Out := laneFold s d a (fun v ls i => laneSum v (ls.filter (· ≤ i)))

/-- `ballot` (R128). -/
def execBallot (d a : Reg) (s : State) : Out := laneFold s d a (fun v ls _ => maskOf (laneSet v ls))

/-- `vany` (R128). -/
def execVany (d a : Reg) (s : State) : Out := laneFold s d a (fun v ls _ => flagWord (laneSet v ls ≠ []))

/-- `vall` (R128). -/
def execVall (d a : Reg) (s : State) : Out := laneFold s d a (fun v ls _ => flagWord ((laneSet v ls).length = ls.length))

/-- `lfirst` (R128). -/
def execLfirst (d a : Reg) (s : State) : Out := laneFold s d a (fun v ls _ => wd ((laneSet v ls).headD 32))

/-- `lcount` (R128). -/
def execLcount (d a : Reg) (s : State) : Out := laneFold s d a (fun v ls _ => wd (laneSet v ls).length)

/-- `lmatch` (R128). -/
def execLmatch (d a : Reg) (s : State) : Out := laneFold s d a (fun v ls i => maskOf (ls.filter (fun j => v j = v i)))

end Sys2Proof.Machine
end

