-- ==== Sys2Proof/Machine/Packed.lean ====
section
/-! DEFINITION. Packed 16-bit arithmetic (R126). -/

namespace Sys2Proof.Machine

/-- `bfadd2` (R126). -/
def execBfadd2 (d a b : Reg) (s : State) : Out := dabE s d a b (packed2 bf16.add)

/-- `bfmul2` (R126). -/
def execBfmul2 (d a b : Reg) (s : State) : Out := dabE s d a b (packed2 bf16.mul)

/-- `bffma2` (R126). -/
def execBffma2 (d a b : Reg) (s : State) : Out := dDabE s d a b (packed3 bf16)

/-- `bfmin2` (R126). -/
def execBfmin2 (d a b : Reg) (s : State) : Out := dabE s d a b (packed2 (bf16.pick false))

/-- `bfmax2` (R126). -/
def execBfmax2 (d a b : Reg) (s : State) : Out := dabE s d a b (packed2 (bf16.pick true))

/-- `hadd2` (R126). -/
def execHadd2 (d a b : Reg) (s : State) : Out := dabE s d a b (packed2 f16.add)

/-- `hmul2` (R126). -/
def execHmul2 (d a b : Reg) (s : State) : Out := dabE s d a b (packed2 f16.mul)

/-- `hfma2` (R126). -/
def execHfma2 (d a b : Reg) (s : State) : Out := dDabE s d a b (packed3 f16)

end Sys2Proof.Machine
end

