-- ==== Sys2Proof/Machine/Proposal.lean ====
section
/-! DEFINITION. The proposal bank and the draws (R153-R155). -/

namespace Sys2Proof.Machine

/-- Close the proposal of a lane, copying the shadow to the front if it commits (R56). -/
def State.closeBank (s : State) (h : Here) (l : Nat) (commit : Bool) : State :=
  let t := s.thread (h.tk l)
  let s1 := if commit && t.isOpen then
      (List.range 16).foldl (fun s j => s.setFront h l (t.wbase + 16 * t.bank.toNat + j) (getD 0 t.shadow j)) s
    else s
  s1.modThread (h.tk l) (fun t => { t with isOpen := false })

/-- The beadmix word of the group key at counter (hi, lo) (R99, R100). -/
def Here.bead (h : Here) (hi lo : Word) : Word := beadMix h.g.gkeyl h.g.gkeyh lo hi

/-- `popen` (R153). -/
def execPopen (k : BitVec 11) (s : State) : Out :=
  withHere s fun h =>
    let regs := (List.range 16).map (fun j => BitVec.ofNat 7 (16 * k.toNat + j))
    checked s h regs [] (notInHandler s h (
      if h.lanes.any (fun l => (s.thread (h.tk l)).isOpen) then trap s h kState
      else
        let s1 := h.lanes.foldl (fun s l => s.modThread (h.tk l) (fun t =>
          { t with isOpen := true, bank := BitVec.ofNat 3 k.toNat
                   shadow := ((List.range 16).map (fun j => (j, s.front h l (t.wbase + 16 * k.toNat + j)))).filter (fun p => p.2 ≠ 0) })) s
        .next (s1.leave h [] (fun _ => .seq))))

/-- The decision of `accept` in a lane (R154). -/
def acceptLane (s : State) (h : Here) (a b : Reg) (l : Nat) : Bool :=
  acceptTest (h.bead (s.thread (h.tk l)).iter (s.reg h l b)) (s.reg h l a)

/-- `accept` (R154). -/
def execAccept (d a b : Reg) (s : State) : Out :=
  withHere s fun h => checked s h [d, a, b] [a, b] (notInHandler s h (
    if !h.lanes.all (fun l => (s.thread (h.tk l)).isOpen) then trap s h kState
    else
      let s1 := h.lanes.foldl (fun t l =>
        let ok := acceptLane s h a b l
        (t.closeBank h l ok).modThread (h.tk l) (fun th => { th with prop := th.prop + 1, acpt := if ok then th.acpt + 1 else th.acpt })) s
      .next ((s1.produce h d (readsLatch [a, b]) (fun l => flagWord (acceptLane s h a b l))).retire h
        (h.laneEvents (fun l => nanEvents [f32.decode (s.reg h l a).toNat])))))

/-- `pcommit` (R155). -/
def execPcommit (s : State) : Out :=
  withHere s fun h => notInHandler s h (.next ((h.lanes.foldl (fun s l => s.closeBank h l true) s).leave h [] (fun _ => .seq)))
/-- `pdrop` (R155). -/
def execPdrop (s : State) : Out :=
  withHere s fun h => notInHandler s h (.next ((h.lanes.foldl (fun s l => s.closeBank h l false) s).leave h [] (fun _ => .seq)))

/-- A draw that is written to d (R155). -/
def draw (s : State) (named reads : List Reg) (d : Reg) (val : Here → Nat → Word) : Out :=
  withHere s fun h => checked s h named reads (notInHandler s h
    (.next ((s.produce h d (readsLatch reads) (val h)).retire h [])))

/-- `rngu` (R155). -/
def execRngu (d b : Reg) (s : State) : Out :=
  draw s [d, b] [b] d (fun h l => h.bead (s.thread (h.tk l)).iter (s.reg h l b))
/-- `rngf` (R155). -/
def execRngf (d b : Reg) (s : State) : Out :=
  draw s [d, b] [b] d (fun h l => drawWord (h.bead (s.thread (h.tk l)).iter (s.reg h l b)))
/-- `gkey` (R155). -/
def execGkey (d a b : Reg) (s : State) : Out :=
  draw s [d, a, b] [a, b] d (fun h l => h.bead (s.reg h l a) (s.reg h l b))

end Sys2Proof.Machine
end

