-- ==== Sys2Proof/Machine/Dispatch.lean ====
section
/-! DEFINITION. The meaning of every instruction and event: one arm per constructor of `Instr`. -/

namespace Sys2Proof.Machine

def exec (i : Instr) (s : State) : Host.Outcome State Fault Refusal :=
  match i with
  | .add d a b => Sys2Proof.Machine.execAdd d a b s
  | .sub d a b => Sys2Proof.Machine.execSub d a b s
  | .mul d a b => Sys2Proof.Machine.execMul d a b s
  | .mulhs d a b => Sys2Proof.Machine.execMulhs d a b s
  | .mulhz d a b => Sys2Proof.Machine.execMulhz d a b s
  | .and d a b => Sys2Proof.Machine.execAnd d a b s
  | .or d a b => Sys2Proof.Machine.execOr d a b s
  | .xor d a b => Sys2Proof.Machine.execXor d a b s
  | .andn d a b => Sys2Proof.Machine.execAndn d a b s
  | .shl d a b => Sys2Proof.Machine.execShl d a b s
  | .shrz d a b => Sys2Proof.Machine.execShrz d a b s
  | .shrs d a b => Sys2Proof.Machine.execShrs d a b s
  | .mins d a b => Sys2Proof.Machine.execMins d a b s
  | .maxs d a b => Sys2Proof.Machine.execMaxs d a b s
  | .minz d a b => Sys2Proof.Machine.execMinz d a b s
  | .maxz d a b => Sys2Proof.Machine.execMaxz d a b s
  | .seq d a b => Sys2Proof.Machine.execSeq d a b s
  | .sne d a b => Sys2Proof.Machine.execSne d a b s
  | .slts d a b => Sys2Proof.Machine.execSlts d a b s
  | .sltz d a b => Sys2Proof.Machine.execSltz d a b s
  | .sles d a b => Sys2Proof.Machine.execSles d a b s
  | .slez d a b => Sys2Proof.Machine.execSlez d a b s
  | .sel d a b => Sys2Proof.Machine.execSel d a b s
  | .clz d a => Sys2Proof.Machine.execClz d a s
  | .popc d a => Sys2Proof.Machine.execPopc d a s
  | .brev d a => Sys2Proof.Machine.execBrev d a s
  | .bfxs d a b => Sys2Proof.Machine.execBfxs d a b s
  | .bfxz d a b => Sys2Proof.Machine.execBfxz d a b s
  | .bfi d a b => Sys2Proof.Machine.execBfi d a b s
  | .addss d a b => Sys2Proof.Machine.execAddss d a b s
  | .subss d a b => Sys2Proof.Machine.execSubss d a b s
  | .mac d a b => Sys2Proof.Machine.execMac d a b s
  | .addmin d a b => Sys2Proof.Machine.execAddmin d a b s
  | .addmax d a b => Sys2Proof.Machine.execAddmax d a b s
  | .absd d a b => Sys2Proof.Machine.execAbsd d a b s
  | .divs d a b => Sys2Proof.Machine.execDivs d a b s
  | .divz d a b => Sys2Proof.Machine.execDivz d a b s
  | .rems d a b => Sys2Proof.Machine.execRems d a b s
  | .remz d a b => Sys2Proof.Machine.execRemz d a b s
  | .fadd d a b => Sys2Proof.Machine.execFadd d a b s
  | .fsub d a b => Sys2Proof.Machine.execFsub d a b s
  | .fmul d a b => Sys2Proof.Machine.execFmul d a b s
  | .ffma d a b => Sys2Proof.Machine.execFfma d a b s
  | .ffms d a b => Sys2Proof.Machine.execFfms d a b s
  | .fmin d a b => Sys2Proof.Machine.execFmin d a b s
  | .fmax d a b => Sys2Proof.Machine.execFmax d a b s
  | .fabs d a => Sys2Proof.Machine.execFabs d a s
  | .fneg d a => Sys2Proof.Machine.execFneg d a s
  | .fseq d a b => Sys2Proof.Machine.execFseq d a b s
  | .fslt d a b => Sys2Proof.Machine.execFslt d a b s
  | .fsle d a b => Sys2Proof.Machine.execFsle d a b s
  | .fsun d a b => Sys2Proof.Machine.execFsun d a b s
  | .fclass d a => Sys2Proof.Machine.execFclass d a s
  | .faddmin d a b => Sys2Proof.Machine.execFaddmin d a b s
  | .fcopysign d a b => Sys2Proof.Machine.execFcopysign d a b s
  | .fsqrt d a => Sys2Proof.Machine.execFsqrt d a s
  | .frcp d a => Sys2Proof.Machine.execFrcp d a s
  | .frsq d a => Sys2Proof.Machine.execFrsq d a s
  | .fexp2 d a => Sys2Proof.Machine.execFexp2 d a s
  | .flog2 d a => Sys2Proof.Machine.execFlog2 d a s
  | .fdiv d a b => Sys2Proof.Machine.execFdiv d a b s
  | .cvtfs d a => Sys2Proof.Machine.execCvtfs d a s
  | .cvtfz d a => Sys2Proof.Machine.execCvtfz d a s
  | .cvtsfRz d a => Sys2Proof.Machine.execCvtsfRz d a s
  | .cvtzfRz d a => Sys2Proof.Machine.execCvtzfRz d a s
  | .cvtsfRn d a => Sys2Proof.Machine.execCvtsfRn d a s
  | .cvtzfRn d a => Sys2Proof.Machine.execCvtzfRn d a s
  | .frintRn d a => Sys2Proof.Machine.execFrintRn d a s
  | .frintRz d a => Sys2Proof.Machine.execFrintRz d a s
  | .frintDn d a => Sys2Proof.Machine.execFrintDn d a s
  | .frintUp d a => Sys2Proof.Machine.execFrintUp d a s
  | .cvtbf2 d a b => Sys2Proof.Machine.execCvtbf2 d a b s
  | .cvth2 d a b => Sys2Proof.Machine.execCvth2 d a b s
  | .cvtbfl d a => Sys2Proof.Machine.execCvtbfl d a s
  | .cvtbfh d a => Sys2Proof.Machine.execCvtbfh d a s
  | .cvthl d a => Sys2Proof.Machine.execCvthl d a s
  | .cvthh d a => Sys2Proof.Machine.execCvthh d a s
  | .bfadd2 d a b => Sys2Proof.Machine.execBfadd2 d a b s
  | .bfmul2 d a b => Sys2Proof.Machine.execBfmul2 d a b s
  | .bffma2 d a b => Sys2Proof.Machine.execBffma2 d a b s
  | .bfmin2 d a b => Sys2Proof.Machine.execBfmin2 d a b s
  | .bfmax2 d a b => Sys2Proof.Machine.execBfmax2 d a b s
  | .hadd2 d a b => Sys2Proof.Machine.execHadd2 d a b s
  | .hmul2 d a b => Sys2Proof.Machine.execHmul2 d a b s
  | .hfma2 d a b => Sys2Proof.Machine.execHfma2 d a b s
  | .lshup d a b => Sys2Proof.Machine.execLshup d a b s
  | .lshdn d a b => Sys2Proof.Machine.execLshdn d a b s
  | .lrot d a b => Sys2Proof.Machine.execLrot d a b s
  | .lbc d a b => Sys2Proof.Machine.execLbc d a b s
  | .lperm d a b => Sys2Proof.Machine.execLperm d a b s
  | .lsum d a => Sys2Proof.Machine.execLsum d a s
  | .lmin d a => Sys2Proof.Machine.execLmin d a s
  | .lmax d a => Sys2Proof.Machine.execLmax d a s
  | .lfsum d a => Sys2Proof.Machine.execLfsum d a s
  | .lscan d a => Sys2Proof.Machine.execLscan d a s
  | .ballot d a => Sys2Proof.Machine.execBallot d a s
  | .vany d a => Sys2Proof.Machine.execVany d a s
  | .vall d a => Sys2Proof.Machine.execVall d a s
  | .lfirst d a => Sys2Proof.Machine.execLfirst d a s
  | .lcount d a => Sys2Proof.Machine.execLcount d a s
  | .lmatch d a => Sys2Proof.Machine.execLmatch d a s
  | .qpush a q => Sys2Proof.Machine.execQpush a q s
  | .qpop d q => Sys2Proof.Machine.execQpop d q s
  | .qtry d a q => Sys2Proof.Machine.execQtry d a q s
  | .qlen d q => Sys2Proof.Machine.execQlen d q s
  | .accept d a b => Sys2Proof.Machine.execAccept d a b s
  | .rngu d b => Sys2Proof.Machine.execRngu d b s
  | .rngf d b => Sys2Proof.Machine.execRngf d b s
  | .gkey d a b => Sys2Proof.Machine.execGkey d a b s
  | .rbegin d a b => Sys2Proof.Machine.execRbegin d a b s
  | .rindex d sel => Sys2Proof.Machine.execRindex d sel s
  | .popen k => Sys2Proof.Machine.execPopen k s
  | .tget d a => Sys2Proof.Machine.execTget d a s
  | .tset d a => Sys2Proof.Machine.execTset d a s
  | .licenceGrant pair => Sys2Proof.Machine.execLicenceGrant pair s
  | .mlictry d => Sys2Proof.Machine.execMlictry d s
  | .mcfg a => Sys2Proof.Machine.execMcfg a s
  | .mma t zero pair alane blane a => Sys2Proof.Machine.execMma t zero pair alane blane a s
  | .mmaOperationEnd core => Sys2Proof.Machine.execMmaOperationEnd core s
  | .mdrain t res drop clr slot b => Sys2Proof.Machine.execMdrain t res drop clr slot b s
  | .mdrainOperationEnd core => Sys2Proof.Machine.execMdrainOperationEnd core s
  | .mzero mask => Sys2Proof.Machine.execMzero mask s
  | .mwait d a => Sys2Proof.Machine.execMwait d a s
  | .mstat d sel => Sys2Proof.Machine.execMstat d sel s
  | .cpy d sparse solo src dst => Sys2Proof.Machine.execCpy d sparse solo src dst s
  | .cpyg d solo idx dst => Sys2Proof.Machine.execCpyg d solo idx dst s
  | .cpys d solo src idx => Sys2Proof.Machine.execCpys d solo src idx s
  | .copyOperationStart core slot => Sys2Proof.Machine.execCopyOperationStart core slot s
  | .copyOperationEnd core slot => Sys2Proof.Machine.execCopyOperationEnd core slot s
  | .cwait d a => Sys2Proof.Machine.execCwait d a s
  | .publish d slot => Sys2Proof.Machine.execPublish d slot s
  | .ld d a slot fe ord scope => Sys2Proof.Machine.execLd d a slot fe ord scope s
  | .st d a slot fe ord scope => Sys2Proof.Machine.execSt d a slot fe ord scope s
  | .ldm d a slot count => Sys2Proof.Machine.execLdm d a slot count s
  | .stm d a slot count => Sys2Proof.Machine.execStm d a slot count s
  | .atom d a slot fn scope => Sys2Proof.Machine.execAtom d a slot fn scope s
  | .atoma d a slot fn scope => Sys2Proof.Machine.execAtoma d a slot fn scope s
  | .feset a slot scope => Sys2Proof.Machine.execFeset a slot scope s
  | .feclr a slot scope => Sys2Proof.Machine.execFeclr a slot scope s
  | .fetest d a slot scope => Sys2Proof.Machine.execFetest d a slot scope s
  | .wne d a slot scope => Sys2Proof.Machine.execWne d a slot scope s
  | .wneTimeout core slot wave lanes => Sys2Proof.Machine.execWneTimeout core slot wave lanes s
  | .rdsr d r => Sys2Proof.Machine.execRdsr d r s
  | .wrsr r a => Sys2Proof.Machine.execWrsr r a s
  | .barsArrive d => Sys2Proof.Machine.execBarsArrive d s
  | .barsWait d a => Sys2Proof.Machine.execBarsWait d a s
  | .phase a => Sys2Proof.Machine.execPhase a s
  | .fence kind scope => Sys2Proof.Machine.execFence kind scope s
  | .setperf a => Sys2Proof.Machine.execSetperf a s
  | .scall a => Sys2Proof.Machine.execScall a s
  | .trap a => Sys2Proof.Machine.execTrap a s
  | .launch d a => Sys2Proof.Machine.execLaunch d a s
  | .phasew slot a b => Sys2Proof.Machine.execPhasew slot a b s
  | .cfetch a => Sys2Proof.Machine.execCfetch a s
  | .codeLoadEnd core seg => Sys2Proof.Machine.execCodeLoadEnd core seg s
  | .cwaits d a => Sys2Proof.Machine.execCwaits d a s
  | .jr a => Sys2Proof.Machine.execJr a s
  | .fjr a => Sys2Proof.Machine.execFjr a s
  | .callr d a => Sys2Proof.Machine.execCallr d a s
  | .wbase imm => Sys2Proof.Machine.execWbase imm s
  | .rgive a c => Sys2Proof.Machine.execRgive a c s
  | .cagat lev src dst => Sys2Proof.Machine.execCagat lev src dst s
  | .crsc lev op src dst => Sys2Proof.Machine.execCrsc lev op src dst s
  | .ca2a lev src dst => Sys2Proof.Machine.execCa2a lev src dst s
  | .cbar lev => Sys2Proof.Machine.execCbar lev s
  | .cred lev op a => Sys2Proof.Machine.execCred lev op a s
  | .cwaitc d a => Sys2Proof.Machine.execCwaitc d a s
  | .collectiveRun launch unit level call => Sys2Proof.Machine.execCollectiveRun launch unit level call s
  | .collectiveEnd core slot level => Sys2Proof.Machine.execCollectiveEnd core slot level s
  | .rclaim d c => Sys2Proof.Machine.execRclaim d c s
  | .addi d a imm => Sys2Proof.Machine.execAddi d a imm s
  | .muli d a imm => Sys2Proof.Machine.execMuli d a imm s
  | .andi d a imm => Sys2Proof.Machine.execAndi d a imm s
  | .ori d a imm => Sys2Proof.Machine.execOri d a imm s
  | .xori d a imm => Sys2Proof.Machine.execXori d a imm s
  | .shli d a imm => Sys2Proof.Machine.execShli d a imm s
  | .shrzi d a imm => Sys2Proof.Machine.execShrzi d a imm s
  | .shrsi d a imm => Sys2Proof.Machine.execShrsi d a imm s
  | .sltsi d a imm => Sys2Proof.Machine.execSltsi d a imm s
  | .sltzi d a imm => Sys2Proof.Machine.execSltzi d a imm s
  | .seqi d a imm => Sys2Proof.Machine.execSeqi d a imm s
  | .minsi d a imm => Sys2Proof.Machine.execMinsi d a imm s
  | .maxsi d a imm => Sys2Proof.Machine.execMaxsi d a imm s
  | .addmini d a imm => Sys2Proof.Machine.execAddmini d a imm s
  | .li d imm => Sys2Proof.Machine.execLi d imm s
  | .lih d imm => Sys2Proof.Machine.execLih d imm s
  | .br disp => Sys2Proof.Machine.execBr disp s
  | .bnz a disp => Sys2Proof.Machine.execBnz a disp s
  | .bz a disp => Sys2Proof.Machine.execBz a disp s
  | .call a disp => Sys2Proof.Machine.execCall a disp s
  | .fjmp disp => Sys2Proof.Machine.execFjmp disp s
  | .hloop a disp => Sys2Proof.Machine.execHloop a disp s
  | .refill a disp => Sys2Proof.Machine.execRefill a disp s
  | .rdpr d r => Sys2Proof.Machine.execRdpr d r s
  | .wrpr r d => Sys2Proof.Machine.execWrpr r d s
  | .ctxsv d a => Sys2Proof.Machine.execCtxsv d a s
  | .ctxld d a => Sys2Proof.Machine.execCtxld d a s
  | .tlbinv a b => Sys2Proof.Machine.execTlbinv a b s
  | .mlicgv a => Sys2Proof.Machine.execMlicgv a s
  | .slotclr a => Sys2Proof.Machine.execSlotclr a s
  | .hwr a b => Sys2Proof.Machine.execHwr a b s
  | .hrd d a => Sys2Proof.Machine.execHrd d a s
  | .hangWatchdogExpiry core slot wave => Sys2Proof.Machine.execHangWatchdogExpiry core slot wave s
  | .scallAggregationExpiry core slot wave => Sys2Proof.Machine.execScallAggregationExpiry core slot wave s
  | .saveWatchdogExpiry core slot => Sys2Proof.Machine.execSaveWatchdogExpiry core slot s
  | .pendingLaunchAccept launch group => Sys2Proof.Machine.execPendingLaunchAccept launch group s
  | .groupAdmission core slot => Sys2Proof.Machine.execGroupAdmission core slot s
  | .phaseBoundary core slot => Sys2Proof.Machine.execPhaseBoundary core slot s
  | .groupReadmission core slot => Sys2Proof.Machine.execGroupReadmission core slot s
  | .phasewEvaluation launch group => Sys2Proof.Machine.execPhasewEvaluation launch group s
  | .launchCompletion launch => Sys2Proof.Machine.execLaunchCompletion launch s
  | .activeSetSwap core => Sys2Proof.Machine.execActiveSetSwap core s
  | .pendingLimitExpiry core slot => Sys2Proof.Machine.execPendingLimitExpiry core slot s
  | .preemptionSave core slot => Sys2Proof.Machine.execPreemptionSave core slot s
  | .contextRestore core slot => Sys2Proof.Machine.execContextRestore core slot s
  | .detPreemptionFold launch lcore => Sys2Proof.Machine.execDetPreemptionFold launch lcore s
  | .steelyardGrant cluster => Sys2Proof.Machine.execSteelyardGrant cluster s
  | .operatingPointStepEnd cluster => Sys2Proof.Machine.execOperatingPointStepEnd cluster s
  | .packetLanding port core slot rule skip stampNs stampFrac bytes => Sys2Proof.Machine.execPacketLanding port core slot rule skip stampNs stampFrac bytes s
  | .transportFrameReceive frame => Sys2Proof.Machine.execTransportFrameReceive frame s
  | .transportAckTimer node conn => Sys2Proof.Machine.execTransportAckTimer node conn s
  | .transportRetryTimeout node conn => Sys2Proof.Machine.execTransportRetryTimeout node conn s
  | .ptpEventMessage port bytes => Sys2Proof.Machine.execPtpEventMessage port bytes s
  | .mgmtSubmitLaunch req addr => Sys2Proof.Machine.execMgmtSubmitLaunch req addr s
  | .mgmtRead req addr count => Sys2Proof.Machine.execMgmtRead req addr count s
  | .mgmtWrite req addr data => Sys2Proof.Machine.execMgmtWrite req addr data s
  | .mgmtResume req addr => Sys2Proof.Machine.execMgmtResume req addr s
  | .mgmtKill req addr => Sys2Proof.Machine.execMgmtKill req addr s
  | .mgmtSpatialPreemption req victim count prio => Sys2Proof.Machine.execMgmtSpatialPreemption req victim count prio s
  | .mgmtScrub req keyid => Sys2Proof.Machine.execMgmtScrub req keyid s
  | .mgmtExtend req reg digest => Sys2Proof.Machine.execMgmtExtend req reg digest s
  | .mgmtAttestationReport req nonce => Sys2Proof.Machine.execMgmtAttestationReport req nonce s
  | .mgmtDoorbell req cores => Sys2Proof.Machine.execMgmtDoorbell req cores s
  | .mgmtLoadFirmwareImage req offset data => Sys2Proof.Machine.execMgmtLoadFirmwareImage req offset data s
  | .mgmtLoadTransportKey req keyid key => Sys2Proof.Machine.execMgmtLoadTransportKey req keyid key s
  | .partitionValidSet part => Sys2Proof.Machine.execPartitionValidSet part s
  | .unitOwnerChange unit owner => Sys2Proof.Machine.execUnitOwnerChange unit owner s
  | .matrixPassEnd core => Sys2Proof.Machine.execMatrixPassEnd core s
  | .mzeroOperationEnd core => Sys2Proof.Machine.execMzeroOperationEnd core s
  | .vectorPipeWindowEnd core => Sys2Proof.Machine.execVectorPipeWindowEnd core s
  | .illegalInstructionWord w => Sys2Proof.Machine.execIllegalInstructionWord w s
  | .fetchFault detail => Sys2Proof.Machine.execFetchFault detail s
  | .malformedCommand req raw crc => Sys2Proof.Machine.execMalformedCommand req raw crc s
  | .gangWaitTimeslice part launch => Sys2Proof.Machine.execGangWaitTimeslice part launch s
  | .throttleAssert source => Sys2Proof.Machine.execThrottleAssert source s
  | .frameReceive port bytes fcsOk => Sys2Proof.Machine.execFrameReceive port bytes fcsOk s
  | .clockControlWrite req cluster value => Sys2Proof.Machine.execClockControlWrite req cluster value s
  | .steelyardControlWrite req cluster value => Sys2Proof.Machine.execSteelyardControlWrite req cluster value s
  | .throttleControlWrite req value => Sys2Proof.Machine.execThrottleControlWrite req value s
  | .handlerStoreWrite req core word data => Sys2Proof.Machine.execHandlerStoreWrite req core word data s
  | .landingRingBindingWrite req core slot value => Sys2Proof.Machine.execLandingRingBindingWrite req core slot value s
  | .fullEmptyTableWrite req core slot word data => Sys2Proof.Machine.execFullEmptyTableWrite req core slot word data s
  | .trapRecordWrite req core slot wave word data => Sys2Proof.Machine.execTrapRecordWrite req core slot wave word data s
  | .throttleSourceDeassert source => Sys2Proof.Machine.execThrottleSourceDeassert source s
  | .pcommit => Sys2Proof.Machine.execPcommit s
  | .pdrop => Sys2Proof.Machine.execPdrop s
  | .tbar => Sys2Proof.Machine.execTbar s
  | .mlic => Sys2Proof.Machine.execMlic s
  | .mlicr => Sys2Proof.Machine.execMlicr s
  | .mrelc => Sys2Proof.Machine.execMrelc s
  | .bar => Sys2Proof.Machine.execBar s
  | .yield => Sys2Proof.Machine.execYield s
  | .nop => Sys2Proof.Machine.execNop s
  | .hret => Sys2Proof.Machine.execHret s
  | .hskip => Sys2Proof.Machine.execHskip s
  | .hkill => Sys2Proof.Machine.execHkill s
  | .idle => Sys2Proof.Machine.execIdle s
  | .throttleHoldExpiry => Sys2Proof.Machine.execThrottleHoldExpiry s
  | .mgmtPinReplyRead => Sys2Proof.Machine.execMgmtPinReplyRead s
  | .resetRelease => Sys2Proof.Machine.execResetRelease s
  | .resetAssert => Sys2Proof.Machine.execResetAssert s

end Sys2Proof.Machine
end

