-- ==== Sys2Proof/Machine/Plan.lean ====
section
/-! DEFINITION. What a fragment does next: a trap that is due, or the instruction at its program counter (R25, R132, R296), and which
fragment of a wave that is (R26). -/

namespace Sys2Proof

/-- `n` register fields from `r` on. -/
def regRange (r : Reg) (n : Nat) : List Reg := (List.range n).map (fun j => BitVec.ofNat 7 (r.toNat + j))

/-- Register fields that an instruction names, in the order of R73, with the further registers of a transfer, of a bank and of the forms that read
several; an event names none. -/
def Instr.named : Instr → List Reg
  | .add d a b | .sub d a b | .mul d a b | .mulhs d a b | .mulhz d a b | .and d a b | .or d a b | .xor d a b | .andn d a b | .shl d a b | .shrz d a b
  | .shrs d a b | .mins d a b | .maxs d a b | .minz d a b | .maxz d a b | .seq d a b | .sne d a b | .slts d a b | .sltz d a b | .sles d a b
  | .slez d a b | .sel d a b | .bfxs d a b | .bfxz d a b | .bfi d a b | .addss d a b | .subss d a b | .mac d a b | .addmin d a b | .addmax d a b
  | .absd d a b | .divs d a b | .divz d a b | .rems d a b | .remz d a b | .fadd d a b | .fsub d a b | .fmul d a b | .ffma d a b | .ffms d a b
  | .fmin d a b | .fmax d a b | .fseq d a b | .fslt d a b | .fsle d a b | .fsun d a b | .faddmin d a b | .fcopysign d a b | .fdiv d a b
  | .cvtbf2 d a b | .cvth2 d a b | .bfadd2 d a b | .bfmul2 d a b | .bffma2 d a b | .bfmin2 d a b | .bfmax2 d a b | .hadd2 d a b | .hmul2 d a b
  | .hfma2 d a b | .lshup d a b | .lshdn d a b | .lrot d a b | .lbc d a b | .lperm d a b | .accept d a b | .gkey d a b | .rbegin d a b => [d, a, b]
  | .phasew _ a b | .hwr a b => [a, b]
  | .rngu d b | .rngf d b => [d, b]
  | .clz d a | .popc d a | .brev d a | .fabs d a | .fneg d a | .fclass d a | .fsqrt d a | .frcp d a | .frsq d a | .fexp2 d a | .flog2 d a | .cvtfs d a
  | .cvtfz d a | .cvtsfRz d a | .cvtzfRz d a | .cvtsfRn d a | .cvtzfRn d a | .frintRn d a | .frintRz d a | .frintDn d a | .frintUp d a | .cvtbfl d a
  | .cvtbfh d a | .cvthl d a | .cvthh d a | .lsum d a | .lmin d a | .lmax d a | .lfsum d a | .lscan d a | .ballot d a | .vany d a | .vall d a
  | .lfirst d a | .lcount d a | .lmatch d a | .qtry d a _ | .mwait d a | .cwait d a | .cwaitc d a | .cwaits d a | .barsWait d a | .ld d a _ _ _ _
  | .st d a _ _ _ _ | .wne d a _ _ | .fetest d a _ _ | .addi d a _ | .muli d a _ | .andi d a _ | .ori d a _ | .xori d a _ | .shli d a _ | .shrzi d a _
  | .shrsi d a _ | .sltsi d a _ | .sltzi d a _ | .seqi d a _ | .minsi d a _ | .maxsi d a _ | .addmini d a _ | .hrd d a | .callr d a => [d, a]
  | .qpush a _ | .cfetch a | .feset a _ _ | .feclr a _ _ | .wrsr _ a | .phase a | .setperf a | .scall a | .trap a | .jr a | .fjr a | .rgive a _
  | .bnz a _ | .bz a _ | .hloop a _ | .call a _ | .refill a _ | .mlicgv a | .slotclr a | .tset _ a | .mma _ _ _ _ _ a | .cred _ _ a => [a]
  | .qpop d _ | .qlen d _ | .rindex d _ | .tget d _ | .mlictry d | .mstat d _ | .publish d _ | .rdsr d _ | .barsArrive d | .li d _ | .lih d _
  | .rdpr d _ | .wrpr _ d | .rclaim d _ => [d]
  | .atom d a _ fn _ | .atoma d a _ fn _ => if fn = .cas then [d, a, d + 1] else [d, a]
  | .mcfg a => regRange a 5
  | .mdrain _ _ _ _ _ b => regRange b 4
  | .ldm d a _ count | .stm d a _ count => regRange d (count.toNat + 1) ++ [a]
  | .popen k => regRange (BitVec.ofNat 7 (16 * k.toNat)) 16
  | .cpy d _ _ _ _ | .cpyg d _ _ _ | .cpys d _ _ _ => regRange d 2
  | .launch d a => d :: regRange a 2
  | .ctxsv d a | .ctxld d a => d :: regRange a 4
  | .tlbinv a b => regRange a 2 ++ [b]
  | .br _ | .fjmp _ | .nop | .bar | .tbar | .fence _ _ | .wbase _ | .yield | .pcommit | .pdrop | .mlic | .mlicr | .mrelc | .mzero _ | .cagat _ _ _
  | .crsc _ _ _ _ | .ca2a _ _ _ | .cbar _ | .hskip | .hkill | .hret | .idle => []
  | .licenceGrant _ | .mmaOperationEnd _ | .mdrainOperationEnd _ | .copyOperationStart _ _ | .copyOperationEnd _ _ | .wneTimeout _ _ _ _
  | .codeLoadEnd _ _ | .collectiveRun _ _ _ _ | .collectiveEnd _ _ _ | .hangWatchdogExpiry _ _ _ | .scallAggregationExpiry _ _ _
  | .saveWatchdogExpiry _ _ | .pendingLaunchAccept _ _ | .groupAdmission _ _ | .phaseBoundary _ _ | .groupReadmission _ _ | .phasewEvaluation _ _
  | .launchCompletion _ | .activeSetSwap _ | .pendingLimitExpiry _ _ | .preemptionSave _ _ | .contextRestore _ _ | .detPreemptionFold _ _
  | .steelyardGrant _ | .operatingPointStepEnd _ | .packetLanding _ _ _ _ _ _ _ _ | .transportFrameReceive _ | .transportAckTimer _ _
  | .transportRetryTimeout _ _ | .ptpEventMessage _ _ | .mgmtSubmitLaunch _ _ | .mgmtRead _ _ _ | .mgmtWrite _ _ _ | .mgmtResume _ _ | .mgmtKill _ _
  | .mgmtSpatialPreemption _ _ _ _ | .mgmtScrub _ _ | .mgmtExtend _ _ _ | .mgmtAttestationReport _ _ | .mgmtDoorbell _ _
  | .mgmtLoadFirmwareImage _ _ _ | .mgmtLoadTransportKey _ _ _ | .partitionValidSet _ | .unitOwnerChange _ _ | .matrixPassEnd _ | .mzeroOperationEnd _
  | .vectorPipeWindowEnd _ | .illegalInstructionWord _ | .fetchFault _ | .malformedCommand _ _ _ | .gangWaitTimeslice _ _ | .throttleAssert _
  | .frameReceive _ _ _ | .clockControlWrite _ _ _ | .steelyardControlWrite _ _ _ | .throttleControlWrite _ _ | .handlerStoreWrite _ _ _ _
  | .landingRingBindingWrite _ _ _ _ | .fullEmptyTableWrite _ _ _ _ _ | .trapRecordWrite _ _ _ _ _ _ | .throttleSourceDeassert _ | .throttleHoldExpiry
  | .mgmtPinReplyRead | .resetRelease | .resetAssert => []

/-- Register fields of an instruction that may name a latch, which it reads (R51, R73). -/
def Instr.sources : Instr → List Reg
  | .add _ a b | .sub _ a b | .mul _ a b | .mulhs _ a b | .mulhz _ a b | .and _ a b | .or _ a b | .xor _ a b | .andn _ a b | .shl _ a b
  | .shrz _ a b | .shrs _ a b | .mins _ a b | .maxs _ a b | .minz _ a b | .maxz _ a b | .seq _ a b | .sne _ a b | .slts _ a b | .sltz _ a b
  | .sles _ a b | .slez _ a b | .bfxs _ a b | .bfxz _ a b | .addss _ a b | .subss _ a b | .absd _ a b | .divs _ a b | .divz _ a b
  | .rems _ a b | .remz _ a b | .fadd _ a b | .fsub _ a b | .fmul _ a b | .fmin _ a b | .fmax _ a b | .fseq _ a b | .fslt _ a b
  | .fsle _ a b | .fsun _ a b | .fcopysign _ a b | .fdiv _ a b | .cvtbf2 _ a b | .cvth2 _ a b | .bfadd2 _ a b | .bfmul2 _ a b
  | .bfmin2 _ a b | .bfmax2 _ a b | .hadd2 _ a b | .hmul2 _ a b | .lshup _ a b | .lshdn _ a b | .lrot _ a b | .lbc _ a b | .lperm _ a b
  | .accept _ a b | .gkey _ a b | .phasew _ a b | .hwr a b => [a, b]
  | .sel d a b | .bfi d a b | .mac d a b | .addmin d a b | .addmax d a b | .ffma d a b | .ffms d a b | .faddmin d a b | .bffma2 d a b
  | .hfma2 d a b | .rbegin d a b => [d, a, b]
  | .st d a _ _ _ _ | .wne d a _ _ | .addmini d a _ => [d, a]
  | .atom d a _ fn _ | .atoma d a _ fn _ => if fn = .cas then [d, a, d + 1] else [d, a]
  | .clz _ a | .popc _ a | .brev _ a | .fabs _ a | .fneg _ a | .fclass _ a | .fsqrt _ a | .frcp _ a | .frsq _ a | .fexp2 _ a | .flog2 _ a
  | .cvtfs _ a | .cvtfz _ a | .cvtsfRz _ a | .cvtzfRz _ a | .cvtsfRn _ a | .cvtzfRn _ a | .frintRn _ a | .frintRz _ a | .frintDn _ a
  | .frintUp _ a | .cvtbfl _ a | .cvtbfh _ a | .cvthl _ a | .cvthh _ a | .lsum _ a | .lmin _ a | .lmax _ a | .lfsum _ a | .lscan _ a
  | .ballot _ a | .vany _ a | .vall _ a | .lfirst _ a | .lcount _ a | .lmatch _ a | .qpush a _ | .mwait _ a | .cwait _ a | .cwaitc _ a
  | .cwaits _ a | .cfetch a | .mcfg a | .barsWait _ a | .ld _ a _ _ _ _ | .ldm _ a _ _ | .stm _ a _ _ | .feset a _ _ | .feclr a _ _
  | .fetest _ a _ _ | .wrsr _ a | .phase a | .setperf a | .scall a | .trap a | .jr a | .fjr a | .callr _ a | .rgive a _ | .addi _ a _
  | .muli _ a _ | .andi _ a _ | .ori _ a _ | .xori _ a _ | .shli _ a _ | .shrzi _ a _ | .shrsi _ a _ | .sltsi _ a _ | .sltzi _ a _
  | .seqi _ a _ | .minsi _ a _ | .maxsi _ a _ | .bnz a _ | .bz a _ | .hloop a _ | .hrd _ a | .mlicgv a | .slotclr a | .tset _ a
  | .mma _ _ _ _ _ a | .cred _ _ a => [a]
  | .rngu _ b | .rngf _ b => [b]
  | .lih d _ | .wrpr _ d => [d]
  | .tlbinv _ b => [b]
  | _ => []

end Sys2Proof

namespace Sys2Proof.Machine

/-- What a step does: it runs an instruction or an event in a state, or it only goes on to a state. -/
inductive Plan
  | run (i : Instr) (s : State)
  | rest (s : State)
  deriving Repr

/-- The outcome of a plan. -/
def Plan.out : Plan → Out
  | .run i s => exec i s
  | .rest s => .next s

/-- Run an instruction word (R72, R73). -/
def wordPlan (w : Word) (s : State) : Plan :=
  match decode w with
  | .ok i => .run i s
  | .error _ => .run (.illegalInstructionWord w) s

/-- Name a fragment with the cursor. -/
def State.aim (s : State) (gk wave : Nat) (lanes : Mask) : State :=
  { s with cur := { core := gk / 16, slot := gk % 16, wave := wave, lanes := lanes } }

/-- The trap of `Frag.phw` (R32, R191, R199, R210, R243). -/
def State.takeBoundary (s : State) (h : Here) : State :=
  let drop := s.modFrag h (fun f => { f with phw := 0 })
  let h1 := { h with frag := { h.frag with phw := 0 } }
  match h.frag.phw with
  | 1 => s.takeTrap h1 (h.cause kPhase 1)
  | 2 => s.takeTrap h1 (h.cause kPhase 2)
  | 3 => s.takeTrap h1 (h.cause kState 0)
  | 4 => match h.g.suspCopy with
    | some (o, x) => s.takeTrap h1 (copyCause h o x)
    | none => drop
  | _ => match h.g.suspCall with
    | some (c, x) => s.takeTrap h1 (callCause h c x)
    | none => drop

/-- The classes of a numeric-event trap that is due at the boundary before the fragment's next instruction (R105, R296). -/
def Here.nevDue (h : Here) : BitVec 8 := if h.handler then 0 else h.frag.nev ||| h.g.nevDue

/-- Take the numeric-event trap that is due. -/
def State.takeNumeric (s : State) (h : Here) : State :=
  if h.w.busy h.frag && !h.l.firmware then s.await h
  else (s.modGroup h.gk (fun g => { g with nevDue := 0 })).takeTrap { h with frag := { h.frag with nev := 0 } }
    { h.cause kNumeric 0 with code := h.nevDue.setWidth 32 }

/-- Fetch and decode the fragment's next instruction (R72, R132, R301). -/
def State.fetchPlan (s : State) (h : Here) : Plan :=
  if h.frag.past then .run (.fetchFault 1) s
  else if h.handler then wordPlan (getD 0 s.hstore (1024 * h.core + h.frag.pc.off.toNat)) s
  else match s.fetch h.core h.g.launch h.frag.pc h.frag.fence with
    | (s1, .word w) => wordPlan w s1
    | (s1, .wait) => .rest (s1.await h)
    | (s1, .fault d) => .run (.fetchFault d) s1

/-- What the fragment at the cursor does at its instruction boundary, in the order of R296. A trap that a phase boundary left pending waits for
the end of a handler. -/
def State.fragPlan (s : State) (h : Here) : Plan :=
  match h.frag.after with
  | some (kind, code) => .rest (s.takeTrap h { h.cause kind 0 with code := code })
  | none =>
    if h.nevDue ≠ 0 then .rest (s.takeNumeric h)
    else if h.frag.phw ≠ 0 && !h.handler then .rest (s.takeBoundary h)
    else s.fetchPlan h

/-- The plan of the fragment that the cursor names. -/
def State.curPlan (s : State) : Plan := match s.here with | some h => s.fragPlan h | none => .rest s

/-- The state after the plan of the fragment in hand, tried out. -/
def State.trial (s : State) (h : Here) : State := match (s.fragPlan h).out with | .next t => t | .fault _ => s | .refused _ => s

/-- The next instruction of the fragment in hand has no unsatisfied dependence: tried out, it does more than wait. What a fetch notes is not the
instruction's. -/
def State.goes (s : State) (h : Here) : Bool :=
  match s.fragPlan h with
  | .run _ t => s.trial h ≠ t.await h
  | .rest t => t.wave h.wk ≠ (s.await h).wave h.wk

/-- The fragment in hand is eligible (R26, R296). A pending hang-watchdog trap comes before the next instruction. -/
def State.eligible (s : State) (h : Here) : Bool :=
  h.frag.mode ≠ .held && (h.frag.wait = .none || h.frag.wait = .retry)
    && (h.w.hang.isNone || h.handler || h.frag.after.isSome || h.frag.nev ≠ 0) && s.goes h

/-! ## Merging (R25, R308) -/

/-- A fragment that a merge may take: it waits at no barrier and in no access, and no trap is due in it. -/
def Frag.plain (f : Frag) : Bool :=
  (f.wait = .none || f.wait = .retry) && f.mode ≠ .held && f.after.isNone && f.nev = 0 && f.phw = 0
/-- Two fragments merge. Two that have transferred different numbers of registers of one `ldm` or `stm` stay apart until they have finished it,
since each goes on from its own count (R181, log 75). -/
def Frag.meets (f g : Frag) : Bool := f.plain && g.plain && f.pc = g.pc && f.past = g.past && f.mode = g.mode && f.xfer = g.xfer
/-- The fragment of both: the larger age and the longer wait. Where one waits in `publish`, what it read at its issue stands for the lanes that
join it (log 91). -/
def Frag.join (f g : Frag) : Frag :=
  { f with lanes := f.lanes ||| g.lanes, retired := Nat.min f.retired g.retired, since := Nat.min f.since g.since
           wait := if g.wait = .none then .none else f.wait, able := f.able || g.able
           fence := laterFence f.fence g.fence, kept := f.kept.orElse (fun _ => g.kept), t0 := if f.kept.isSome then f.t0 else g.t0 }
/-- Add a fragment to merged ones. -/
def mergeIn (g : Frag) : List Frag → List Frag
  | [] => [g]
  | f :: r => if f.meets g then f.join g :: r else f :: mergeIn g r
/-- A wave with its fragments merged. -/
def Wave.merge (w : Wave) : Wave := { w with frags := w.frags.foldl (fun fs g => mergeIn g fs) [] }

/-! ## Fragments of one wave (R26, R27) -/

/-- The fragment of the lowest program counter. -/
def lowPc (fs : List Frag) : Option Frag := (sortBy (fun f => f.pc.word.toNat) fs).head?
/-- A fragment has been eligible for `%fair` cycles or turns before `now`: `since` is the last in which it was not, or in which it issued. -/
def Frag.overdue (w : Wave) (now : Nat) (f : Frag) : Bool := f.since + w.fair.toNat < now
/-- The fragment that R26 selects among eligible ones. -/
def Wave.select (w : Wave) (now : Nat) : List Frag → Option Frag
  | [] => none
  | [f] => some f
  | f :: r =>
  let fs := f :: r
  if !w.progress then lowPc fs
  else
    let others := if w.yielded = 0 then [] else fs.filter (fun f => f.lanes &&& w.yielded = 0)
    match lowPc others with
    | some f => some f
    | none => match (sortBy (fun f => f.since) (sortBy (fun f => f.pc.word.toNat) (fs.filter (Frag.overdue w now)))).head? with
      | some f => some f
      | none => lowPc fs

/-- Fragments of a wave, merged, that are eligible. -/
def State.readyIn (s : State) (gk wave : Nat) : List Frag :=
  let s1 := s.modWave (wkOf gk wave) Wave.merge
  (s1.wave (wkOf gk wave)).frags.filter (fun f =>
    let t := s1.aim gk wave f.lanes
    match t.here with | some h => t.eligible h | none => false)

/-- Note which fragments of a wave are eligible; where `count`, the count of R26 of the others starts again. -/
def State.noteWaits (s : State) (gk wave : Nat) (ready : List Frag) (count : Bool) : State :=
  let now := s.sinceIn gk wave
  s.modWave (wkOf gk wave) (fun w => { w with frags := w.frags.map (fun f =>
    if ready.any (fun r => f.lanes &&& r.lanes = f.lanes) then { f with able := true }
    else { f with able := false, since := if count then now else f.since, wait := if f.mode = .user && f.wait = .none then .retry else f.wait }) })

/-- The group may act: no save of it is under way, and no restore waits for its configuration or licence. -/
def Group.runs (g : Group) : Bool := !g.frozen && g.wantCfg.isNone && !g.wantLic

/-- What the device finds when it looks at the waves of every group: which of their fragments are eligible. -/
def State.looks (s : State) : List (Nat × Nat × List Frag) :=
  (s.groups.filter (fun p => !p.2.frozen)).flatMap (fun p => (List.range (s.wavesOf p.1)).map (fun w =>
    (p.1, w, if p.2.runs then s.readyIn p.1 w else [])))

/-- A pending group's time with an eligible wave goes on or stands still (R317). -/
def State.noteHunger (s : State) (gk : Nat) : State :=
  s.modGroup gk (fun g => if !g.active && g.hungry ≠ s.maybeEligible gk then { g with hungry := !g.hungry, waited := s.ptp - g.waited } else g)

/-- Note what the device has found. Under det = 1 the count of R26 goes by turns. -/
def State.note (s : State) (ls : List (Nat × Nat × List Frag)) : State :=
  let s1 := ls.foldl (fun s x => s.noteWaits x.1 x.2.1 x.2.2 ((s.group x.1).any (fun g => !(s.launch g.launch).det))) s
  (ls.map (·.1)).eraseDups.foldl State.noteHunger s1

end Sys2Proof.Machine
end

