-- ==== Sys2Proof/Machine/Events.lean ====
section
/-! DEFINITION. The events that can happen in a state: engines, loads, boundaries, watchdogs, scheduling, the fabric's timers. An event
is due when its meaning changes the state (log 3). -/

namespace Sys2Proof.Machine

/-- An event is due. -/
def State.due (s : State) (i : Instr) : Bool := match exec i s with | .next t => t ≠ s | .fault _ => false | .refused _ => false

/-- Cores with something on them. -/
def State.busyCores (s : State) : List Nat :=
  (s.groups.map (fun (p : Nat × Group) => p.1 / 16) ++ (s.cores.filter (fun (p : Nat × Core) => p.2.loads ≠ [] || p.2.ops ≠ [] || p.2.pipe.isSome)).map (fun (p : Nat × Core) => p.1)).eraseDups

/-- Work of a core's engines, loads and boundaries. -/
def State.workEvents (s : State) (core : Nat) : List Instr :=
  let c := s.core core
  (if c.ops = [] then [] else [.mmaOperationEnd core, .mdrainOperationEnd core, .mzeroOperationEnd core, .matrixPassEnd core])
    ++ (c.loads.map (·.store)).eraseDups.map (Instr.codeLoadEnd core)
    ++ (s.onCore core).flatMap (fun p =>
      let slot := p.1 % 16
      (if p.2.copies = [] then [] else [Instr.copyOperationStart core slot, .copyOperationEnd core slot])
        ++ (p.2.calls.map (·.level)).eraseDups.map (Instr.collectiveEnd core slot)
        ++ [.phaseBoundary core slot])

/-- Timers and windows of the waves of a slot. -/
def State.waveEvents (s : State) (gk wave : Nat) : List Instr :=
  let w := s.wave (wkOf gk wave)
  .hangWatchdogExpiry (gk / 16) (gk % 16) wave :: (if w.agg.isNone then [] else [.scallAggregationExpiry (gk / 16) (gk % 16) wave])
    ++ (w.frags.filter (fun f => f.wait = .access)).map (fun f => .wneTimeout (gk / 16) (gk % 16) wave f.lanes)

/-- What the scheduler of a core may do with its groups. -/
def State.groupEvents (s : State) (core : Nat) : List Instr :=
  [.activeSetSwap core, .vectorPipeWindowEnd core] ++ (s.onCore core).flatMap (fun p =>
    let slot := p.1 % 16
    [.pendingLimitExpiry core slot, .preemptionSave core slot, .contextRestore core slot, .saveWatchdogExpiry core slot]
      ++ (List.range (s.wavesOf p.1)).flatMap (s.waveEvents p.1))

/-- Partitions with groups that wait for a slot. -/
def State.hungry (s : State) : List Nat :=
  ((s.launches.filter (fun (p : Nat × Launch) => p.2.waitsInQueue)).map (fun (p : Nat × Launch) => p.2.part)
    ++ (s.phased.filter (fun p => p.state ≠ 1)).map (fun (p : Phased) => (s.launch p.launch).part)).eraseDups

/-- What a free slot may take (R315). -/
def State.slotEvents (s : State) : List Instr :=
  s.hungry.flatMap (fun part => ((s.slotsOf part).filter (fun p => s.slotOpen p.1 p.2)).flatMap (fun p =>
    [Instr.groupReadmission p.1 p.2, .contextRestore p.1 p.2, .groupAdmission p.1 p.2]))
    ++ s.heirs.map (fun x => .groupAdmission x.core x.slot)

/-- Launches, their queues and their collectives. -/
def State.launchEvents (s : State) : List Instr :=
  (s.launches.filter (fun p => !p.2.done)).flatMap (fun p => [Instr.launchCompletion p.1, .gangWaitTimeslice p.2.part p.1])
    ++ (s.groups.filter (fun p => p.2.pend ≠ [])).map (fun p => .pendingLaunchAccept p.2.launch p.2.gid)
    ++ (s.phased.filter (fun p => p.state = 2 || p.pend ≠ [])).map (fun p => .pendingLaunchAccept p.launch p.gid)
    ++ s.orphans.map (fun o => .pendingLaunchAccept o.1 (2 ^ 32))
    ++ (s.phased.filter (fun p => p.state = 1)).map (fun p => .phasewEvaluation p.launch p.gid)
    ++ s.groups.flatMap (fun p => (p.2.calls.filter (fun c => c.made)).map (fun c =>
      .collectiveRun p.2.launch (p.2.gid / (s.launch p.2.launch).unitSize c.level) c.level c.num))
    ++ s.lcores.map (fun p => .detPreemptionFold p.2.launch p.2.num)
    ++ (s.lics.filter (fun p => p.2.waiting ≠ [])).map (fun p => .licenceGrant p.1)

/-- Clusters. -/
def State.clusterEvents (s : State) : List Instr :=
  (s.busyCores.map clusterOf ++ s.clusters.map (fun (p : Nat × Cluster) => p.1)).eraseDups.flatMap (fun k => [Instr.steelyardGrant k, .operatingPointStepEnd k])

/-- The transport's timers and the throttle's. -/
def State.timerEvents (s : State) : List Instr :=
  s.conns.flatMap (fun p => [Instr.transportAckTimer (p.1 / 65536) (p.1 % 65536), .transportRetryTimeout (p.1 / 65536) (p.1 % 65536)])
    ++ (if s.throttle.on then [.throttleHoldExpiry] else [])

/-- Changes of part.valid that the device has not seen (R344, R346). -/
def State.validEvents (s : State) : List Instr :=
  let parts := s.mm 128 64
  (List.range 63).filterMap (fun p =>
    if (s.dramByte reserveKey (parts + 128 * p)).getLsbD 0 = getD false s.valids p then none else some (.partitionValidSet p))

/-- Owners that differ from firmware's unit map (R343). -/
def State.tableEvents (s : State) : List Instr :=
  let owners := s.mm 192 64
  ((List.range 128).map (fun u => (u, (s.dramByte reserveKey (owners + u)).toNat))).filterMap (fun p =>
      if getD 255 s.owners p.1 = p.2 then none else some (.unitOwnerChange p.1 p.2))

/-- Every event that may be due. -/
def State.events (s : State) : List Instr :=
  s.busyCores.flatMap (fun c => s.workEvents c ++ s.groupEvents c) ++ s.slotEvents ++ s.launchEvents ++ s.clusterEvents ++ s.timerEvents

/-- The events that are due. -/
def State.dueEvents (s : State) : List Instr := s.events.filter s.due

end Sys2Proof.Machine
end

