-- ==== Sys2Proof/Machine/Choose.lean ====
section
/-! DEFINITION. What the device may do next: the issue of a core (R317, R318), the turn of a logical core (R41, R42, R379), an event that
is due, the next buffered store, the next outside event; and the passing of time. Where several are possible a free value picks
(log 3). -/

namespace Sys2Proof.Machine

/-! ## Issue of a core under det = 0 (R317, R318) -/

/-- A wave that may issue: the fragment that R26 selects, among its eligible ones. -/
structure Pick where
  gk : Nat
  wave : Nat
  frag : Frag
  ready : List Frag
  deriving DecidableEq, Repr

/-- Groups of a core that issue: the active set (R317). -/
def State.issuers (s : State) (core : Nat) : List (Nat × Group) :=
  (s.onCore core).filter (fun p => p.2.active && p.2.runs && !(s.launch p.2.launch).det)

/-- What the device has found of the waves of every group: which of their fragments are eligible. -/
abbrev Looks := List (Nat × Nat × List Frag)

/-- The pick of one wave. -/
def State.pickIn (s : State) (x : Nat × Nat × List Frag) : Option Pick :=
  ((s.wave (wkOf x.1 x.2.1)).select (s.stamp x.1 x.2.1) x.2.2).map (fun f => { gk := x.1, wave := x.2.1, frag := f, ready := x.2.2 })

/-- The picks of a core's waves. -/
def State.picks (s : State) (ls : Looks) (core : Nat) : List Pick :=
  let gs := (s.issuers core).map (·.1)
  (ls.filter (fun x => gs.contains x.1)).filterMap s.pickIn

/-- When a pick's wave issued last. -/
def State.idleSince (s : State) (p : Pick) : Nat := (s.wave (wkOf p.gk p.wave)).issued
/-- Priority of a pick's launch; a fixed-latency partition has one priority (R330). -/
def State.pickPrio (s : State) (p : Pick) : Nat := match s.group p.gk with
  | some g => if s.fixedPart (s.launch g.launch).part then 0 else (s.launch g.launch).prio
  | none => 0

/-- The next instruction of a fragment reads a latch. -/
def State.readsNext (s : State) (p : Pick) (f : Frag) : Bool :=
  match ((s.modWave (wkOf p.gk p.wave) Wave.merge).aim p.gk p.wave f.lanes).curPlan with
  | .run i _ => readsLatch i.sources
  | .rest _ => false

/-- The fragment that issued last, where rule 2 of R318 keeps the core on it. -/
def State.continues (s : State) (core : Nat) (ps : List Pick) : Option Pick :=
  match (s.core core).last with
  | none => none
  | some (slot, wave, lanes) => ps.findSome? (fun p =>
    if p.gk ≠ gkOf core slot || p.wave ≠ wave then none
    else match p.ready.find? (fun f => f.lanes &&& lanes = lanes) with
      | none => none
      | some f =>
        let w := s.wave (wkOf p.gk p.wave)
        let blocked := w.progress && p.ready.any (fun x => x.lanes ≠ f.lanes && x.overdue w (s.stamp p.gk p.wave))
        if s.readsNext p f && !blocked then some { p with frag := f } else none)

/-- The age at which a wave goes first (R318, R330). -/
def State.ageLimit (s : State) (core : Nat) : Nat := if s.fixedPart (s.owner core) then 32 else 256

/-- The issue of a core in a cycle: ageing, latch continuation, priority (R318). -/
def State.issue (s : State) (ls : Looks) (core : Nat) : Option Pick :=
  let ps := s.picks ls core
  let aged := fun (p : Pick) => s.idleSince p + s.ageLimit core < s.clockAt core
  match ps, s.continues core ps with
  | [p], none => some p
  | [p], some q => if aged p then some p else some q
  | _, q => (sortBy s.idleSince (ps.filter aged)).head?.orElse (fun _ => q.orElse (fun _ => (byPrio s.pickPrio (sortBy s.idleSince ps)).head?))

/-- The core issues in this cycle. -/
def State.issued (s : State) (core : Nat) : State := s.modCore core (fun c => { c with issuedAt := some (s.clockAt core) })

/-- The state in which a pick runs: its wave is merged, and the core remembers it. -/
def State.prepare (s : State) (p : Pick) : State :=
  let s1 := (s.modWave (wkOf p.gk p.wave) (fun w => { w.merge with issued := s.clockAt (p.gk / 16), yielded := 0 })).issued (p.gk / 16)
  (s1.modCore (p.gk / 16) (fun c => { c with last := some (p.gk % 16, p.wave, p.frag.lanes) })).aim p.gk p.wave p.frag.lanes

/-! ## Waits that the issue does not see (R180, R186, R196) -/

/-- A plan of a fragment only goes on to a state in which it waits: it has fetched (R132). -/
def State.fetches (s : State) (h : Here) : Bool :=
  match s.fragPlan h with
  | .run _ _ => false
  | .rest t => t.wave h.wk = (s.await h).wave h.wk && t ≠ s.await h

/-- A waiting access whose lanes can do something, or a fetch that goes on: it has issued, or it issues nothing (R25, R317). -/
def State.polls (s : State) (gk wave : Nat) (f : Frag) : Bool :=
  let t := s.aim gk wave f.lanes
  match t.here with
  | none => false
  | some h => f.mode ≠ .held && ((f.wait = .access && t.trial h ≠ t) || ((f.wait = .none || f.wait = .retry) && t.fetches h))

/-- A fragment that waits in a `ctxsv` of its own group goes on with the save, while the group stands still (R310). -/
def State.savesItself (s : State) (gk wave : Nat) (f : Frag) : Bool :=
  let t := s.aim gk wave f.lanes
  match t.here with
  | none => false
  | some h => f.mode = .user && f.wait = .retry && t.trial h ≠ t
      && (match decode (t.wordAt h f.pc false) with | .ok (.ctxsv _ a) => (t.uniform h (regPlus a 3)).toNat = gk | _ => false)

/-- The fragments of det = 0 groups that do. -/
def State.pollers (s : State) : List (Nat × Nat × Mask) :=
  (s.groups.filter (fun p => (p.2.runs && !(s.launch p.2.launch).det) || (p.2.frozen && !p.2.evict))).flatMap (fun p =>
    (List.range (s.wavesOf p.1)).flatMap (fun w =>
      ((s.wave (wkOf p.1 w)).frags.filter (if p.2.frozen then s.savesItself p.1 w else s.polls p.1 w)).map (fun f => (p.1, w, f.lanes))))

/-! ## Turns under det = 1 (R41, R42, R379) -/

/-- Resident groups of a logical core, by logical slot. -/
def State.members (s : State) (c : LCore) : List (Nat × Nat) :=
  sortBy (fun p => p.1) ((s.groups.filter (fun p => p.2.launch = c.launch && p.2.lcore = c.num)).map (fun (p : Nat × Group) => (p.2.lslot, p.1)))

/-- A logical core owes an admission: a group of it can go into one of its logical slots, and no round of it starts before that (R41, log
76). -/
def State.owes (s : State) (c : LCore) : Bool :=
  let l := s.launch c.launch
  let n := l.field 640 11
  s.partOk l.part && (s.freeLslot c.launch c.num).isSome
    && (s.phased.any (fun p => p.launch = c.launch && p.lcore = c.num && p.state = 0)
      || s.heirs.any (fun x => x.launch = c.launch && x.gid % n = c.num)
      || (l.waitsInQueue && decide (l.next + (c.num + n - l.next % n) % n < l.groups)))

/-- The last turn of a round has been taken, and the round has not ended yet (R42). -/
def State.roundOver (s : State) (c : LCore) : Bool := c.turn ≠ 0 && !(s.members c).any (fun m => c.turn ≤ m.1)

/-- A handler fragment of the logical core's groups that is eligible: it runs inside the turn (R301). -/
def State.handlerIn (s : State) (ls : Looks) (c : LCore) : Option (Nat × Nat × Mask) :=
  (s.members c).findSome? (fun m => (ls.filter (fun x => x.1 = m.2)).findSome? (fun x =>
    (lowPc (x.2.2.filter (fun f => f.mode = .handler))).map (fun f => (m.2, x.2.1, f.lanes))))

/-- The checker of a logical core stays at most 64 rounds behind (R329). -/
def State.checkKeeps (s : State) (c : LCore) : Bool := (find s.checks (1024 * c.launch + c.num)).all (fun k => k.log.length < 64)

/-- The next turn of a logical core can be taken, or its round ends: every effect of earlier turns is complete (R42). -/
def State.turnOpen (s : State) (ls : Looks) (c : LCore) : Bool :=
  !c.folded && (s.roundOver c || s.pipeOn c.phys) && (s.members c).all (fun m => (s.group m.2).all (fun g => !g.frozen && (g.active || !s.maybeEligible m.2)))
    && !(s.workEvents c.phys).any s.due && (s.arrayNeed c.phys).isNone && s.copyNeeds c.phys = [] && (s.handlerIn ls c).isNone
    && (c.turn ≠ 0 || (s.members c ≠ [] && c.vacate = [] && !s.owes c && s.checkKeeps c))

/-- The wave whose turn it is. -/
def State.waveInTurn (s : State) (c : LCore) (lslot gk : Nat) : Option Nat :=
  let n := s.wavesOf gk
  ((List.range n).map (fun j => (getD 0 c.rot lslot + j) % n)).find? (fun w => (s.liveIds gk n).any (fun t => t / 32 = w))

/-- Set a logical core. -/
def State.setLcore (s : State) (k : Nat) (c : LCore) : State :=
  { s with lcores := s.lcores.map (fun (p : Nat × LCore) => if p.1 = k then (k, c) else p) }

/-- Every lane of a fragment is done. -/
def State.allDone (s : State) (gk wave : Nat) (f : Frag) : Bool := (lanesOf f.lanes).all (fun l => (s.thread (tkOf gk wave l)).done)

/-- Let the fragments of a wave that `p` names retire or only test. -/
def State.deferring (s : State) (gk wave : Nat) (lanes : Mask) (b : Bool) : State :=
  s.modWave (wkOf gk wave) (fun w => { w with frags := w.frags.map (fun x => if x.lanes = lanes then { x with defer := b } else x) })

/-- A waiting instruction tests its lanes and does not retire (R379). -/
def State.test (s : State) (gk wave : Nat) (f : Frag) : State :=
  let s1 := (s.deferring gk wave f.lanes true).aim gk wave f.lanes
  (match s1.curPlan.out with | .next t => t | .fault _ => s1 | .refused _ => s1).deferring gk wave f.lanes false

/-- A turn of a wave (R42, R379): which fragments are eligible is noted also in a turn that a waiting instruction's retirement takes. -/
def State.turnPlan (s : State) (gk wave : Nat) : Plan :=
  let look := fun (s : State) => (s.readyIn gk wave, (s.modWave (wkOf gk wave) Wave.merge).noteWaits gk wave (s.readyIn gk wave) true)
  let busy := sortBy (fun f => f.pc.word.toNat) ((s.wave (wkOf gk wave)).frags.filter (fun f => f.wait = .access && f.mode ≠ .held))
  match busy.find? (s.allDone gk wave) with
  | some f => ((look ((busy.filter (fun x => x.lanes ≠ f.lanes)).foldl (fun s x => s.test gk wave x) s)).2.aim gk wave f.lanes).curPlan
  | none =>
    let s1 := busy.foldl (fun s x => s.test gk wave x) s
    let (ready, s2) := look s1
    match busy.find? (s1.allDone gk wave) with
    | some f => (s2.aim gk wave f.lanes).curPlan
    | none =>
      match (s2.wave (wkOf gk wave)).select (s2.stamp gk wave) ready with
      | some f => (s2.aim gk wave f.lanes).curPlan
      | none => .rest s2

/-- The turn of logical core `k`, or the end of its round. A turn of a restored group that waits for its configuration or licence retires nothing
(R321). -/
def State.takeTurn (s : State) (k : Nat) : Plan :=
  match s.lcore k with
  | none => .rest s
  | some c => match (s.members c).find? (fun m => c.turn ≤ m.1) with
    | none => .rest ((s.setLcore k { c with turn := 0, round := c.round + 1 }).modCheck k Checker.endRound)
    | some (lslot, gk) =>
      let next := { c with turn := lslot + 1 }
      match s.waveInTurn c lslot gk, s.group gk with
      | some w, some g =>
        let s0 := s.modCheck k (fun x => { x with cur := { x.cur with turns := x.cur.turns ++ [lslot] } })
        let s1 := (s0.setLcore k { next with rot := put 0 next.rot lslot ((w + 1) % s.wavesOf gk) }).modWave (wkOf gk w) (fun v => { v with turns := v.turns + 1 })
        if g.runs then s1.turnPlan gk w else .rest (s1.noteWaits gk w [] true)
      | _, _ => .rest (s.setLcore k next)

/-! ## Time (R61, R349, R358, R364) -/

/-- Units of `cyclePhase` that the clock of a cluster counts in 2^-16 ns. -/
def State.rate (s : State) (k : Nat) : Nat := mhzOf (s.cluster k).cur.toNat * (if s.throttle.on then 1 else 4)
/-- Time until a core has counted a number of cycles, in 2^-16 ns. -/
def State.until (s : State) (core cycle : Nat) : Nat :=
  let k := clusterOf core
  (cyclePhase * cycle - getD 0 s.clocks k + s.rate k - 1) / s.rate k

/-- Time passes: every cluster's clock counts at its rate. The PTP clock follows within 1,000 ppm, and steps forward only while no launch with
det = 0 is accepted but incomplete (R364). -/
def State.elapse (s : State) (e : Nat) : State :=
  let (n, s0) := s.takeFresh
  let (m, s1) := s0.takeFresh
  let leap := if s.launches.all (fun p => p.2.det || p.2.done || p.2.refused.isSome) then Config.freeNat m else 0
  { s1 with
    clocks := (List.range 256).map (fun k => (k, getD 0 s.clocks k + e * s.rate k))
    ptp := s.ptp + e - e / 1000 + Config.freeNat n % (2 * (e / 1000) + 1) + leap }

/-- A free amount of time passes, at least `need` and at most `limit`. -/
def State.tick (s : State) (need : Nat) (limit : Option Nat) : State :=
  let (n, s0) := s.takeFresh
  s0.elapse (need + (match limit with | some m => Config.freeNat n % (m + 1 - need) | none => Config.freeNat n))

/-- The latest time at which a core is still in a cycle. -/
def State.inCycle (s : State) (core cycle : Nat) : Nat := s.until core (cycle + 1) - 1

/-- Time that may pass while waves of a core can issue: the wave that issued least recently issues within 288 cycles (R318), and a turn that can
be taken does not wait longer. -/
def State.issueBound (s : State) (ls : Looks) (core : Nat) : Option Nat :=
  let since := (s.picks ls core).map s.idleSince
    ++ (if s.lcores.any (fun p => p.2.phys = core && s.turnOpen ls p.2) then [(s.core core).issuedAt.getD 0] else [])
  (since.map (fun t => s.inCycle core (Nat.max (t + s.ageLimit core + 32) (s.clockAt core + 1)))).min?

/-- A window of the vector pipe ends after 64 cycles (R354). -/
def State.windowBound (s : State) (core : Nat) : Option Nat := (s.core core).pipe.map (fun t => s.inCycle core (Nat.max (t + 64) (s.clockAt core)))

/-- A requester requests, and a cluster's Steelyard grants a request that fits, within a cycle (R354, R356). A reservation is held for at most 128
cycles (R354). -/
def State.grantBound (s : State) (k : Nat) : Option Nat :=
  let now := s.clockAt (4 * k)
  let c := s.cluster k
  let next := s.gather s.fresh (now + 1) k c
  if next.waiting ≠ c.waiting || next.held ≠ c.held || next.grants (now + 1) ≠ [] then some (s.inCycle (4 * k) (now + 1))
  else ((c.held.filter (fun x => x.who ≠ .pipe)).map (fun x => s.inCycle (4 * k) (Nat.max (x.since + 128) now))).min?

/-- The most time that a move may take. -/
def State.timeBound (s : State) (ls : Looks) : Option Nat :=
  ((s.busyCores.filter s.pipeOn).filterMap (s.issueBound ls) ++ s.busyCores.filterMap s.windowBound
    ++ (s.busyCores.map clusterOf ++ s.clusters.map (·.1)).eraseDups.filterMap s.grantBound).min?

/-! ## Moves -/

/-- One thing that the device may do. -/
inductive Move
  /-- A core issues. -/
  | issue (core : Nat)
  /-- A fragment that waits goes on, or begins to wait. -/
  | poll (gk wave : Nat) (lanes : Mask)
  /-- A handler instruction inside a turn. -/
  | handler (gk wave : Nat) (lanes : Mask)
  /-- A turn of a logical core. -/
  | turn (k : Nat)
  /-- The checker of a logical core runs a round, or compares the digests (R329). -/
  | check (k : Nat)
  /-- A port sends a Sync (R364). -/
  | sync (port : Nat)
  /-- An event. -/
  | event (i : Instr)
  /-- The oldest buffered store of a core to a line is performed (R166). -/
  | store (b : Buffered)
  /-- The next outside event arrives. -/
  | input (i : Instr) (rest : List Instr)
  deriving Repr

/-- Moves of the logical cores. -/
def State.lcoreMoves (s : State) (ls : Looks) : List Move :=
  s.lcores.filterMap (fun p => match s.handlerIn ls p.2 with
    | some (gk, w, m) => if s.pipeOn p.2.phys then some (.handler gk w m) else none
    | none => if s.turnOpen ls p.2 then some (.turn p.1) else none)

/-- The oldest buffered store of each core to each line: stores of one core to different lines become visible in any order (R166, R260). -/
def oldest : List Buffered → List (Nat × Nat) → List Buffered
  | [], _ => []
  | b :: r, seen => if seen.contains (b.core, lineOf b.addr) then oldest r seen else b :: oldest r ((b.core, lineOf b.addr) :: seen)

/-- The core whose one issue of a cycle a move takes (R318). -/
def State.issuerOf (s : State) : Move → Option Nat
  | .issue c => some c
  | .handler gk _ _ => some (gk / 16)
  | .turn k => (s.lcore k).bind (fun c => if s.roundOver c then none else some c.phys)
  | .poll _ _ _ => none
  | .check _ => none
  | .sync _ => none
  | .event _ => none
  | .store _ => none
  | .input _ _ => none

/-- Time that a move takes at least: a core issues once in a cycle. -/
def State.moveNeed (s : State) (m : Move) : Nat :=
  match s.issuerOf m with
  | none => 0
  | some c => match (s.core c).issuedAt with
    | none => 0
    | some t => s.until c (t + 1)

/-- The most time that a move may take: a core issues in the window of its vector pipe (R354). -/
def State.moveLimit (s : State) (ls : Looks) (m : Move) : Option Nat :=
  (s.timeBound ls).toList.append (((s.issuerOf m).bind (fun c => (s.core c).pipe.map (fun t => s.inCycle c (t + 63)))).toList) |>.min?

/-- Everything that may happen. -/
def State.allMoves (s : State) (ls : Looks) : List Move :=
  (s.busyCores.filter (fun c => s.pipeOn c && (s.issue ls c).isSome)).map Move.issue ++ s.pollers.map (fun x => .poll x.1 x.2.1 x.2.2) ++ s.lcoreMoves ls
    ++ (s.checks.filter (fun p => s.checkReady p.2)).map (fun p => .check p.1)
    ++ (s.ports.filter (fun p => p.2.role = .timeTransmitter && p.2.syncAt ≤ s.ptp)).map (fun p => .sync p.1) ++ s.dueEvents.map .event ++ (oldest s.sbuf []).map .store ++ (match s.inputs with | [] => [] | i :: r => [.input i r])

/-- All moves that are possible in the time that may pass. The device sees each change of part.valid and of the unit map at once, so that no
admission comes before what it does then (R343, R344, R346). -/
def State.moves (s : State) (ls : Looks) : List Move :=
  match (s.validEvents ++ s.tableEvents).filter s.due with
  | [] => (s.allMoves ls).filter (fun m => (s.moveLimit ls m).all (fun b => s.moveNeed m ≤ b))
  | i :: r => (i :: r).map .event

/-- An outside event arrives: while RESET_N is low, only its release acts (R378). -/
def State.arrive (s : State) : Instr → Plan
  | .resetRelease => .run .resetRelease s
  | i => if s.boot = .held then .rest s else .run i s

/-- A move as a plan, at the time at which it happens: the core chooses in the cycle in which it issues. -/
def State.act (s : State) (ls : Looks) : Move → Plan
  | .issue c => match s.issue ls c with | some p => (s.prepare p).curPlan | none => .rest s
  | .poll gk w lanes => (s.aim gk w lanes).curPlan
  | .handler gk w lanes => (((s.modWave (wkOf gk w) Wave.merge).issued (gk / 16)).aim gk w lanes).curPlan
  | .turn k => (match s.lcore k with | some c => if s.roundOver c then s else s.issued c.phys | none => s).takeTurn k
  | .check k => .rest (match find s.checks k with | some c => s.runCheck k c | none => s)
  | .sync p => .rest (s.ptpSync p)
  | .event i => .run i s
  | .store b => .rest ({ s with sbuf := s.sbuf.erase b }.performStore b)
  | .input i rest => { s with inputs := rest }.arrive i

/-- The state in which a move happens: time has passed, and what waits is noted. -/
def State.moved (s : State) (ls : Looks) (m : Move) : State := (s.tick (s.moveNeed m) (s.moveLimit ls m)).note ls

/-- A move as a plan. -/
def State.makeMove (s : State) (ls : Looks) (m : Move) : Plan := (s.moved ls m).act ls m

/-- What the device does next: the one possible move, one that a free value picks, or nothing but waiting. -/
def State.plan (s0 : State) : Plan :=
  let ls := s0.looks
  let s := s0.note ls
  match s.moves ls with
  | [] => if s.boot = .held then .rest s else .rest (s.tick 0 (s.timeBound ls))
  | [m] => s.makeMove ls m
  | m :: r =>
    let (n, s1) := s.takeFresh
    s1.makeMove ls ((m :: r).getD (Config.freeNat n % (r.length + 1)) m)

/-! ## A program that stands ready (log 1) -/

/-- The launch of a placed word: a record of zeros, with the entry of its one segment. -/
def placedLaunch : Launch := { Launch.init with segs := [(0, 0)], admitted := true, next := 1 }

/-- A word stands at the entry of a group that runs, and nothing else can move (log 1). The device's owners and valid bits agree with the
tables in its memory. -/
def State.holding (s : State) (w : Word) : State :=
  let owners := s.mm 192 64
  let parts := s.mm 128 64
  { s with
    boot := .running, inputs := [], sbuf := [], races := []
    istore := put 0 s.istore 0 w
    itags := [(0, { state := .loaded, part := 0, va := 0, sects := [] })]
    threads := [], waves := [(0, { Wave.init with frags := [startFrag 0 { seg := 0, off := 0 } 0xFFFFFFFF] })]
    groups := [(0, s.newGroup 0 placedLaunch 0 0 0 0)]
    cores := [(0, { Core.init with pipe := some (s.clockAt 0) })]
    clusters := [(0, { Cluster.init with held := [{ core := 0, who := .pipe, amount := 3, arrived := 0, since := s.clockAt 0 }] })]
    lics := [], launches := [(0, placedLaunch)], phased := [], heirs := [], lcores := [], checks := [], orphans := [], saves := [], conns := [], ports := []
    throttle := { s.throttle with on := false, src := 0 }
    owners := ((List.range 128).map (fun u => (u, (s.dramByte reserveKey (owners + u)).toNat))).filter (fun p => p.2 ≠ 255)
    valids := ((List.range 63).map (fun p => (p, (s.dramByte reserveKey (parts + 128 * p)).getLsbD 0))).filter (·.2) }

end Sys2Proof.Machine
end

