-- ==== Sys2Proof/Machine/Step.lean ====
section
/-! DEFINITION. One step of the device, and a state in which the next step runs a given instruction word. -/

namespace Sys2Proof.Machine

/-- One step: what `State.plan` says the device does next. -/
def step (s : State) : Host.Outcome State Fault Refusal := s.plan.out

/-- The instruction `w` stands where the next step fetches (log 1): firmware runs; launch 0, a record of zeros, has its one group in slot 0
of core 0, at its first instruction; store segment 0 of the core holds the word; and nothing else in the device can move. An instruction is
one word of 32 bits. -/
def State.withFetchWord (s : State) (_nbits w : Nat) : State := s.holding (BitVec.ofNat 32 w)

end Sys2Proof.Machine
end

