-- ==== Sys2Proof/Safety.lean ====
section
/-! DEFINITION. What claims about the machine are stated in: the form that memory keeps, when an instruction word passes the checks of
R73, what a result leaves in registers and latches, what it leaves unchanged, where the lanes go, and which events are counted. -/

namespace Sys2Proof

/-- What the device does of itself or what comes from outside it: a row of the opcode table that no word of a program encodes. -/
def Instr.isEvent : Instr → Bool
  | .licenceGrant _ | .mmaOperationEnd _ | .mdrainOperationEnd _ | .copyOperationStart _ _ | .copyOperationEnd _ _
  | .wneTimeout _ _ _ _ | .codeLoadEnd _ _ | .collectiveRun _ _ _ _ | .collectiveEnd _ _ _ | .hangWatchdogExpiry _ _ _
  | .scallAggregationExpiry _ _ _ | .saveWatchdogExpiry _ _ | .pendingLaunchAccept _ _ | .groupAdmission _ _ | .phaseBoundary _ _
  | .groupReadmission _ _ | .phasewEvaluation _ _ | .launchCompletion _ | .activeSetSwap _ | .pendingLimitExpiry _ _
  | .preemptionSave _ _ | .contextRestore _ _ | .detPreemptionFold _ _ | .steelyardGrant _ | .operatingPointStepEnd _
  | .throttleAssert _ | .throttleHoldExpiry | .frameReceive _ _ _ | .packetLanding _ _ _ _ _ _ _ _ | .transportFrameReceive _
  | .transportAckTimer _ _ | .transportRetryTimeout _ _ | .ptpEventMessage _ _ | .mgmtSubmitLaunch _ _ | .mgmtRead _ _ _
  | .mgmtWrite _ _ _ | .mgmtResume _ _ | .mgmtKill _ _ | .mgmtSpatialPreemption _ _ _ _ | .mgmtScrub _ _ | .mgmtExtend _ _ _
  | .mgmtAttestationReport _ _ | .mgmtDoorbell _ _ | .mgmtLoadFirmwareImage _ _ _ | .mgmtLoadTransportKey _ _ _ | .mgmtPinReplyRead
  | .clockControlWrite _ _ _ | .steelyardControlWrite _ _ _ | .throttleControlWrite _ _ | .handlerStoreWrite _ _ _ _
  | .landingRingBindingWrite _ _ _ _ | .fullEmptyTableWrite _ _ _ _ _ | .trapRecordWrite _ _ _ _ _ _ | .partitionValidSet _
  | .unitOwnerChange _ _ | .resetRelease | .matrixPassEnd _ | .mzeroOperationEnd _ | .vectorPipeWindowEnd _
  | .throttleSourceDeassert _ | .resetAssert | .illegalInstructionWord _ | .fetchFault _ | .malformedCommand _ _ _
  | .gangWaitTimeslice _ _ => true
  | _ => false

end Sys2Proof

namespace Sys2Proof.Machine

/-! ## Memory -/

/-- The canonical form of a memory: addresses strictly rising, no entry that holds what an unlisted address reads as. -/
def Memory.wf (m : List Host.Cell) : Bool := canonical 0 m

/-- Both memories that are kept by the byte are in the canonical form: device memory and the scratchpads. -/
def State.memOk (s : State) : Bool := Memory.wf s.dram && Memory.wf s.pad

/-- Every byte of device memory, and of every core's on-chip map outside the register file, reads as before (for every agent). -/
def SameMemory (s t : State) : Prop :=
  (∀ who a, t.readByte who (.dram a) = s.readByte who (.dram a)) ∧
  (∀ core o, (regionKind o).1 ≠ 1 → t.chipByte core o = s.chipByte core o)

/-! ## The checks of a word -/

/-- The cursor names the fragment `h`, the register fields `named` lie in the allocation of every active lane (R46; 16 registers in
handler mode, R301), and every latch among `reads` may be read there (R51). -/
structure Ready (s : State) (h : Here) (named reads : List Reg) : Prop where
  here : s.here = some h
  range : ∀ l ∈ h.lanes, ∀ r ∈ named, r.toNat ≤ 123 →
    if h.handler then r.toNat < 16 else (s.thread (h.tk l)).wbase + r.toNat < h.R
  latch : ∀ l ∈ h.lanes, ∀ r ∈ reads, 124 ≤ r.toNat → r.toNat - 124 < (s.thread (h.tk l)).depth

/-- No lane of the fragment stands at the end of an active loop level (R143). -/
def NotAtLoopEnd (s : State) (h : Here) : Prop := ∀ l ∈ h.lanes, ∀ v ∈ (s.thread (h.tk l)).loops, v.stop ≠ h.frag.pc.off

/-! ## Results -/

/-- After a producing instruction that reads the registers `reads`, each active lane holds `v` in register `d` and in `y0`, its latches have
shifted (R49, R50), and its chain depth is that of R51. -/
structure Produced (s t : State) (h : Here) (reads : List Reg) (d : Reg) (v : Nat → Word) : Prop where
  written : ∀ l ∈ h.lanes, d.toNat ≤ 123 → t.reg h l d = v l
  first : ∀ l ∈ h.lanes, (t.thread (h.tk l)).y0 = v l
  second : ∀ l ∈ h.lanes, (t.thread (h.tk l)).y1 = (s.thread (h.tk l)).y0
  third : ∀ l ∈ h.lanes, (t.thread (h.tk l)).y2 = (s.thread (h.tk l)).y1
  fourth : ∀ l ∈ h.lanes, (t.thread (h.tk l)).y3 = (s.thread (h.tk l)).y2
  depth : ∀ l ∈ h.lanes, (t.thread (h.tk l)).depth = if readsLatch reads then min ((s.thread (h.tk l)).depth + 1) 4 else 1

/-- After an instruction that does not produce and reads the registers `reads`, the latches of each active lane stand as before, and its
chain depth is that of R51. -/
structure Unproduced (s t : State) (h : Here) (reads : List Reg) : Prop where
  latches : ∀ l ∈ h.lanes, (t.thread (h.tk l)).y0 = (s.thread (h.tk l)).y0 ∧ (t.thread (h.tk l)).y1 = (s.thread (h.tk l)).y1 ∧
    (t.thread (h.tk l)).y2 = (s.thread (h.tk l)).y2 ∧ (t.thread (h.tk l)).y3 = (s.thread (h.tk l)).y3
  depth : ∀ l ∈ h.lanes, (t.thread (h.tk l)).depth = if readsLatch reads then (s.thread (h.tk l)).depth else 0

/-- Each active lane that `go` does not take out of the fragment stands in a fragment of the wave at the address that R132, R142 and
R143 give, with the loop levels that they leave. -/
def Continues (s t : State) (h : Here) (go : Nat → Goto) : Prop :=
  ∀ l ∈ h.lanes, go l ≠ .leave →
    (t.thread (h.tk l)).loops = (advance h.frag.pc (s.thread (h.tk l)).loops (go l)).1 ∧
    ∃ f ∈ (t.wave h.wk).frags, f.lanes.getLsbD l = true ∧ f.mode = h.frag.mode ∧
      (f.pc, f.past) = (advance h.frag.pc (s.thread (h.tk l)).loops (go l)).2

/-- The instruction retires in sequence in every active lane. -/
def InSequence (s t : State) (h : Here) : Prop := Continues s t h (fun _ => .seq)

/-- The group's retired count rises by one, and each event class by `ev` of it, up to 2^32 - 1 (R102, R103, R105); an instruction of a
handler counts nothing (R301). -/
def Counted (s t : State) (h : Here) (ev : Nat → Nat) : Prop :=
  ∀ g, s.group h.gk = some g → ∃ g', t.group h.gk = some g' ∧
    (h.handler = false → g'.nret = g.nret + 1 ∧ ∀ k < 8, getD 0 g'.evtc k = satCount (getD 0 g.evtc k) (ev k)) ∧
    (h.handler = true → g' = g)

/-- Number of active lanes in which an instruction raises each class (R102). -/
def raised (h : Here) (e : Nat → Ev) (k : Nat) : Nat := (h.lanes.filter (fun l => (e l).getLsbD k)).length

/-- `v` is the rounding of a real number (R94, R122), which lies at or above the values `i × 2^e` with `low` and at or below those with
`high`: Round is monotonic, so `v` lies between the roundings of the two kinds. -/
def RoundOnce (low high : Int → Int → Prop) (v : Val) : Prop :=
  v.isNan = false ∧ ∀ i e : Int,
    let r := f32.decode (f32.roundFin .rn (i < 0) i.natAbs e).1
    (low i e → v.below r = false) ∧ (high i e → r.below v = false)

/-! ## Frames -/

/-- What no instruction of register results changes in a thread. -/
def Thread.kept (t : Thread) : Thread := { t with y0 := 0, y1 := 0, y2 := 0, y3 := 0, depth := 0, loops := [], shadow := [], hregs := [] }
/-- What no retirement changes in a wave, its own fragment apart. -/
def Wave.kept (w : Wave) : Wave := { w with frags := [], issued := 0, yielded := 0 }
/-- What no retirement changes in a group. -/
def Group.kept (g : Group) : Group := { g with evtc := [], evbase := [], fired := 0, nret := 0 }
/-- What no retirement changes in the device: all but threads, waves, groups, registers, retired counts, and notices with their frames. -/
def State.kept (s : State) : State := { s with threads := [], waves := [], groups := [], rf := [], lcores := [], outbox := [], conns := [], wire := [] }

/-- All that an instruction of the fragment `h` leaves unchanged whose only destination is register `d` of its active lanes; a latch as
`d` stands for no destination. -/
structure Frame (s t : State) (h : Here) (d : Reg) : Prop where
  device : t.kept = s.kept
  wire : t.outbox = s.outbox → t.conns = s.conns ∧ t.wire = s.wire
  memory : SameMemory s t
  registers : ∀ l, l < 32 → ∀ r : Reg, r.toNat ≤ 123 → (l ∈ h.lanes → r ≠ d) → t.reg h l r = s.reg h l r
  file : ∀ k, (∀ l ∈ h.lanes, d.toNat ≤ 123 → k ≠ rfKey h.core h.slot h.R h.wave ((s.thread (h.tk l)).wbase + d.toNat) l) →
    getD 0 t.rf k = getD 0 s.rf k
  shadows : ∀ l ∈ h.lanes, ∀ j, (d.toNat ≤ 123 → j + 16 * (s.thread (h.tk l)).bank.toNat ≠ d.toNat) →
    getD 0 (t.thread (h.tk l)).shadow j = getD 0 (s.thread (h.tk l)).shadow j
  handlers : ∀ l ∈ h.lanes, ∀ j, (d.toNat ≤ 123 → j ≠ d.toNat) → getD 0 (t.thread (h.tk l)).hregs j = getD 0 (s.thread (h.tk l)).hregs j
  threads : ∀ k, (∀ l ∈ h.lanes, k ≠ h.tk l) → t.thread k = s.thread k
  thread : ∀ l ∈ h.lanes, (t.thread (h.tk l)).kept = (s.thread (h.tk l)).kept
  waves : ∀ k, k ≠ h.wk → t.wave k = s.wave k
  wave : (t.wave h.wk).kept = (s.wave h.wk).kept
  fragments : ∀ f ∈ (s.wave h.wk).frags, f.lanes ≠ h.frag.lanes → f ∈ (t.wave h.wk).frags
  groups : ∀ k, k ≠ h.gk → t.group k = s.group k
  group : (t.group h.gk).map Group.kept = (s.group h.gk).map Group.kept

/-! ## What an instruction does -/

/-- From `s` to `t` an instruction that reads the registers `reads` retires in sequence: register `d` of each active lane and the latches
hold `v`, each event class counts `ev`, and nothing else changes. -/
structure Resulted (s t : State) (h : Here) (reads : List Reg) (d : Reg) (v : Nat → Word) (ev : Nat → Nat) : Prop where
  produced : Produced s t h reads d v
  counted : Counted s t h ev
  sequence : InSequence s t h
  frame : Frame s t h d

/-- From `s` to `t` an instruction that reads the registers `reads` and writes none retires, its lanes going as `go` says; it counts no
event, and nothing else changes. -/
structure Retired (s t : State) (h : Here) (reads : List Reg) (go : Nat → Goto) : Prop where
  unproduced : Unproduced s t h reads
  counted : Counted s t h (fun _ => 0)
  continues : Continues s t h go
  frame : Frame s t h 127

/-- `i` answers a next state: from `s1`, which holds what `i` does beside its register result, it has `Resulted`. -/
def Gives (i : Instr) (s s1 : State) (h : Here) (reads : List Reg) (d : Reg) (v : Nat → Word) (ev : Nat → Nat) : Prop :=
  ∃ t, exec i s = .next t ∧ Resulted s1 t h reads d v ev

/-- `i` answers a next state that differs by its result alone. -/
def Writes (i : Instr) (s : State) (h : Here) (reads : List Reg) (d : Reg) (v : Nat → Word) (ev : Nat → Nat) : Prop :=
  Gives i s s h reads d v ev

/-- `i` answers a next state: from `s1`, which holds what `i` does, it has `Retired`. -/
def Passes (i : Instr) (s s1 : State) (h : Here) (reads : List Reg) (go : Nat → Goto) : Prop :=
  ∃ t, exec i s = .next t ∧ Retired s1 t h reads go

/-- From `s` to `t` register `r` of each active lane comes to hold `v`, and nothing else changes: no latch, no chain depth, no loop level. A
latch as `r` is written nowhere. -/
structure Written (s t : State) (h : Here) (r : Reg) (v : Nat → Word) : Prop where
  value : ∀ l ∈ h.lanes, r.toNat ≤ 123 → t.reg h l r = v l
  other : ∀ l ∈ h.lanes, { t.thread (h.tk l) with shadow := [], hregs := [] } = { s.thread (h.tk l) with shadow := [], hregs := [] }
  frame : Frame s t h r

/-- From `s` to `t` the thread of each active lane `l` changes by `f l`, and nothing else changes. -/
structure EachThread (s t : State) (h : Here) (f : Nat → Thread → Thread) : Prop where
  lane : ∀ l ∈ h.lanes, t.thread (h.tk l) = f l (s.thread (h.tk l))
  others : ∀ k, (∀ l ∈ h.lanes, k ≠ h.tk l) → t.thread k = s.thread k
  rest : { t with threads := [] } = { s with threads := [] }

/-- No event class counts anything. -/
def quiet : Nat → Nat := fun _ => 0

/-- In sequence, in every lane. -/
def onward : Nat → Goto := fun _ => .seq

/-! ## Accesses to memory -/

/-- The units of the active lanes, as an access takes them. -/
def Here.units (h : Here) (loc : Nat → Option (List Loc)) : List Spot := h.lanes.map (fun l => { lane := l, locs := loc l })

/-- Each active lane's unit through record `r`, at the index in register `a`, is `loc`; none where the access does not happen (R164, R174). A
waiting access keeps the units that it located, in the state in which it was issued, but for those of a publish record (R172). -/
def Locates (s : State) (h : Here) (r : Rec) (a : Reg) (acc : Access) (fmtOk needPad : Bool) (loc : Nat → Option (List Loc)) : Prop :=
  if h.holdsUnits h.lanes then
    ((h.frag.kept.map (·.2)).getD []).filter (fun p => h.lanes.contains p.lane) = h.units loc ∧
      ∃ s0 : State, ∀ l ∈ h.lanes, ∃ i, s0.spot h r i acc fmtOk needPad = .ok (loc l)
  else ∀ l ∈ h.lanes, s.spot h r (s.reg h l a).toNat acc fmtOk needPad = .ok (loc l)

/-- The state in which an access acts: its walks are noted, and table entries of other devices are asked for (R338, R341). -/
def State.walked (s : State) (h : Here) (r : Rec) (a : Reg) (acc : Access) : State :=
  if h.holdsUnits h.lanes then s else s.noteSpots h r (fun l => (s.reg h l a).toNat) acc h.lanes

/-- Lane `l` is the lowest whose unit faults, with fault `f` (R174). -/
def FaultsAt (s : State) (h : Here) (r : Rec) (a : Reg) (acc : Access) (fmtOk needPad : Bool) (l : Nat) (f : LocFault) : Prop :=
  h.holdsUnits h.lanes = false ∧ l ∈ h.lanes ∧ s.spot h r (s.reg h l a).toNat acc fmtOk needPad = .error f ∧
  ∀ k ∈ h.lanes, k < l → ∃ x, s.spot h r (s.reg h k a).toNat acc fmtOk needPad = .ok x

/-- The bytes that the active lanes' units hold. -/
def Touched (h : Here) (loc : Nat → Option (List Loc)) (x : Loc) : Prop := ∃ l ∈ h.lanes, ∃ ls, loc l = some ls ∧ x ∈ ls

/-- A byte of this device's memory or of a scratchpad. -/
def Loc.own : Loc → Bool | .dram _ => true | .remote _ _ => false | x => x.isPad

/-- A byte of this device that programs may map: below the device reserve (R169). -/
def State.ownByte (s : State) (x : Loc) : Prop := x.own = true ∧ ∀ a, x = .dram a → a < s.reserveStart

/-- The record that an access goes through: its slot's, or the one that a waiting access issued with (R174). -/
def Here.record (h : Here) (slot : BitVec 5) : Rec := (h.frag.kept.map (·.1)).getD (h.g.shapeRec slot.toNat)

/-- The buffered stores of a core carry the key id of the partition `p`, lie each in one line and miss the device reserve, and the partition
table stands in the reserve (R166, R169, R344). -/
def State.buffersOk (s : State) (core p : Nat) : Prop :=
  s.reserveStart ≤ s.mm 128 64 ∧
  ∀ b ∈ s.sbuf, b.core = core → b.key = s.keyOf p ∧ b.addr % 128 + b.bytes.length ≤ 128 ∧ b.addr + b.bytes.length ≤ s.reserveStart

/-- No byte of another device among the active lanes' units is still to come (R338). -/
def Arrived (s : State) (h : Here) (loc : Nat → Option (List Loc)) : Prop := ∀ l ∈ h.lanes, s.lacks h.actor ((loc l).getD []) = false

/-- No write that an active lane need not have seen races with its unit: the newest write to each atomic part lies in the lane's past (R260). -/
def Calm (s : State) (h : Here) (loc : Nat → Option (List Loc)) : Prop := ∀ l ∈ h.lanes, s.raced (h.lane l) ((loc l).getD []) = false

/-- The state without what stores change: memories, tags, store buffers, granules, marks, races and their releases, digests, and what goes to the
outside. -/
def State.sansMemory (s : State) : State :=
  { s with dram := [], tags := [], bad := [], sbuf := [], pad := [], full := [], gsync := [], marks := [], races := [], writes := [], wnum := 0, walks := [],
           held := [], lcores := [], checks := [], outbox := [], conns := [], wire := [] }

/-- The state without what the walks and reads of an access change: translation caches, what threads have seen, answers that are taken, and what
goes to the outside. -/
def State.sansReads (s : State) : State := { s with walks := [], writes := [], asks := [], outbox := [], conns := [], wire := [] }

/-- From `s` to `t` the active lanes read: nothing changes but what reads leave behind, and `n` free values are used. -/
structure Observed (s t : State) (n : Nat) : Prop where
  threads : ∀ k, { t.thread k with reads := [] } = { s.thread k with reads := [] }
  rest : { t with threads := [] }.sansReads = State.sansReads { s with threads := [], fresh := s.fresh + n }

/-- `word` is what plain reads of the active lanes' units give in `s`, `n` free values being used: the units as they stand where nothing races with
them, and otherwise each atomic part as it stood before a last part of the writes that the lane need not have seen (R258, R260). -/
def PlainReads (s : State) (h : Here) (loc : Nat → Option (List Loc)) (n : Nat) (word : Nat → Nat) : Prop :=
  (Calm s h loc → n = 0 ∧ ∀ l ∈ h.lanes, word l = match loc l with | none => 0 | some ls => s.readNat h.actor ls) ∧
  ∀ l ∈ h.lanes, match loc l with
    | none => word l = 0
    | some ls =>
      if (h.lane l).races ls then
        ∃ keep : List Loc → Nat, word l = natOf ((unitParts ls).flatMap (fun p =>
          p.map (s.byteBefore (h.lane l) (s.entries (h.lane l) p) ((s.racing (h.lane l) p).drop (keep p)))))
      else word l = s.readNat h.actor ls

/-- From `s` to `t` the low bytes of `v` are stored plainly to the active lanes' units, and nowhere else: the highest lane's where units overlap.
Where a write that a lane need not have seen races with them, a byte may stay as that write left it (R160, R178, R259). -/
structure PlainStores (s t : State) (h : Here) (loc : Nat → Option (List Loc)) (v : Nat → Word) : Prop where
  state : ∃ n, t.sansMemory = State.sansMemory { s with fresh := s.fresh + n } ∧ (Calm s h loc → n = 0)
  others : ∀ x, (∀ n a, x ≠ .remote n a) → ¬Touched h loc x → t.readByte h.actor x = s.readByte h.actor x
  stored : Calm s h loc → ∀ l ∈ h.lanes, ∀ ls, loc l = some ls → ∀ (j : Nat) (x : Loc), ls[j]? = some x →
    (∀ k ∈ h.lanes, l < k → ∀ ls', loc k = some ls' → x ∉ ls') → t.readByte h.actor x = (v l).extractLsb' (8 * j) 8
  either : ∀ x, Touched h loc x → t.readByte h.actor x = s.readByte h.actor x ∨
    ∃ l ∈ h.lanes, ∃ ls, ∃ j : Nat, loc l = some ls ∧ ls[j]? = some x ∧ t.readByte h.actor x = (v l).extractLsb' (8 * j) 8

/-- From `s` to `t` the fragment waits in its access, which keeps record `r`, the lanes in which `done` holds being done (R180). -/
structure Waits (s t : State) (h : Here) (r : Rec) (done : Nat → Bool) : Prop where
  marks : ∀ l ∈ h.lanes, (t.thread (h.tk l)).done = done l
  frag : ∃ f ∈ (t.wave h.wk).frags, f.lanes = h.frag.lanes ∧ f.pc = h.frag.pc ∧ f.mode = h.frag.mode ∧ f.wait = .access ∧ f.kept.map (·.1) = some r
  others : ∀ k, (∀ l ∈ h.lanes, k ≠ h.tk l) → t.thread k = s.thread k
  groups : t.groups = s.groups

end Sys2Proof.Machine
end

