-- ==== Sys2Proof/Certificates/Slice0/Obligations.lean ====
section
/-! DEFINITION. The statements about the machine that the provers settle. Each docstring names the rules of the spec it is read from. -/

open Sys2Proof Sys2Proof.Machine

/-! ## Integer arithmetic -/

/-- R110: the word and the result of each INT1 instruction; no event; everything else unchanged. -/
def Obligations.IntegerArithmeticResults : Prop :=
  ∀ (s : State) (h : Here) (d a b : Reg), Ready s h [d, a, b] [a, b] →
    ∀ p ∈ ([
        (0, .add d a b, fun x y => x + y),
        (1, .sub d a b, fun x y => x - y),
        (2, .mul d a b, fun x y => BitVec.ofNat 32 (x.toNat * y.toNat)),
        (3, .mulhs d a b, fun x y => (x.signExtend 64 * y.signExtend 64).extractLsb' 32 32),
        (4, .mulhz d a b, fun x y => (x.setWidth 64 * y.setWidth 64).extractLsb' 32 32),
        (5, .and d a b, fun x y => x &&& y),
        (6, .or d a b, fun x y => x ||| y),
        (7, .xor d a b, fun x y => x ^^^ y),
        (8, .andn d a b, fun x y => x &&& ~~~y),
        (9, .shl d a b, fun x y => if 32 ≤ y.toNat then 0 else BitVec.ofNat 32 (x.toNat * 2 ^ y.toNat)),
        (10, .shrz d a b, fun x y => if 32 ≤ y.toNat then 0 else BitVec.ofNat 32 (x.toNat / 2 ^ y.toNat)),
        (11, .shrs d a b, fun x y => if 32 ≤ y.toNat then (if 0 ≤ x.toInt then 0 else 0xFFFFFFFF) else BitVec.ofInt 32 (x.toInt / 2 ^ y.toNat)),
        (12, .mins d a b, fun x y => if x.toInt ≤ y.toInt then x else y),
        (13, .maxs d a b, fun x y => if x.toInt ≤ y.toInt then y else x),
        (14, .minz d a b, fun x y => if x.toNat ≤ y.toNat then x else y),
        (15, .maxz d a b, fun x y => if x.toNat ≤ y.toNat then y else x)] : List (BitVec 4 × Instr × (Word → Word → Word))),
      encode p.2.1 = some (0x01#7 ++ (d ++ (a ++ (b ++ p.1)))) ∧
      Writes p.2.1 s h [a, b] d (fun l => p.2.2 (s.reg h l a) (s.reg h l b)) quiet

/-- R111, its rows other than the bit fields of R112: comparisons, selection, bit counts, reversal and the multiply-add. -/
def Obligations.IntegerSelectAndCount : Prop :=
  ∀ (s : State) (h : Here) (d a b : Reg),
    (Ready s h [d, a, b] [a, b] → ∀ p ∈ ([
        (0, .seq d a b, fun x y => if x = y then 1 else 0),
        (1, .sne d a b, fun x y => if x = y then 0 else 1),
        (2, .slts d a b, fun x y => if x.toInt < y.toInt then 1 else 0),
        (3, .sltz d a b, fun x y => if x.toNat < y.toNat then 1 else 0),
        (4, .sles d a b, fun x y => if x.toInt ≤ y.toInt then 1 else 0),
        (5, .slez d a b, fun x y => if x.toNat ≤ y.toNat then 1 else 0)] : List (BitVec 4 × Instr × (Word → Word → Word))),
      encode p.2.1 = some (0x02#7 ++ (d ++ (a ++ (b ++ p.1)))) ∧
      Writes p.2.1 s h [a, b] d (fun l => p.2.2 (s.reg h l a) (s.reg h l b)) quiet) ∧
    (Ready s h [d, a, b] [d, a, b] → ∀ p ∈ ([
        (6, .sel d a b, fun v x y => if x ≠ 0 then y else v),
        (15, .mac d a b, fun v x y => BitVec.ofNat 32 (v.toNat + x.toNat * y.toNat))] : List (BitVec 4 × Instr × (Word → Word → Word → Word))),
      encode p.2.1 = some (0x02#7 ++ (d ++ (a ++ (b ++ p.1)))) ∧
      Writes p.2.1 s h [d, a, b] d (fun l => p.2.2 (s.reg h l d) (s.reg h l a) (s.reg h l b)) quiet) ∧
    (Ready s h [d, a] [a] →
      (∃ v : Nat → Word, Writes (.clz d a) s h [a] d v quiet ∧ ∀ l, (v l).toNat ≤ 32 ∧ ∀ j < 32,
        (j < (v l).toNat → (s.reg h l a).getLsbD (31 - j) = false) ∧ (j = (v l).toNat → (s.reg h l a).getLsbD (31 - j) = true)) ∧
      Writes (.popc d a) s h [a] d (fun l => BitVec.ofNat 32 ((List.range 32).filter (fun j => (s.reg h l a).getLsbD j)).length) quiet ∧
      (∃ v : Nat → Word, Writes (.brev d a) s h [a] d v quiet ∧ ∀ l, ∀ j < 32, (v l).getLsbD j = (s.reg h l a).getLsbD (31 - j)) ∧
      encode (.clz d a) = some (0x02#7 ++ (d ++ (a ++ 7#11))) ∧ encode (.popc d a) = some (0x02#7 ++ (d ++ (a ++ 8#11))) ∧
      encode (.brev d a) = some (0x02#7 ++ (d ++ (a ++ 9#11))))

/-- R112: a field of length `len = B[12:8] + 1` at `pos = B[4:0]`, extracted with zeros or the sign above it, or inserted bit by bit. -/
def Obligations.BitFieldResults : Prop :=
  ∀ (s : State) (h : Here) (d a b : Reg),
    let len := fun l => ((s.reg h l b).extractLsb' 8 5).toNat + 1
    let pos := fun l => ((s.reg h l b).extractLsb' 0 5).toNat
    (Ready s h [d, a, b] [a, b] →
      Writes (.bfxz d a b) s h [a, b] d (fun l => BitVec.ofNat 32 ((s.reg h l a).toNat / 2 ^ pos l % 2 ^ len l)) quiet ∧
      Writes (.bfxs d a b) s h [a, b] d (fun l =>
        let t := (s.reg h l a).toInt / 2 ^ pos l % 2 ^ len l
        BitVec.ofInt 32 (if len l < 32 ∧ 2 ^ (len l - 1) ≤ t then t - 2 ^ len l else t)) quiet) ∧
    (Ready s h [d, a, b] [d, a, b] → ∃ v : Nat → Word, Writes (.bfi d a b) s h [d, a, b] d v quiet ∧
      ∀ l, ∀ j < 32, (v l).getLsbD j = if pos l ≤ j ∧ j - pos l < len l then (s.reg h l a).getLsbD (j - pos l) else (s.reg h l d).getLsbD j)

/-- R111 (`addss`, `subss`): the exact sum or difference limited to s32, with a saturation event (class 5) in each lane that is limited.
R113: folded minimum and maximum over exact integers, exact differences, divisions and remainders with their corner cases and the
events of classes 1, 5 and 6, and the words of INT3. -/
def Obligations.FoldsAndDivisions : Prop :=
  ∀ (s : State) (h : Here) (d a b : Reg),
    (Ready s h [d, a, b] [a, b] → ∀ p ∈ ([(.addss d a b, fun x y => x + y), (.subss d a b, fun x y => x - y)] : List (Instr × (Int → Int → Int))),
      let t := fun l => p.2 (s.reg h l a).toInt (s.reg h l b).toInt
      Writes p.1 s h [a, b] d (fun l => BitVec.ofInt 32 (max (-2 ^ 31) (min (2 ^ 31 - 1) (t l))))
        (raised h (fun l => if t l < -2 ^ 31 ∨ 2 ^ 31 - 1 < t l then 0b100000#8 else 0))) ∧
    (Ready s h [d, a, b] [d, a, b] →
      (let m := fun l => min (s.reg h l d).toInt ((s.reg h l a).toInt + (s.reg h l b).toInt)
       Writes (.addmin d a b) s h [d, a, b] d (fun l => BitVec.ofInt 32 (max (m l) (-2 ^ 31))) (raised h (fun l => if m l < -2 ^ 31 then 0b100000#8 else 0))) ∧
      (let m := fun l => max (s.reg h l d).toInt ((s.reg h l a).toInt + (s.reg h l b).toInt)
       Writes (.addmax d a b) s h [d, a, b] d (fun l => BitVec.ofInt 32 (min (m l) (2 ^ 31 - 1)))
        (raised h (fun l => if 2 ^ 31 - 1 < m l then 0b100000#8 else 0)))) ∧
    (Ready s h [d, a, b] [a, b] →
      Writes (.absd d a b) s h [a, b] d (fun l => BitVec.ofNat 32 ((s.reg h l a).toInt - (s.reg h l b).toInt).natAbs) quiet ∧
      Writes (.divs d a b) s h [a, b] d (fun l =>
          if s.reg h l b = 0 then 0xFFFFFFFF else if s.reg h l a = 0x80000000 ∧ s.reg h l b = 0xFFFFFFFF then 0x80000000
          else BitVec.ofInt 32 (Int.tdiv (s.reg h l a).toInt (s.reg h l b).toInt))
        (raised h (fun l => if s.reg h l b = 0 then 0b10#8 else if s.reg h l a = 0x80000000 ∧ s.reg h l b = 0xFFFFFFFF then 0b1000000 else 0)) ∧
      Writes (.divz d a b) s h [a, b] d (fun l => if s.reg h l b = 0 then 0xFFFFFFFF else BitVec.ofNat 32 ((s.reg h l a).toNat / (s.reg h l b).toNat))
        (raised h (fun l => if s.reg h l b = 0 then 0b10#8 else 0)) ∧
      Writes (.rems d a b) s h [a, b] d (fun l =>
          if s.reg h l b = 0 then s.reg h l a
          else BitVec.ofInt 32 ((s.reg h l a).toInt - (s.reg h l b).toInt * Int.tdiv (s.reg h l a).toInt (s.reg h l b).toInt))
        (raised h (fun l => if s.reg h l b = 0 then 0b10#8 else 0)) ∧
      Writes (.remz d a b) s h [a, b] d (fun l => if s.reg h l b = 0 then s.reg h l a else BitVec.ofNat 32 ((s.reg h l a).toNat % (s.reg h l b).toNat))
        (raised h (fun l => if s.reg h l b = 0 then 0b10#8 else 0))) ∧
    (∀ p ∈ ([(0, .addmin d a b), (1, .addmax d a b), (2, .absd d a b), (3, .divs d a b), (4, .divz d a b), (5, .rems d a b), (6, .remz d a b)] :
        List (BitVec 4 × Instr)), encode p.2 = some (0x03#7 ++ (d ++ (a ++ (b ++ p.1))))) ∧
    (∀ fn : BitVec 4, 7 ≤ fn.toNat → ∃ e, decode (0x03#7 ++ (d ++ (a ++ (b ++ fn)))) = .error e)

/-- R114 and R115: each immediate form answers what its register form's rule gives for A and the immediate K; `li` and `lih` write their
constants. -/
def Obligations.ImmediateForms : Prop :=
  ∀ (s : State) (h : Here) (d a : Reg),
    (Ready s h [d, a] [a] → ∀ imm : BitVec 11, ∀ p ∈ ([
        (0x20, .addi d a imm, imm.signExtend 32, fun x k => x + k),
        (0x21, .muli d a imm, imm.signExtend 32, fun x k => BitVec.ofNat 32 (x.toNat * k.toNat)),
        (0x22, .andi d a imm, imm.setWidth 32, fun x k => x &&& k),
        (0x23, .ori d a imm, imm.setWidth 32, fun x k => x ||| k),
        (0x24, .xori d a imm, imm.setWidth 32, fun x k => x ^^^ k),
        (0x28, .sltsi d a imm, imm.signExtend 32, fun x k => if x.toInt < k.toInt then 1 else 0),
        (0x29, .sltzi d a imm, imm.setWidth 32, fun x k => if x.toNat < k.toNat then 1 else 0),
        (0x2A, .seqi d a imm, imm.signExtend 32, fun x k => if x = k then 1 else 0),
        (0x2B, .minsi d a imm, imm.signExtend 32, fun x k => if x.toInt ≤ k.toInt then x else k),
        (0x2C, .maxsi d a imm, imm.signExtend 32, fun x k => if x.toInt ≤ k.toInt then k else x)] :
          List (BitVec 7 × Instr × Word × (Word → Word → Word))),
      encode p.2.1 = some (p.1 ++ (d ++ (a ++ imm))) ∧ Writes p.2.1 s h [a] d (fun l => p.2.2.2 (s.reg h l a) p.2.2.1) quiet) ∧
    (Ready s h [d, a] [a] → ∀ imm : BitVec 5, ∀ p ∈ ([
        (0x25, .shli d a imm, fun x k => BitVec.ofNat 32 (x.toNat * 2 ^ k)),
        (0x26, .shrzi d a imm, fun x k => BitVec.ofNat 32 (x.toNat / 2 ^ k)),
        (0x27, .shrsi d a imm, fun x k => BitVec.ofInt 32 (x.toInt / 2 ^ k))] : List (BitVec 7 × Instr × (Word → Nat → Word))),
      encode p.2.1 = some (p.1 ++ (d ++ (a ++ (0#6 ++ imm)))) ∧ Writes p.2.1 s h [a] d (fun l => p.2.2 (s.reg h l a) imm.toNat) quiet) ∧
    (Ready s h [d, a] [d, a] → ∀ imm : BitVec 11,
      let m := fun l => min (s.reg h l d).toInt ((s.reg h l a).toInt + imm.toInt)
      encode (.addmini d a imm) = some (0x2D#7 ++ (d ++ (a ++ imm))) ∧
      Writes (.addmini d a imm) s h [d, a] d (fun l => BitVec.ofInt 32 (max (m l) (-2 ^ 31))) (raised h (fun l => if m l < -2 ^ 31 then 0b100000#8 else 0))) ∧
    (∀ imm : BitVec 18, encode (.li d imm) = some (0x30#7 ++ (d ++ imm)) ∧ encode (.lih d imm) = some (0x31#7 ++ (d ++ imm)) ∧
      (Ready s h [d] [] → Writes (.li d imm) s h [] d (fun _ => imm.signExtend 32) quiet) ∧
      (Ready s h [d] [d] → Writes (.lih d imm) s h [d] d (fun l => BitVec.ofNat 32 (imm.toNat * 2 ^ 14 + (s.reg h l d).toNat % 2 ^ 14)) quiet))

/-! ## Floating point -/

/-- R94 and R95 give back every code that is not a NaN: rounding the value of a code of a format to that format answers that code and raises no
event (R85, R86). -/
def Obligations.RoundingKeepsCodes : Prop :=
  ∀ f ∈ [f32, bf16, f16, e5m2, e4m3, e3m4, e3m2, e2m3, e2m1], ∀ mode, ∀ c < 2 ^ f.width, (f.decode c).isNan = false →
    f.encode mode (f.decode c) = (c, evNone)

/-- R94 for nearest even: a positive magnitude below the point halfway past the largest finite one rounds to a code whose value lies at least as near as that of
every finite code, and to an even code where another one is as near; above that point it overflows to infinity, or saturates in a format
without infinities. Values are compared over the common exponent `e0`. -/
def Obligations.RoundingIsNearestEven : Prop :=
  ∀ f ∈ [f32, bf16, f16, e5m2, e4m3, e3m4, e3m2, e2m3, e2m1], ∀ (neg : Bool) (m : Nat) (e : Int), 0 < m →
    let e0 := min e (1 - f.bias - f.mbits)
    let x := (Val.fin false m e).over e0
    let r := f.roundFin .rn neg m e
    let top := (f.decode f.max).over e0
    let ulp := top - (f.decode (f.max - 1)).over e0
    (2 * x < 2 * top + ulp ∨ (2 * x = 2 * top + ulp ∧ f.max % 2 = 0) →
      ∃ c ≤ f.max, r.1 = f.signed neg c ∧ ∀ c' ≤ f.max,
        (x - (f.decode c).over e0).natAbs ≤ (x - (f.decode c').over e0).natAbs ∧
        (c' ≠ c → (x - (f.decode c).over e0).natAbs = (x - (f.decode c').over e0).natAbs → c % 2 = 0) ∧
        r.2 = if x < (f.decode (2 ^ f.mbits)).over e0 ∧ x ≠ (f.decode c).over e0 then 0b1000 else 0) ∧
    (¬(2 * x < 2 * top + ulp ∨ (2 * x = 2 * top + ulp ∧ f.max % 2 = 0)) →
      r = if f.inf then (f.signed neg (f.max + 1), 0b100) else (f.signed neg f.max, 0b100000))

/-- R116 before the rounding: the sum and the product of finite values are exact, over any common exponent, and a zero sum is -0 only if
every addend is -0. -/
def Obligations.ExactSumsAndProducts : Prop :=
  (∀ vs : List Val, (∀ v ∈ vs, v.isNan = false ∧ v.isInf = false) → vs ≠ [] →
    ∃ neg m e, sumVals vs = (.fin neg m e, evNone) ∧ (m = 0 → (neg = true ↔ ∀ v ∈ vs, v.neg = true)) ∧
      ∀ e0, e0 ≤ e → (∀ v ∈ vs, e0 ≤ v.expo) → (Val.fin neg m e).over e0 = (vs.map (Val.over e0)).sum) ∧
  (∀ n m e n' m' e', mulVals (.fin n m e) (.fin n' m' e') = (.fin (n != n') (m * m') (e + e'), evNone)) ∧
  (∀ n n' v, (sumVals [.inf n, .inf n']).1 = (if n = n' then .inf n else .nan false) ∧
    (v.isZero = true → mulVals (.inf n) v = (.nan false, evInvalid) ∧ mulVals v (.inf n) = (.nan false, evInvalid)))

/-- R116: the arithmetic of binary32 rounds its exact result once; a NaN operand gives the canonical NaN; the events are those of the NaN
operands, of the exact operation and of the rounding. -/
def Obligations.FloatArithmetic : Prop :=
  ∀ (s : State) (h : Here) (d a b : Reg),
    let val := fun l r => f32.decode (s.reg h l r).toNat
    let round := fun (ops : List Val) (t : Val × Ev) => (wd (f32.encode .rn t.1).1, nanEvents ops ||| t.2 ||| (f32.encode .rn t.1).2)
    (Ready s h [d, a, b] [a, b] → ∀ p ∈ ([
        (.fadd d a b, fun x y => sumVals [x, y]),
        (.fsub d a b, fun x y => sumVals [x, y.flip]),
        (.fmul d a b, fun x y => mulVals x y)] : List (Instr × (Val → Val → Val × Ev))),
      let r := fun l => round [val l a, val l b] (p.2 (val l a) (val l b))
      Writes p.1 s h [a, b] d (fun l => (r l).1) (raised h (fun l => (r l).2)) ∧
      ∀ l, (val l a).isNan = true ∨ (val l b).isNan = true → (r l).1 = 0x7FC00000) ∧
    (Ready s h [d, a, b] [d, a, b] → ∀ p ∈ ([(.ffma d a b, fun x => x), (.ffms d a b, Val.flip)] : List (Instr × (Val → Val))),
      let r := fun l => let q := mulVals (val l a) (val l b); let t := sumVals [p.2 q.1, val l d]; round [val l a, val l b, val l d] (t.1, q.2 ||| t.2)
      Writes p.1 s h [d, a, b] d (fun l => (r l).1) (raised h (fun l => (r l).2)) ∧
      ∀ l, (val l a).isNan = true ∨ (val l b).isNan = true ∨ (val l d).isNan = true → (r l).1 = 0x7FC00000)

/-- R117 to R120: minimum and maximum, comparisons, classification and the sign operations of binary32. -/
def Obligations.FloatComparisons : Prop :=
  ∀ (s : State) (h : Here) (d a b : Reg),
    let val := fun l r => f32.decode (s.reg h l r).toNat
    let nan := fun l => (val l a).isNan || (val l b).isNan
    (Ready s h [d, a, b] [a, b] →
      (∀ p ∈ ([(.fmin d a b, fun x y => x.below y), (.fmax d a b, fun x y => y.below x)] : List (Instr × (Val → Val → Bool))),
        ∃ v : Nat → Word, Writes p.1 s h [a, b] d v (raised h (fun l => nanEvents [val l a, val l b])) ∧
        ∀ l, (nan l = false → (v l = s.reg h l a ∨ v l = s.reg h l b) ∧ (p.2 (val l a) (val l b) = true → v l = s.reg h l a) ∧
            (p.2 (val l b) (val l a) = true → v l = s.reg h l b)) ∧
          ((val l a).isNan = true → (val l b).isNan = false → v l = s.reg h l b) ∧ ((val l b).isNan = true → (val l a).isNan = false → v l = s.reg h l a) ∧
          ((val l a).isNan = true → (val l b).isNan = true → v l = 0x7FC00000)) ∧
      (∀ p ∈ ([
          (.fseq d a b, fun x y => x.same y, false), (.fslt d a b, fun x y => x.below y && !x.same y, true),
          (.fsle d a b, fun x y => x.below y || x.same y, true), (.fsun d a b, fun x y => x.isNan || y.isNan, false)] : List (Instr × (Val → Val → Bool) × Bool)),
        Writes p.1 s h [a, b] d (fun l => if p.2.1 (val l a) (val l b) then 1 else 0)
          (raised h (fun l => nanEvents [val l a, val l b] ||| (if p.2.2 && nan l then evInvalid else evNone)))) ∧
      Writes (.fcopysign d a b) s h [a, b] d (fun l => (s.reg h l b).extractLsb' 31 1 ++ (s.reg h l a).extractLsb' 0 31) quiet) ∧
    encode (.fabs d a) = some (0x04#7 ++ (d ++ (a ++ 7#11))) ∧ encode (.fneg d a) = some (0x04#7 ++ (d ++ (a ++ 8#11))) ∧
    encode (.fcopysign d a b) = some (0x04#7 ++ (d ++ (a ++ (b ++ 15#4)))) ∧
    (Ready s h [d, a] [a] →
      Writes (.fabs d a) s h [a] d (fun l => 0#1 ++ (s.reg h l a).extractLsb' 0 31) quiet ∧
      Writes (.fneg d a) s h [a] d (fun l => ~~~((s.reg h l a).extractLsb' 31 1) ++ (s.reg h l a).extractLsb' 0 31) quiet ∧
      Writes (.fclass d a) s h [a] d (fun l =>
        let x := s.reg h l a
        let body := x.toNat % 2 ^ 31
        let neg := x.getLsbD 31
        if body = 0 then (if neg then 0x8 else 0x10) else if body < 0x800000 then (if neg then 0x4 else 0x20)
        else if body < 0x7F800000 then (if neg then 0x2 else 0x40) else if body = 0x7F800000 then (if neg then 0x1 else 0x80)
        else if x.getLsbD 22 then 0x200 else 0x100) quiet)

/-- R121 and R122: the folded minimum over an exact sum, and the functions of FP2. Each finite result rounds once: the values whose exact
function values are at most the operand round to at most the result, and the other way round. The results that are not finite rounded
values, and the events, are those of R122. An integer from -149 to 127 has an exact power of two, and a power of two an exact logarithm. The
power of two and the logarithm of a finite value round once too: `t ≤ 2^x` and `2^t ≤ x` are decided by whole powers of both sides. Where
the model's intervals do not settle a result, it is a free value, and so are the events it leaves open (log 10). -/
def Obligations.FloatFunctions : Prop :=
  ∀ (s : State) (h : Here) (d a b : Reg),
    let val := fun l r => f32.decode (s.reg h l r).toNat
    let round := fun (t : Val) => (wd (f32.encode .rn t).1, (f32.encode .rn t).2)
    let code := fun (w : Word) => f32.decode w.toNat
    let at' := fun i e => Val.fin (i < 0) i.natAbs e
    let mul := fun x y => (mulVals x y).1
    let one := Val.fin false 1 0
    -- the result and the events of a quotient of finite values that are not 0
    let divided := fun (x y : Val) (v : Word) (ev : Ev) =>
      (code v).neg = (x.neg != y.neg) ∧
      RoundOnce (fun i e => i ≤ 0 ∨ x.abs.below (mul (at' i e) y.abs) = false) (fun i e => 0 ≤ i ∧ (mul (at' i e) y.abs).below x.abs = false) (code v).abs ∧
      ev = if (code v).isInf then evOver
        else if (mul (code v).abs y.abs).same x.abs = false ∧ x.abs.below (mul (Val.fin false 1 (-126)) y.abs) = true then evUnder else evNone
    (Ready s h [d, a, b] [d, a, b] → ∃ v : Nat → Word, ∃ ev : Nat → Ev, Writes (.faddmin d a b) s h [d, a, b] d v (raised h ev) ∧
      ∀ l, let t := sumVals [val l a, val l b]
        let z := val l d
        let e := nanEvents [val l a, val l b, z] ||| t.2
        (t.1.isNan = true → z.isNan = true → v l = 0x7FC00000 ∧ ev l = e) ∧ (t.1.isNan = true → z.isNan = false → v l = s.reg h l d ∧ ev l = e) ∧
        (t.1.isNan = false → z.isNan = true ∨ t.1.below z = true → (v l, ev l) = ((round t.1).1, e ||| (round t.1).2)) ∧
        (t.1.isNan = false → z.isNan = false → t.1.below z = false → v l = s.reg h l d ∧ ev l = e)) ∧
    (Ready s h [d, a] [a] →
      (∀ p ∈ ([
        (.fsqrt d a, 0x7F800000, 0x7FC00000, 0, 0x80000000, false), (.frcp d a, 0, 0x80000000, 0x7F800000, 0xFF800000, true),
        (.frsq d a, 0, 0x7FC00000, 0x7F800000, 0xFF800000, true), (.fexp2 d a, 0x7F800000, 0, 0x3F800000, 0x3F800000, false),
        (.flog2 d a, 0x7F800000, 0x7FC00000, 0xFF800000, 0xFF800000, true)] : List (Instr × Word × Word × Word × Word × Bool)),
        ∃ v : Nat → Word, ∃ ev : Nat → Ev, Writes p.1 s h [a] d v (raised h ev) ∧
        ∀ l, ((val l a).isNan = true → v l = 0x7FC00000 ∧ ev l = nanEvents [val l a]) ∧ (s.reg h l a = 0x7F800000 → v l = p.2.1 ∧ ev l = evNone) ∧
          (s.reg h l a = 0xFF800000 → v l = p.2.2.1 ∧ ev l = if p.2.2.1 = 0x7FC00000 then evInvalid else evNone) ∧
          (s.reg h l a = 0 → v l = p.2.2.2.1 ∧ ev l = if p.2.2.2.2.2 then evDivZero else evNone) ∧
          (s.reg h l a = 0x80000000 → v l = p.2.2.2.2.1 ∧ ev l = if p.2.2.2.2.2 then evDivZero else evNone)) ∧
      (∀ i ∈ ([.fsqrt d a, .frsq d a, .flog2 d a] : List Instr), ∃ v : Nat → Word, ∃ ev : Nat → Ev, Writes i s h [a] d v (raised h ev) ∧
        ∀ l m e, val l a = .fin true m e → m ≠ 0 → v l = 0x7FC00000 ∧ ev l = evInvalid) ∧
      (∃ v : Nat → Word, ∃ ev : Nat → Ev, Writes (.fsqrt d a) s h [a] d v (raised h ev) ∧
        ∀ l m e, val l a = .fin false m e → m ≠ 0 → ev l = evNone ∧
          RoundOnce (fun i e => i ≤ 0 ∨ (val l a).below (mul (at' i e) (at' i e)) = false) (fun i e => 0 ≤ i ∧ (mul (at' i e) (at' i e)).below (val l a) = false)
            (code (v l))) ∧
      (∃ v : Nat → Word, ∃ ev : Nat → Ev, Writes (.frsq d a) s h [a] d v (raised h ev) ∧
        ∀ l m e, val l a = .fin false m e → m ≠ 0 → ev l = evNone ∧
          RoundOnce (fun i e => i ≤ 0 ∨ one.below (mul (mul (at' i e) (at' i e)) (val l a)) = false)
            (fun i e => 0 ≤ i ∧ (mul (mul (at' i e) (at' i e)) (val l a)).below one = false) (code (v l))) ∧
      (∃ v : Nat → Word, ∃ ev : Nat → Ev, Writes (.frcp d a) s h [a] d v (raised h ev) ∧
        ∀ l n m e, val l a = .fin n m e → m ≠ 0 → divided one (val l a) (v l) (ev l)) ∧
      (∃ v : Nat → Word, ∃ ev : Nat → Ev, Writes (.fexp2 d a) s h [a] d v (raised h ev) ∧
        ∀ l n m e, val l a = .fin n m e →
          (∀ i : Int, -149 ≤ i → i ≤ 127 → (val l a).same (Val.ofInt i) = true → code (v l) = f32.decode (f32.roundFin .rn false 1 i).1 ∧
            (code (v l)).same (.fin false 1 i) = true ∧ ev l = evNone) ∧
          ((val l a).below (Val.ofInt 128) = false → v l = 0x7F800000 ∧ ev l = evOver) ∧ ((val l a).below (Val.ofInt (-151)) = true → v l = 0 ∧ ev l = evUnder)) ∧
      (∃ v : Nat → Word, ∃ ev : Nat → Ev, Writes (.flog2 d a) s h [a] d v (raised h ev) ∧
        (∀ l, s.reg h l a = 0x3F800000 → v l = 0 ∧ ev l = evNone) ∧
        ∀ l (i : Int), (val l a).same (.fin false 1 i) = true → (code (v l)).same (Val.ofInt i) = true ∧ ev l = evNone)) ∧
    (Ready s h [d, a, b] [a, b] → ∃ v : Nat → Word, ∃ ev : Nat → Ev, Writes (.fdiv d a b) s h [a, b] d v (raised h ev) ∧
      ∀ l, ((val l a).isNan = true ∨ (val l b).isNan = true → v l = 0x7FC00000 ∧ ev l = nanEvents [val l a, val l b]) ∧
        ((val l a).isZero = true → (val l b).isZero = true → v l = 0x7FC00000 ∧ ev l = evInvalid) ∧
        ((val l a).isInf = true → (val l b).isInf = true → v l = 0x7FC00000 ∧ ev l = evInvalid) ∧
        ((val l a).isInf = false → (val l a).isNan = false → (val l a).isZero = false → (val l b).isZero = true →
          v l = (if (val l a).neg = (val l b).neg then 0x7F800000 else 0xFF800000) ∧ ev l = evDivZero) ∧
        ((val l a).isInf = true → (val l b).isInf = false → (val l b).isNan = false →
          v l = (if (val l a).neg = (val l b).neg then 0x7F800000 else 0xFF800000) ∧ ev l = evNone) ∧
        ((val l a).isInf = false → (val l a).isNan = false → (val l b).isInf = true ∨ ((val l a).isZero = true ∧ (val l b).isZero = false ∧ (val l b).isNan = false) →
          v l = (if (val l a).neg = (val l b).neg then 0 else 0x80000000) ∧ ev l = evNone) ∧
        (∀ n m e n' m' e', val l a = .fin n m e → val l b = .fin n' m' e' → m ≠ 0 → m' ≠ 0 → divided (val l a) (val l b) (v l) (ev l))) ∧
  (Ready s h [d, a] [a] → Writes (.fexp2 d a) s h [a] d (fun l => (fpExp2 (s.reg h l a)).1) (raised h (fun l => (fpExp2 (s.reg h l a)).2)) ∧
    Writes (.flog2 d a) s h [a] d (fun l => (fpLog2 (s.reg h l a)).1) (raised h (fun l => (fpLog2 (s.reg h l a)).2))) ∧
  (∀ (a : Word) n m e, f32.decode a.toNat = .fin n m e →
    let x : Int := (if n then -(m : Int) else m) * 2 ^ e.toNat
    let k := (-e).toNat
    let power := fun (i e' : Int) => Val.fin false (i.natAbs ^ 2 ^ k) (e' * 2 ^ k)
    (fpExp2 a).1 = Config.openReal false a ∨
    RoundOnce (fun i e' => i ≤ 0 ∨ (Val.fin false 1 x).below (power i e') = false) (fun i e' => 0 ≤ i ∧ (power i e').below (Val.fin false 1 x) = false)
      (f32.decode (fpExp2 a).1.toNat)) ∧
  (∀ (a : Word) m e, f32.decode a.toNat = .fin false m e → m ≠ 0 →
    let power := fun (e' : Int) => Val.fin false (m ^ 2 ^ (-e').toNat) (e * 2 ^ (-e').toNat)
    let two := fun (i e' : Int) => Val.fin false 1 (i * 2 ^ e'.toNat)
    (fpLog2 a).1 = Config.openReal true a ∨
    RoundOnce (fun i e' => (power e').below (two i e') = false) (fun i e' => (two i e').below (power e') = false) (f32.decode (fpLog2 a).1.toNat))

/-- R123 to R125: conversions between integers, binary32 and the 16-bit formats. -/
def Obligations.Conversions : Prop :=
  ∀ (s : State) (h : Here) (d a b : Reg),
    let val := fun l => f32.decode (s.reg h l a).toNat
    (Ready s h [d, a] [a] →
      (∀ p ∈ ([(.cvtfs d a, -2 ^ 31, 2 ^ 31 - 1), (.cvtfz d a, 0, 2 ^ 32 - 1)] : List (Instr × Int × Int)),
        ∃ v : Nat → Word, ∃ ev : Nat → Ev, Writes p.1 s h [a] d v (raised h ev) ∧
        ∀ l, ((val l).isNan = true → v l = 0 ∧ ev l = nanEvents [val l] ||| evInvalid) ∧
          (∀ n, val l = .inf n → v l = BitVec.ofInt 32 (if n then p.2.1 else p.2.2) ∧ ev l = evSat) ∧
          (∀ n m e, val l = .fin n m e → let i := (val l).toInt .rn
            v l = BitVec.ofInt 32 (max p.2.1 (min p.2.2 i)) ∧ ev l = if i < p.2.1 ∨ p.2.2 < i then evSat else evNone)) ∧
      (∀ p ∈ ([(.cvtsfRz d a, .rz, fun x => x.toInt), (.cvtzfRz d a, .rz, fun x => x.toNat), (.cvtsfRn d a, .rn, fun x => x.toInt),
          (.cvtzfRn d a, .rn, fun x => x.toNat)] : List (Instr × RMode × (Word → Int))),
        Writes p.1 s h [a] d (fun l => let i := p.2.2 (s.reg h l a); BitVec.ofNat 32 (f32.encode p.2.1 (.fin (i < 0) i.natAbs 0)).1) quiet) ∧
      (∀ p ∈ ([(.frintRn d a, .rn), (.frintRz d a, .rz), (.frintDn d a, .dn), (.frintUp d a, .up)] : List (Instr × RMode)),
        ∃ v : Nat → Word, Writes p.1 s h [a] d v (raised h (fun l => nanEvents [val l])) ∧
        ∀ l, ((val l).isNan = true → v l = 0x7FC00000) ∧ ((val l).isInf = true → v l = s.reg h l a) ∧
          (∀ n m e, val l = .fin n m e → ∃ m' e', f32.decode (v l).toNat = .fin n m' e' ∧ (Val.fin n m' e').over (min e' 0) = ((val l).toInt p.2) * 2 ^ (- min e' 0).toNat)) ∧
      (∀ p ∈ ([(.cvtbfl d a, bf16, 0), (.cvtbfh d a, bf16, 16), (.cvthl d a, f16, 0), (.cvthh d a, f16, 16)] : List (Instr × Fmt × Nat)),
        Writes p.1 s h [a] d (fun l => BitVec.ofNat 32 (f32.encode .rn (p.2.1.decode ((s.reg h l a).extractLsb' p.2.2 16).toNat)).1)
          (raised h (fun l => nanEvents [p.2.1.decode ((s.reg h l a).extractLsb' p.2.2 16).toNat])))) ∧
    (Ready s h [d, a, b] [a, b] → ∀ p ∈ ([(.cvtbf2 d a b, bf16), (.cvth2 d a b, f16)] : List (Instr × Fmt)),
      let y := f32.decode ∘ fun l => (s.reg h l b).toNat
      let lo := fun l => p.2.encode .rn (val l)
      let hi := fun l => p.2.encode .rn (y l)
      Writes p.1 s h [a, b] d (fun l => BitVec.ofNat 16 (hi l).1 ++ BitVec.ofNat 16 (lo l).1)
        (raised h (fun l => nanEvents [val l, y l] ||| (lo l).2 ||| (hi l).2)))

/-- R126: each half of a packed result comes from the operands' same halves, by the rules of R116 and R117 for its format; a lane counts
an event class once for both halves. -/
def Obligations.PackedHalves : Prop :=
  ∀ (s : State) (h : Here) (d a b : Reg),
    let part := fun (w : Word) (k : Nat) => (w.extractLsb' (16 * k) 16).toNat
    let both := fun (r : Nat → Nat → Nat × Ev) l => BitVec.ofNat 16 (r l 1).1 ++ BitVec.ofNat 16 (r l 0).1
    (Ready s h [d, a, b] [a, b] → ∀ p ∈ ([
        (.bfadd2 d a b, bf16.add), (.bfmul2 d a b, bf16.mul), (.bfmin2 d a b, bf16.pick false), (.bfmax2 d a b, bf16.pick true),
        (.hadd2 d a b, f16.add), (.hmul2 d a b, f16.mul)] : List (Instr × (Nat → Nat → Nat × Ev))),
      let r := fun l k => p.2 (part (s.reg h l a) k) (part (s.reg h l b) k)
      Writes p.1 s h [a, b] d (both r) (raised h (fun l => (r l 0).2 ||| (r l 1).2))) ∧
    (Ready s h [d, a, b] [d, a, b] → ∀ p ∈ ([(.bffma2 d a b, bf16), (.hfma2 d a b, f16)] : List (Instr × Fmt)),
      let r := fun l k => p.2.fma false (part (s.reg h l a) k) (part (s.reg h l b) k) (part (s.reg h l d) k)
      Writes p.1 s h [d, a, b] d (both r) (raised h (fun l => (r l 0).2 ||| (r l 1).2)))

/-! ## Lanes -/

/-- R127: a move writes the source lane's A into each active lane, and its own A where that lane does not exist or is not active. -/
def Obligations.LaneMoves : Prop :=
  ∀ (s : State) (h : Here) (d a b : Reg), Ready s h [d, a, b] [a, b] →
    let n := (s.reg h (lowest h.frag.lanes) b).toNat
    ∀ p ∈ ([
        (0, .lshup d a b, fun i => if i < n then none else some (i - n)),
        (1, .lshdn d a b, fun i => some (i + n)),
        (2, .lrot d a b, fun i => some ((i + n) % 32)),
        (3, .lbc d a b, fun _ => if 32 ≤ n then none else some n),
        (4, .lperm d a b, fun i => some (s.reg h i b).toNat)] : List (BitVec 4 × Instr × (Nat → Option Nat))),
      encode p.2.1 = some (0x08#7 ++ (d ++ (a ++ (b ++ p.1)))) ∧
      Writes p.2.1 s h [a, b] d (fun i => match p.2.2 i with
        | some j => if j < 32 ∧ h.frag.lanes.getLsbD j = true then s.reg h j a else s.reg h i a
        | none => s.reg h i a) quiet

/-- R128: sums, extremes, votes and counts over the active lanes only, written to every active lane.
R129: `lfsum` rounds the exact sum of the active lanes' values once and writes it to every active lane; each NaN lane counts a NaN
operand, and an invalid, overflow or underflow event counts once. -/
def Obligations.LaneReductions : Prop :=
  ∀ (s : State) (h : Here) (d a : Reg), h.lanes ≠ [] → Ready s h [d, a] [a] →
    let v := fun j => s.reg h j a
    let set := h.lanes.filter (fun j => v j ≠ 0)
    let sum := fun (ls : List Nat) => BitVec.ofNat 32 ((ls.map (fun j => (v j).toNat)).sum)
    let bits := fun (ls : List Nat) => BitVec.ofNat 32 ((ls.map (2 ^ ·)).sum)
    (∀ p ∈ ([
        (.lsum d a, fun _ => sum h.lanes),
        (.lscan d a, fun i => sum (h.lanes.filter (· ≤ i))),
        (.ballot d a, fun _ => bits set),
        (.vany d a, fun _ => if set = [] then 0 else 1),
        (.vall d a, fun _ => if set = h.lanes then 1 else 0),
        (.lfirst d a, fun _ => match set with | j :: _ => BitVec.ofNat 32 j | [] => 32),
        (.lcount d a, fun _ => BitVec.ofNat 32 set.length),
        (.lmatch d a, fun i => bits (h.lanes.filter (fun j => v j = v i)))] : List (Instr × (Nat → Word))),
      Writes p.1 s h [a] d p.2 quiet) ∧
    (∀ p ∈ ([(5, .lsum d a), (6, .lmin d a), (7, .lmax d a), (8, .lfsum d a), (9, .lscan d a), (10, .ballot d a), (11, .vany d a), (12, .vall d a), (13, .lfirst d a),
        (14, .lcount d a), (15, .lmatch d a)] : List (BitVec 11 × Instr)), encode p.2 = some (0x08#7 ++ (d ++ (a ++ p.1)))) ∧
    (∃ m, (∀ j ∈ h.lanes, m ≤ (v j).toInt) ∧ (∃ j ∈ h.lanes, m = (v j).toInt) ∧ ∃ t, exec (.lmin d a) s = .next t ∧
      Resulted s t h [a] d (fun _ => BitVec.ofInt 32 m) quiet) ∧
    (∃ m, (∀ j ∈ h.lanes, (v j).toInt ≤ m) ∧ (∃ j ∈ h.lanes, m = (v j).toInt) ∧ ∃ t, exec (.lmax d a) s = .next t ∧
      Resulted s t h [a] d (fun _ => BitVec.ofInt 32 m) quiet) ∧
    (let vs := h.lanes.map (fun j => f32.decode (s.reg h j a).toNat)
     let r := f32.encode .rn (sumVals vs).1
     let once := (sumVals vs).2 ||| r.2 ||| (if vs.any Val.isSig then evInvalid else evNone)
     Writes (.lfsum d a) s h [a] d (fun _ => BitVec.ofNat 32 r.1)
      (fun k => (if once.getLsbD k then 1 else 0) + (if k = 4 then (vs.filter Val.isNan).length else 0)))

/-! ## Control flow -/

/-- R134 and R136: where the lanes of each branch go, the link word of `call`, and the illegal-state trap for a target outside the segment
that some lane would take. At offset 1,023 no code address names the next word, and the link word is free (log 13). R135 and
R130: a register jump takes each lane to its own code address, `callr` reads it before it writes the link, and a word with a reserved bit
set or a segment above code.count in any lane traps before any effect (in handler mode only segment 0 exists, R301). -/
def Obligations.BranchesGoToTheirTargets : Prop :=
  ∀ (s : State) (h : Here) (d a : Reg) (disp : BitVec 18), NotAtLoopEnd s h →
    let t : Int := h.frag.pc.off.toNat + 1 + disp.toInt
    let inside := 0 ≤ t ∧ t ≤ 1023
    let target : CodeAddr := { h.frag.pc with off := BitVec.ofInt 10 t }
    (∀ p ∈ ([(.br disp, [], fun _ => true), (.fjmp disp, [], fun _ => true), (.bnz a disp, [a], fun l => s.reg h l a ≠ 0), (.bz a disp, [a], fun l => s.reg h l a = 0)] :
        List (Instr × List Reg × (Nat → Bool))), Ready s h p.2.1 p.2.1 →
      (inside ∨ (∀ l ∈ h.lanes, p.2.2 l = false) → Passes p.1 s s h p.2.1 (fun l => if p.2.2 l then .jump target else .seq)) ∧
      (¬inside → (∃ l ∈ h.lanes, p.2.2 l = true) → exec p.1 s = trap s h kState)) ∧
    (Ready s h [a] [] → h.lanes ≠ [] →
      (inside → h.frag.pc.off ≠ 1023 → ∃ s1, Written s s1 h a (fun _ => 0#14 ++ (h.frag.pc.seg ++ (h.frag.pc.off + 1))) ∧
        Passes (.call a disp) s s1 h [] (fun _ => .call target)) ∧
      (inside → h.frag.pc.off = 1023 → ∃ v s1, Written { s with fresh := s.fresh + 1 } s1 h a (fun _ => v) ∧
        Passes (.call a disp) s s1 h [] (fun _ => .call target)) ∧
      (¬inside → exec (.call a disp) s = trap s h kState)) ∧
    (let dest := fun l => ({ seg := (s.reg h l a).extractLsb' 10 8, off := (s.reg h l a).extractLsb' 0 10 } : CodeAddr)
     let ok := ∀ l ∈ h.lanes, (s.reg h l a).toNat < 2 ^ 18 ∧ (dest l).seg.toNat ≤ if h.handler then 0 else h.l.codeCount
     (Ready s h [a] [a] → ∀ i ∈ [Instr.jr a, .fjr a], (ok → Passes i s s h [a] (fun l => .jump (dest l))) ∧ (¬ok → exec i s = trap s h kState)) ∧
     (Ready s h [d, a] [a] →
       (ok → h.frag.pc.off ≠ 1023 → ∃ s1, Written s s1 h d (fun _ => 0#14 ++ (h.frag.pc.seg ++ (h.frag.pc.off + 1))) ∧
         Passes (.callr d a) s s1 h [a] (fun l => .call (dest l))) ∧
       (ok → h.frag.pc.off = 1023 → ∃ v s1, Written { s with fresh := s.fresh + 1 } s1 h d (fun _ => v) ∧
         Passes (.callr d a) s s1 h [a] (fun l => .call (dest l))) ∧
       (¬ok → exec (.callr d a) s = trap s h kState)))

/-- R141: `hloop` opens a level in each lane of non-zero count and skips the body in each lane of count zero, if the checks hold in every
active lane; else it traps before any effect. R142 and R143: what the end of a level does to the levels of a lane and to its next address, which levels a transfer ends, and that an
instruction that can transfer traps at the end of an active level before any effect. -/
def Obligations.HardwareLoops : Prop :=
  (∀ (s : State) (h : Here) (a : Reg) (disp : BitVec 18), Ready s h [a] [a] → NotAtLoopEnd s h → h.lanes ≠ [] →
     let e : Int := h.frag.pc.off.toNat + 1 + disp.toInt
     let stop := BitVec.ofInt 10 e
     let ok := 0 ≤ disp.toInt ∧ e ≤ 1023 ∧ ∀ l ∈ h.lanes, ¬(e = 1023 ∧ s.reg h l a = 0) ∧ (s.thread (h.tk l)).loops.length < 2 ∧
       ∀ v ∈ (s.thread (h.tk l)).loops, e ≤ v.stop.toNat
     (ok → ∃ s1, EachThread s s1 h (fun l t => if s.reg h l a = 0 then t
           else { t with loops := { start := h.frag.pc.off + 1, stop := stop, count := s.reg h l a } :: t.loops }) ∧
         Passes (.hloop a disp) s s1 h [a] (fun l => if s.reg h l a = 0 then .jump { h.frag.pc with off := stop + 1 } else .seq)) ∧
     (¬ok → exec (.hloop a disp) s = trap s h kState)) ∧
  (∀ (pc : CodeAddr) (v : Loop) (r : List Loop), v.stop = pc.off →
    (2 ≤ v.count.toNat → advance pc (v :: r) .seq = ({ v with count := v.count - 1 } :: r, { pc with off := v.start }, false)) ∧
    (v.count = 1 → advance pc (v :: r) .seq = advance pc r .seq)) ∧
  (∀ (pc : CodeAddr) (ls : List Loop), (∀ v ∈ ls.head?, v.stop ≠ pc.off) →
    advance pc ls .seq = if pc.off = 1023 then (ls, pc, true) else (ls, { pc with off := pc.off + 1 }, false)) ∧
  (∀ (pc t : CodeAddr) (ls : List Loop),
    let left := fun v : Loop => t.seg ≠ pc.seg ∨ ((v.start ≤ pc.off ∧ pc.off ≤ v.stop) ∧ ¬(v.start ≤ t.off ∧ t.off ≤ v.stop))
    (∃ gone kept, ls = gone ++ kept ∧ advance pc ls (.jump t) = (kept, t, false) ∧ (∀ v ∈ kept, ¬left v) ∧ ∀ v ∈ gone.getLast?, left v) ∧
    advance pc ls (.call t) = (if t.seg = pc.seg then ls else [], t, false)) ∧
  (∀ (s : State) (h : Here) (d a : Reg) (disp : BitVec 18), (∃ l ∈ h.lanes, ∃ v ∈ (s.thread (h.tk l)).loops, v.stop = h.frag.pc.off) → h.handler = false →
    ∀ p ∈ ([(.br disp, [], []), (.fjmp disp, [], []), (.bnz a disp, [a], [a]), (.bz a disp, [a], [a]), (.call a disp, [a], []), (.hloop a disp, [a], [a]),
        (.refill a disp, [a], []), (.jr a, [a], [a]), (.fjr a, [a], [a]), (.callr d a, [d, a], [a]), (.scall a, [a], [a]), (.trap a, [a], [a])] :
        List (Instr × List Reg × List Reg)),
      Ready s h p.2.1 p.2.2 → exec p.1 s = trap s h kState)

/-! ## Refill and proposals -/

/-- R146 to R149: what `rbegin`, `refill` and `rindex` do: indices in ascending order of lanes while they last and the cap allows, the
others parked, without a loop level or an open proposal (R150); a region that hands out nothing is skipped, and that no lane then counts as
parked is the model's choice (log 68); when every live lane is parked they drain; and the traps. -/
def Obligations.RefillRegions : Prop :=
  ∀ (s : State) (h : Here) (d a b : Reg) (disp : BitVec 18) (sel : BitVec 7), h.handler = false →
    let given := fun (ps : List (Nat × Nat)) (r : Reg) (s1 : State) => s1 = ps.foldl (fun s p => (s.setReg h p.1 r (wd p.2)).modThread (h.tk p.1) (fun t => { t with iter := wd p.2 })) s
    let indices := fun (first stop cap : Nat) => (h.lanes.zip (List.range' first (min cap (stop - first))))
    let took := fun (ps : List (Nat × Nat)) l => ps.any (fun p => p.1 == l)
    let mask := fun (ps : List (Nat × Nat)) => maskWhere h.frag.lanes (fun l => !took ps l)
    let park := fun (ps : List (Nat × Nat)) (s1 : State) =>
      (lanesOf (mask ps)).foldl (fun s l => s.modThread (h.tk l) (fun t => { t with loops := [], isOpen := false })) (s1.parkFence h (mask ps))
    (Ready s h [d, a, b] [d, a, b] → h.lanes ≠ [] →
      (h.w.rfOpen = true ∨ h.frag.lanes ≠ s.liveLanes h → exec (.rbegin d a b) s = trap s h kState) ∧
      (h.w.rfOpen = false → h.frag.lanes = s.liveLanes h →
        let ps := indices (s.uniform h a).toNat (s.uniform h b).toNat (s.uniform h d).toNat
        (ps ≠ [] → ∃ s1 s2, given ps d s1 ∧ exec (.rbegin d a b) s = .next (park ps s2) ∧ Retired
          (s1.modWave h.wk (fun w => { w with rfOpen := true, rfNext := s.uniform h a + wd ps.length, rfEnd := s.uniform h b, rfFence := some 0, rfParked := mask ps }))
          s2 h [d, a, b] (fun l => if took ps l then .seq else .leave)) ∧
        (ps = [] → (s.regionEnd h = none → exec (.rbegin d a b) s = trap s h kState) ∧
          ∀ o, s.regionEnd h = some o → Passes (.rbegin d a b) s
            (s.modWave h.wk (fun w => { w with rfOpen := false, rfNext := s.uniform h a, rfEnd := s.uniform h b, rfParked := 0 }))
            h [d, a, b] (fun _ => .jump { h.frag.pc with off := o })))) ∧
    (Ready s h [a] [] → NotAtLoopEnd s h → h.lanes ≠ [] → (∀ l ∈ h.lanes, (s.thread (h.tk l)).isOpen = false) → h.w.rfOpen = true →
      ∀ t, dispTarget h.frag.pc disp = some t →
        let ps := indices h.w.rfNext.toNat h.w.rfEnd.toNat 32
        (h.w.rfParked ||| mask ps = s.liveLanes h → ∃ t, exec (.refill a disp) s = .next t ∧ (t.wave h.wk).rfOpen = false ∧ (t.wave h.wk).rfParked = 0 ∧
          ∃ f ∈ (t.wave h.wk).frags, f.lanes = s.liveLanes h ∧ f.mode = .user ∧ (f.pc, f.past) = (advance h.frag.pc [] .seq).2) ∧
        (h.w.rfParked ||| mask ps ≠ s.liveLanes h → ∃ s1 s2, given ps a s1 ∧
          Retired (s1.modWave h.wk (fun w => { w with rfNext := w.rfNext + wd ps.length, rfParked := w.rfParked ||| mask ps })) s2 h [] (fun l => if took ps l then .jump t else .leave) ∧
          exec (.refill a disp) s = .next (park ps s2))) ∧
    (Ready s h [a] [] → NotAtLoopEnd s h → (h.w.rfOpen = false ∨ dispTarget h.frag.pc disp = none ∨ ∃ l ∈ h.lanes, (s.thread (h.tk l)).isOpen = true) →
      exec (.refill a disp) s = trap s h kState) ∧
    (Ready s h [d] [] → sel.toNat < 4 → Writes (.rindex d sel) s h [] d
      (fun _ => if sel = 0 then h.w.rfNext else if sel = 1 then h.w.rfEnd else if sel = 2 then h.w.rfParked else if h.w.rfOpen then 1 else 0) quiet)

/-- R153 to R155: opening a proposal copies the bank; a commit copies the shadow to the front and closes it, a discard closes it; `accept`
decides by the exact logarithm (R101; where its intervals do not settle the comparison, the free value of log 10 decides), counts and
writes its decision. -/
def Obligations.ProposalBank : Prop :=
  ∀ (s : State) (h : Here) (d a b : Reg) (k : BitVec 11), h.handler = false →
    let commit := fun (s : State) l => let t := s.thread (h.tk l)
      (List.range 16).foldl (fun s j => s.setFront h l (t.wbase + 16 * t.bank.toNat + j) (getD 0 t.shadow j)) s
    (k.toNat ≤ 6 → Ready s h ((List.range 16).map (fun j => BitVec.ofNat 7 (16 * k.toNat + j))) [] →
      ((∀ l ∈ h.lanes, (s.thread (h.tk l)).isOpen = false) → ∃ s1,
        (∀ l ∈ h.lanes, ∃ m, s1.thread (h.tk l) = { s.thread (h.tk l) with isOpen := true, bank := k.setWidth 3, shadow := m } ∧
          ∀ j < 16, getD 0 m j = s.front h l ((s.thread (h.tk l)).wbase + 16 * k.toNat + j)) ∧
        (∀ q, (∀ l ∈ h.lanes, q ≠ h.tk l) → s1.thread q = s.thread q) ∧ { s1 with threads := [] } = { s with threads := [] } ∧
        Passes (.popen k) s s1 h [] onward) ∧
      ((∃ l ∈ h.lanes, (s.thread (h.tk l)).isOpen = true) → exec (.popen k) s = trap s h kState)) ∧
    (Ready s h [] [] → ∀ p ∈ [(Instr.pcommit, true), (.pdrop, false)], Passes p.1 s
      (h.lanes.foldl (fun s l => (if p.2 && (s.thread (h.tk l)).isOpen then commit s l else s).modThread (h.tk l) (fun t => { t with isOpen := false })) s) h [] onward) ∧
    (Ready s h [d, a, b] [a, b] →
      let ok := fun l => acceptTest (beadMix h.g.gkeyl h.g.gkeyh (s.reg h l b) (s.thread (h.tk l)).iter) (s.reg h l a)
      ((∃ l ∈ h.lanes, (s.thread (h.tk l)).isOpen = false) → exec (.accept d a b) s = trap s h kState) ∧
      ((∀ l ∈ h.lanes, (s.thread (h.tk l)).isOpen = true) → Gives (.accept d a b) s
        (h.lanes.foldl (fun s l => (if ok l then commit s l else s).modThread (h.tk l)
          (fun t => { t with isOpen := false, prop := t.prop + 1, acpt := if ok l then t.acpt + 1 else t.acpt })) s)
        h [a, b] d (fun l => if ok l then 1 else 0) (raised h (fun l => nanEvents [f32.decode (s.reg h l a).toNat]))))

/-- R99, R100 and R155: a draw writes what BeadMix gives for the group key and the counters, as a word or as the exact binary32 value
`j / 2^24`, in each active lane, counts no event, and changes nothing else; in handler mode it is an illegal state (R301). BeadMix worked
through the spec's example of key 0 and counter 0. R101: a NaN rejects, positive infinity accepts and negative infinity rejects, every
log ratio from 0 up accepts, every one below -24 ln 2 rejects (-16.75 stands below it), and the two decisions of the example. Between, a
proposal is accepted where `d ≤ e^a` for the draw `d = j / 2^24` and the log ratio `a = -p / q`: `e` lies between `((n + 1) / n)^n` and
`((n + 1) / n)^(n + 1)` for every n. Where the model's interval does not settle the test, its result is a free value (log 10). -/
def Obligations.Draws : Prop :=
  (∀ (s : State) (h : Here) (d a b : Reg),
    let bead := fun hi lo => beadMix h.g.gkeyl h.g.gkeyh lo hi
    (Ready s h [d, b] [b] → h.handler = false →
      Writes (.rngu d b) s h [b] d (fun l => bead (s.thread (h.tk l)).iter (s.reg h l b)) quiet ∧
      Writes (.rngf d b) s h [b] d (fun l => drawWord (bead (s.thread (h.tk l)).iter (s.reg h l b))) quiet) ∧
    (Ready s h [d, a, b] [a, b] → h.handler = false → Writes (.gkey d a b) s h [a, b] d (fun l => bead (s.reg h l a) (s.reg h l b)) quiet) ∧
    (Ready s h [d, b] [b] → h.handler = true → exec (.rngu d b) s = trap s h kState ∧ exec (.rngf d b) s = trap s h kState) ∧
    (Ready s h [d, a, b] [a, b] → h.handler = true → exec (.gkey d a b) s = trap s h kState)) ∧
  (∀ bead : Word, ∃ m e, f32.decode (drawWord bead).toNat = .fin false m e ∧ -200 ≤ e ∧ e ≤ 0 ∧
    (Val.fin false m e).over (-200) = (bead.toNat / 2 ^ 8 + 1) * 2 ^ 176) ∧
  beadMix 0 0 0 0 = 0xBDABC4D0 ∧ drawWord 0xBDABC4D0 = 0x3F3DABC5 ∧
  (∀ bead : Word, acceptTest bead 0x7F800000 = true ∧ acceptTest bead 0xFF800000 = false ∧
    ∀ x : Word, ((f32.decode x.toNat).isNan = true → acceptTest bead x = false) ∧
      (x = 0x80000000 ∨ ((f32.decode x.toNat).isNan = false ∧ (f32.decode x.toNat).neg = false) → acceptTest bead x = true) ∧
      ((f32.decode x.toNat).below (.fin true 67 (-2)) = true → acceptTest bead x = false)) ∧
  acceptTest 0xBDABC4D0 0xBE800000 = true ∧ acceptTest 0xBDABC4D0 0xBE99999A = false ∧
  (∀ (bead a : Word) m e, f32.decode a.toNat = .fin true m e → m ≠ 0 →
    let j := (bead >>> 8).toNat + 1
    let p := m * 2 ^ e.toNat
    let q := 2 ^ (-e).toNat
    acceptTest bead a = Config.openLn j a ∨
    ∀ n : Nat, 0 < n → (j ^ q * (n + 1) ^ ((n + 1) * p) ≤ 2 ^ (24 * q) * n ^ ((n + 1) * p) → acceptTest bead a = true) ∧
      (2 ^ (24 * q) * n ^ (n * p) ≤ j ^ q * (n + 1) ^ (n * p) → acceptTest bead a = false))

/-! ## Operand checks -/

/-- R46, R51, R73 and R301: in every instruction, where the thread has the privilege that the instruction needs (R293), a register field past
the allocation in some active lane raises the register-range trap, for those lanes, and otherwise a latch that may not be read in some active lane
raises the latch trap, for those lanes; both before any effect. The fields of each form are those of `Instr.named`, the further registers of
transfers, banks and multi-register forms among them, and the fields that may name a latch are those of `Instr.sources`. -/
def Obligations.OperandChecksTrap : Prop :=
  ∀ (s : State) (h : Here) (i : Instr), s.here = some h → i.wellFormed = true →
    let granted : Prop := match i with
      | .rdpr _ _ | .wrpr _ _ | .hwr _ _ | .hrd _ _ => h.level ≠ 0
      | .ctxsv _ _ | .ctxld _ _ | .tlbinv _ _ | .mlicgv _ | .slotclr _ => h.level = 2
      | _ => True
    let past := fun (rs : List Reg) l => rs.any (fun r => decide (r.toNat ≤ 123) &&
      decide (if h.handler then 16 ≤ r.toNat else h.R ≤ (s.thread (h.tk l)).wbase + r.toNat))
    let stale := fun (rs : List Reg) l => rs.any (fun r => decide (124 ≤ r.toNat) && decide ((s.thread (h.tk l)).depth ≤ r.toNat - 124))
    granted →
      (maskWhere h.frag.lanes (past i.named) ≠ 0 → exec i s = trapIn s h 4 (maskWhere h.frag.lanes (past i.named))) ∧
      (maskWhere h.frag.lanes (past i.named) = 0 → maskWhere h.frag.lanes (stale i.sources) ≠ 0 →
        exec i s = trapIn s h 5 (maskWhere h.frag.lanes (stale i.sources)))

/-! ## Queues, special registers, barriers -/

/-- R53 to R55 and R193: pushes, pops, the try and the length of a queue; a push of a full queue and a pop of an empty one wait, and an empty
try leaves d as it is and answers 0; a pop or a try behind a suspended operation takes the copy-fault trap, once (R210, R243); the accesses
that R54 does not allow trap. What a pop comes after is what its push came after (R265, log 86). -/
def Obligations.QueueInstructions : Prop :=
  ∀ (s : State) (h : Here) (d a : Reg) (q : BitVec 4), h.handler = false →
    let n := q.toNat
    let beats := s.beatsOf h n
    let popped := s.pass (· = .queue h.gk n) h.agents
    (Ready s h [a] [a] →
      (canPush h n = true → beats.length < queueCap n → ∃ b : Beat, (∀ l, getD 0 b l = if l ∈ h.lanes then s.reg h l a else 0) ∧
        Passes (.qpush a q) s ((s.pass h.owns [.queue h.gk n]).setBeats h n (beats ++ [b])) h [a] onward) ∧
      (canPush h n = true → queueCap n ≤ beats.length → exec (.qpush a q) s = .next (s.await h)) ∧
      (canPush h n = false → exec (.qpush a q) s = trap s h kState)) ∧
    (Ready s h [d] [] →
      (2 ≤ n → ∀ b r, beats = b :: r → Gives (.qpop d q) s (popped.setBeats h n r) h [] d (fun l => getD 0 b l) quiet) ∧
      (2 ≤ n → h.stuck n = none → beats = [] → exec (.qpop d q) s = .next (s.await h)) ∧
      (∀ x c set, 2 ≤ n → h.stuck n = some (x, c, set) → beats = [] → exec (.qpop d q) s = .next (s.meetSusp h x c set)) ∧
      (n ≤ 1 → exec (.qpop d q) s = trap s h kState) ∧
      Writes (.qlen d q) s h [] d (fun _ => BitVec.ofNat 32 beats.length) quiet) ∧
    (Ready s h [d, a] [] → a ≠ d → a.toNat ≤ 123 →
      (2 ≤ n → ∀ b r, beats = b :: r → ∃ s1, Written (popped.setBeats h n r) s1 h a (fun _ => 1) ∧ Gives (.qtry d a q) s s1 h [] d (fun l => getD 0 b l) quiet) ∧
      (∀ x c set, 2 ≤ n → h.stuck n = some (x, c, set) → x.told = none → beats = [] → exec (.qtry d a q) s = .next (s.meetSusp h x c set)) ∧
      (∀ x c set w m, 2 ≤ n → h.stuck n = some (x, c, set) → x.told = some (w, m) → beats = [] → ∃ s1,
        Written (if (s.wave (wkOf h.gk w)).away &&& m ≠ 0 then s else s.modGroup h.gk (fun g => set g none)) s1 h a (fun _ => 0) ∧
        Gives (.qtry d a q) s s1 h [] d (fun l => s.reg h l d) quiet) ∧
      (2 ≤ n → h.stuck n = none → beats = [] → ∃ s1, Written s s1 h a (fun _ => 0) ∧ Gives (.qtry d a q) s s1 h [] d (fun l => s.reg h l d) quiet) ∧
      (n ≤ 1 → exec (.qtry d a q) s = trap s h kState)) ∧
    (canPush h n = true ↔ 8 ≤ n ∨ (n ≤ 1 ∧ h.g.cfg.isSome = true)) ∧ queueCap n = (if n ≤ 1 ∨ n = 7 then 64 else if n ≤ 6 then 32 else 16)

/-- R28, R43, R60, R61 and R195: what a read of each special register gives each active lane, the pair that a read of the clocks fixes, and
what a write of each writable one changes. That a register of group scope (a key, a shape) reads as its newest value also before a common barrier
is the model's choice (log 82). -/
def Obligations.SpecialRegisters : Prop :=
  ∀ (s : State) (h : Here) (d a : Reg), s.here = some h →
    let thr := fun l => s.thread (h.tk l)
    let count := if h.l.det then ((s.lcore (1024 * h.g.launch + h.g.lcore)).map (·.retired)).getD 0 else s.clockAt h.core
    let time := if h.l.det then 0 else s.ptp / 2 ^ 16
    (Ready s h [d] [] →
      (∀ p ∈ ([
          (.lane, fun l => wd l), (.wave, fun _ => wd h.wave), (.group, fun _ => wd h.g.gid), (.role, fun _ => wd (h.l.field (144 + 2 * h.wave) 2)),
          (.core, fun _ => wd (if h.l.det then h.g.lcore else h.core % 4)), (.cluster, fun _ => if h.l.det then 0 else wd (h.core / 4 % 32)),
          (.die, fun _ => if h.l.det then 0 else wd (h.core / 128)), (.det, fun _ => if h.l.det then 1 else 0), (.iter, fun l => (thr l).iter),
          (.prop, fun l => (thr l).prop), (.acpt, fun l => (thr l).acpt),
          (.pstate, fun l => wd ((if (thr l).isOpen then 8 else 0) + (thr l).bank.toNat)), (.wbase, fun l => wd (thr l).wbase),
          (.clockh, fun l => (thr l).clockh), (.ptph, fun l => (thr l).ptph), (.progress, fun _ => if (s.wave h.wk).progress then 1 else 0),
          (.fair, fun _ => (s.wave h.wk).fair.setWidth 32), (.gkeyl, fun _ => h.g.gkeyl), (.gkeyh, fun _ => h.g.gkeyh), (.dkeyl, fun _ => h.g.dkeyl),
          (.dkeyh, fun _ => h.g.dkeyh)] : List (SReg × (Nat → Word))),
        Writes (.rdsr d p.1) s h [] d p.2 quiet) ∧
      (∀ k, Writes (.rdsr d (.evtc k)) s h [] d (fun _ => getD 0 h.g.evtc k.toNat) quiet) ∧
      (∀ n j, Writes (.rdsr d (.shape n j)) s h [] d (fun _ => getD 0 h.g.shape (8 * n.toNat + j.toNat)) quiet) ∧
      (∀ k, Writes (.rdsr d (.coord k)) s h [] d (fun _ => wd (h.l.coord h.g.gid k.toNat)) quiet) ∧
      (∃ s1, EachThread s s1 h (fun _ t => { t with clockh := wd (count / 2 ^ 32) }) ∧ Gives (.rdsr d .clock) s s1 h [] d (fun _ => wd count) quiet) ∧
      (∃ s1, EachThread s s1 h (fun _ t => { t with ptph := wd (time / 2 ^ 32) }) ∧ Gives (.rdsr d .ptpl) s s1 h [] d (fun _ => wd time) quiet)) ∧
    (Ready s h [a] [a] →
      let u := s.reg h (lowest h.frag.lanes) a
      (∀ p ∈ ([
          (.progress, s.modWave h.wk (fun w => { w with progress := u.getLsbD 0 })),
          (.fair, s.modWave h.wk (fun w => { w with fair := BitVec.ofNat 16 (max 16 (u.toNat % 2 ^ 16)) })),
          (.gkeyl, s.modGroup h.gk (fun g => { g with gkeyl := u })), (.gkeyh, s.modGroup h.gk (fun g => { g with gkeyh := u })),
          (.dkeyl, s.modGroup h.gk (fun g => { g with dkeyl := u })), (.dkeyh, s.modGroup h.gk (fun g => { g with dkeyh := u }))] : List (SReg × State)),
        Passes (.wrsr p.1 a) s p.2 h [a] onward) ∧
      (∀ n j, Passes (.wrsr (.shape n j) a) s (s.modGroup h.gk (fun g => { g with shape := put 0 g.shape (8 * n.toNat + j.toNat) u })) h [a] onward) ∧
      (∃ s1, EachThread s s1 h (fun l t => { t with prop := s.reg h l a }) ∧ Passes (.wrsr .prop a) s s1 h [a] onward) ∧
      (∃ s1, EachThread s s1 h (fun l t => { t with acpt := s.reg h l a }) ∧ Passes (.wrsr .acpt a) s s1 h [a] onward))

/-- R47, R26, R192 and R351: `wbase`, `yield`, `setperf` and `nop`, with their traps. -/
def Obligations.ThreadAndWaveControls : Prop :=
  ∀ (s : State) (h : Here) (a : Reg) (imm : BitVec 11), s.here = some h → Passes .nop s s h [] onward ∧ (h.handler = false →
    (h.R < imm.toNat + 4 → exec (.wbase imm) s = trap s h kRange) ∧
    (imm.toNat + 4 ≤ h.R → (∃ l ∈ h.lanes, (s.thread (h.tk l)).isOpen = true) → exec (.wbase imm) s = trap s h kState) ∧
    (imm.toNat + 4 ≤ h.R → (∀ l ∈ h.lanes, (s.thread (h.tk l)).isOpen = false) →
      ∃ s1, EachThread s s1 h (fun _ t => { t with wbase := imm.toNat }) ∧ Passes (.wbase imm) s s1 h [] onward) ∧
    (h.l.det = true ∨ h.w.progress = false → Passes .yield s s h [] onward) ∧
    (h.l.det = false → h.w.progress = true → ∃ t, Retired s t h [] onward ∧
      exec .yield s = .next (t.modWave h.wk (fun w => { w with yielded := h.frag.lanes }))) ∧
    (Ready s h [a] [a] →
      (8 ≤ (s.uniform h a).toNat → exec (.setperf a) s = trap s h kState) ∧
      ((s.uniform h a).toNat < 8 → s.fixedPart h.l.part = true → Passes (.setperf a) s s h [a] onward) ∧
      ((s.uniform h a).toNat < 8 → s.fixedPart h.l.part = false → ∃ t, Retired s t h [a] onward ∧
        exec (.setperf a) s = .next ((t.modGroup h.gk (fun g => { g with perf := some (BitVec.ofNat 3 (s.uniform h a).toNat) })).retarget (h.core / 4)))))

/-- R192, R295, R296 and R304: `trap`, and `scall` without a window, complete and then raise their traps, whose record points at the next
instruction; `scall` with a window joins it, or waits where its service differs or the window has closed. R247: `launch`. What the launched
groups come after is what the launching threads come after (log 86). -/
def Obligations.SystemCallsAndLaunch : Prop :=
  ∀ (s : State) (h : Here) (d a : Reg), h.handler = false →
    let raises := fun (i : Instr) (kind : Nat) => ∃ t h1, Retired s t h [a] onward ∧ t.here = some h1 ∧ h1.frag.lanes = h.frag.lanes ∧
      (h1.frag.pc, h1.frag.past) = (advance h.frag.pc [] .seq).2 ∧ exec i s = .next (t.takeTrap { h1 with l := h.l } { h1.cause kind 0 with code := s.uniform h a })
    (Ready s h [a] [a] → NotAtLoopEnd s h → h.lanes ≠ [] →
      raises (.trap a) 18 ∧ (s.aggWindow h.core = 0 → raises (.scall a) 17) ∧
      (s.aggWindow h.core ≠ 0 →
        (h.w.agg = none → ∃ t, Retired s t h [a] onward ∧
          let j := (t.park h .agg).modWave h.wk (fun w => { w with agg := some { service := s.uniform h a, opened := s.now h, lead := h.frag.lanes } })
          exec (.scall a) s = .next (if (j.wave h.wk).allJoined then j.takeAgg h else j)) ∧
        (∀ x, h.w.agg = some x → x.service = s.uniform h a → s.now h ≤ x.opened + s.aggWindow h.core → ∃ t, Retired s t h [a] onward ∧
          let j := t.park h .agg
          exec (.scall a) s = .next (if (j.wave h.wk).allJoined then j.takeAgg h else j)) ∧
        (∀ x, h.w.agg = some x → (x.service ≠ s.uniform h a ∨ x.opened + s.aggWindow h.core < s.now h) → exec (.scall a) s = .next (s.await h)))) ∧
    (Ready s h [d, a, regPlus a 1] [] →
      let addr := (s.uniform h a).toNat + 2 ^ 32 * (s.uniform h (regPlus a 1)).toNat
      let n := if h.g.lseq + 1 = 0 then 1 else h.g.lseq + 1
      (h.l.det = true → exec (.launch d a) s = trap s h kDet) ∧
      (h.l.det = false → ¬(addr % 256 = 0 ∧ addr < 2 ^ 52) → exec (.launch d a) s = trap s h kState) ∧
      (h.l.det = false → addr % 256 = 0 → addr < 2 ^ 52 → 4 ≤ h.g.pend.length → Writes (.launch d a) s h [] d (fun _ => 0) quiet) ∧
      (h.l.det = false → addr % 256 = 0 → addr < 2 ^ 52 → h.g.pend.length < 4 → Gives (.launch d a) s
        (((s.flushCore h.core).settled h.owns).modGroup h.gk (fun g => { g with lseq := n, pend := g.pend ++ [{ addr := BitVec.ofNat 64 addr, seq := n, launch := none, beat := none }] }))
        h [] d (fun _ => n) quiet))

/-- R188, R189 and R233: arrivals at the group barrier and at the twin barrier, what completes a generation, the wait for a generation, and
the traps of a second arrival and of an open refill region (R150). How an arrival holds its lanes is log 24; that what the arriving threads come
after passes to the barrier, and from it to those that wait, is read from R262 and R265 (log 86); that an arrival waits for a twin group that is
saved is the model's choice (log 91). -/
def Obligations.Barriers : Prop :=
  ∀ (s : State) (h : Here) (d a : Reg), h.handler = false →
    (h.w.rfOpen = true →
      (Ready s h [] [] → exec .bar s = trap s h kState ∧ exec .tbar s = trap s h (if h.l.det then kDet else kState)) ∧
      (Ready s h [d] [] → exec (.barsArrive d) s = trap s h kState) ∧ (Ready s h [d, a] [a] → exec (.barsWait d a) s = trap s h kState)) ∧
    (h.w.rfOpen = false →
    let first := ∀ l ∈ h.lanes, (s.thread (h.tk l)).barIn = false
    let joined := s.passAll h.owns [.barrier h.gk false]
    (Ready s h [] [] → (first → ∃ s1 t, EachThread joined s1 h (fun _ t => { t with barIn := true, inBar := true }) ∧ Retired s1 t h [] onward ∧
        exec .bar s = .next ((t.park h .barrier).settle h.gk)) ∧ (¬first → exec .bar s = trap s h kState)) ∧
    (Ready s h [d] [] → (first → ∃ s1 t, EachThread joined s1 h (fun _ t => { t with barIn := true }) ∧
        Resulted s1 t h [] d (fun _ => h.g.bgen.setWidth 32) quiet ∧ exec (.barsArrive d) s = .next (t.settle h.gk)) ∧
      (¬first → exec (.barsArrive d) s = trap s h kState)) ∧
    (Ready s h [d, a] [a] →
      let behind := (h.g.bgen.toNat + 2 ^ 16 - (s.uniform h a).toNat % 2 ^ 16) % 2 ^ 16
      (0 < behind → behind < 32768 → Gives (.barsWait d a) s (s.pass (· = .barrier h.gk true) h.agents) h [a] d (fun _ => h.g.bgen.setWidth 32) quiet) ∧
      (behind = 0 ∨ 32768 ≤ behind → exec (.barsWait d a) s = .next (s.await h))) ∧
    (Ready s h [] [] →
      let alone := ∀ l ∈ h.lanes, (s.thread (h.tk l)).tbarIn = false
      (h.l.det = true → exec .tbar s = trap s h kDet) ∧
      (h.l.det = false → (¬alone ∨ s.twinState h = .missing) → exec .tbar s = trap s h kState) ∧
      (h.l.det = false → alone → s.twinState h ≠ .missing → ∃ s1 t,
        EachThread ((s.flushCore h.core).passAll h.owns [.twin h.gk false]) s1 h (fun _ t => { t with tbarIn := true, inTbar := true }) ∧
        Retired (s1.modGroup h.gk (fun g => { g with twin := match s.group (twinGk h.gk) with
          | some t => if t.launch = h.g.launch then some t.gid else h.g.twin
          | none => h.g.twin })) t h [] onward ∧
        exec .tbar s = .next ((t.park h .tbarrier).settle h.gk)))) ∧
    (∀ gk g, s.group gk = some g → s.liveIds gk (s.launch g.launch).waves ≠ [] → s.allIn gk (s.launch g.launch).waves (·.barIn) = true →
      ((s.settleBar gk).group gk).map (·.bgen) = some (g.bgen + 1) ∧
      (∀ w < (s.launch g.launch).waves, ∀ l < 32, ((s.settleBar gk).thread (tkOf gk w l)).barIn = false ∧ ((s.settleBar gk).thread (tkOf gk w l)).inBar = false) ∧
      ∀ w < (s.launch g.launch).waves, ∀ f ∈ ((s.settleBar gk).wave (wkOf gk w)).frags, f.wait ≠ .barrier) ∧
    (∀ gk g, s.group gk = some g → s.allIn gk (s.launch g.launch).waves (·.barIn) = false → s.settleBar gk = s)

/-- R32, R190 and R191: arriving at the phase boundary: the end flags are set, the fragment waits at its word, and `phasew` keeps its
condition. How an arrival holds its lanes at its word, and that it traps in an open refill region, is read as log 24 says. -/
def Obligations.PhaseArrivals : Prop :=
  ∀ (s : State) (h : Here) (slot : BitVec 5) (a b : Reg), h.handler = false →
    let arrived := fun (t : State) (reads : List Reg) =>
      (∀ l ∈ h.lanes, t.thread (h.tk l) = { s.thread (h.tk l) with
        endFlag := decide (s.reg h l a ≠ 0), atPhase := true, depth := if readsLatch reads then (s.thread (h.tk l)).depth else 0 }) ∧
      (∀ k, (∀ l ∈ h.lanes, k ≠ h.tk l) → t.thread k = s.thread k) ∧ Counted s t h quiet ∧ t.kept = s.kept ∧ t.rf = s.rf ∧
      (∀ k, k ≠ h.gk → t.group k = s.group k) ∧ (∀ k, k ≠ h.wk → t.wave k = s.wave k) ∧
      ∃ f ∈ (t.wave h.wk).frags, f.lanes = h.frag.lanes ∧ f.pc = h.frag.pc ∧ f.wait = .phase
    let r := h.g.shapeRec slot.toNat
    (Ready s h [a] [a] → (h.w.rfOpen = true → exec (.phase a) s = trap s h kState) ∧
      (h.w.rfOpen = false → ∃ t, exec (.phase a) s = .next t ∧ arrived t [a])) ∧
    (Ready s h [a, b] [a, b] →
      (h.l.det = true → exec (.phasew slot a b) s = trap s h kDet) ∧
      (h.l.det = false → h.w.rfOpen = true → exec (.phasew slot a b) s = trap s h kState) ∧
      (h.l.det = false → h.w.rfOpen = false → (∃ ls, s.spot h r 0 .read (fmtWord r.fmt) false = .ok ls) →
        (r.space ≠ 0 → exec (.phasew slot a b) s = trap s h kState) ∧
        (r.space = 0 → ∃ t, arrived t [a, b] ∧ exec (.phasew slot a b) s = .next (t.modGroup h.gk (fun g =>
          { g with phasew := h.lanes.foldl (fun m l => insert m (32 * h.wave + l) (r, s.uniform h b)) g.phasew })))) ∧
      ∀ f, h.l.det = false → h.w.rfOpen = false → s.spot h r 0 .read (fmtWord r.fmt) false = .error f →
        exec (.phasew slot a b) s = trapLoc s h (lowest h.frag.lanes, f) 0)

/-- R196: the hand-off cells: `rgive` fills the empty cell of each lane and `rclaim` takes the word of each full one; while a lane's cell is
not as it must be the fragment waits, and the other lanes are done and do nothing when it is tried again (R180); a fragment that may not retire yet
waits too (R379). What a claim comes after is what the thread that gave came after (R265, log 86). -/
def Obligations.HandOffCells : Prop :=
  ∀ (s : State) (h : Here) (r : Reg) (c : BitVec 4), h.handler = false →
    let key := fun l => 16 * l + c.toNat
    let full := fun l => getD false h.g.cellFull (key l)
    let done := fun l => (s.thread (h.tk l)).done
    let todo := h.lanes.filter (fun l => !done l)
    let changed := fun (s s1 : State) (acts : List Nat) (word : Nat → Word) (flag : Bool) => ∃ g1, s1.group h.gk = some g1 ∧
      (∀ k, getD 0 g1.cells k = if ∃ l ∈ acts, k = key l then word ((k - c.toNat) / 16) else getD 0 h.g.cells k) ∧
      (∀ k, getD false g1.cellFull k = if ∃ l ∈ acts, k = key l then flag else getD false h.g.cellFull k) ∧
      { g1 with cells := [], cellFull := [] } = { h.g with cells := [], cellFull := [] } ∧ (∀ k, k ≠ h.gk → s1.group k = s.group k)
    let free := fun (s s1 : State) => (∀ l ∈ h.lanes, s1.thread (h.tk l) = { s.thread (h.tk l) with done := false, pend := 0 }) ∧
      (∀ k, (∀ l ∈ h.lanes, k ≠ h.tk l) → s1.thread k = s.thread k) ∧ { s1 with groups := [], threads := [] } = { s with groups := [], threads := [] }
    let waits := fun (t : State) (ready : Nat → Bool) => (∀ l ∈ h.lanes, (t.thread (h.tk l)).done = (done l || ready l)) ∧
      ∃ f ∈ (t.wave h.wk).frags, f.lanes = h.frag.lanes ∧ f.pc = h.frag.pc ∧ f.wait = .access
    (Ready s h [r] [r] →
      let order := fun (ls : List Nat) => ls.foldl (fun s l => s.pass (· = .thread (h.tk l)) [.cell h.gk (key l)]) s
      ((∀ l ∈ todo, full l = false) → h.frag.defer = false → ∃ s1, changed (order todo) s1 todo (fun l => s.reg h l r) true ∧ free (order todo) s1 ∧
        Passes (.rgive r c) s s1 h [r] onward) ∧
      (((∃ l ∈ todo, full l = true) ∨ h.frag.defer = true) → ∃ t, exec (.rgive r c) s = .next t ∧ waits t (fun l => !full l) ∧
        changed s t (todo.filter (fun l => !full l)) (fun l => s.reg h l r) true)) ∧
    (Ready s h [r] [] →
      let cell := fun l => getD 0 h.g.cells (key l)
      let order := todo.foldl (fun s l => (s.pass (· = .cell h.gk (key l)) [.thread (h.tk l)]).forget (· = .cell h.gk (key l))) s
      ((∀ l ∈ todo, full l = true) → h.frag.defer = false →
        (∀ l ∈ h.lanes, done l = true → r.toNat ≤ 123 → s.reg h l r = (s.thread (h.tk l)).pend) → ∃ s1, changed order s1 todo cell false ∧ free order s1 ∧
          Gives (.rclaim r c) s s1 h [] r (fun l => if done l then (s.thread (h.tk l)).pend else cell l) quiet) ∧
      (((∃ l ∈ todo, full l = false) ∨ h.frag.defer = true) → ∃ t, exec (.rclaim r c) s = .next t ∧ waits t full ∧
        changed s t (todo.filter full) cell false ∧
        ∀ l ∈ todo, full l = true → (t.thread (h.tk l)).pend = cell l ∧ (r.toNat ≤ 123 → t.reg h l r = cell l)))

/-! ## Memory -/

/-- R163 to R165, R171 and R172: where Locate puts a unit: the bounds modes, the spaces, the alignment, the published view, and the records
that are refused; that a publish entry with a reserved bit raises the record fault is the model's choice (log 69). R336, R337 and R339, where
no cache holds a replaced entry (R341): a page of each size is found through tables that this device holds, a leaf that forbids the access
faults with cause 2, an entry that is not valid with cause 1, a reserved bit or a leaf at the top level with cause 3, an address of 2^52 or
more with cause 4, and an entry that cannot be read with cause 5. -/
def Obligations.UnitsAreLocated : Prop :=
  (∀ (s : State) (who : Actor) (va : Nat) (acc : Access) (t2 t1 t0 p perms : Nat),
    let key := s.keyOf who.part
    let t3 := s.part who.part 512 64
    let at' := fun t lvl => t + 8 * (va / 2 ^ (16 + 9 * lvl) % 512)
    let run := fun t lvl => (List.range 32).map (fun k => t + 8 * (va / 2 ^ (16 + 9 * lvl) % 512 / 32 * 32 + k))
    let reads := fun a e => s.badFor key a = false ∧ s.dramNat key a 8 = e
    -- no entry of the run maps a large page
    let single := fun t lvl => ∀ a ∈ run t lvl, ¬(s.dramNat key a 8 % 4 = 3 ∧ s.dramNat key a 8 / 8 % 4 = lvl + 1)
    let allowed := match acc with
      | .read => perms.testBit 0
      | .write => perms.testBit 1
      | .rmw => perms.testBit 0 && perms.testBit 1
      | .fetch => perms.testBit 2
    let gives := fun size => s.translate who va acc = if allowed then .ok (.dram (p + va % size)) else .error 2
    (2 ^ 52 ≤ va → s.translate who va acc = .error 4) ∧
    (va < 2 ^ 52 → s.held = [] → s.nodeOf who.part 0 = some s.node → (∀ t ∈ [t3, t2, t1, t0], t % 4096 = 0 ∧ t < 2 ^ 40) → perms < 8 →
      (s.badFor key (at' t3 3) = true → s.translate who va acc = .error 5) ∧
      (∀ e, e % 2 = 0 → reads (at' t3 3) e → s.translate who va acc = .error 1) ∧
      (∀ e, e % 2 = 1 → (e / 2 ^ 52 ≠ 0 ∨ e / 2 ^ 8 % 16 ≠ 0 ∨ e.testBit 2 = true ∨ e.testBit 1 = true ∨ e / 8 % 32 ≠ 0) → reads (at' t3 3) e →
        s.translate who va acc = .error 3) ∧
      (reads (at' t3 3) (t2 + 1) →
        (∀ e, e % 2 = 0 → reads (at' t2 2) e → s.translate who va acc = .error 1) ∧
        (reads (at' t2 2) (t1 + 1) →
          (single t1 1 → ∀ e, e % 2 = 0 → reads (at' t1 1) e → s.translate who va acc = .error 1) ∧
          (p % 2 ^ 30 = 0 → p + 2 ^ 30 ≤ s.usableTop → p < 2 ^ 40 → s.badFor key (at' t1 1) = false →
            (∀ a ∈ run t1 1, s.dramNat key a 8 = p + 19 + 32 * perms) → gives (2 ^ 30)) ∧
          (single t1 1 → reads (at' t1 1) (t0 + 1) →
            (single t0 0 → ∀ e, e % 2 = 0 → reads (at' t0 0) e → s.translate who va acc = .error 1) ∧
            (p % 2 ^ 21 = 0 → p + 2 ^ 21 ≤ s.usableTop → p < 2 ^ 40 → s.badFor key (at' t0 0) = false →
              (∀ a ∈ run t0 0, s.dramNat key a 8 = p + 11 + 32 * perms) → gives (2 ^ 21)) ∧
            (single t0 0 → p % 2 ^ 16 = 0 → p + 2 ^ 16 ≤ s.usableTop → p < 2 ^ 40 → reads (at' t0 0) (p + 3 + 32 * perms) → gives (2 ^ 16))))))) ∧
  ∀ (s : State) (who : Actor) (r : Rec) (i : Nat) (acc : Access),
    let row := i / r.rowlen
    let u := unitSize r.fmt
    let n := if r.fmt ∈ [0, 1, 9, 10, 19] then i % r.rowlen / 2 else if r.fmt ∈ [2, 3] then i % r.rowlen / 4 else i % r.rowlen
    let off : Int := n * r.stride0 + row * r.stride1
    let inside : Prop := 0 ≤ off ∧ off + u ≤ r.extent
    let kindOf := fun (k : Nat) => ∃ f, s.locate who r i acc = .error f ∧ f.kind = k
    u = (if r.fmt ∈ [14, 15] then 2 else if r.fmt ∈ [16, 17] then 4 else if r.fmt ∈ [2, 3] then 3 else 1) ∧
    ((s.refused who.part r = true ∨ (r.publish ≠ 0 ∧ who.engine = false ∧ acc.writes = true)) → kindOf 8) ∧
    (s.refused who.part r = false → (r.publish = 0 ∨ who.engine = true ∨ acc.writes = false) →
      (¬inside → r.bounds = 0 → kindOf 9) ∧
      (¬inside → r.bounds = 1 → s.locate who r i acc = .ok none) ∧
      (¬inside → r.bounds = 2 → r.extent ≠ 0 → (off % r.extent).toNat + u ≤ r.extent →
        s.locate who r i acc = (s.place who r (r.base + (off % r.extent).toNat) u acc).map some) ∧
      (¬inside → r.bounds = 2 → (r.extent = 0 ∨ r.extent < (off % r.extent).toNat + u) → kindOf 9) ∧
      (inside →
        let a := r.base + off.toNat
        let e := s.pubEntry who.part r.publish
        let va := a + if r.publish = 0 then 0 else ((if (who.engine && acc.writes) = e.getLsbD 192 then e.extractLsb' 0 64 else e.extractLsb' 64 64)).toNat
        (r.publish ≠ 0 → e.extractLsb' 193 31 ≠ 0 → kindOf 8) ∧
        (r.publish ≠ 0 → e.extractLsb' 193 31 = 0 → (e.extractLsb' 128 64).toNat < a + u → kindOf 9) ∧
        (r.publish = 0 ∨ (e.extractLsb' 193 31 = 0 ∧ a + u ≤ (e.extractLsb' 128 64).toNat) →
          (u ≠ 3 → a % u ≠ 0 → kindOf 10) ∧
          ((u = 3 ∨ a % u = 0) →
            (r.space = 2 → s.locate who r i acc = .ok (some ((List.range u).map (fun k => .chip who.core (32768 * who.slot + a + k))))) ∧
            (r.space = 1 → who.det = none →
              let held := s.owner (a / 2 ^ 20) = who.part ∧ a % 2 ^ 20 + u ≤ (if a % 2 ^ 20 < 0x80000 then 0x80000 else if a % 2 ^ 20 < 0xC0000 then 0xC0000 else if a % 2 ^ 20 < 0xE0000 then 0xE0000 else 0x100000)
              (held → a < 2 ^ 30 → (who.engine = true ∨ (a % 2 ^ 20 < 0x80000 ∧ a / 2 ^ 20 / 4 = who.core / 4)) →
                s.locate who r i acc = .ok (some ((List.range u).map (fun k => .chip (a / 2 ^ 20) (a % 2 ^ 20 + k))))) ∧
              (¬(held ∧ a < 2 ^ 30 ∧ (who.engine = true ∨ (a % 2 ^ 20 < 0x80000 ∧ a / 2 ^ 20 / 4 = who.core / 4))) → kindOf 11)) ∧
            (r.space = 0 →
              (∀ k f, k < u → s.translate who (va + k) acc = .error f → (∀ j < k, ∃ x, s.translate who (va + j) acc = .ok x) →
                ∃ e, s.locate who r i acc = .error e ∧ e.kind = 12 ∧ e.detail = f ∧ e.va = BitVec.ofNat 64 (va + k)) ∧
              ∀ xs : List Loc, xs.length = u → (∀ k x, xs[k]? = some x → s.translate who (va + k) acc = .ok x) →
                s.locate who r i acc = .ok (some xs))))))

/-- R9, R157, R166 and R344: a byte that was written reads as written and every other byte as before, for its own agent: through the store
buffer and beyond it. Another core does not see a buffered store, unless the buffer must make room for a line. A write of a lane that goes last in
coherence order reads as written too (R259). -/
def Obligations.BytesReadAsWritten : Prop :=
  (∀ (s : State) (h : Here) (l v : Nat) (kind : WriteKind) (rel : Option Scope) (ls : List Loc), ls.Nodup → (∀ x ∈ ls, s.ownByte x) →
    s.reserveStart ≤ s.mm 128 64 → (∀ b ∈ s.sbuf, b.core ≠ h.core) →
    let t := s.laneWrite h l kind rel v ls
    t.readNat h.actor ls = v % 256 ^ ls.length ∧ t.sansMemory = s.sansMemory ∧ ∀ x, x ∉ ls → t.readByte h.actor x = s.readByte h.actor x) ∧
  ∀ (s : State) (who : Actor) (v : Nat),
    (∀ ls : List Loc, ls.Nodup → (∀ x ∈ ls, s.ownByte x) → s.reserveStart ≤ s.mm 128 64 → (∀ b ∈ s.sbuf, b.core ≠ who.core) →
      (s.writeNat who v ls).readNat who ls = v % 256 ^ ls.length ∧ (s.writeNat who v ls).sansMemory = s.sansMemory ∧
      ∀ x, x ∉ ls → (s.writeNat who v ls).readByte who x = s.readByte who x) ∧
    (∀ a n id : Nat, s.buffersOk who.core who.part →
      (∀ j < n, ((s.bufferStore who v a n id).readByte who (.dram (a + j))).toNat = v / 256 ^ j % 256) ∧
      (∀ x, (∀ j < n, x ≠ .dram (a + j)) → (s.bufferStore who v a n id).readByte who x = s.readByte who x) ∧
      ((s.bufLines who.core).length < 32 ∨ a / 128 ∈ s.bufLines who.core →
        ∀ o : Actor, o.core ≠ who.core → ∀ x, (s.bufferStore who v a n id).readByte o x = s.readByte o x)) ∧
    (∀ core part : Nat, s.buffersOk core part → (∀ b ∈ (s.flushCore core).sbuf, b.core ≠ core) ∧
      ∀ o : Actor, o.core = core → o.part = part → ∀ x, (s.flushCore core).readByte o x = s.readByte o x)

/-- R174 to R177 and R180: a load gives each lane the unit it locates, widened, and 0 where the access does not happen; a waiting load
completes lane by lane, in ascending order for one granule, and waits for the lanes that have not won; what it traps on, in order. It waits for
bytes of another device until they have come (R338, R367). A plain load that races with a write that its thread need not have seen may read what
stood before it (R258, R260); it synchronises with nothing. A promoting acquire reads after the promotion (R269). -/
def Obligations.LoadsReadTheirUnits : Prop :=
  ∀ (s : State) (h : Here) (d a : Reg) (slot : BitVec 5) (fe : LdFe) (ord : LdOrd) (scope : Scope), h.handler = false → Ready s h [d, a] [a] →
    let r := h.record slot
    let i := Instr.ld d a slot fe ord scope
    let pad := decide (fe ≠ .none)
    let forbidden := (fe ≠ .none ∨ ord ≠ .plain) ∧ scope ≠ .core
    (h.l.det = true → forbidden → exec i s = trap s h kDet) ∧
    ((h.l.det = false ∨ ¬forbidden) →
      (∀ l f, (fe = .none ∨ ∀ l ∈ h.lanes, (s.thread (h.tk l)).done = false) → FaultsAt s h r a .read (fmtLd r.fmt) pad l f →
        exec i s = trapLoc (s.walked h r a .read) h (l, f) 0) ∧
      ∀ loc, Locates s h r a .read (fmtLd r.fmt) pad loc →
        let w := s.walked h r a .read
        let s0 := if ord = .pacq then h.lanes.foldl (fun s l => ((loc l).getD []).foldl (fun s x => s.promote h.core x) s) w else w
        let widen := fun v => if r.fmt = 11 ∨ r.fmt = 13 then (BitVec.ofNat 8 v).signExtend 32 else BitVec.ofNat 32 v
        let word := fun l => match loc l with | none => 0 | some ls => widen (s0.readNat h.actor ls)
        let legible := ∀ x, Touched h loc x → s0.unreadable h.actor x = false
        (fe = .none → ¬Arrived s0 h loc → exec i s = .next ((s0.askAll h (h.units loc)).await h)) ∧
        (fe = .none → ord ≠ .plain → Arrived s0 h loc → legible →
          let s1 := (w.strongLoads h ord scope (h.units loc) s0).takeAnswers h (h.units loc)
          Observed s0 s1 0 ∧ Gives i s s1 h [a] d word quiet) ∧
        (fe = .none → ord = .plain → Arrived s0 h loc → legible → ∃ s1 n read, Observed s0 s1 n ∧ PlainReads s0 h loc n read ∧
          (∀ k, (find s1.writes k).map (fun x => { x with seen := [] }) = (find s0.writes k).map (fun x => { x with seen := [] })) ∧
          Gives i s s1 h [a] d (fun l => if (loc l).isNone then 0 else widen (read l)) quiet) ∧
        (∀ l ∈ h.lanes, fe = .none → Arrived s0 h loc → (∃ ls, loc l = some ls ∧ ∃ x ∈ ls, s0.unreadable h.actor x = true) →
          (∀ k ∈ h.lanes, k < l → ∀ ls, loc k = some ls → ∀ x ∈ ls, s0.unreadable h.actor x = false) →
          exec i s = trapBad (s0.takeAnswers h (h.units loc)) h l (s0.elementVa h r (s.reg h l a).toNat) .read 0) ∧
        (fe ≠ .none → h.frag.defer = false → (∀ l ∈ h.lanes, (s.thread (h.tk l)).done = false) →
          let wins := fun l => match loc l with
            | none => true
            | some ls => s.isFull (granuleOf ls) && (fe = .wf || h.lanes.all (fun k => l ≤ k || (loc k).map granuleOf ≠ some (granuleOf ls)))
          let taken := fun g => fe = .wft ∧ ∃ l ∈ h.lanes, (loc l).map granuleOf = some g ∧ s.isFull g = true
          ((∀ l ∈ h.lanes, wins l = true) → ∃ s1, (∀ g, s1.isFull g = true ↔ (s.isFull g = true ∧ ¬taken g)) ∧
            (∀ l ∈ h.lanes, { s1.thread (h.tk l) with reads := [] } = { s.thread (h.tk l) with done := false, pend := 0, reads := [] }) ∧
            (∀ k, (∀ l ∈ h.lanes, k ≠ h.tk l) → s1.thread k = s.thread k) ∧
            State.sansReads { s1 with full := [], gsync := [], threads := [] } = State.sansReads { s0 with full := [], gsync := [], threads := [] } ∧
            Gives i s s1 h [a] d word quiet) ∧
          ((∃ l ∈ h.lanes, wins l = false) → ∃ t, exec i s = .next t ∧ Waits w t h r wins ∧ (∀ g, t.isFull g = true ↔ (s.isFull g = true ∧ ¬taken g)) ∧
            ∀ l ∈ h.lanes, wins l = true → (t.thread (h.tk l)).pend = word l ∧ (d.toNat ≤ 123 → t.reg h l d = word l))))

/-- R175, R178 to R180 and R185: what a store leaves in memory, the granules that it sets full, and that it stores nowhere else: the bytes
of each lane's unit hold the low bytes of its register, the highest lane's where units overlap; a plain store that races with a write that its
thread need not have seen may go before it (R160, R259). -/
def Obligations.StoresWriteTheirUnits : Prop :=
  ∀ (s : State) (h : Here) (d a : Reg) (slot : BitVec 5) (fe : StFe) (ord : StOrd) (scope : Scope), h.handler = false → Ready s h [d, a] [d, a] →
    let r := h.record slot
    let i := Instr.st d a slot fe ord scope
    let pad := decide (fe ≠ .none)
    let forbidden := (fe ≠ .none ∨ ord ≠ .plain) ∧ scope ≠ .core
    (h.l.det = true → forbidden → exec i s = trap s h kDet) ∧
    ((h.l.det = false ∨ ¬forbidden) →
      (∀ l f, (fe ≠ .wef ∨ ∀ l ∈ h.lanes, (s.thread (h.tk l)).done = false) → FaultsAt s h r a .write (fmtLd r.fmt) pad l f →
        exec i s = trapLoc (s.walked h r a .write) h (l, f) 0) ∧
      ∀ loc, Locates s h r a .write (fmtLd r.fmt) pad loc →
        let sets := fun g => ∃ l ∈ h.lanes, (loc l).map granuleOf = some g
        let w := s.walked h r a .write
        (fe ≠ .wef → ∃ s1, Passes i s s1 h [d, a] onward ∧
          (∀ g, s1.isFull g = true ↔ (s.isFull g = true ∨ (fe = .sf ∧ sets g))) ∧
          ((∀ x, Touched h loc x → s.ownByte x) → s.buffersOk h.core h.l.part →
            (ord = .plain → PlainStores w s1 h loc (fun l => s.reg h l d)) ∧
            (ord ≠ .plain → s1.sansMemory = w.sansMemory ∧
              ((∀ k, getD 0 s.marks k = 0 ∨ getD 0 s.marks k = h.core + 1) →
                (∀ l ∈ h.lanes, ∀ ls, loc l = some ls → ∀ (j : Nat) (x : Loc), ls[j]? = some x → (∀ k ∈ h.lanes, l < k → ∀ ls', loc k = some ls' → x ∉ ls') →
                  s1.readByte h.actor x = (s.reg h l d).extractLsb' (8 * j) 8) ∧
                ∀ x, ¬Touched h loc x → s1.readByte h.actor x = w.readByte h.actor x)))) ∧
        (fe = .wef → h.frag.defer = false → (∀ l ∈ h.lanes, (s.thread (h.tk l)).done = false) →
          let wins := fun l => match loc l with
            | none => true
            | some ls => !s.isFull (granuleOf ls) && h.lanes.all (fun k => l ≤ k || (loc k).map granuleOf ≠ some (granuleOf ls))
          let written := fun (t : State) => (∀ g, t.isFull g = true ↔ (s.isFull g = true ∨ sets g)) ∧
            (∀ l ∈ h.lanes, wins l = true → ∀ ls, loc l = some ls → ∀ (j : Nat) (x : Loc), ls[j]? = some x → t.readByte h.actor x = (s.reg h l d).extractLsb' (8 * j) 8) ∧
            (∀ core o, (∀ l ∈ h.lanes, wins l = true → ∀ ls, loc l = some ls → Loc.chip core o ∉ ls) → t.chipByte core o = s.chipByte core o) ∧
            (s.buffersOk h.core h.l.part → (ord = .plain ∨ ∀ k, getD 0 s.marks k = 0 ∨ getD 0 s.marks k = h.core + 1) →
              ∀ x, t.readByte h.actor (.dram x) = s.readByte h.actor (.dram x))
          ((∀ l ∈ h.lanes, wins l = true) → ∃ s1, written s1 ∧
            (∀ l ∈ h.lanes, s1.thread (h.tk l) = { s.thread (h.tk l) with done := false, pend := 0 }) ∧
            (∀ k, (∀ l ∈ h.lanes, k ≠ h.tk l) → s1.thread k = s.thread k) ∧
            { s1 with threads := [] }.sansMemory = { w with threads := [] }.sansMemory ∧ Passes i s s1 h [d, a] onward) ∧
          ((∃ l ∈ h.lanes, wins l = false) → ∃ t, exec i s = .next t ∧ Waits w t h r wins ∧ written t)))

/-- R181: `ldm` and `stm` move registers one by one from the transfer count up; the register that faults keeps what the earlier ones did
and traps with its number, and one whose bytes another device has still to send waits there (R338); a transfer that meets no fault retires. Neither
produces. -/
def Obligations.TransfersMoveRegisterByRegister : Prop :=
  ∀ (s : State) (h : Here) (d a : Reg) (slot : BitVec 5) (count : BitVec 6), h.handler = false → d.toNat + count.toNat ≤ 123 →
    Ready s h ((List.range (count.toNat + 1)).map (fun j => BitVec.ofNat 7 (d.toNat + j)) ++ [a]) [a] → h.frag.xfer ≤ count.toNat →
    let r := h.g.shapeRec slot.toNat
    let reg := fun j => BitVec.ofNat 7 (d.toNat + j)
    let index := fun (s : State) j l => (s.reg h l a + BitVec.ofNat 32 j).toNat
    let at' := fun (s : State) j l => s.spot h r (index s j l)
    let walked := fun (s : State) j acc => s.noteSpots h r (index s j) acc h.lanes
    let failed := fun (s : State) j acc => (walked s j acc).modFrag h (fun f => { f with xfer := j })
    (∃ (k : Nat) (st : Nat → State), h.frag.xfer ≤ k ∧ k ≤ count.toNat + 1 ∧ st h.frag.xfer = s ∧
      (∀ j, h.frag.xfer ≤ j → j < k → ∃ (loc : Nat → Option (List Loc)) (s1 : State) (n : Nat) (read : Nat → Nat),
        (∀ l ∈ h.lanes, at' (st j) j l .read (fmtWord r.fmt) false = .ok (loc l)) ∧
        Observed (walked (st j) j .read) s1 n ∧ PlainReads (walked (st j) j .read) h loc n read ∧
        Written s1 (st (j + 1)) h (reg j) (fun l => BitVec.ofNat 32 (read l))) ∧
      ((k = count.toNat + 1 ∧ Passes (.ldm d a slot count) s (st k) h [a] onward) ∨
        (k ≤ count.toNat ∧
          ((∃ l ∈ h.lanes, ∃ f, at' (st k) k l .read (fmtWord r.fmt) false = .error f ∧
              exec (.ldm d a slot count) s = trapLoc (failed (st k) k .read) h (l, f) k) ∨
            ∃ loc : Nat → Option (List Loc), (∀ l ∈ h.lanes, at' (st k) k l .read (fmtWord r.fmt) false = .ok (loc l)) ∧
              let f := failed (st k) k .read
              ((¬Arrived f h loc ∧ exec (.ldm d a slot count) s = .next ((f.askAll h (h.units loc)).await h)) ∨
                (Arrived f h loc ∧ ∃ l ∈ h.lanes, ∃ va, exec (.ldm d a slot count) s = trapBad (f.takeAnswers h (h.units loc)) h l va .read k)))))) ∧
    (∃ (k : Nat) (st : Nat → State), h.frag.xfer ≤ k ∧ k ≤ count.toNat + 1 ∧ st h.frag.xfer = s ∧
      (∀ j, h.frag.xfer ≤ j → j < k → ∃ (loc : Nat → Option (List Loc)),
        (∀ l ∈ h.lanes, at' (st j) j l .write (fmtWord r.fmt) false = .ok (loc l)) ∧
        ((∀ x, Touched h loc x → (st j).ownByte x) → (st j).buffersOk h.core h.l.part →
          PlainStores (walked (st j) j .write) (st (j + 1)) h loc (fun l => (st j).reg h l (reg j)))) ∧
      ((k = count.toNat + 1 ∧ Passes (.stm d a slot count) s (st k) h [a] onward) ∨
        (k ≤ count.toNat ∧ ∃ l ∈ h.lanes, ∃ f, at' (st k) k l .write (fmtWord r.fmt) false = .error f ∧
          exec (.stm d a slot count) s = trapLoc (failed (st k) k .write) h (l, f) k))) ∧
    ((∀ j ≤ count.toNat, reg j ≠ a) →
      (∀ j ≤ count.toNat, ∀ l ∈ h.lanes, ∃ x, at' s j l .read (fmtWord r.fmt) false = .ok x ∧
        ∀ ls, x = some ls → s.raced (h.lane l) ls = false ∧ ∀ y ∈ ls, y.own = true ∧ s.unreadable h.actor y = false) →
      ∃ s1, Passes (.ldm d a slot count) s s1 h [a] onward) ∧
    ((∀ j ≤ count.toNat, ∀ l ∈ h.lanes, ∃ x, at' s j l .write (fmtWord r.fmt) false = .ok x ∧ ∀ ls, x = some ls → ∀ y ∈ ls, y.isPad = true) →
      ∃ s1, Passes (.stm d a slot count) s s1 h [a] onward)

/-- R182 to R184: an atomic takes the lanes one by one in ascending order: each reads the word that the lane below left, writes the new
word of its function, if any, and receives the old word; 0 where the access does not happen. `atoma` acquires and releases where it writes, and
an atomic that writes nothing is a strong read (R257). -/
def Obligations.AtomicsTakeLanesInTurn : Prop :=
  ∀ (s : State) (h : Here) (d a : Reg) (slot : BitVec 5) (fn : AtomFn) (scope : Scope) (strong : Bool), h.handler = false →
    let regs := if fn = .cas then [d, a, BitVec.ofNat 7 (d.toNat + 1)] else [d, a]
    Ready s h regs regs →
    let r := h.record slot
    let i := if strong then Instr.atoma d a slot fn scope else .atom d a slot fn scope
    (h.l.det = true → exec i s = trap s h kDet) ∧
    (h.l.det = false →
      (∀ l f, FaultsAt s h r a .rmw (r.fmt = 16 ∨ r.fmt = 17) false l f → exec i s = trapLoc (s.walked h r a .rmw) h (l, f) 0) ∧
      ∀ loc, Locates s h r a .rmw (r.fmt = 16 ∨ r.fmt = 17) false loc →
        let w := s.walked h r a .rmw
        (¬Arrived w h loc → exec i s = .next ((w.askAll h (h.units loc)).await h)) ∧
        (Arrived w h loc → (∀ x, Touched h loc x → w.unreadable h.actor x = false) →
          let new := fun (old v x : Word) => match fn with
            | .add => some (old + v)
            | .and => some (old &&& v)
            | .or => some (old ||| v)
            | .xor => some (old ^^^ v)
            | .mins => some (if old.toInt ≤ v.toInt then old else v)
            | .maxs => some (if old.toInt ≤ v.toInt then v else old)
            | .minz => some (if old.toNat ≤ v.toNat then old else v)
            | .maxz => some (if old.toNat ≤ v.toNat then v else old)
            | .xchg => some v
            | .cas => if old = v then some x else none
            | .fadd => some (fp2 f32.add old v).1
          ∃ (st : Nat → State) (old : Nat → Word), st 0 = (w.flushCore h.core).takeAnswers h (h.units loc) ∧
            (∀ l < 32, (l ∉ h.lanes ∨ loc l = none) → st (l + 1) = st l ∧ old l = 0) ∧
            (∀ l ∈ h.lanes, ∀ ls, loc l = some ls →
              let seen := (st l).strongRead h l ls
              let ordered := if strong then seen.acquire h (((st l).tagsAt (h.lane l) ls).filter (h.matches scope)) else seen
              old l = BitVec.ofNat 32 ((st l).readNat h.actor ls) ∧
              st (l + 1) = (match new (old l) (s.reg h l d) (s.reg h l (BitVec.ofNat 7 (d.toNat + 1))) with
                | none => seen
                | some x => (ordered.laneWrite h l .rmw (if strong then some scope else none) x.toNat ls).markWrite h (strong && scope = .core) { lane := l, locs := some ls })) ∧
            Gives i s (st 32) h regs d old (raised h (fun l => if fn = .fadd ∧ loc l ≠ none then (fp2 f32.add (old l) (s.reg h l d)).2 else evNone))))

/-- R185: granules: `feset` sets each lane's granule full, `feclr` sets it empty, `fetest` reads it; no byte is written, and `feset` releases, so
that a waiting access that finds the granule full acquires from it (R271). Their traps. -/
def Obligations.GranuleInstructions : Prop :=
  ∀ (s : State) (h : Here) (d a : Reg) (slot : BitVec 5) (scope : Scope), h.handler = false →
    let r := h.record slot
    (h.l.det = true → scope ≠ .core →
      (Ready s h [a] [a] → exec (.feset a slot scope) s = trap s h kDet ∧ exec (.feclr a slot scope) s = trap s h kDet) ∧
      (Ready s h [d, a] [a] → exec (.fetest d a slot scope) s = trap s h kDet)) ∧
    ((h.l.det = false ∨ scope = .core) →
      (Ready s h [a] [a] → ∀ p ∈ [(Instr.feset a slot scope, true), (.feclr a slot scope, false)],
        let w := s.walked h r a .write
        (∀ l f, FaultsAt s h r a .write true true l f → exec p.1 s = trapLoc w h (l, f) 0) ∧
        ∀ loc, Locates s h r a .write true true loc → ∃ s1, Passes p.1 s s1 h [a] onward ∧
          (∀ g, s1.isFull g = if ∃ l ∈ h.lanes, (loc l).map granuleOf = some g then p.2 else s.isFull g) ∧ s1.sansMemory = w.sansMemory ∧ s1.pad = s.pad ∧
          (p.2 = true → ∀ l ∈ h.lanes, ∀ g, (loc l).map granuleOf = some g → (∀ k ∈ h.lanes, l < k → (loc k).map granuleOf ≠ some g) →
            ∃ t ∈ getD [] s1.gsync g, t.thread = h.tk l ∧ t.core = h.core ∧ t.part = h.l.part ∧ t.scope = scope) ∧
          (s.buffersOk h.core h.l.part → (∀ k, getD 0 s.marks k = 0 ∨ getD 0 s.marks k = h.core + 1) → ∀ x, s1.readByte h.actor x = w.readByte h.actor x)) ∧
      (Ready s h [d, a] [a] →
        (∀ l f, FaultsAt s h r a .read true true l f → exec (.fetest d a slot scope) s = trapLoc (s.walked h r a .read) h (l, f) 0) ∧
        ∀ loc, Locates s h r a .read true true loc → ∃ s1, Observed (s.walked h r a .read) s1 0 ∧ Gives (.fetest d a slot scope) s s1 h [a] d
          (fun l => match loc l with | none => 0 | some ls => if s.isFull (granuleOf ls) then 1 else 0) quiet))

/-- R186: `wne` gives each lane its word once no lane's word equals its expected value, and waits otherwise; at the timeslice after issue the
fragment resumes with the words that the lanes read. At a scope above core a poll reads what has been performed, and the issue performs what
its own core buffers. Through a publish record each poll reads the side that then stands (R172). -/
def Obligations.WaitsUntilWordsDiffer : Prop :=
  ∀ (s : State) (h : Here) (d a : Reg) (slot : BitVec 5) (scope : Scope), h.handler = false → Ready s h [d, a] [d, a] →
    let r := h.record slot
    (h.l.det = true → exec (.wne d a slot scope) s = trap s h kDet) ∧
    (h.l.det = false → (∀ l ∈ h.lanes, (s.thread (h.tk l)).done = false) →
      (∀ l f, FaultsAt s h r a .read (r.fmt = 16 ∨ r.fmt = 17) false l f → exec (.wne d a slot scope) s = trapLoc (s.walked h r a .read) h (l, f) 0) ∧
      ∀ loc, Locates s h r a .read (r.fmt = 16 ∨ r.fmt = 17) false loc →
        let w := s.walked h r a .read
        (¬Arrived w h loc → exec (.wne d a slot scope) s = .next ((w.askAll h (h.units loc)).await h)) ∧
        (Arrived w h loc → (∀ x, Touched h loc x → w.unreadable h.actor x = false) →
          let s0 := if scope = .core ∨ h.frag.wait = .access then w else w.flushCore h.core
          let seen := if scope = .core then s0 else { s0 with sbuf := [] }
          let word := fun l => match loc l with | none => 0 | some ls => BitVec.ofNat 32 (seen.readNat h.actor ls)
          let met := fun l => (loc l).isNone || word l ≠ s.reg h l d
          let result := fun (i : Instr) => ∃ s1, (∀ l ∈ h.lanes, { s1.thread (h.tk l) with reads := [] } = { s.thread (h.tk l) with done := false, pend := 0, reads := [] }) ∧
            (∀ k, (∀ l ∈ h.lanes, k ≠ h.tk l) → s1.thread k = s.thread k) ∧ { s1 with threads := [] }.sansReads = { s0 with threads := [] }.sansReads ∧
            ∃ t, exec i s = .next t ∧ Resulted s1 t h [d, a] d word quiet
          ((∀ l ∈ h.lanes, met l = true) → result (.wne d a slot scope)) ∧
          ((∃ l ∈ h.lanes, met l = false) → ∃ t, exec (.wne d a slot scope) s = .next t ∧ Waits w t h r met ∧ t.rf = s.rf) ∧
          (h.frag.wait = .access → h.frag.mode = .user → decode (s.wordAt h h.frag.pc false) = .ok (.wne d a slot scope) →
            (h.frag.t0 + s.sliceCycles h.core ≤ s.now h → result (.wneTimeout h.core h.slot h.wave h.frag.lanes)) ∧
            (s.now h < h.frag.t0 + s.sliceCycles h.core → exec (.wneTimeout h.core h.slot h.wave h.frag.lanes) s = .next s))))

/-- R166, R187, R263, R264 and R269: a fence that releases above core scope performs every buffered store of the core, and what its threads come
after, or have read, is covered by a token that it leaves with each of them for their later strong writes; a fence that acquires takes what the
releases that its threads have read cover into their past. -/
def Obligations.FencesPerformStores : Prop :=
  ∀ (s : State) (h : Here) (kind : FenceKind) (scope : Scope), s.here = some h →
    let w := if kind = .rel then s else s.fenceAcquire h kind scope
    let f := if scope = .core then w else w.flushCore h.core
    (h.l.det = true → scope ≠ .core → exec (.fence kind scope) s = trap s h kDet) ∧
    ((h.l.det = false ∨ scope = .core) →
      (kind ≠ .rel → { w with writes := [] } = { s with writes := [] } ∧
        ∀ k x, find s.writes k = some x → ∃ y, find w.writes k = some y ∧ { y with known := [] } = { x with known := [] } ∧ (∀ a ∈ x.known, a ∈ y.known) ∧
          ∀ m ∈ h.lanes, ∀ t ∈ (s.thread (h.tk m)).reads, h.matches scope t = true → Agent.sync t.num ∈ x.known → ∀ l ∈ h.lanes, Agent.thread (h.tk l) ∈ y.known) ∧
      (kind = .acq → Passes (.fence kind scope) s w h [] onward) ∧
      (kind ≠ .acq → ∃ s1, Passes (.fence kind scope) s s1 h [] onward ∧ s1.wnum = f.wnum + 1 ∧
        (∀ l ∈ h.lanes, s1.thread (h.tk l) =
          { s.thread (h.tk l) with fences := (s.thread (h.tk l)).fences.filter (fun x => x.1 ≠ scope) ++ [(scope, f.wnum)] }) ∧
        (∀ k, (∀ l ∈ h.lanes, k ≠ h.tk l) → s1.thread k = s.thread k) ∧
        { s1 with threads := [], writes := [], wnum := 0 } = { f with threads := [], writes := [], wnum := 0 } ∧
        (∀ k x, find f.writes k = some x → ∃ y, find s1.writes k = some y ∧ (∀ a ∈ x.known, a ∈ y.known) ∧
          ((x.agent ∈ h.agents ∨ ∃ l ∈ h.lanes, Agent.thread (h.tk l) ∈ x.known ∨ Agent.thread (h.tk l) ∈ x.seen) → Agent.sync f.wnum ∈ y.known)) ∧
        (scope ≠ .core → s1.sbuf = s.sbuf.filter (fun b => b.core ≠ h.core)) ∧
        (s.buffersOk h.core h.l.part → ∀ x, s1.readByte h.actor x = s.readByte h.actor x)))

/-! ## Code segments and copies -/

/-- R131, R132, R137 to R140: `cfetch` reads its entry and starts a load, or reports that the entry could not be read, and waits while four
loads of its group are outstanding or another image loads into its store segment; `cwaits` waits while the store segment is loading and says
whether the segment is resident; what a fetch finds; what the end of a load leaves in the store segment and reports in `q6`. That an entry that
the launch has not yet copied counts as it then reads is the model's choice (log 51), as are what a fetch finds while a load replaces a store
segment and what a load whose entry could not be read ends with (log 66), and that the core's buffered stores are performed first (log 86). -/
def Obligations.CodeSegmentLoads : Prop :=
  (∀ (s : State) (h : Here) (d a : Reg), h.handler = false →
    let c := (s.uniform h a).toNat
    let s0 := ((s.pass h.owns [.queue h.gk 6]).flushCore h.core).noteTable h.core h.l c
    let n := (s.pass h.owns [.queue h.gk 6]).loadSegment h.core h.slot c true
    let before := (s.core h.core).loads
    let who := deviceAt h.core h.l.part
    let entry := s0.readVirtual who (h.l.field 64 64 + 16 * c) 16 .read
    let busy := 4 ≤ (before.filter (fun x => x.slot = h.slot)).length + h.g.held6.length ∨
      ∃ v, (s.flushCore h.core).readVirtual who (h.l.field 64 64 + 16 * c) 16 .read = .ok v ∧ ∃ y ∈ before, y.store = entryStore (BitVec.ofNat 128 v) ∧
        ¬((s.launch y.launch).part = h.l.part ∧ entryVa y.entry = entryVa (BitVec.ofNat 128 v))
    (Ready s h [a] [a] →
      (h.l.codeCount < c → exec (.cfetch a) s = trap s h kState) ∧
      (c ≤ h.l.codeCount → busy → exec (.cfetch a) s = .next (s.await h)) ∧
      (c ≤ h.l.codeCount → ¬busy → Passes (.cfetch a) s n h [a] onward ∧
        (before = [] →
          (∀ e, entry = .error e → ∃ x, (n.core h.core).loads = [x] ∧ x.slot = h.slot ∧ x.seg = c ∧ x.code = e ∧ x.store = 32 ∧ x.begun = false ∧ n.itags = s.itags) ∧
          (∀ v, entry = .ok v →
            let e := BitVec.ofNat 128 v
            let k := 32 * h.core + entryStore e
            ∃ x, find (n.launch h.g.launch).segs c = some e ∧ (n.core h.core).loads = [x] ∧ x.slot = h.slot ∧ x.seg = c ∧ x.entry = e ∧ x.store = entryStore e ∧
              (badEntry e = false → (s.tag k).isFor h.l.part e = true → (s.tag k).state = .loaded → x.begun = false ∧ n.itags = s.itags) ∧
              (¬(badEntry e = false ∧ (s.tag k).isFor h.l.part e = true ∧ (s.tag k).state = .loaded) → x.begun = true ∧
                n.tag k = { state := .loading, part := h.l.part, va := entryVa e, sects := [] } ∧ ∀ j, j ≠ k → n.tag j = s.tag j))))) ∧
    (Ready s h [d, a] [a] →
      (h.l.codeCount < c → exec (.cwaits d a) s = trap s h kState) ∧
      (c ≤ h.l.codeCount → (find h.l.segs c = none → ∀ e, s.readVirtual who (h.l.field 64 64 + 16 * c) 16 .read = .error e →
        Gives (.cwaits d a) s (s.noteTable h.core h.l c) h [a] d (fun _ => 0) quiet) ∧
        ∀ e, (find h.l.segs c = some e ∨ (find h.l.segs c = none ∧ ∃ v, s.readVirtual who (h.l.field 64 64 + 16 * c) 16 .read = .ok v ∧ e = BitVec.ofNat 128 v)) →
          let t := s.tag (32 * h.core + entryStore e)
          (t.state = .loading → exec (.cwaits d a) s = .next (s.await h)) ∧
          (t.state ≠ .loading → Gives (.cwaits d a) s (if find h.l.segs c = none then s.noteTable h.core h.l c else s) h [a] d (fun _ => if t.state = .loaded ∧ t.part = h.l.part ∧ t.va = entryVa e then 1 else 0) quiet)))) ∧
  (∀ (s : State) (core launch : Nat) (pc : CodeAddr) (e : BitVec 128) (fence : Option Nat), find (s.launch launch).segs pc.seg.toNat = some e →
    let t := s.tag (32 * core + entryStore e)
    let k := 32768 * core + 1024 * entryStore e + pc.off.toNat
    let mine := t.part = (s.launch launch).part ∧ t.va = entryVa e
    (fence = none ∨ getD [] s.iold k = [] → s.storeWord k fence = getD 0 s.istore k) ∧
    (∀ f, fence = some f → s.storeWord k fence = getD 0 s.istore k ∨ ∃ p ∈ getD [] s.iold k, f ≤ p.1 ∧ s.storeWord k fence = p.2) ∧
    s.fetch core launch pc fence = (s,
      if mine ∧ t.state = .loaded then .word (s.storeWord k fence)
      else if t.state = .loading ∨ ∃ x ∈ (s.core core).loads, x.launch = launch ∧ x.seg = pc.seg.toNat then .wait
      else .fault (if badEntry e = true ∨ pc.seg.toNat ∈ (s.launch launch).badSegs then 2 else 0))) ∧
  (∀ (s : State) (core seg : Nat) (x : Load) (g : Group), (s.core core).loads = [x] → x.store = seg → s.group (gkOf core x.slot) = some g →
    x.report = true → g.held6 = [] → (g.queue 6).length < 32 →
    let l := s.launch x.launch
    let who := deviceAt core l.part
    let words := (entryWords x.entry)
    let ends := fun (st : Nat) => ∃ t, exec (.codeLoadEnd core seg) s = .next t ∧ (t.core core).loads = [] ∧
      ∃ g' b, t.group (gkOf core x.slot) = some g' ∧ g'.queue 6 = g.queue 6 ++ [b] ∧
        (∀ k, getD 0 b k = if k = 0 then BitVec.ofNat 32 x.seg else if k = 1 then BitVec.ofNat 32 st else if k = 2 then BitVec.ofNat 32 (entryStore x.entry) else 0) ∧
        (x.seg ∈ (t.launch x.launch).badSegs ↔ st ≠ 0) ∧
        (seg ≠ 32 → ((t.tag (32 * core + seg)).state = .loaded ↔ st = 0))
    (seg = 32 → ends x.code) ∧
    (seg < 32 → x.begun = true → badEntry x.entry = true → ends 3) ∧
    (seg < 32 → x.begun = true → badEntry x.entry = false →
      (∀ ws ts, s.codeWords who (entryVa x.entry).toNat words = .ok ws → s.codeWords who ((entryVa x.entry).toNat + 4 * words) (entrySects x.entry) = .ok ts →
        (badSects ts = true → ends 3) ∧
        (badSects ts = false → ends 0 ∧ ∀ t, exec (.codeLoadEnd core seg) s = .next t →
          t.tag (32 * core + seg) = { state := .loaded, part := l.part, va := entryVa x.entry, sects := ts } ∧
          ∀ off < 1024, getD 0 t.istore (32768 * core + 1024 * seg + off) = ws.getD off 0)) ∧
      (∀ e, s.codeWords who (entryVa x.entry).toNat words = .error e → ends e) ∧
      (∀ ws e, s.codeWords who (entryVa x.entry).toNat words = .ok ws → s.codeWords who ((entryVa x.entry).toNat + 4 * words) (entrySects x.entry) = .error e →
        ends e)) ∧
    (seg < 32 → x.begun = false → badEntry x.entry = false → (s.tag (32 * core + seg)).isFor l.part x.entry = true →
      (s.tag (32 * core + seg)).state = .loaded → ends 0)) ∧
  (∀ (s : State) (core seg : Nat), (∀ x ∈ (s.core core).loads, x.store ≠ seg) → exec (.codeLoadEnd core seg) s = .next s)

/-- R197 to R201, R206 and R207: `cpy`, `cpyg` and `cpys` join the job of each active lane to its operation: a solo operation starts at
once and takes its number and records; the checks at issue, in order; a ninth operation waits. That an operation which a release has ended takes no
more jobs is the model's choice (log 71). -/
def Obligations.CopyInstructionsJoin : Prop :=
  ∀ (s : State) (h : Here) (d : Reg) (sparse solo : Bool) (x y : BitVec 5) (dst : CopyDest), h.handler = false →
    Ready s h [d, BitVec.ofNat 7 (d.toNat + 1)] [] →
    let dest : Reg := match dst with | .slot t => t.setWidth 7 | .fifoA => 32 | .fifoB => 64
    let job := fun l => ({ wave := h.wave, lane := l, x := s.reg h l d, y := s.reg h l (BitVec.ofNat 7 (d.toNat + 1)) } : Job)
    let number := fun l => (s.thread (h.tk l)).copyCount + 1
    ∀ p ∈ ([
        (.cpy d sparse solo x dst, 0, BitVec.ofBool sparse ++ (BitVec.ofBool solo ++ x), dest, x.toNat, x.toNat, dest.toNat % 32),
        (.cpyg d solo x dst, 1, BitVec.ofBool false ++ (BitVec.ofBool solo ++ x), dest, x.toNat + 1, x.toNat, dest.toNat % 32),
        (.cpys d solo x y, 2, BitVec.ofBool false ++ (BitVec.ofBool solo ++ x), y.setWidth 7, x.toNat, y.toNat, y.toNat + 1)] :
          List (Instr × Nat × Reg × Reg × Nat × Nat × Nat)),
      let (i, fn, a, b, xs, is, ys) := p
      let fifo := fn ≠ 2 ∧ (b = 32 ∨ b = 64)
      let det := copyDetBad h.g fn a b (decide fifo)
      let stops := (fifo ∧ h.g.cfg = none) ∨ (solo = false ∧ (h.w.rfOpen = true ∨ ∃ l ∈ h.lanes, ∃ o ∈ h.g.copies,
        o.solo = false ∧ o.started = false ∧ o.k = number l ∧ (o.fn ≠ fn ∨ o.a ≠ a ∨ o.b ≠ b)))
      let new := ((h.lanes.map number).eraseDups.filter (fun k => !h.g.copyGone.contains k && !h.g.copies.any (fun o => !o.solo && !o.started && o.k = k))).length
      (h.l.det = true → det = true → exec i s = trap s h kDet) ∧
      ((h.l.det = false ∨ det = false) →
        (stops → exec i s = trap s h kState) ∧
        (¬stops → 8 < h.g.copies.length + (if solo then 1 else new) → exec i s = .next (s.await h)) ∧
        (¬stops → solo = true → h.g.copies.length < 8 → ∃ o : CopyOp, o.jobs = h.lanes.map job ∧ o.fn = fn ∧ o.a = a ∧ o.b = b ∧ o.solo = true ∧
          o.started = true ∧ o.stall = false ∧ o.num = h.g.copyNum + 1 ∧ o.src = h.g.shapeRec xs ∧ o.idx = h.g.shapeRec is ∧ o.dst = h.g.shapeRec ys ∧ o.job = 0 ∧ o.fin = none ∧
          Passes i s ((s.pass h.owns [o.agent h.gk]).setGroup h.gk { h.g with copyNum := h.g.copyNum + 1, copies := h.g.copies.filter (·.started) ++ [o] ++ h.g.copies.filter (fun o => !o.started) }) h [] onward) ∧
        (¬stops → solo = false → h.g.copies.length + new ≤ 8 → ∃ s1 t,
          let s0 := h.lanes.foldl (fun t l => t.pass (· = .thread (h.tk l)) [.copy h.gk (2 * number l + 1)]) s
          s1.group h.gk = some (h.lanes.foldl (fun g l => g.joinCopy fn a b (number l) (job l)) h.g) ∧ (∀ k, k ≠ h.gk → s1.group k = s.group k) ∧
          (∀ l ∈ h.lanes, s1.thread (h.tk l) = { s.thread (h.tk l) with copyCount := number l }) ∧ (∀ k, (∀ l ∈ h.lanes, k ≠ h.tk l) → s1.thread k = s.thread k) ∧
          { s1 with groups := [], threads := [] } = { s0 with groups := [], threads := [] } ∧ Retired s1 t h [] onward ∧ exec i s = .next (t.settleCopies h.gk)))

/-- R208, R209, R211 and R207: `cwait` waits while more operations stand than it allows and then takes the failed count; `publish` waits for
the operations that started before it and then swaps the sides of its entry and gives the new generation. A waiting `publish` keeps the record
and the operations that it read first. That an entry with a reserved bit raises the record fault is the model's choice (log 69), as is that the
core's buffered stores are performed before the swap and what the active threads and the copy queue cover is then seen by all (log 86). -/
def Obligations.CopyWaitsAndPublication : Prop :=
  ∀ (s : State) (h : Here) (d a : Reg) (slot : BitVec 5), h.handler = false →
    (Ready s h [d, a] [a] →
      ((s.uniform h a).toNat < h.g.copies.length → exec (.cwait d a) s = .next (s.waitCopy h) ∧ (h.g.suspCopy = none → s.waitCopy h = s.await h)) ∧
      (h.g.copies.length ≤ (s.uniform h a).toNat →
        Gives (.cwait d a) s ((s.pass (· = .queue h.gk 2) h.agents).modGroup h.gk (fun g => { g with copyFail := 0 })) h [a] d (fun _ => BitVec.ofNat 32 h.g.copyFail) quiet)) ∧
    (Ready s h [d] [] →
      let r := h.record slot
      let waits := h.frag.wait = .retry ∧ h.frag.kept.isSome = true
      let good := s.refused h.l.part r = false ∧ r.publish ≠ 0 ∧ (s.pubEntry h.l.part r.publish).extractLsb' 193 31 = 0
      let upto := if waits then h.frag.t0 else h.g.copyNum.toNat
      let pending := ∃ o ∈ h.g.copies, o.started = true ∧ o.num.toNat ≤ upto
      (h.l.det = true → exec (.publish d slot) s = trap s h kDet) ∧
      (h.l.det = false → h.frag.kept = none → ¬good → exec (.publish d slot) s = trap s h kRecord) ∧
      (h.l.det = false → waits ∨ (h.frag.kept = none ∧ good) → pending →
        ∃ t, exec (.publish d slot) s = .next t ∧ t.dram = s.dram ∧
          ∃ f ∈ (t.wave h.wk).frags, f.lanes = h.frag.lanes ∧ f.pc = h.frag.pc ∧ f.wait = .retry ∧ f.t0 = upto ∧ f.kept = some (r, [])) ∧
      (h.l.det = false → waits ∨ (h.frag.kept = none ∧ good) → ¬pending →
        let s0 := (s.flushCore h.core).settled (fun a => h.owns a || a = .queue h.gk 2)
        let e := s0.pubEntry h.l.part r.publish
        let at' := s0.part h.l.part 576 64 + 32 * (r.publish - 1)
        let gen : Word := e.extractLsb' 224 32 + 1
        ∃ s1, s1.dramNat reserveKey (at' + 24) 4 = (e.extractLsb' 192 32 ^^^ 1#32).toNat ∧ s1.dramNat reserveKey (at' + 28) 4 = gen.toNat ∧
          (∀ x, (x < at' + 24 ∨ at' + 32 ≤ x) → s1.dramByte reserveKey x = s0.dramByte reserveKey x) ∧
          { s1 with dram := [], tags := [], bad := [], races := [] } = { s0 with dram := [], tags := [], bad := [], races := [] } ∧ Gives (.publish d slot) s s1 h [] d (fun _ => gen) quiet))

/-- R199, R202 to R206, R208, R210 and R213: the group's first operation goes on burst by burst, each with its current reserved: the read of
an index, or a row that is read whole and written up to 512 bytes a burst; it awaits bytes of other devices. A row of words reads as its units, and
a burst writes them one by one. The job of the last burst is complete. A failing job ends the operation, or suspends it on a translation fault, to
restart at its step. The operation ends with its beat in `q2`, after the rest of its stream, and waits while `q2` is full. Where nothing is due,
nothing happens. That the first burst performs the core's buffered stores (log 86), which granules a failed end leaves to be filled (log 44) and the
address of an end without an access (log 72) are the model's choices. -/
def Obligations.CopyOperationsRunAndEnd : Prop :=
  (∀ (s : State) (core slot : Nat) (g : Group) (o : CopyOp) (r : List CopyOp), s.group (gkOf core slot) = some g → g.copies = o :: r →
    let who := s.engineOf core slot (o.agent (gkOf core slot))
    let live := o.started = true ∧ o.fin = none ∧ g.frozen = false
    let full := o.toFifo = true ∧ 128 ≤ o.stream.length
    let index := o.buf = none ∧ o.fn ≠ 0 ∧ o.step ≠ 2
    let quanta := if index then 3 else if o.sparse ∨ (o.toFifo = false ∧ o.src.fmt ≠ o.dst.fmt) then 5 else 3
    let runs := live ∧ o.susp = none ∧ o.stall = false ∧ o.job < o.jobs.length ∧ ¬full ∧
      ∃ x ∈ (s.cluster (core / 4)).held, x.core = core ∧ x.who = .copy ∧ x.amount = quanta
    let s0 := if o.job = 0 ∧ o.index = none ∧ o.buf = none then s.flushCore core else s
    let goes := fun (s1 : State) (o1 : CopyOp) => exec (.copyOperationStart core slot) s =
      .next ((s1.modGroup (gkOf core slot) (fun g => { g with copies := match g.copies with | _ :: r => o1 :: r | [] => [] })).unpower core .copy)
    let awaits := fun (us : List (List Loc)) (t : State) => (∃ ls ∈ us, s0.lacks who ls = true) ∧ t = us.foldl (fun t ls => t.askRemote who ls) s0
    let here := fun (us : List (List Loc)) => ∀ ls ∈ us, s0.lacks who ls = false
    (live → full → ∃ s1 o1, s.pushFifo core o false = (s1, o1) ∧ exec (.copyOperationStart core slot) s =
      .next ((s1.pass (· = o.agent (gkOf core slot)) [o.fifoAgent (gkOf core slot)]).modGroup (gkOf core slot) (fun g => g.setCopy o1))) ∧
    (¬(live ∧ full) → ¬runs → exec (.copyOperationStart core slot) s = .next s) ∧
    (runs → ∀ j, o.jobs[o.job]? = some j →
      (index →
        let p := (if o.fn = 1 then j.x else j.y).toNat
        let s1 := s0.touchIndex who o.idx p
        let us := s0.indexReads who o.idx p
        (∀ t, awaits us t → goes t { o with stall := true }) ∧
        (here us → (∀ v, s0.indexWord who o.idx p = .ok v → goes ((s1.useFresh (s0.races ≠ [])).dropAsks who.part us.flatten)
            { o with index := some (BitVec.ofNat 32 v), step := 2 }) ∧
          ∀ e s2 o2, s0.indexWord who o.idx p = .error e → s1.stopJob who g { o with index := none } 1 e (s0.stopLoss who e) = (s2, o2) →
            goes (s2.dropAsks who.part us.flatten) o2)) ∧
      (¬index → o.buf = none →
        let x := (if o.fn = 1 then o.index.getD 0 else j.x).toNat
        let y := (if o.fn = 2 then o.index.getD 0 else j.y).toNat
        let s1 := s0.touchRow who o.src x .read
        let us := s0.jobReads who o x
        (∀ t, awaits us t → goes t { o with stall := true }) ∧
        (here us → (∀ b s2 o2, s0.readJob who g o x y = .ok b →
            (((if o.toFifo then s1 else s1.touchRow who o.dst y .write).useFresh (s0.races ≠ [])).dropAsks who.part us.flatten).burst who g { o with step := 2 } b =
              (s2, o2) → goes s2 o2) ∧
          ∀ e s2 o2, s0.readJob who g o x y = .error e → s1.stopJob who g o 2 e (s0.stopLoss who e) = (s2, o2) →
            goes (s2.dropAsks who.part us.flatten) o2)) ∧
      ∀ b s2 o2, o.buf = some b → s0.burst who g o b = (s2, o2) → goes s2 o2) ∧
    (o.started = true ∧ o.susp = none ∧ g.frozen = false ∧ (o.fin ≠ none ∨ o.jobs.length ≤ o.job) →
      let e := o.fin.getD { status := 0, done := o.jobs.length, step := 0, addr := 0 }
      ∀ s1 o1, s.pushFifo core o true = (s1, o1) →
        (o1.stream = [] → (g.queue 2).length < 32 → ∃ t g' b, exec (.copyOperationEnd core slot) s = .next t ∧ t.group (gkOf core slot) = some g' ∧
          g'.copies = r ∧ g'.copyFail = (if e.status = 0 then g.copyFail else g.copyFail + 1) ∧ (t.core core).q0 = (s1.core core).q0 ∧ (t.core core).q1 = (s1.core core).q1 ∧
          g'.queue 2 = g.queue 2 ++ [b] ∧ ∀ k, getD 0 b k = ([o.num, BitVec.ofNat 32 e.status, BitVec.ofNat 32 o.jobs.length, BitVec.ofNat 32 e.done,
            BitVec.ofNat 32 e.step, e.addr.extractLsb' 0 32, e.addr.extractLsb' 32 32] : List Word).getD k 0) ∧
        (o1.stream ≠ [] ∨ 32 ≤ (g.queue 2).length → exec (.copyOperationEnd core slot) s = .next (s1.modGroup (gkOf core slot) (fun g => g.setCopy o1)))) ∧
    (¬(o.started = true ∧ o.susp = none ∧ g.frozen = false ∧ (o.fin ≠ none ∨ o.jobs.length ≤ o.job)) → exec (.copyOperationEnd core slot) s = .next s)) ∧
  (∀ (s : State) (core slot : Nat), (s.group (gkOf core slot) = none ∨ ∃ g, s.group (gkOf core slot) = some g ∧ g.copies = []) →
    exec (.copyOperationStart core slot) s = .next s ∧ exec (.copyOperationEnd core slot) s = .next s) ∧
  (∀ (s : State) (who : Actor) (g : Group) (o : CopyOp) (x y : Nat) (v : Nat → Nat), s.pairing who g o = 0 → o.toFifo = false → o.sparse = false →
    o.src.fmt = 17 → o.dst.fmt = 17 → (∀ n < o.src.rowlen, s.readUnit who o.src x n 4 = .ok (v n) ∧ v n < 2 ^ 32) →
    ∃ b, s.readJob who g o x y = .ok b ∧ b.row = y ∧ b.unit = 0 ∧ b.units = (List.range o.src.rowlen).map v ∧ b.scales = [] ∧ b.grs = []) ∧
  (∀ (s : State) (who : Actor) (g : Group) (o : CopyOp) (b : RowBuf), o.toFifo = false → b.scales = [] →
    let n := min b.units.length (512 / unitSize o.dst.fmt)
    ∀ s1 grs, writeUnits who o b.row (b.units.take n) b.unit s b.grs = .ok (s1, grs) →
      (n < b.units.length → ∃ b1, s.burst who g o b = (s1, { o with buf := some b1 }) ∧ b1.units = b.units.drop n ∧ b1.unit = b.unit + n ∧ b1.row = b.row ∧ b1.grs = grs) ∧
      (n = b.units.length → ∃ s2 o2, s.burst who g o b = (s2, o2) ∧ o2.job = o.job + 1 ∧ o2.step = 1 ∧ o2.index = none ∧ o2.buf = none ∧ { s2 with full := [], gsync := [] } = { s1 with full := [], gsync := [] } ∧
        ∀ x, s2.isFull x = true ↔ (s1.isFull x = true ∨ (x ∈ o.granules ++ grs ∧ x ∉ o2.granules)))) ∧
  (∀ (who : Actor) (o : CopyOp) (row n v : Nat) (rest : List Nat) (s : State) (grs : List Nat) (ls : List Loc),
    s.locateAt who o.dst row n (unitSize o.dst.fmt) .write = .ok (some ls) → o.dst.fmt = 17 → o.sparse = false →
      writeUnits who o row (v :: rest) n s grs = writeUnits who o row rest (n + 1) (s.engineWrite who v ls) (addGranules grs ls)) ∧
  (∀ (s : State) (who : Actor) (v : Nat) (ls : List Loc), (who.races ls = false → s.engineWrite who v ls = s.writeNat who v ls) ∧
    (who.races ls = true → (∀ x ∈ ls, x.isPad = true) → ls.Nodup → ∀ (j : Nat) (x : Loc), ls[j]? = some x →
      let b := (s.engineWrite who v ls).readByte who x
      let w := (BitVec.ofNat (8 * ls.length) v).extractLsb' (8 * j) 8
      (s.raced who ls = false → b = w) ∧ (b = w ∨ b = s.readByte who x))) ∧
  (∀ f : LocFault, (f.kind = 12 → stopOf f = .susp f) ∧
    ∀ p ∈ ([(8, 1), (9, 2), (10, 3), (11, 4)] : List (Nat × Nat)), f.kind = p.1 → stopOf f = .status p.2 f.va none) ∧
  (∀ (s : State) (who : Actor) (g : Group) (o : CopyOp) (step : Nat),
    let o1 := { o with step := step, buf := none, events := addEvents o.events ((o.buf.map RowBuf.ev).getD []) }
    (∀ c a x loss, ∃ s1, s.stopJob who g o step (.status c a x) loss = (s1, { o1 with fin := some { status := c, done := o.job, step := step, addr := a } })) ∧
    ∀ (f : LocFault) loss, ∃ s1, s.stopJob who g o step (.susp f) loss =
      (s1, { o1 with susp := some { cause := f.detail, va := f.va, acc := f.acc.code, told := none } })) ∧
  (∀ (last : Bool) (n : Nat) (st : List Byte) (q : List Beat), st ≠ [] → q.length < 64 → (last = true ∨ 128 ≤ st.length) →
    ∃ b : Beat, pushStream last (n + 1) st q = pushStream last n (st.drop 128) (q ++ [b]) ∧
      ∀ k < 32, getD 0 b k = BitVec.ofNat 32 (natOf (((st.take 128).drop (4 * k)).take 4)))

/-! ## The matrix unit -/

/-- R214 to R217, R222 and R226: configuring and releasing the array, `mzero`, `mwait` and `mstat`, with their traps and waits. An operation
whose beat waits for a place is outstanding (R55); a FIFO copy that a release has ended is not otherwise (R217). A release ends every FIFO copy, empties the FIFOs, reports every drain (R228) and leaves
every tile that the group has configured at zero (R63). -/
def Obligations.MatrixConfiguration : Prop :=
  ∀ (s : State) (h : Here) (d a : Reg) (mask : BitVec 4) (sel : BitVec 7), h.handler = false →
    let core := s.core h.core
    let out := (core.ops.filter (fun o => o.slot = h.slot)).length + h.g.held3.length
    let zeroed := fun (cfg : List Word) (t : Nat) (k : Nat) => ∃ e < 256 * ((descOf cfg t).extractLsb' 0 4).toNat * ((descOf cfg t).extractLsb' 4 4).toNat,
      k = 32768 * h.core + 256 * ((descOf cfg t).extractLsb' 9 7).toNat + e
    (Ready s h ((List.range 5).map (fun j => BitVec.ofNat 7 (a.toNat + j))) [] →
      let cfg := (List.range 5).map (fun j => s.uniform h (BitVec.ofNat 7 (a.toNat + j)))
      let free := core.holder = none ∨ core.holder = some h.slot
      let busy := (h.g.cfg ≠ none ∧ out ≠ 0) ∨ (∃ c ∈ h.g.copies, c.toFifo = true ∧ (c.fin = none ∨ c.stream ≠ [] ∨ 32 ≤ (h.g.queue 2).length)) ∨ core.q0 ≠ [] ∨ core.q1 ≠ []
      (¬free → exec (.mcfg a) s = .next (s.await h)) ∧
      (free → h.l.det = true → cfgPair cfg ≠ 0 → exec (.mcfg a) s = trap s h kDet) ∧
      (free → (h.l.det = false ∨ cfgPair cfg = 0) → (busy ∨ badCfg cfg = true) → exec (.mcfg a) s = trap s h kState) ∧
      (free → (h.l.det = false ∨ cfgPair cfg = 0) → ¬busy → badCfg cfg = false → ∃ s1, Passes (.mcfg a) s s1 h [] onward ∧
        s1.group h.gk = some { h.g with cfg := some cfg, cfgOld := h.g.cfgOld ++ h.g.cfg.toList } ∧ (s1.core h.core) = { core with holder := some h.slot } ∧
        (∀ k, (∃ t < 4, zeroed cfg t k) → getD 0 s1.acc k = 0) ∧ (∀ k, (∀ t < 4, ¬zeroed cfg t k) → getD 0 s1.acc k = getD 0 s.acc k) ∧
        { s1 with groups := [], cores := [], acc := [] } = { s with groups := [], cores := [], acc := [] })) ∧
    (s.here = some h → Passes .mrelc s (s.releaseCfg h.core h.slot) h [] onward ∧ (h.g.cfg = none → s.releaseCfg h.core h.slot = s) ∧
      ∀ cfg, h.g.cfg = some cfg → let n := s.releaseCfg h.core h.slot
        (∃ g, n.group h.gk = some g ∧ g.cfg = none ∧ (∀ c ∈ g.copies, c.toFifo = true → c.fin ≠ none ∧ c.stream = []) ∧
          ∀ o ∈ core.ops, o.slot = h.slot → o.kind = .drain → ∃ b ∈ g.queue 3 ++ g.held3, getD 0 b 0 = o.num) ∧
        (n.core h.core).q0 = [] ∧ (n.core h.core).q1 = [] ∧ (n.core h.core).holder = none ∧ (∀ o ∈ (n.core h.core).ops, o.slot ≠ h.slot) ∧
        (∀ c ∈ cfg :: h.g.cfgOld, ∀ k, (∃ t < 4, zeroed c t k) → getD 0 n.acc k = 0) ∧ n.lics = s.lics) ∧
    (s.here = some h →
      (h.g.cfg = none → exec (.mzero mask) s = trap s h kState) ∧
      ∀ cfg, h.g.cfg = some cfg → let absent := ∃ t < 4, mask.getLsbD t = true ∧ (descOf cfg t).extractLsb' 0 4 = 0
        (absent → exec (.mzero mask) s = trap s h kState) ∧
        (¬absent → 4 ≤ out → exec (.mzero mask) s = .next (s.await h)) ∧
        (¬absent → out < 4 → ∃ o : MatOp, o.kind = .zero ∧ o.slot = h.slot ∧ o.mask = mask ∧ o.num = h.g.matNum + 1 ∧
          Passes (.mzero mask) s ((s.modGroup h.gk (fun g => { g with matNum := h.g.matNum + 1 })).modCore h.core (fun c => { c with ops := c.ops ++ [o] })) h [] onward)) ∧
    (Ready s h [d, a] [a] →
      ((s.uniform h a).toNat < out → exec (.mwait d a) s = .next (s.await h)) ∧
      (out ≤ (s.uniform h a).toNat →
        Gives (.mwait d a) s ((s.pass (· = .queue h.gk 3) h.agents).modGroup h.gk (fun g => { g with matFail := 0 })) h [a] d (fun _ => BitVec.ofNat 32 h.g.matFail) quiet)) ∧
    (Ready s h [d] [] → sel.toNat ≤ 4 →
      let who := (s.licence (pairOf h.core)).holder
      let b := fun (p : Bool) (n : Nat) => if p then n else 0
      Writes (.mstat d sel) s h [] d (fun _ =>
        if sel.toNat ≤ 2 then (h.g.cfg.getD []).getD sel.toNat 0
        else if sel = 3 then BitVec.ofNat 32 out
        else BitVec.ofNat 32 (b (who = some h.gk) 1 + b (who.any (fun k => k / 16 = h.core && k ≠ h.gk)) 2 + b (who.any (fun k => k / 16 ≠ h.core)) 4 + b h.g.cfg.isSome 8)) quiet)

/-- R219, R221 to R223: what `mma` and `mdrain` check at issue, in order, and the operation that each hands to the array; a fifth waits. -/
def Obligations.MatrixOperationsIssue : Prop :=
  ∀ (s : State) (h : Here) (t q : BitVec 2) (zero pair alane blane res drop clr : Bool) (a : Reg) (slot : BitVec 5), h.handler = false → h.slot < 16 →
    let out := ((s.core h.core).ops.filter (fun o => o.slot = h.slot)).length + h.g.held3.length
    let next := (s.pass h.owns [.array h.gk (h.g.matNum + 1).toNat]).modGroup h.gk (fun g => { g with matNum := h.g.matNum + 1 })
    let present' := fun (cfg : List Word) (t : BitVec 2) => (descOf cfg t.toNat).extractLsb' 0 4 ≠ 0
    (Ready s h [a] [a] →
      let i := Instr.mma t zero pair alane blane a
      let k := (s.uniform h a).toNat
      let held := (s.licence (pairOf h.core)).holder = some h.gk
      (h.l.det = true → pair = true → exec i s = trap s h kDet) ∧
      ((h.l.det = false ∨ pair = false) →
        (¬held → exec i s = if h.gk ∈ (s.licence (pairOf h.core)).revoked then .next (s.await h) else trap s h kState) ∧
        (held → h.g.cfg = none → exec i s = trap s h kState) ∧
        ∀ cfg, held → h.g.cfg = some cfg →
          let ok := present' cfg t ∧ k % 16 = 0 ∧ 16 ≤ k ∧ k ≤ 65536 ∧ ((fmtScaled (cfgFmtA cfg) || fmtScaled (cfgFmtB cfg)) = true → k % 32 = 0) ∧
            (alane = true → cfgFmtA cfg = 16 ∨ cfgFmtA cfg = 17) ∧ (blane = true → cfgFmtB cfg = 16 ∨ cfgFmtB cfg = 17)
          (¬ok → exec i s = trap s h kState) ∧
          (ok → pair = false → 4 ≤ out → exec i s = .next (s.await h)) ∧
          (ok → pair = false → out < 4 → ∃ o : MatOp, o.kind = .mma ∧ o.slot = h.slot ∧ o.num = h.g.matNum + 1 ∧ o.tile = t.toNat ∧ o.zero = zero ∧
            o.alane = alane ∧ o.blane = blane ∧ o.k = k ∧ o.peer = none ∧ o.g = 0 ∧ o.abeats = [] ∧ o.bbeats = [] ∧
            Passes i s (next.modCore h.core (fun c => { c with ops := c.ops ++ [o] })) h [a] onward) ∧
          (ok → pair = true → (s.follower h.core = none → exec i s = trap s h kState) ∧
            ∀ x g2 c2, s.follower h.core = some (x, g2, c2) →
              let fits := cfgPair cfg = 1 ∧ h.core % 2 = 0 ∧ cfgPair c2 = 2 ∧ g2.launch = h.g.launch ∧
                (s.licence (pairOf (neighbour h.core))).holder = some (gkOf (neighbour h.core) x) ∧ present' c2 t ∧
                (blane = true → cfgFmtB c2 = 16 ∨ cfgFmtB c2 = 17) ∧ (fmtScaled (cfgFmtB c2) = true → k % 32 = 0) ∧
                (descOf c2 t.toNat).extractLsb' 0 4 = (descOf cfg t.toNat).extractLsb' 0 4 ∧ cfgFmtA c2 = cfgFmtA cfg ∧
                intFamily (cfgFmtB c2) = intFamily (cfgFmtB cfg)
              let out2 := ((s.core (neighbour h.core)).ops.filter (fun o => o.slot = x)).length + g2.held3.length
              (¬fits → exec i s = trap s h kState) ∧
              (fits → (4 ≤ out ∨ 4 ≤ out2) → exec i s = .next (s.await h)) ∧
              (fits → out < 4 → out2 < 4 → ∃ o o2 : MatOp, o.peer = some (neighbour h.core) ∧ o.lead = true ∧ o.slot = h.slot ∧ o.num = h.g.matNum + 1 ∧
                o2.peer = some h.core ∧ o2.lead = false ∧ o2.slot = x ∧ (∀ m ∈ [o, o2], m.kind = .mma ∧ m.tile = t.toNat ∧ m.zero = zero ∧ m.alane = alane ∧ m.blane = blane ∧ m.k = k) ∧
                Passes i s ((next.modCore h.core (fun c => { c with ops := c.ops ++ [o] })).modCore (neighbour h.core) (fun c => { c with ops := c.ops ++ [o2] })) h [a] onward)))) ∧
    (Ready s h ((List.range 4).map (fun j => BitVec.ofNat 7 (a.toNat + j))) [] →
      let i := Instr.mdrain t (if res then some q else none) drop clr slot a
      let dst := h.g.shapeRec slot.toNat
      (h.l.det = true → dst.detBad false = true → exec i s = trap s h kDet) ∧
      ((h.l.det = false ∨ dst.detBad false = false) →
        (h.g.cfg = none → exec i s = trap s h kState) ∧
        ∀ cfg, h.g.cfg = some cfg →
          let ok := present' cfg t ∧ (res = true → present' cfg q ∧ q ≠ t ∧ (descOf cfg q.toNat).extractLsb' 0 8 = (descOf cfg t.toNat).extractLsb' 0 8) ∧
            ((drop || res) = true → intFamily (cfgFmtA cfg) = false)
          (¬ok → exec i s = trap s h kState) ∧
          (ok → 4 ≤ out → exec i s = .next (s.await h)) ∧
          (ok → out < 4 → ∃ o : MatOp, o.kind = .drain ∧ o.slot = h.slot ∧ o.num = h.g.matNum + 1 ∧ o.tile = t.toNat ∧ o.res = (if res then some q.toNat else none) ∧
            o.drop = drop ∧ o.clr = clr ∧ o.row0 = s.uniform h a ∧ o.col0 = s.uniform h (BitVec.ofNat 7 (a.toNat + 1)) ∧
            o.thr = 0#8 ++ (s.uniform h (BitVec.ofNat 7 (a.toNat + 2))).extractLsb' 0 24 ∧ o.f = s.uniform h (BitVec.ofNat 7 (a.toNat + 3)) ∧ o.dst = dst ∧ o.fin = none ∧
            Passes i s (next.modCore h.core (fun c => { c with ops := c.ops ++ [o] })) h [] onward)))

/-- R97, R98, R220 to R222, R224 to R226 and R235: the passes of an `mma` and the tile that it leaves, that of a pair with its partner; what a
drain writes for an element, row by row, and its beat in `q3`; the tiles that `mzero` clears. One operation of an array runs at a time, the
oldest first, only while its group may use the array, and with the current of its own kind reserved; where nothing is due, nothing happens. That the
first row of a drain performs the core's buffered stores is the model's choice (log 86). -/
def Obligations.MatrixOperationsRunAndEnd : Prop :=
  (∀ (s : State) (core slot : Nat), s.arrayRuns core slot = true ↔ ∃ g, s.group (gkOf core slot) = some g ∧ g.wantCfg = none ∧ g.wantLic = false ∧
    (g.frozen = false ∨ ∃ o ∈ (s.core core).ops, o.slot = slot ∧ o.peer ≠ none)) ∧
  (∀ (s : State) (core : Nat), ((s.core core).ops = [] ∨ ∃ o r, (s.core core).ops = o :: r ∧ s.arrayRuns core o.slot = false) →
    exec (.matrixPassEnd core) s = .next s ∧ exec (.mmaOperationEnd core) s = .next s ∧ exec (.mdrainOperationEnd core) s = .next s ∧
    exec (.mzeroOperationEnd core) s = .next s) ∧
  (∀ (s : State) (core : Nat) (o : MatOp) (r : List MatOp), (s.core core).ops = o :: r → s.arrayRuns core o.slot = true →
    let power := fun (n : Nat) => ∃ x ∈ (s.cluster (core / 4)).held, x.core = core ∧ x.who = .array ∧ x.amount = n
    (s.mmaLicensed core o = true ↔ s.licensed (gkOf core o.slot) = true ∧
      ∀ p, o.peer = some p → ∃ m, (s.core p).ops.find? (fun x => x.peer = some core && x.lead ≠ o.lead) = some m ∧ s.licensed (gkOf p m.slot) = true) ∧
    (o.kind ≠ .mma → exec (.matrixPassEnd core) s = .next s ∧ exec (.mmaOperationEnd core) s = .next s) ∧
    (o.kind ≠ .drain → exec (.mdrainOperationEnd core) s = .next s) ∧
    (o.kind ≠ .zero ∨ ¬power 2 → exec (.mzeroOperationEnd core) s = .next s) ∧
    (o.kind = .mma → (s.mmaLicensed core o = false ∨ o.k ≤ 16 * o.g) → exec (.matrixPassEnd core) s = .next s) ∧
    (o.kind = .mma → s.mmaLicensed core o = true → 16 * o.g < o.k → ∀ s1 o1, s.feed core o = (s1, o1) →
      let s2 := s1.setFront' core o1
      let w := s2.workOf core o1
      (o1.fed w = false ∨ s2.poweredFor core .array w.quanta = false → exec (.matrixPassEnd core) s = .next s2) ∧
      (o1.fed w = true → s2.poweredFor core .array w.quanta = true → ∃ t o2, exec (.matrixPassEnd core) s = .next t ∧ (t.core core).ops = o2 :: r ∧ o2.g = o.g + 1 ∧
        { o2 with acc := [], g := 0 } = { o1 with acc := [], g := 0 } ∧
        ∀ m < tileM w.desc, ∀ n < tileN w.desc,
          let e := m * tileN w.desc + n
          let before := if o.g ≠ 0 then getD 0 o.acc e else if o.zero then 0 else getD 0 s.acc (32768 * core + 256 * tdBase w.desc + e)
          let ks := (List.range 16).map (fun j => 16 * o.g + j)
          (intFamily w.fmtA = false → getD 0 o2.acc e = (matGroup before (ks.map (operandVal w.abeats w.fmtA o.k o.alane w.tensorA m))
            (ks.map (operandVal o1.bbeats (cfgFmtB w.cfg) o.k o.blane (w.cfg.getD 4 0) n))).1) ∧
          (intFamily w.fmtA = true → getD 0 o2.acc e = BitVec.ofInt 32 ((ks.map (fun k => codeInt w.fmtA (operandElem w.abeats w.fmtA o.k o.alane m k).1 *
            codeInt (cfgFmtB w.cfg) (operandElem o1.bbeats (cfgFmtB w.cfg) o.k o.blane n k).1)).foldl (· + ·) before.toInt)))) ∧
    (o.kind = .mma → 16 * o.g < o.k → exec (.mmaOperationEnd core) s = .next s) ∧
    (o.kind = .mma → o.peer = none → o.k ≤ 16 * o.g →
      let d := (s.workOf core o).desc
      ∃ t, exec (.mmaOperationEnd core) s = .next t ∧ (t.core core).ops = r ∧
        (∀ e < tileM d * tileN d, getD 0 t.acc (32768 * core + 256 * tdBase d + e) = getD 0 o.acc e) ∧
        ∀ k, (∀ e < tileM d * tileN d, k ≠ 32768 * core + 256 * tdBase d + e) → getD 0 t.acc k = getD 0 s.acc k) ∧
    (∀ p, o.kind = .mma → o.peer = some p → p ≠ core → o.k ≤ 16 * o.g →
      (o.lead = false ∨ (s.core p).ops = [] → exec (.mmaOperationEnd core) s = .next s) ∧
      ∀ m r2, (s.core p).ops = m :: r2 →
        let ends := o.lead = true ∧ m.peer = some core ∧ m.lead = false ∧ m.k ≤ 16 * m.g
        (¬ends → exec (.mmaOperationEnd core) s = .next s) ∧
        (ends →
          let d := (s.workOf core o).desc
          let d2 := (s.workOf p m).desc
          ∃ t, exec (.mmaOperationEnd core) s = .next t ∧ (t.core core).ops = r ∧ (t.core p).ops = r2 ∧
            (∀ e < tileM d2 * tileN d2, getD 0 t.acc (32768 * p + 256 * tdBase d2 + e) = getD 0 m.acc e) ∧
            ((∀ e < tileM d * tileN d, ∀ e2 < tileM d2 * tileN d2, 32768 * core + 256 * tdBase d + e ≠ 32768 * p + 256 * tdBase d2 + e2) →
              ∀ e < tileM d * tileN d, getD 0 t.acc (32768 * core + 256 * tdBase d + e) = getD 0 o.acc e))) ∧
    (o.kind = .drain → ∀ g, s.group (gkOf core o.slot) = some g →
      (∀ e, o.fin = some e → (g.queue 3).length < 32 → ∃ t g' b, exec (.mdrainOperationEnd core) s = .next t ∧ (t.core core).ops = r ∧
        t.group (gkOf core o.slot) = some g' ∧ g'.queue 3 = g.queue 3 ++ [b] ∧ g'.matFail = (if e.status = 0 then g.matFail else g.matFail + 1) ∧
        ∀ k, getD 0 b k = ([o.num, BitVec.ofNat 32 e.status, BitVec.ofNat 32 e.done, e.addr.extractLsb' 0 32] : List Word).getD k 0) ∧
      (∀ e, o.fin = some e → 32 ≤ (g.queue 3).length → exec (.mdrainOperationEnd core) s = .next s) ∧
      (o.fin = none → ¬power 6 → exec (.mdrainOperationEnd core) s = .next s) ∧
      (o.fin = none → power 6 → ∀ s1 o1, (if o.row = 0 then s.flushCore core else s).stepDrain core o g (g.cfg.getD []) = (s1, o1) →
        let s2 := (s1.unpower core .array).setFront' core o1
        let d := descOf (g.cfg.getD []) o.tile
        exec (.mdrainOperationEnd core) s = .next (match o1.fin with | some e => s2.endDrain core o1 e | none => s2) ∧
        o1.row = o.row + 1 ∧ (o1.fin = none → o.row + 1 < tileM d) ∧ ∀ e, o1.fin = some e → e.done = o1.wrote ∧
          (e.status = 0 → tileM d ≤ o.row + 1 ∧ e.addr = 0 ∧ (o.clr = true → ∀ e < tileM d * tileN d, getD 0 s1.acc (32768 * core + 256 * tdBase d + e) = 0))) ∧
      ∀ cfg row col,
        let v := getD 0 s.acc (32768 * core + 256 * tdBase (descOf cfg o.tile) + (row * tileN (descOf cfg o.tile) + col))
        let draw := (beadMix g.dkeyl g.dkeyh (o.col0 + BitVec.ofNat 32 col) (o.row0 + BitVec.ofNat 32 row)).toNat / 256
        (o.drop = false → o.res = none → intFamily (cfgFmtA cfg) = false → (s.drainVal core g cfg o row col).1 = f32.decode v.toNat) ∧
        (intFamily (cfgFmtA cfg) = true → (s.drainVal core g cfg o row col).1 = Val.ofInt v.toInt) ∧
        (o.drop = true → o.res = none → intFamily (cfgFmtA cfg) = false →
          (s.drainVal core g cfg o row col).1 = f32.decode (if o.thr.toNat ≤ draw then (fp2 f32.mul v o.f).1 else 0).toNat) ∧
        (∀ q, o.drop = false → o.res = some q → intFamily (cfgFmtA cfg) = false → (s.drainVal core g cfg o row col).1 =
          f32.decode (fp2 f32.add v (getD 0 s.acc (32768 * core + 256 * tdBase (descOf cfg q) + (row * tileN (descOf cfg o.tile) + col)))).1.toNat)) ∧
    (o.kind = .zero → power 2 → ∃ t, exec (.mzeroOperationEnd core) s = .next t ∧ (t.core core).ops = r ∧
      ∀ k, getD 0 t.acc k = if ∃ x ∈ List.range 4, o.mask.getLsbD x = true ∧ tileKey core (descOf (s.cfgOf core o.slot) x) 0 ≤ k ∧
        k < tileKey core (descOf (s.cfgOf core o.slot) x) (tileM (descOf (s.cfgOf core o.slot) x) * tileN (descOf (s.cfgOf core o.slot) x)) then 0 else getD 0 s.acc k)) ∧
  (∀ (who : Actor) (r : Rec) (row col0 c : Nat) (code : Nat × Ev) (scales : List Nat) (bad : Bool) (x : Drained) (ls : List Loc),
    x.err = none → fmtScaled r.fmt = false → x.s.locateAt who r row (unitIndex r.fmt (col0 + c)) (unitSize r.fmt) .write = .ok (some ls) →
    let y := drainElem who r row col0 c code scales bad x
    ((∀ l ∈ ls, l.isPad = true) → y.err = none ∧ y.done = x.done + 1 ∧ y.s = x.s.engineWrite who (putElem r.fmt (col0 + c) (x.s.readNat who ls) code.1) ls) ∧
    ((∃ l ∈ ls, l.isPad = false) → y.s = x.s ∧ y.done = x.done ∧ ∃ a, y.err = some (1, a)))

/-- R229 to R234: a licence has one holder; the four ways to take and leave it; a waiting group gets it in the order of the requests, of one cycle
the lower die's first; `tget` and `tset` reach the same register of the twin thread, in its own window, where the twin group is resident, and wait
where it is saved. That `mlicr` waits for the array's `mma`s in every group is the model's choice (log 91). -/
def Obligations.LicencesAndTheTwinWindow : Prop :=
  (∀ (s : State) (h : Here) (d a : Reg), h.handler = false →
    let p := pairOf h.core
    let v := s.licence p
    (s.here = some h →
      (v.holder = some h.gk → Passes .mlic s s h [] onward) ∧
      (v.holder = none → v.waiting = [] → Passes .mlic s (s.setLicence p { v with holder := some h.gk }) h [] onward) ∧
      (v.holder ≠ some h.gk → (v.holder ≠ none ∨ v.waiting ≠ []) →
        exec .mlic s = .next ((s.setLicence p (v.ask h.gk s.ptp)).await h)) ∧
      ((∃ o ∈ (s.core h.core).ops, o.slot = h.slot ∧ o.kind = .mma) → exec .mlicr s = .next (s.await h)) ∧
      ((∀ o ∈ (s.core h.core).ops, o.slot = h.slot → o.kind ≠ .mma) →
        Passes .mlicr s (s.setLicence p { v with holder := if v.holder = some h.gk then none else v.holder }) h [] onward)) ∧
    (Ready s h [d] [] →
      ((v.holder = none ∨ v.holder = some h.gk) → ∃ s1, (s1.licence p).holder = some h.gk ∧
        (s1.licence p).waiting = v.waiting.filter (fun x => x.1 ≠ h.gk) ∧ (s1.licence p).revoked = v.revoked.filter (· ≠ h.gk) ∧
        (∀ q, q ≠ p → s1.licence q = s.licence q) ∧ { s1 with lics := [] } = { s with lics := [] } ∧ Gives (.mlictry d) s s1 h [] d (fun _ => 1) quiet) ∧
      (v.holder ≠ none → v.holder ≠ some h.gk → Writes (.mlictry d) s h [] d (fun _ => 0) quiet)) ∧
    (s.twinState h = .here ↔ ∃ t, s.group (twinGk h.gk) = some t ∧ t.launch = h.g.launch) ∧
    (s.twinState h = .away ↔ s.twinState h ≠ .here ∧ ∃ x ∈ s.saves, x.2.group.launch = h.g.launch ∧ some x.2.group.gid = h.g.twin) ∧
    (let base := fun l => (s.thread (h.twinTk l)).wbase
      let cell := fun (r : Reg) l => rfKey (twinOf h.core) h.slot h.R h.wave (base l + r.toNat) l
      (Ready s h [d] [] → (h.l.det = true → exec (.tget d a) s = trap s h kDet) ∧
        (h.l.det = false → s.twinState h = .missing → exec (.tget d a) s = trap s h kState) ∧
        (h.l.det = false → s.twinState h = .away → exec (.tget d a) s = .next (s.await h)) ∧
        (h.l.det = false → s.twinState h = .here → (∃ l ∈ h.lanes, h.R ≤ base l + a.toNat) →
          exec (.tget d a) s = trapIn s h kRange (maskWhere h.frag.lanes (fun l => h.R ≤ base l + a.toNat))) ∧
        (h.l.det = false → s.twinState h = .here → (∀ l ∈ h.lanes, base l + a.toNat < h.R) →
          Writes (.tget d a) s h [] d (fun l => getD 0 s.rf (cell a l)) quiet)) ∧
      (Ready s h [a] [a] → (h.l.det = true → exec (.tset d a) s = trap s h kDet) ∧
        (h.l.det = false → s.twinState h = .missing → exec (.tset d a) s = trap s h kState) ∧
        (h.l.det = false → s.twinState h = .away → exec (.tset d a) s = .next (s.await h)) ∧
        (h.l.det = false → s.twinState h = .here → (∃ l ∈ h.lanes, h.R ≤ base l + d.toNat) →
          exec (.tset d a) s = trapIn s h kRange (maskWhere h.frag.lanes (fun l => h.R ≤ base l + d.toNat))) ∧
        (h.l.det = false → s.twinState h = .here → (∀ l ∈ h.lanes, base l + d.toNat < h.R) → ∃ s1,
          (∀ l ∈ h.lanes, getD 0 s1.rf (cell d l) = s.reg h l a) ∧ (∀ k, (∀ l ∈ h.lanes, k ≠ cell d l) → getD 0 s1.rf k = getD 0 s.rf k) ∧
          { s1 with rf := [] } = { s with rf := [] } ∧ Passes (.tset d a) s s1 h [a] onward)))) ∧
  (∀ (v : Licence) (gk now : Nat),
    let first := fun (x : Nat × Nat) => x.2 < now ∨ (x.2 = now ∧ dieOf (x.1 / 16) ≤ dieOf (gk / 16))
    ((∃ x ∈ v.waiting, x.1 = gk) → v.ask gk now = v) ∧
    ((∀ x ∈ v.waiting, x.1 ≠ gk) → ∃ l r, v.waiting = l ++ r ∧ v.ask gk now = { v with waiting := l ++ (gk, now) :: r } ∧ (∀ x ∈ l, first x) ∧
      ∀ x, r.head? = some x → ¬first x)) ∧
  ∀ (s : State) (pair : Nat),
    (∀ gk n r, (s.licence pair).holder = none → (s.licence pair).waiting = (gk, n) :: r → ∃ t, exec (.licenceGrant pair) s = .next t ∧
      (t.licence pair).holder = some gk ∧ (t.licence pair).waiting = r ∧ gk ∉ (t.licence pair).revoked ∧ (∀ q, q ≠ pair → t.licence q = s.licence q) ∧
      t.group gk = (s.group gk).map (fun g => { g with wantLic := false })) ∧
    ((s.licence pair).holder ≠ none ∨ (s.licence pair).waiting = [] → exec (.licenceGrant pair) s = .next s)

/-- R238 to R243: a collective joins the call of each active lane; what it traps on and waits for; `cwaitc` waits while more calls stand than it
allows and takes the failed count, and meets a suspended call only where its condition needs it to end; a call that every group has made ends for
all of them, with status 9 where a group of the unit has ended and 8 where they disagree; a data collective reads its sources and then writes
up to 512 bytes a burst (R246); its beat goes to `q4`. That joining performs the core's buffered stores and orders all that they cover is the
model's choice (log 86). -/
def Obligations.Collectives : Prop :=
  (∀ (s : State) (h : Here) (d a : Reg) (lev : BitVec 3) (op : RedOp) (x y : BitVec 5), h.handler = false →
    let k := lev.toNat + 1
    let number := fun l => getD 0 (s.thread (h.tk l)).callCounts k + 1
    (∀ p ∈ ([
        (.cagat lev x y, [], 0, lev ++ 0#4, x.setWidth 7, y.setWidth 7, fun _ => none),
        (.crsc lev op x y, [], 1, lev ++ BitVec.ofNat 4 (redCode op), x.setWidth 7, y.setWidth 7, fun _ => none),
        (.ca2a lev x y, [], 2, lev ++ 0#4, x.setWidth 7, y.setWidth 7, fun _ => none),
        (.cbar lev, [], 3, lev ++ 0#4, 0, 0, fun _ => none),
        (.cred lev op a, [a], 4, lev ++ BitVec.ofNat 4 (redCode op), a, 0, fun l => some (s.reg h l a))] :
          List (Instr × List Reg × Nat × Reg × Reg × Reg × (Nat → Option Word))),
      let (i, regs, fn, fd, fa, fb, word) := p
      Ready s h regs regs →
      let stops := h.l.levels < k ∨ h.w.rfOpen = true ∨ ∃ l ∈ h.lanes, ∃ c ∈ h.g.calls, c.level = k ∧ c.num = number l ∧ (c.fn ≠ fn ∨ c.d ≠ fd ∨ c.a ≠ fa ∨ c.b ≠ fb)
      let new := ((h.lanes.map number).eraseDups.filter (fun n => !h.g.calls.any (fun c => c.level = k && c.num = n))).length
      (h.l.det = true → exec i s = trap s h kDet) ∧
      (h.l.det = false → stops → exec i s = trap s h kState) ∧
      (h.l.det = false → ¬stops → 4 < h.g.calls.length + new → exec i s = .next (s.await h)) ∧
      (h.l.det = false → ¬stops → h.g.calls.length + new ≤ 4 → ∃ s1 t, Retired s1 t h regs onward ∧ exec i s = .next (t.settleCalls h.gk) ∧
        s1.group h.gk = some (h.lanes.foldl (fun g l => g.joinCall (Call.start k (number l) fn fd fa fb) h.wave l (word l)) h.g) ∧
        (∀ l ∈ h.lanes, s1.thread (h.tk l) = { s.thread (h.tk l) with callCounts := insert (s.thread (h.tk l)).callCounts k (number l) }) ∧
        (∀ q, (∀ l ∈ h.lanes, q ≠ h.tk l) → s1.thread q = s.thread q) ∧
        { s1 with groups := [], threads := [] }.sansMemory = { s with groups := [], threads := [] }.sansMemory)) ∧
    (Ready s h [d, a] [a] →
      (h.l.det = true → exec (.cwaitc d a) s = trap s h kDet) ∧
      (h.l.det = false → (s.uniform h a).toNat < h.g.calls.length → exec (.cwaitc d a) s = .next (s.waitCall h (s.uniform h a).toNat) ∧
        (h.g.suspCall = none → s.waitCall h (s.uniform h a).toNat = s.await h) ∧
        ∀ c x, h.g.suspCall = some (c, x) → s.waitCall h (s.uniform h a).toNat =
          if ((List.range h.g.calls.length).filter (fun i => (h.g.calls.take (i + 1)).any (fun y => y.susp.isSome && (h.g.calls[i]?).map (·.level) = some y.level))).length
            ≤ (s.uniform h a).toNat then s.await h
          else s.meetSusp h x (callCause h c x) (fun g y => g.setSuspCall c y)) ∧
      (h.l.det = false → h.g.calls.length ≤ (s.uniform h a).toNat →
        Gives (.cwaitc d a) s ((s.pass (· = .queue h.gk 4) h.agents).modGroup h.gk (fun g => { g with callFail := 0 })) h [a] d (fun _ => BitVec.ofNat 32 h.g.callFail) quiet))) ∧
  (∀ (s : State) (launch unit level call : Nat),
    let size := (s.launch launch).unitSize level
    let ms := (List.range size).map (fun x => s.madeBy launch (unit * size + x) x level call)
    let running := fun x => s.bursting launch (unit * size + x) x level call
    (∀ x p ws, x < size → running x = some (p, ws) → (∀ y < x, running y = none) →
      exec (.collectiveRun launch unit level call) s = .next (if ws = [] then s.deliver size p ws else (s.deliver size p ws).unpower (p.gk / 16) .copy)) ∧
    ((∀ x < size, running x = none) →
      ((.open ∈ ms ∨ ∀ m ∈ ms, m = .gone) → exec (.collectiveRun launch unit level call) s = .next s) ∧
      ∀ p r, allMade ms = some (p :: r) →
        let s0 := s.pass (fun a => (p :: r).any (fun q => a = q.agent)) ((p :: r).map Participant.agent)
        (.gone ∈ ms → exec (.collectiveRun launch unit level call) s = .next (s0.failCalls size (p :: r) 9 0)) ∧
        (.gone ∉ ms → disagree (p :: r) = true → exec (.collectiveRun launch unit level call) s = .next (s0.failCalls size (p :: r) 8 0)) ∧
        (.gone ∉ ms → disagree (p :: r) = false →
          (p.call.fn = 3 → exec (.collectiveRun launch unit level call) s = .next ((p :: r).foldl (fun s q => s.endCall size q 0 0 0 [] []) s0)) ∧
          (p.call.fn = 4 → exec (.collectiveRun launch unit level call) s = .next (s0.runCred size (p :: r) (p.call.d.toNat % 16))) ∧
          (p.call.fn ≠ 3 → p.call.fn ≠ 4 → exec (.collectiveRun launch unit level call) s = .next (s0.runData size (p :: r) (p.call.d.toNat % 16)))))) ∧
  (∀ (s : State) (size : Nat) (p : Participant) (ws : List (List Loc × Nat)),
    let n := 512 / unitSize p.call.dst.fmt
    let s1 := (ws.take n).foldl (fun s w => s.engineWrite (s.partActor p) w.2 w.1) s
    let grs := (ws.take n).foldl (fun g w => addGranules g w.1) p.call.grs
    (ws.drop n ≠ [] → s.deliver size p ws = s1.setCall p { p.call with todo := some (ws.drop n), wrote := p.call.wrote + (ws.take n).length, grs := grs }) ∧
    (ws.drop n = [] → s.deliver size p ws = (s1.fillGranules grs).endCall size p 0 (p.call.wrote + (ws.take n).length) 0 [] p.call.events)) ∧
  (∀ (vs : List Word), vs ≠ [] →
    (reduce 0 vs).1 = BitVec.ofNat 32 ((vs.map BitVec.toNat).foldl (· + ·) 0) ∧
    ((reduce 2 vs).1 ∈ vs ∧ ∀ v ∈ vs, (reduce 2 vs).1.toInt ≤ v.toInt) ∧ ((reduce 3 vs).1 ∈ vs ∧ ∀ v ∈ vs, v.toInt ≤ (reduce 3 vs).1.toInt) ∧
    ((reduce 4 vs).1 ∈ vs ∧ ∀ v ∈ vs, (reduce 4 vs).1.toNat ≤ v.toNat) ∧ ((reduce 5 vs).1 ∈ vs ∧ ∀ v ∈ vs, v.toNat ≤ (reduce 5 vs).1.toNat) ∧
    ∀ j < 32, ((reduce 6 vs).1.getLsbD j = true ↔ ∀ v ∈ vs, v.getLsbD j = true) ∧ ((reduce 7 vs).1.getLsbD j = true ↔ ∃ v ∈ vs, v.getLsbD j = true) ∧
      ((reduce 8 vs).1.getLsbD j = true ↔ (vs.filter (fun v => v.getLsbD j)).length % 2 = 1)) ∧
  (∀ (s : State) (core slot level : Nat) (g : Group) (c : Call), s.group (gkOf core slot) = some g → g.calls.find? (fun c => c.level = level) = some c →
    (∀ b, c.beat = some b → (g.queue 4).length < 32 → ∃ t g', exec (.collectiveEnd core slot level) s = .next t ∧ t.group (gkOf core slot) = some g' ∧
      g'.calls = g.calls.erase c ∧ g'.queue 4 = g.queue 4 ++ [b] ∧ g'.callFail = if c.failed then g.callFail + 1 else g.callFail) ∧
    ((c.beat = none ∨ 32 ≤ (g.queue 4).length) → exec (.collectiveEnd core slot level) s = .next s)) ∧
  (∀ (s : State) (core slot level : Nat), (∀ g, s.group (gkOf core slot) = some g → ∀ c ∈ g.calls, c.level ≠ level) →
    exec (.collectiveEnd core slot level) s = .next s)

/-! ## Privilege, traps and handlers -/

/-- R72, R73, R293 to R295: the level each privileged instruction needs, the trap that a lower or a wrong level raises, what a read of each
privileged register gives, what a write changes, and the traps of a word that is no instruction and of a fetch that fails. -/
def Obligations.PrivilegeAndItsRegisters : Prop :=
  ∀ (s : State) (h : Here) (d a b : Reg) (r : PReg) (w : Word) (detail : Nat), s.here = some h →
    let level := if h.frag.mode = .handler then 1 else if h.l.firmware then 2 else 0
    h.level = level ∧
    (level = 0 → ∀ i ∈ [Instr.rdpr d r, .wrpr r d, .ctxsv d a, .ctxld d a, .tlbinv a b, .mlicgv a, .slotclr a, .idle, .hwr a b, .hrd d a, .hskip, .hkill, .hret],
      exec i s = trap s h kPriv) ∧
    (level = 1 → ∀ i ∈ [Instr.ctxsv d a, .ctxld d a, .tlbinv a b, .mlicgv a, .slotclr a, .idle], exec i s = trap s h kPriv) ∧
    (level = 2 → (Ready s h [a, b] [a, b] → exec (.hwr a b) s = trap s h kState) ∧ (Ready s h [d, a] [a] → exec (.hrd d a) s = trap s h kState) ∧
      ∀ i ∈ [Instr.hskip, .hkill, .hret], exec i s = trap s h kState) ∧
    (level ≠ 0 → Ready s h [d] [] →
      (∀ p ∈ ([
          (.priv, BitVec.ofNat 32 level), (.tkind, BitVec.ofNat 32 h.w.tkind), (.tseq, h.w.tseq), (.hmask, (s.core h.core).hmask), (.hfwd, (s.core h.core).hfwd),
          (.hagg, (s.core h.core).hagg), (.hwd, (s.core h.core).hwd), (.svwd, (s.core h.core).svwd), (.tslice, (s.core h.core).tslice),
          (.part, BitVec.ofNat 32 (s.owner h.core)), (.fwbell, (s.core h.core).fwbell)] : List (PReg × Word)), Writes (.rdpr d p.1) s h [] d (fun _ => p.2) quiet) ∧
      ∀ k, Writes (.rdpr d (.nev k)) s h [] d (fun _ => getD 0 h.g.nev k.toNat) quiet) ∧
    (Ready s h [d] [d] →
      let v := s.uniform h d
      let low : Word := 0#16 ++ v.extractLsb' 0 16
      let set := fun (f : Core → Core) => s.modCore h.core f
      let writes : List (PReg × State) := [
          (.priv, s), (.tkind, s), (.tseq, s), (.part, s), (.hmask, set (fun c => { c with hmask := v })), (.hfwd, set (fun c => { c with hfwd := v })),
          (.hagg, set (fun c => { c with hagg := 0#24 ++ v.extractLsb' 0 8 })), (.hwd, set (fun c => { c with hwd := low })), (.svwd, set (fun c => { c with svwd := low })),
          (.tslice, set (fun c => { c with tslice := if low = 0 then c.tslice else low })), (.fwbell, set (fun c => { c with fwbell := if v.getLsbD 0 then c.fwbell else 0 }))]
      (level = 1 → ∀ p ∈ writes, exec (.wrpr p.1 d) s = trap s h kPriv) ∧
      (level = 2 → ∀ p ∈ writes, Passes (.wrpr p.1 d) s p.2 h [d] onward) ∧
      (level ≠ 0 → ∀ k, Passes (.wrpr (.nev k) d) s (s.modGroup h.gk (fun g => { g with nev := put 0 g.nev k.toNat ((if v.extractLsb' 30 2 = 3 then (getD 0 g.nev k.toNat).extractLsb' 30 2 else v.extractLsb' 30 2) ++ (0#1 ++ v.extractLsb' 0 29)) })) h [d] onward)) ∧
    exec (.illegalInstructionWord w) s = trap s h (if level = 0 ∧ w.extractLsb' 25 7 = 0x40#7 then kPriv else kIllegal) ∧
    exec (.fetchFault detail) s = .next (s.takeTrap h (h.cause kFetch detail))

/-- R302 and R303: in handler mode `hrd` and `hwr` reach the registers of each lane, its block and the header of the record, within the
bits that a handler may write; `hskip` moves each lane past the trapping word; `hkill` marks it; `hret` waits for the other handler
fragments of its trap and then restores every lane from its block, ends the killed ones, and terminates the group where the block of a lane that is not killed fails a check of R303. A
lane that resumes elsewhere than it stood no longer waits there. A numeric-event trap that is still due is taken next (R296). -/
def Obligations.HandlersReadAndResume : Prop :=
  ∀ (s : State) (h : Here) (d a b : Reg), h.handler = true → s.here = some h →
    let x := (s.uniform h a).toNat
    let word := fun (t : State) (k : Nat) => getD 0 (t.wave h.wk).record k
    let ok := (x ≤ 127 ∧ x < h.R) ∨ (0x100 ≤ x ∧ x < 0x140) ∨ (0x200 ≤ x ∧ x < 0x240)
    let onlyRecord := fun (s1 : State) => { s1 with waves := [] } = { s with waves := [] } ∧ (∀ k, k ≠ h.wk → s1.wave k = s.wave k) ∧
      { s1.wave h.wk with record := [] } = { s.wave h.wk with record := [] }
    (Ready s h [d, a] [a] → (¬ok → exec (.hrd d a) s = trap s h kState) ∧
      (ok → Writes (.hrd d a) s h [a] d (fun l => if x ≤ 127 then s.front h l x else if x < 0x200 then word s (64 + 64 * l + (x - 0x100)) else word s (x - 0x200)) quiet)) ∧
    (Ready s h [a, b] [a, b] → (¬ok → exec (.hwr a b) s = trap s h kState) ∧
      (ok → ∃ s1, Passes (.hwr a b) s s1 h [a, b] onward ∧
        (x ≤ 127 → (∀ l ∈ h.lanes, s1.front h l x = s.reg h l b) ∧ { s1 with rf := [] } = { s with rf := [] } ∧
          ∀ k, (∀ l ∈ h.lanes, k ≠ rfKey h.core h.slot h.R h.wave x l) → getD 0 s1.rf k = getD 0 s.rf k) ∧
        (0x200 ≤ x → s1 = s) ∧
        (0x100 ≤ x → x < 0x140 →
          let n := x - 0x100
          let mask : Word := if n = 0 ∨ (4 ≤ n ∧ n ≤ 7) ∨ n = 9 ∨ n = 11 ∨ (16 ≤ n ∧ n ≤ 31) ∨ 48 ≤ n then 0xFFFFFFFF
            else if n = 2 then 0x7C else if n = 3 then 0xFFFF007F else if n = 8 ∨ n = 10 then 0x03FF03FF else 0
          (∀ l ∈ h.lanes, word s1 (64 + 64 * l + n) = (word s (64 + 64 * l + n) &&& ~~~mask) ||| (s.reg h l b &&& mask) ∧
            (n = 0 → word s1 (66 + 64 * l) = word s (66 + 64 * l) &&& ~~~1#32)) ∧
          (∀ k, (∀ l ∈ h.lanes, k ≠ 64 + 64 * l + n ∧ (n = 0 → k ≠ 66 + 64 * l)) → word s1 k = word s k) ∧ onlyRecord s1))) ∧
    (let kind := ((word s 0).extractLsb' 0 8).toNat
      let pc := word s 6
      let last := pc.extractLsb' 0 10 = 1023#10;
      ((kind = 0 ∨ 15 < kind) → Passes .hskip s s h [] onward) ∧
      (1 ≤ kind → kind ≤ 15 → ∃ s1, Passes .hskip s s1 h [] onward ∧
        (∀ l ∈ h.lanes, word s1 (64 + 64 * l) = (if last then pc else pc + 1) ∧
          word s1 (66 + 64 * l) = (if last then word s (66 + 64 * l) ||| 1 else word s (66 + 64 * l) &&& ~~~1#32)) ∧
        (∀ k, (∀ l ∈ h.lanes, k ≠ 64 + 64 * l ∧ k ≠ 66 + 64 * l) → word s1 k = word s k) ∧ onlyRecord s1)) ∧
    (∃ s1, EachThread s s1 h (fun _ t => { t with killed := true }) ∧ Passes .hkill s s1 h [] onward) ∧
    (let others := ∃ f ∈ h.w.frags, f.lanes ≠ h.frag.lanes ∧ f.mode = .handler ∧ f.wait ≠ .hret
      let kind := ((word s 0).extractLsb' 0 8).toNat
      let pc := word s 6;
      (others → exec .hret s = .next (s.modFrag h (fun f => { f with wait := .hret }))) ∧
      (¬others →
        let parent := lanesOf (word s 1)
        let killed := fun l => (s.thread (h.tk l)).killed
        let fails := fun (l : Nat) =>
          let at' := word s (64 + 64 * l)
          let st := word s (66 + 64 * l)
          let base := ((word s (67 + 64 * l)).extractLsb' 0 7).toNat
          at'.extractLsb' 18 14 ≠ 0 ∨ h.l.codeCount < (at'.extractLsb' 10 8).toNat ∨ (st.getLsbD 0 = true ∧ at'.extractLsb' 0 10 ≠ 1023#10) ∨
          4 < (st.extractLsb' 4 3).toNat ∨ 2 < (st.extractLsb' 2 2).toNat ∨
          (∃ k < (st.extractLsb' 2 2).toNat, let v := word s (72 + 64 * l + 2 * k)
            (v.extractLsb' 16 10).toNat < (v.extractLsb' 0 10).toNat ∨ word s (73 + 64 * l + 2 * k) = 0) ∨
          base % 4 ≠ 0 ∨ h.R < base + 4 ∨ (st.getLsbD 10 = true ∧ base ≠ (s.thread (h.tk l)).wbase) ∨
          (kind = 1 ∧ (word s 0).extractLsb' 8 8 = 1#8 ∧ at' = pc)
        let bad := ∃ l ∈ parent, killed l = false ∧ fails l
        let due := ∃ f ∈ h.w.frags, f.mode ≠ .user ∧ f.nev ≠ 0
        let t := s.leaveTrap h
        exec .hret s = .next (t.settle h.gk) ∧
        (bad → t = s.terminate h.gk h.w.recordWords) ∧
        (¬bad → ¬due →
          (t.wave h.wk).tkind = 0 ∧ (t.wave h.wk).record = [] ∧
          ∀ l ∈ parent,
            let old := s.thread (h.tk l)
            let th := t.thread (h.tk l)
            let moved := word s (64 + 64 * l) ≠ old.stood ∨ (word s (66 + 64 * l)).getLsbD 0 = true;
            (killed l = true → th.ended = true ∧ th.killed = false) ∧
            (killed l = false →
              (∃ f ∈ (t.wave h.wk).frags, f.lanes.getLsbD l = true ∧ f.mode = .user ∧ f.pc.seg = (word s (64 + 64 * l)).extractLsb' 10 8 ∧
                f.pc.off = (word s (64 + 64 * l)).extractLsb' 0 10 ∧ f.past = (word s (66 + 64 * l)).getLsbD 0 ∧
                (th.inBar = true → f.wait = .barrier) ∧ (th.inBar = false → th.inTbar = true → f.wait = .tbarrier)) ∧
              th.depth = ((word s (66 + 64 * l)).extractLsb' 4 3).toNat ∧ th.y0 = word s (68 + 64 * l) ∧ th.y1 = word s (69 + 64 * l) ∧ th.y2 = word s (70 + 64 * l) ∧
              th.y3 = word s (71 + 64 * l) ∧ th.wbase = ((word s (67 + 64 * l)).extractLsb' 0 7).toNat ∧
              th.loops = (List.range ((word s (66 + 64 * l)).extractLsb' 2 2).toNat).map (fun k =>
                { start := (word s (72 + 64 * l + 2 * k)).extractLsb' 0 10, stop := (word s (72 + 64 * l + 2 * k)).extractLsb' 16 10, count := word s (73 + 64 * l + 2 * k) }) ∧
              (∀ j < 16, getD 0 th.shadow j = word s (80 + 64 * l + j)) ∧
              (moved → th.done = false ∧ th.inBar = false ∧ th.inTbar = false) ∧
              (¬moved → th.done = old.done ∧ th.inBar = old.inBar ∧ th.inTbar = old.inTbar) ∧
              ∃ g, t.group h.gk = some g ∧ ∀ c < 16, getD 0 g.cells (16 * l + c) = word s (112 + 64 * l + c) ∧
                getD false g.cellFull (16 * l + c) = (word s (67 + 64 * l)).getLsbD (16 + c))) ∧
        (¬bad → due → (∃ l ∈ parent, killed l = false) → (s.core h.core).hmask.getLsbD 16 = true →
          (t.wave h.wk).tkind = 16 ∧ (word t 0).extractLsb' 0 8 = 16#8)))

/-- R295 to R300, R305 and R306: taking a trap writes the record and then enters the handler of its kind, holds the fragment for firmware, or
terminates the group, as the masks of the core say; while another fragment is in handler mode or held it waits; a trap in handler mode
or of firmware terminates the group. The model's choices are: a handler starts with no loop level (log 28); where a notice goes, and that without a
node to send it to nothing is on the wire (log 34, log 39); that firmware's record is made at its trap (log 53); a group that terminates is dead (log
61); and a notice carries at most 1,016 words of the record, so a record goes in three (log 79). -/
def Obligations.TrapsAreTaken : Prop :=
  ∀ (s : State) (h : Here) (c : Cause), s.here = some h →
    let t := s.takeTrap h c
    let noticed := fun (t : State) (ws : List Word) => (s.noticeTo = none → t.conns = s.conns ∧ t.wire = s.wire) ∧
      t.outbox = s.outbox ++ (List.range ((ws.length + 1015) / 1016)).map (fun k =>
        let part := (ws.drop (1016 * k)).take 1016
        { pins := true, node := 0, notice := true, words := [1, 0, 0, 0, BitVec.ofNat 32 part.length] ++ part })
    let dead := fun (t : State) (ws : List Word) => (∀ w < h.l.waves, (t.wave (wkOf h.gk w)).frags = [] ∧ ∀ l < 32, (t.thread (tkOf h.gk w l)).ended = true) ∧
      h.g.gid ∈ (t.launch h.g.launch).dead ∧ (t.launch h.g.launch).failed = true ∧ noticed t ws
    (h.handler = true → dead t h.w.recordWords) ∧
    (h.handler = false → h.l.firmware = true → ∃ ws, ws.length = 2112 ∧ dead t ws) ∧
    (h.handler = false → h.l.firmware = false →
      let others := ∃ f ∈ h.w.frags, f.lanes ≠ h.frag.lanes ∧ f.mode ≠ .user;
      (others → t = s.await h) ∧
      (¬others → (∀ f ∈ h.w.frags, f.lanes ≠ h.frag.lanes → f.lanes &&& h.frag.lanes = 0) →
        let rec' := (t.wave h.wk).record
        let enters := (s.core h.core).hmask.getLsbD c.kind
        let holds := (s.core h.core).hfwd.getLsbD c.kind;
        (getD 0 rec' 0 = BitVec.ofBool c.agg ++ (0#10 ++ (BitVec.ofNat 5 (lowest c.fault) ++ (BitVec.ofNat 8 c.detail ++ BitVec.ofNat 8 c.kind)))) ∧
        getD 0 rec' 1 = h.frag.lanes ∧ getD 0 rec' 2 = c.fault ∧ getD 0 rec' 6 = 0#14 ++ (h.frag.pc.seg ++ h.frag.pc.off) ∧
        getD 0 rec' 8 = c.va.extractLsb' 0 32 ∧ getD 0 rec' 9 = c.va.extractLsb' 32 32 ∧ getD 0 rec' 10 = BitVec.ofNat 32 c.acc ∧ getD 0 rec' 11 = BitVec.ofNat 32 c.xfer ∧
        getD 0 rec' 12 = c.code ∧ getD 0 rec' 13 = c.op ∧ getD 0 rec' 14 = c.job ∧ getD 0 rec' 15 = c.place ∧ getD 0 rec' 16 = c.index ∧
        (t.wave h.wk).tseq = h.w.tseq + 1 ∧
        (∀ l ∈ h.lanes, getD 0 rec' (68 + 64 * l) = (s.thread (h.tk l)).y0 ∧ getD 0 rec' (64 + 64 * l) = (if (s.thread (h.tk l)).ended ∨ h.w.rfParked.getLsbD l = true then 0
          else 0#14 ++ (h.frag.pc.seg ++ h.frag.pc.off))) ∧
        (enters = true → (t.wave h.wk).tkind = c.kind ∧ t.rf = s.rf ∧ (∀ k, (t.group k).isSome = (s.group k).isSome) ∧
          (∃ f ∈ (t.wave h.wk).frags, f.lanes = h.frag.lanes ∧ f.mode = .handler ∧ f.pc = { seg := 0, off := BitVec.ofNat 10 (16 * c.kind) } ∧ f.wait = .none) ∧
          ∀ l ∈ h.lanes, (t.thread (h.tk l)).depth = 0 ∧ (t.thread (h.tk l)).loops = [] ∧ (t.thread (h.tk l)).hregs = [] ∧ (t.thread (h.tk l)).killed = false ∧
            (t.thread (h.tk l)).y0 = (s.thread (h.tk l)).y0 ∧ (t.thread (h.tk l)).stood = 0#14 ++ (h.frag.pc.seg ++ h.frag.pc.off)) ∧
        (enters = false → holds = true → (∃ f ∈ (t.wave h.wk).frags, f.lanes = h.frag.lanes ∧ f.mode = .held ∧ f.pc = h.frag.pc) ∧ t.rf = s.rf ∧
          ∃ ws, ws.length = 2112 ∧ noticed t ws ∧ ∀ k < 2112, getD 0 rec' k = ws.getD k 0) ∧
        (enters = false → holds = false → ∃ ws, ws.length = 2112 ∧ dead t ws)))

/-- R304, R308 to R311, R319 and R322: what firmware does with slots, licences, saves and doorbells, with the statuses it receives, and what the
three watchdogs of traps and saves do when they run out. After `tlbinv` a walk that it covers reads the tables only (R341). The model's choices are:
which cached entries `tlbinv` drops (log 22); which areas can be restored, and how a save of the own slot runs (log 29, log 31); where an area may
stand (log 30); whose save watchdog counts (log 32); that `mlicgv` acts for the executing core's partition (log 33); when a device save yields (log
50); and that a slot that an heir or a checker waits for is not free (log 73). -/
def Obligations.FirmwareAndWatchdogs : Prop :=
  (∀ (s : State) (h : Here) (d a b : Reg), h.level = 2 →
    let four := (List.range 4).map (fun j => BitVec.ofNat 7 (a.toNat + j))
    let arg := fun j => s.uniform h (BitVec.ofNat 7 (a.toNat + j))
    let area := (s.uniform h a).toNat + 2 ^ 32 * (arg 1).toNat
    let gen := arg 2
    let target := (arg 3).toNat
    let fits := area % 4096 = 0 ∧ (area + 0x45000 ≤ s.usableTop ∨ (s.reserveStart ≤ area ∧ area + 0x45000 ≤ s.towerCount * 72 * 2 ^ 30))
    let gives := fun (i : Instr) (s1 : State) (st : Nat) => Gives i s s1 h [] d (fun _ => BitVec.ofNat 32 st) quiet;
    (Ready s h (d :: four) [] →
      (s.group target = none → gives (.ctxsv d a) s 1) ∧
      (∀ g, s.group target = some g →
        let mine := (s.launch g.launch).part = s.owner h.core
        let free := mine ∧ s.saveBlocked target = false
        let ready := (∀ o ∈ (s.core (target / 16)).ops, o.slot = target % 16 → o.peer = none) ∧ (s.core (target / 16)).loadsOf (target % 16) = [] ∧ g.held6 = []
        let s1 := if g.frozen then s else s.beginSave target area gen;
        (¬mine → gives (.ctxsv d a) s 1) ∧
        (mine → s.saveBlocked target = true → gives (.ctxsv d a) s 4) ∧
        (free → (∃ t, g.saving = some (t, true)) → gives (.ctxsv d a) (s.modGroup target (fun g => { g with saving := none })) 2) ∧
        (free → (∀ t, g.saving ≠ some (t, true)) →
          (¬fits → gives (.ctxsv d a) (s.abortSave target false) 3) ∧
          (fits → ¬ready → exec (.ctxsv d a) s = .next (s1.await h)) ∧
          (fits → ready → s1.areaBad area = none → target ≠ h.gk → gives (.ctxsv d a) (s1.finishSave target area gen) 0) ∧
          (fits → ready → s1.areaBad area = none → target = h.gk → exec (.ctxsv d a) s = .next (s1.finishSave target area gen)) ∧
          ∀ bad, fits → ready → s1.areaBad area = some bad → gives (.ctxsv d a) (s1.failSave target area bad gen) 3)) ∧
      ((1024 ≤ target / 16 ∨ s.owner (target / 16) ≠ s.owner h.core ∨ s.slotOpen (target / 16) (target % 16) = false) → gives (.ctxld d a) s 1) ∧
      (target / 16 < 1024 → s.owner (target / 16) = s.owner h.core → s.slotOpen (target / 16) (target % 16) = true →
        let last := area + 0x44FFC
        let read := s.badFor reserveKey area = false ∧ s.badFor reserveKey last = false
        let sealed := s.areaWord area 0 = gen ∧ s.areaWord area (0x44FFC / 4) = gen;
        (¬fits → gives (.ctxld d a) s 3) ∧
        (fits → s.badFor reserveKey area = true → gives (.ctxld d a) (s.contain h.l.part area) 3) ∧
        (fits → s.badFor reserveKey area = false → s.badFor reserveKey last = true → gives (.ctxld d a) (s.contain h.l.part last) 3) ∧
        (fits → read → ¬sealed → gives (.ctxld d a) s 2) ∧
        (∀ bad, fits → read → sealed → s.areaBad area = some bad → gives (.ctxld d a) (s.contain h.l.part bad) 3) ∧
        (fits → read → sealed → s.areaBad area = none → (s.badArea area h.l.part = true ∨ s.restorable area h.l.part = none) → gives (.ctxld d a) s 4) ∧
        ∀ v, fits → read → sealed → s.areaBad area = none → s.badArea area h.l.part = false → s.restorable area h.l.part = some v →
          gives (.ctxld d a) ((s.restoreArea area v (target / 16) (target % 16)).advanceRestore (target / 16) (target % 16)) 0)) ∧
    (Ready s h [a, BitVec.ofNat 7 (a.toNat + 1), b] [b] →
      let mode := (s.uniform h b).toNat
      let part := s.owner h.core;
      (2 ≤ mode → exec (.tlbinv a b) s = trap s h kState) ∧
      (mode < 2 → ∃ s1 : State, let s0 := (s.fenceAcquire h .acq .dev).flushAll
        Passes (.tlbinv a b) s (s1.fenceRelease h .rel .dev) h [b] onward ∧ { s1 with held := [], walks := [] } = { s0 with held := [], walks := [] } ∧
        (∀ key core x, key ≠ s1.keyOf part → s1.cachedAt key core x = s0.cachedAt key core x) ∧
        ∀ (who : Actor) va acc, who.part = part → (mode = 1 ∨ (va / 2 ^ 16 = area / 2 ^ 16 ∧ s1.part part 512 64 % 4096 = 0)) →
          s1.translate who va acc = { s1 with held := [] }.translate who va acc)) ∧
    (Ready s h [a] [a] →
      let c := (s.uniform h a).toNat
      let v := s.licence (pairOf c)
      let known := c < 1024 ∧ s.owner c = s.owner h.core
      let checks := ∃ x ∈ s.checks, x.2.core = h.core ∧ ∃ q ∈ x.2.slots, q.2 = c;
      (¬known → exec (.mlicgv a) s = trap s h kState) ∧
      (known → v.holder = none → ∃ s1, s1.licence (pairOf c) = v ∧ (∀ q, q ≠ pairOf c → s1.licence q = s.licence q) ∧ { s1 with lics := [] } = { s with lics := [] } ∧
        Passes (.mlicgv a) s s1 h [a] onward) ∧
      (∀ gk, known → v.holder = some gk → ∃ s1, (s1.licence (pairOf c)).holder = none ∧ gk ∈ (s1.licence (pairOf c)).revoked ∧
        (∀ k, k ≠ gk → (k ∈ (s1.licence (pairOf c)).revoked ↔ k ∈ v.revoked)) ∧ (∀ q, q ≠ pairOf c → s1.licence q = s.licence q) ∧
        (s1.licence (pairOf c)).waiting = (v.ask gk s.ptp).waiting ∧ { s1 with lics := [] } = { s with lics := [] } ∧
        Passes (.mlicgv a) s s1 h [a] onward) ∧
      ((16 ≤ c ∨ (s.group (gkOf h.core c)).isSome ∨ (∃ x ∈ s.heirs, x.core = h.core ∧ x.slot = c) ∨ checks) → exec (.slotclr a) s = trap s h kState) ∧
      (c < 16 → s.group (gkOf h.core c) = none → (∀ x ∈ s.heirs, x.core = h.core → x.slot ≠ c) → ¬checks → Passes (.slotclr a) s (s.wipeSlot h.core c) h [a] onward ∧
        (∀ w < 4, ∀ l < 32, (s.wipeSlot h.core c).thread (tkOf (gkOf h.core c) w l) = Thread.init) ∧
        (∀ k < 4096, getD 0 (s.wipeSlot h.core c).rf (65536 * h.core + 4096 * c + k) = 0) ∧
        (∀ k < 32768, getD 0 (s.wipeSlot h.core c).pad (524288 * h.core + 32768 * c + k) = 0) ∧
        ∀ k < 2048, getD false (s.wipeSlot h.core c).full (32768 * h.core + 2048 * c + k) = false)) ∧
    (s.here = some h → ((s.core h.core).fwbell.getLsbD 0 = true → Passes .idle s s h [] onward) ∧
      ((s.core h.core).fwbell.getLsbD 0 = false → exec .idle s = .next (s.await h)))) ∧
  (∀ (s : State) (gk area : Nat) (gen : Word) (g : Group), s.group gk = some g → area % 4096 = 0 →
    (∀ p ∈ (s.flushCore (gk / 16)).areaWords gk g gen, p.1 < 0x44FFC / 4) →
    (s.finishSave gk area gen).areaWord area (0x44FFC / 4) = gen ∧ (s.finishSave gk area gen).group gk = none) ∧
  (∀ (s : State) (core slot wave : Nat) (g : Group), slot < 16 → s.group (gkOf core slot) = some g →
    let gk := gkOf core slot
    let w := s.wave (wkOf gk wave)
    let limit := 65536 * ((s.core core).hwd.toNat % 2 ^ 16)
    let old := w.frags.filter (fun f => limit ≠ 0 ∧ f.retired + limit ≤ s.stamp gk wave)
    let twice := ∃ f ∈ old, f.mode = .handler
    let clear := w.away = 0 ∧ ∀ f ∈ w.frags, f.after = none ∧ f.nev = 0 ∧ f.wait ≠ .agg
    let hung := fun (lanes : Mask) => s.modWave (wkOf gk wave) (fun w => { w with hang := some lanes })
    let run := exec (.hangWatchdogExpiry core slot wave) s;
    (g.frozen = true → run = .next s) ∧
    (g.frozen = false → twice → run = .next (s.terminate gk w.recordWords)) ∧
    (g.frozen = false → ¬twice →
      (∀ lanes, w.hang = some lanes → (clear → run = .next (s.takeHang gk wave g lanes)) ∧ (¬clear → run = .next s)) ∧
      (w.hang = none → old = [] → run = .next s) ∧
      (∀ f r, w.hang = none → old = f :: r → (¬clear → run = .next (hung f.lanes)) ∧
        (clear → ∃ t, run = .next t ∧ t = (hung f.lanes).takeHang gk wave g f.lanes ∧
          (f.lanes ≠ 0 → (s.launch g.launch).firmware = false → (s.core core).hmask.getLsbD 19 = true →
            (t.wave (wkOf gk wave)).hang = none ∧ (t.wave (wkOf gk wave)).tkind = 19 ∧ (getD 0 (t.wave (wkOf gk wave)).record 0).extractLsb' 0 8 = 19#8 ∧
            ∃ x ∈ (t.wave (wkOf gk wave)).frags, x.mode = .handler ∧ x.pc = { seg := 0, off := 304 } ∧ ∀ y ∈ w.frags, y.lanes &&& ~~~x.lanes = 0)))) ∧
    (let call := exec (.scallAggregationExpiry core slot wave) s;
      (w.agg = none → call = .next s) ∧
      (∀ x, w.agg = some x →
        let due := g.frozen = false ∧ (x.opened + (s.core core).hagg.toNat % 256 ≤ s.now (s.hereAt gk wave g) ∨ ∀ f ∈ w.frags, f.wait = .agg);
        (due → call = .next (s.takeAgg (s.hereAt gk wave g))) ∧ (¬due → call = .next s)))) ∧
  (∀ (s : State) (core slot : Nat), slot < 16 →
    let run := exec (.saveWatchdogExpiry core slot) s
    let gk := gkOf core slot;
    ((∀ g t, s.group gk = some g → g.saving ≠ some (t, false)) → run = .next s) ∧
    (∀ g t, s.group gk = some g → g.saving = some (t, false) →
      let limit := 65536 * max 1 ((s.core core).svwd.toNat % 2 ^ 16);
      (s.clockAt core < t + limit → run = .next s) ∧
      (t + limit ≤ s.clockAt core → g.evict = false → ∃ n g', run = .next n ∧ n.group gk = some g' ∧ g'.saving = some (s.clockAt core, true) ∧ g'.frozen = false) ∧
      (t + limit ≤ s.clockAt core → g.evict = true → ∃ n, run = .next n ∧
        ∀ k ∈ s.savedWith g, ∀ x, n.group k = some x → x.saving = none ∧ x.evict = false))) 

/-! ## Launches and the scheduler -/

/-- R12, R20, R21, R22, R32 to R35, R37, R63, R191, R248, R305, R315: a pending launch is accepted or refused once its queue has room; a free slot
takes the next entry's unit, each group at its entry point with cleared registers; at a phase boundary the group waits, is refused, ends
(its slot then passes to the chain's successor with the inheritance window) or leaves a phase record; a ready record goes back into a
slot; a `phasew` condition holds at a distance below 2^31; a finished launch writes its stamp, status and counter in this order. The model's choices
are: the notices of record writes that fail (log 35), heirs that wait for their slot and for the queue (log 36, log 73), what a dead group waits for
(log 61), and that the trap for a suspended operation is that of the last arrival (log 85). -/
def Obligations.LaunchesStartAndEnd : Prop :=
  (∀ (s : State) (launch group : Nat),
    let part := (s.launch launch).part
    let n := s.launches.length
    let room := fun (raw : BitVec 2048) => s.queueLen part + (if raw.extractLsb' 320 64 = 0 then 1 else 2) ≤ 256
    let run := exec (.pendingLaunchAccept launch group) s
    (256 ≤ s.queueLen part → run = .next s) ∧
    (s.queueLen part < 256 → ∀ p, nextPend (s.pendOf launch group) = some p →
      (∀ e, s.readRecord part p.addr = .error e → run = .next ((s.noteRecord part p.addr).modPend launch group (fun ps => setPend ps p { p with beat := some (launchBeat p.seq 0x100 p.addr none) }))) ∧
      (∀ raw, s.readRecord part p.addr = .ok raw → ¬room raw → run = .next s) ∧
      (∀ raw, s.readRecord part p.addr = .ok raw → room raw → find s.launches n = none → ∃ t, run = .next t ∧
        let l := { Launch.init with addr := p.addr, part := part, raw := raw, parent := some (launch, p.seq.toNat), waits := s.ptp }
        (∃ q ∈ t.pendOf launch group, q.seq = p.seq ∧ q.launch = some n) ∧ (t.launch n).raw = raw ∧ (t.launch n).addr = p.addr ∧ (t.launch n).part = part ∧
        let s0 := s.noteRecord part p.addr
        let code := if (!s0.partOk part || l.breaks) = true then some 3 else if s0.overflows l then some 4 else none
        (t.launch n).parent = l.parent ∧ (t.launch n).refused = code ∧ (t.launch n).queued = code.isNone)) ∧
    (s.queueLen part < 256 → nextPend (s.pendOf launch group) = none →
      (s.orphans.find? (fun o => o.1 = launch) = none → run = .next s) ∧
      (∀ o raw, s.orphans.find? (fun o => o.1 = launch) = some o → s.readRecord part o.2 = .ok raw → ¬room raw → run = .next s) ∧
      (∀ o, s.orphans.find? (fun o => o.1 = launch) = some o → (∀ raw, s.readRecord part o.2 = .ok raw → room raw) →
        ∃ t, run = .next t ∧ t.orphans = s.orphans.erase o))) ∧
  (∀ (s : State) (x : Heir), let l := s.launch x.launch
    s.heirGoes x = true ↔ s.partOk l.part = true ∧ (l.chained = false ∨ l.admitted = true ∨ l.field 320 64 = 0 ∨ s.queueLen l.part < 256) ∧
      (l.det = false ∨ let lc := x.gid % l.field 640 11
        (∃ c, s.lcore (1024 * x.launch + lc) = some c ∧ c.turn = 0) ∧ (∃ k < 16, k ∉ s.usedLslots x.launch lc) ∧
        ∀ q ∈ s.phased, q.launch = x.launch → q.lcore = lc → q.state = 1)) ∧
  (∀ (s : State) (core slot : Nat) (g : Group),
    let ends := fun (c : Nat) (o : MatOp) => o.kind ≠ .mma ∨ o.k ≤ 16 * o.g ∨ (s.licensed (gkOf c o.slot) = true ∧
      let p := s.feed c o
      p.2.fed (p.1.workOf c p.2) = true)
    let array := ∃ o r, (s.core core).ops = o :: r ∧ o.slot = slot ∧ s.arrayRuns core slot = true ∧ ends core o ∧
      ∀ p, o.peer = some p → ∃ m r2, (s.core p).ops = m :: r2 ∧ m.peer = some core ∧ ends p m
    let stuck := fun (o : CopyOp) => let ended := o.fin ≠ none ∨ o.jobs.length ≤ o.job
      (o.toFifo = true ∧ 64 ≤ (if o.b = 32 then (s.core core).q0 else (s.core core).q1).length ∧ ¬array ∧
        (128 ≤ o.stream.length ∨ (ended ∧ o.stream ≠ []))) ∨ (ended ∧ o.stream = [] ∧ 32 ≤ (g.queue 2).length)
    (s.deadBusy core slot g = true ↔ (∃ x ∈ (s.core core).loads, x.slot = slot) ∨ array ∨
      ∃ o r, g.copies = o :: r ∧ o.started = true ∧ o.susp = none ∧ ¬stuck o) ∧
    (s.boundaryWaits core slot g = true ↔ g.copies ≠ [] ∨ (∃ o ∈ (s.core core).ops, o.slot = slot) ∨ g.calls ≠ [] ∨
      (∃ x ∈ (s.core core).loads, x.slot = slot) ∨ g.held3 ≠ [] ∨ g.held6 ≠ [] ∨ g.wantCfg ≠ none ∨ g.wantLic = true)) ∧
  (∀ (s : State) (gk n : Nat) (g : Group),
    s.boundaryFails gk n g = true ↔ (g.cfg ≠ none ∧ ((s.core (gk / 16)).q0 ≠ [] ∨ (s.core (gk / 16)).q1 ≠ [])) ∨
      (∃ q, 8 ≤ q ∧ q ≤ 11 ∧ g.queue q ≠ []) ∨ (∃ t < 32 * n, (s.thread (128 * gk + t)).isOpen = true) ∨ (∃ w < n, (s.wave (wkOf gk w)).rfOpen = true) ∨
      ∃ p ∈ g.phasew, ∃ q ∈ g.phasew, p.2 ≠ q.2) ∧
  (∀ (s : State) (core slot : Nat), slot < 16 → find s.launches s.launches.length = none →
    let run := exec (.groupAdmission core slot) s
    let heir := s.heirs.find? (fun x => x.core = core && x.slot = slot)
    (∀ x, heir = some x → (s.heirGoes x = false → run = .next s) ∧ (s.heirGoes x = true → run = .next (s.succeed x) ∧ (s.succeed x).heirs = s.heirs.erase x ∧
      ∃ g, (s.succeed x).group (gkOf core slot) = some g ∧ g.launch = x.launch ∧ g.gid = x.gid)) ∧
    (heir = none → s.offered core slot = false ∨ (s.nextQueued core slot).isSome ∨ s.nextEntry core slot = none → run = .next s) ∧
    (∀ n spots, heir = none → s.offered core slot = true → s.nextQueued core slot = none → s.nextEntry core slot = some (n, spots) → ∃ t, run = .next t ∧
      (t.launch n).next = (s.launch n).next + spots.length ∧ (t.launch n).queued = decide ((s.launch n).next + spots.length < (s.launch n).groups) ∧
      (spots ≠ [] → (t.launch n).admitted = true) ∧
      ∀ x ∈ spots, let gk := gkOf x.core x.slot; ∃ g, t.group gk = some g ∧ g.launch = n ∧ g.gid = x.gid ∧ g.queues = [] ∧ g.copies = [] ∧ g.calls = [] ∧ g.nret = 0 ∧
        g.gkeyl = BitVec.ofNat 32 ((s.launch n).field 768 32) ∧ g.gkeyh = BitVec.ofNat 32 ((s.launch n).field 800 32) ∧
        g.dkeyl = BitVec.ofNat 32 ((s.launch n).field 832 32) ∧ g.dkeyh = BitVec.ofNat 32 ((s.launch n).field 864 32) ∧
        (∀ w < (s.launch n).waves, ∃ now since, (t.wave (wkOf gk w)).frags = [{ startFrag now (s.launch n).entry 0xFFFFFFFF with since := since }]) ∧
        (∀ w < 4, ∀ l < 32, t.thread (tkOf gk w l) = Thread.init) ∧ (∀ k < 4096, getD 0 t.rf (65536 * x.core + 4096 * x.slot + k) = 0))) ∧
  (∀ (s : State) (core slot : Nat) (g : Group), slot < 16 → s.group (gkOf core slot) = some g →
    let gk := gkOf core slot
    let l := s.launch g.launch
    let run := exec (.phaseBoundary core slot) s
    let dead := l.dead.contains g.gid
    let listed := (∀ p ∈ s.launches, p.1 < s.launches.length) ∧ (find s.launches g.launch).isSome ∧ ∀ m, l.succ = some m → (find s.launches m).isSome
    let stands := g.frozen ∨ s.allIn gk l.waves (·.atPhase) = false
    let refused := fun (t : State) (why : Nat) => (t.group gk).isSome ∧ ∀ w < l.waves, ∀ f ∈ (s.wave (wkOf gk w)).frags, f.wait = .phase →
      ∃ f' ∈ (t.wave (wkOf gk w)).frags, f'.lanes = f.lanes ∧ f'.pc = f.pc ∧ f'.wait = .none ∧ f'.phw = why
    (dead = true → s.deadBusy core slot g = true → run = .next s) ∧
    (dead = true → s.deadBusy core slot g = false → listed →
      ∃ t, run = .next t ∧ t.group gk = none ∧ g.gid ∈ (t.launch g.launch).ended) ∧
    (dead = false → stands → run = .next s) ∧
    (dead = false → ¬stands → (∃ o ∈ g.copies, o.started = false) → ∃ t, run = .next t ∧ refused t 3) ∧
    (dead = false → ¬stands → (∀ o ∈ g.copies, o.started = true) →
      (∀ o x, g.suspCopy = some (o, x) → (x.told = none → ∃ t, run = .next t ∧ refused t 4) ∧ (x.told ≠ none → run = .next (s.modGroup gk (fun g => g.setSuspCopy none)))) ∧
      (∀ c x, g.suspCopy = none → g.suspCall = some (c, x) →
        (x.told = none → ∃ t, run = .next t ∧ refused t 5) ∧ (x.told ≠ none → run = .next (s.modGroup gk (fun g => g.setSuspCall c none))))) ∧
    (dead = false → ¬stands → (∀ o ∈ g.copies, o.started = true) → g.suspCopy = none → g.suspCall = none →
      (s.boundaryWaits core slot g = true → run = .next s) ∧
      (s.boundaryWaits core slot g = false → s.boundaryFails gk l.waves g = true → ∃ t, run = .next t ∧ refused t 3) ∧
      (s.boundaryWaits core slot g = false → s.boundaryFails gk l.waves g = false → listed →
        ∃ t, run = .next t ∧
          let p := s.phaseRecord l gk g
          (p.threads ≠ [] → t.group gk = none ∧ p ∈ t.phased ∧ p.launch = g.launch ∧ p.gid = g.gid ∧ p.state = (if g.phasew = [] then 0 else 1) ∧
            ∀ k < 32 * l.waves, let th := s.thread (128 * gk + k)
              (th.ended = true ∨ th.endFlag = true → find p.threads k = none) ∧
              (th.ended = false → th.endFlag = false → ∃ x, find p.threads k = some x ∧ x.wbase = th.wbase ∧
                x.carry = (List.range (l.field 200 6)).map (fun j => getD 0 s.rf (rfKey core slot l.regs (k / 32) (l.field 192 7 + j) (k % 32))) ∧
                ∀ f, (s.wave (wkOf gk (k / 32))).fragOf (k % 32) = some f → (x.pc, x.past) = (advance f.pc th.loops .seq).2)) ∧
          (p.threads = [] → g.gid ∈ (t.launch g.launch).ended ∧ (l.succ = none → t.group gk = none) ∧
            ∀ m, l.succ = some m →
              let lm := s.launch m
              let now := lm.det = false ∧ (s.freeSlot core slot).partOk lm.part = true ∧
                (lm.chained = false ∨ lm.admitted = true ∨ lm.field 320 64 = 0 ∨ s.queueLen lm.part < 256)
              (¬now → t.group gk = none ∧ ∃ x ∈ t.heirs, x.launch = m ∧ x.gid = g.gid ∧ x.core = core ∧ x.slot = slot ∧ x.pred = g.launch) ∧
              (now → ∃ g', t.group gk = some g' ∧ g'.launch = m ∧ g'.gid = g.gid ∧
                (canonical 0 g.shape = true → ∀ k < 256, (l.field 288 32).testBit (k / 8) = true → getD 0 g'.shape k = getD 0 g.shape k) ∧
                (canonical 0 s.rf = true → ∀ w lane j, lane < 32 → j < l.field 264 6 → l.field 256 7 + j < l.regs → 32 * (w * l.regs + l.field 256 7 + j) + lane < 4096 →
                  getD 0 t.rf (rfKey core slot l.regs w (l.field 256 7 + j) lane) = getD 0 s.rf (rfKey core slot l.regs w (l.field 256 7 + j) lane))))))) ∧
  (∀ (s : State) (core slot : Nat),
    let gk := gkOf core slot
    let run := exec (.groupReadmission core slot) s
    (s.group gk = none → exec (.phaseBoundary core slot) s = .next s) ∧
    (s.offered core slot = false ∨ s.nextQueued core slot = none → run = .next s) ∧
    (∀ p x, s.offered core slot = true → s.nextQueued core slot = some (p, x) →
      (p.state = 2 → run = .next s) ∧
      (p.state ≠ 2 → ∃ t, run = .next t ∧ (∃ g, t.group gk = some g ∧ g.launch = p.launch ∧ g.gid = p.gid) ∧ t.phased = s.phased.erase p ∧
        ∀ k < 32 * (s.launch p.launch).waves,
          (find p.threads k = none → (t.thread (128 * gk + k)).ended = true) ∧
          (∀ x j v, find p.threads k = some x → x.carry[j]? = some v → canonical 0 s.rf = true → (p.threads.map (·.1)).Nodup →
            let l := s.launch p.launch
            (∀ q ∈ p.threads, l.field 192 7 + q.2.carry.length ≤ l.regs) → getD 0 t.rf (rfKey core slot l.regs (k / 32) (l.field 192 7 + j) (k % 32)) = v) ∧
          ∀ x, find p.threads k = some x → (t.thread (128 * gk + k)).ended = false ∧ (t.thread (128 * gk + k)).wbase = x.wbase ∧
            ∃ f ∈ (t.wave (wkOf gk (k / 32))).frags, f.lanes.getLsbD (k % 32) = true ∧ f.pc = x.pc ∧ f.past = x.past ∧ f.mode = .user))) ∧
  (∀ (s : State) (launch group : Nat),
    let run := exec (.phasewEvaluation launch group) s
    (s.phased.find? (fun p => p.launch = launch && p.gid = group && p.state = 1) = none → run = .next s) ∧
    (∀ p, s.phased.find? (fun p => p.launch = launch && p.gid = group && p.state = 1) = some p →
      let found := s.condWord (s.launch launch).part p.wrec
      let base := (s.noteCond (s.launch launch).part p.wrec).condAcquire (s.launch launch).part p.wrec
      let calm := fun (gs : List (Nat × Group)) => gs.map (fun (q : Nat × Group) => (q.1, { q.2 with copies := q.2.copies.map (fun (o : CopyOp) => { o with stall := false }) }))
      let ready := fun (t : State) (fault : Nat) => { t with phased := [] } = { base with phased := [] } ∧
        t.phased = s.phased.map (fun (q : Phased) => if q = p then { p with state := 0, fault := fault, order := s.nextOrder } else q)
      State.sansReads { base with races := [], groups := [] } = State.sansReads { s with races := [], groups := [] } ∧ calm base.groups = calm s.groups ∧
      (∀ w, found = .ok w → (w - p.target).toNat < 2 ^ 31 → ∃ t, run = .next t ∧ ready t 0) ∧
      (∀ w, found = .ok w → 2 ^ 31 ≤ (w - p.target).toNat → run = .next base) ∧
      (∀ e, found = .error e → ∃ t, run = .next t ∧ ready t e))) ∧
  (∀ (s : State) (n : Nat),
    let run := exec (.launchCompletion n) s
    (find s.launches n = none → run = .next s) ∧
    (∀ l, find s.launches n = some l →
      let finished := l.done = false ∧ (l.refused.isSome ∨ l.groups ≤ l.ended.length)
      (¬finished → run = .next s) ∧
      (finished → ∃ t, run = .next t ∧ (t.launch n).done = true ∧ (t.launch n).queued = false ∧ (∀ p ∈ t.lcores, p.2.launch ≠ n) ∧
        let code := match l.refused with | some c => c | none => if l.failed then 5 else if l.chainBad then 6 else 2
        let stamped := l.field 177 1 = 1
        let r2 := if stamped then s.flushAll.writeRecord l 160 2 (stampBytes s.ptp) else (s.flushAll, true)
        let r3 := r2.1.writeRecord l 176 3 (bytesOf code 8)
        let r4 := r3.1.bumpCounter l
        t.dram = r4.1.dram ∧ t.tags = r4.1.tags ∧ t.wire = r4.1.wire ∧ t.outbox = r4.1.outbox ∧
        t.groups = (r4.1.beatLaunch n l (code + (if r4.2 then 0 else 512) + (if r2.2 && r3.2 then 0 else 1024)) (if stamped && r2.2 then some s.ptp else none)).groups)))

/-- R316, R317, R319 to R321, R328: how the groups of a core move between the active and the pending set, when a gang unit starts to reserve its
instances, and how the device saves a group that a rival displaces, restores a saved one, and moves a logical core between two rounds.
The model's choices are: the residence counts (log 18), that a unit stops before its areas are ready and which victim the device takes (log 50), and the
core that a logical core moves to (log 47). -/
def Obligations.SchedulingOfGroups : Prop :=
  let eligible := fun (s : State) (gk : Nat) => ∃ f ∈ s.fragsOf gk, f.mode ≠ .held ∧ (f.wait = .none ∨ f.wait = .retry) ∧ f.able = true
  let swapped := fun (s t : State) (gk : Nat) (b : Bool) => t.group gk = (s.group gk).map (fun g => { g with active := b, moved := s.ptp, hungry := false, waited := 0 })
  (∀ (s : State) (gk : Nat),
    (s.saveBlocked gk = true ↔ (find s.rings gk).isSome = true ∨ ∃ w < 4, ∃ f ∈ (s.wave (wkOf gk w)).frags, f.mode = .handler) ∧
    (s.canSave gk = true ↔ s.saveBlocked gk = false ∧ ∃ g, s.group gk = some g ∧ s.fixedPart (s.launch g.launch).part = false ∧
      g.gid ∉ (s.launch g.launch).dead ∧ ((s.launch g.launch).det = false ∨ ∃ c, s.lcore (1024 * g.launch + g.lcore) = some c ∧ c.turn = 0))) ∧
  (∀ (s : State) (core : Nat),
    let mine := s.groups.filter (fun p => p.1 / 16 = core ∧ p.2.frozen = false)
    let run := exec (.activeSetSwap core) s
    let best := fun (ps : List (Nat × Group)) (p : Nat × Group) => p ∈ ps ∧ ∀ q ∈ ps, (s.launch q.2.launch).prio < (s.launch p.2.launch).prio ∨
      ((s.launch q.2.launch).prio = (s.launch p.2.launch).prio ∧ p.2.moved ≤ q.2.moved)
    let pending := fun p => p ∈ mine ∧ p.2.active = false
    let able := mine.filter (fun p => !p.2.active && s.maybeEligible p.1)
    let stuck := mine.filter (fun p => p.2.active && s.stalled p.1)
    (∀ gk, s.maybeEligible gk = true ↔ eligible s gk) ∧
    (∀ gk, s.stalled gk = true ↔ ∀ f ∈ s.fragsOf gk, (f.wait = .access ∨ f.wait = .barrier ∨ f.wait = .tbarrier ∨ f.wait = .phase ∨
      (f.wait = .retry ∧ (f.mode = .held ∨ f.able = false)))) ∧
    (s.activeOf core < 8 → (∀ p, ¬pending p) → run = .next s) ∧
    (s.activeOf core < 8 → (∃ p, pending p) → ∃ p, best (mine.filter (fun p => !p.2.active)) p ∧ run = .next (s.setActive p.1 true) ∧ swapped s (s.setActive p.1 true) p.1 true) ∧
    (8 ≤ s.activeOf core → able = [] ∨ stuck = [] → run = .next s) ∧
    (8 ≤ s.activeOf core → able ≠ [] → stuck ≠ [] → ∃ p q, best able p ∧ q ∈ stuck ∧ (∀ r ∈ stuck, q.2.moved ≤ r.2.moved) ∧
      run = .next ((s.setActive q.1 false).setActive p.1 true) ∧
      (q.1 ≠ p.1 → swapped s ((s.setActive q.1 false).setActive p.1 true) p.1 true ∧ swapped s ((s.setActive q.1 false).setActive p.1 true) q.1 false))) ∧
  (∀ (s : State) (core slot : Nat),
    let gk := gkOf core slot
    let run := exec (.pendingLimitExpiry core slot) s
    (s.group gk = none → run = .next s) ∧
    (∀ g, s.group gk = some g →
      let waited := if g.hungry then s.ptp - g.waited else g.waited
      let due := g.active = false ∧ g.frozen = false ∧ 65536000 * (s.core core).tslice.toNat ≤ waited ∧ eligible s gk
      let actives := s.groups.filter (fun p => p.1 / 16 = core ∧ p.2.active = true ∧ p.2.frozen = false)
      (¬due → run = .next s) ∧ (due → s.activeOf core < 8 → run = .next (s.setActive gk true)) ∧
      (due → 8 ≤ s.activeOf core → actives = [] → run = .next s) ∧
      (due → 8 ≤ s.activeOf core → actives ≠ [] → ∃ q ∈ actives, (∀ r ∈ actives, q.2.moved ≤ r.2.moved) ∧ run = .next ((s.setActive q.1 false).setActive gk true)))) ∧
  (∀ (s : State) (part n : Nat),
    let run := exec (.gangWaitTimeslice part n) s
    (find s.launches n = none → run = .next s) ∧
    (∀ l, find s.launches n = some l →
      let due := l.part = part ∧ l.queued = true ∧ l.chained = false ∧ l.gangLevel ≠ 1 ∧ l.home l.gangLevel l.next = none ∧ l.gang = false ∧ l.waits + s.smallSlice part ≤ s.ptp
      (due → ∃ t, run = .next t ∧ t.launch n = { l with gang := true } ∧ (∀ m, m ≠ n → t.launch m = s.launch m) ∧
        { t with launches := [] } = { s with launches := [] }) ∧
      (¬due → run = .next s))) ∧
  (∀ (s : State) (core slot : Nat),
    let gk := gkOf core slot
    let run := exec (.preemptionSave core slot) s
    (s.group gk = none → run = .next s) ∧
    (∀ g, s.group gk = some g →
      let unit := s.unitGks g
      let need := unit.filter (fun u => (s.group u).any (fun x => x.saveArea.isNone))
      let areas := s.freeAreas (s.launch g.launch).part
      let rival := s.rivalOf gk g
      let free := g.evict = true ∨ g.saving = none
      let due := (g.evict = true ∨ rival.isSome) ∧ (∀ u ∈ unit, s.canSave u = true) ∧ need.length ≤ areas.length
      let s1 := (need.zip areas).foldl (fun s p => s.freeze p.1 p.2) s
      let s2 := s1.saveUnit unit
      let lost := ∃ u ∈ unit, ∃ x a, s1.group u = some x ∧ x.saveArea = some a ∧ (s1.areaBad a.1).isSome = true
      (∀ r, rival = some r → let mine := (s.launch g.launch).prio; let its := (s.launch r.launch).prio
        (mine ≤ its ∧ g.resident + s.slice (gk / 16) ≤ s.ptp) ∨ (mine < its ∧ 8 * g.resident + s.slice (gk / 16) ≤ 8 * s.ptp)) ∧
      (¬free → run = .next s) ∧ (free → ¬due → run = .next s) ∧
      (free → due → s1.allReady unit = false → run = .next s1) ∧
      (free → due → s1.allReady unit = true → (¬lost → ∀ u ∈ unit, s2.group u = none) ∧
        (lost → ∀ u ∈ unit, ∃ x, s2.group u = some x ∧ x.saving = none ∧ x.evict = false ∧ x.saveArea = none) ∧
        run = .next (match rival with | some r => if (s2.group gk).isNone then s2.giveSlot core slot r else s2 | none => s2)))) ∧
  (∀ (s : State) (core slot : Nat),
    let gk := gkOf core slot
    let run := exec (.contextRestore core slot) s
    (∀ g, s.group gk = some g → run = .next (if g.wantCfg.isSome || g.wantLic then s.advanceRestore core slot else s)) ∧
    (s.group gk = none → s.offered core slot = false ∨ s.nextQueued core slot = none → run = .next s) ∧
    (∀ p x, s.group gk = none → s.offered core slot = true → s.nextQueued core slot = some (p, x) →
      (p.state ≠ 2 → run = .next s) ∧ (p.state = 2 → run = .next (s.giveSlot core slot (.queued p))))) ∧
  (∀ (s : State) (n num : Nat),
    let k := 1024 * n + num
    let run := exec (.detPreemptionFold n num) s
    (s.lcore k = none → run = .next s) ∧
    (∀ c, s.lcore k = some c →
      let unit := (s.groups.filter (fun p => p.2.launch = n && p.2.lcore = num)).map (·.1)
      let need := unit.filter (fun u => (s.group u).any (fun x => x.saveArea.isNone))
      let able := (∀ u ∈ unit, s.canSave u = true) ∧ need.length ≤ (s.freeAreas (s.launch n).part).length
      let due := c.vacate ≠ [] ∧ c.turn = 0 ∧ (∀ x ∈ s.heirs, x.launch = n → x.gid % (s.launch n).field 640 11 ≠ num) ∧ able
      let s1 := (need.zip (s.freeAreas (s.launch n).part)).foldl (fun s p => s.freeze p.1 p.2) s
      let lost := ∃ u ∈ unit, ∃ x a, s1.group u = some x ∧ x.saveArea = some a ∧ (s1.areaBad a.1).isSome = true
      (¬due → run = .next s) ∧
      (due → s1.allReady unit = false → run = .next s1) ∧
      (due → s1.allReady unit = true → lost → ∃ t v, run = .next t ∧ t.lcore k = some v ∧ v.phys = c.phys ∧ v.vacate = [] ∧
        ∀ u ∈ unit, ∃ x, t.group u = some x ∧ x.saving = none ∧ x.evict = false) ∧
      (due → s1.allReady unit = true → ¬lost → (s.foldTarget n c.vacate = none → run = .next s) ∧
        ∀ core, s.foldTarget n c.vacate = some core → core ∉ c.vacate ∧ ∃ t v, run = .next t ∧ t.lcore k = some v ∧ v.phys = core ∧ v.vacate = [] ∧ v.turn = 0 ∧
          ∀ u ∈ unit, t.group u = none)))

/-! ## Power, bring-up, tables -/

/-- R343 to R346, R353, R354, R356 to R358, R378: a Steelyard cycle grants at most one request, in the order of arrival, core and kind, the first
that has aged barring the others, or in share mode every request at once; what a cycle releases it cannot grant; the pipe's window ends;
a step of a move changes the ratio first where it rises; the throttle is entered, counted, noticed and left; reset, the boot ROM's first
check, and what the device does with a valid bit and a unit's owner. The model's choices are: the byte order of a digest (log 11), that lines which an
older key of a key id wrote read as free bytes (log 16), the words of the throttle notice (log 40), when a key is drawn and an owner changes (log 57),
what a reset keeps (log 58), and the checks of an image beyond those of R345 (log 80). -/
def Obligations.PowerAndBringUp : Prop :=
  (∀ (s : State) (k : Nat),
    let old := s.cluster k
    let now := s.clockAt (4 * k)
    let c := s.gather s.fresh now k old
    let key := fun (x : Current) => 16 * x.arrived + 4 * (x.core % 4) + x.who.rank
    let freed := match c.freed with | some (t, xs) => if t = now then xs else [] | none => []
    let used := ((c.held ++ freed).map (·.amount)).sum
    let aged := fun (x : Current) => x.arrived + c.age ≤ now
    let fits := fun (x : Current) => used + x.amount ≤ c.budget
    let stands := fun (x : Current) => match x.who with
      | .copy => x.amount ∈ s.copyNeeds x.core
      | .array => s.arrayNeed x.core = some x.amount
      | .pipe => (s.pipeNeed x.core).isSome = true
    (∀ core n, s.need s.fresh core .copy = some n → n ∈ s.copyNeeds core) ∧
    (∀ core, s.need s.fresh core .array = s.arrayNeed core) ∧
    (∀ core, s.need s.fresh core .pipe = if ∃ p ∈ s.groups, p.1 / 16 = core ∧ p.2.active = true ∧ p.2.frozen = false ∧ s.maybeEligible p.1 = true then some 3 else none) ∧
    (∀ core o r, (s.core core).ops = o :: r → s.arrayRuns core o.slot = true →
      (o.kind = .zero → s.arrayNeed core = some 2) ∧ (o.kind = .drain → o.fin = none → s.arrayNeed core = some 6)) ∧
    (∀ x, x ∈ c.held ↔ x ∈ old.held ∧ (x.who = .pipe ∨ stands x)) ∧ (∀ x ∈ old.held, x ∉ c.held → x ∈ freed) ∧
    (∀ xs, old.freed = some (now, xs) → ∀ x ∈ xs, x ∈ freed) ∧
    (∀ x ∈ old.waiting, stands x → x ∈ c.waiting) ∧
    (∀ i < 4, ∀ w a, (∀ x ∈ old.waiting ++ old.held ++ freed, ¬(x.core = 4 * k + i ∧ x.who = w)) → s.need s.fresh (4 * k + i) w = some a →
      { core := 4 * k + i, who := w, amount := a, arrived := now } ∈ c.waiting) ∧
    ∃ t xs, exec (.steelyardGrant k) s = .next t ∧ (∀ j, j ≠ k → t.cluster j = s.cluster j) ∧
      (t.cluster k).held = c.held ++ xs.map (fun (x : Current) => { x with since := now }) ∧ (∀ x, x ∈ (t.cluster k).waiting ↔ x ∈ c.waiting ∧ x ∉ xs) ∧
      (∀ x ∈ xs, x.who = .pipe → (t.core x.core).pipe = some now) ∧ (∀ j, (∀ x ∈ xs, x.who = .pipe → x.core ≠ j) → t.core j = s.core j) ∧
      { t with clusters := [], cores := [], fresh := 0 } = { s with clusters := [], cores := [], fresh := 0 } ∧
      (xs = [] → (t.cluster k).peak = c.peak) ∧
      (xs ≠ [] → (t.cluster k).granted = some now ∧ (t.cluster k).peak = max c.peak (used + (xs.map (·.amount)).sum)) ∧
      (c.share = true → xs = c.waiting) ∧ (c.share = false → c.granted = some now → xs = []) ∧
      (c.share = false → c.granted ≠ some now →
        (xs = [] ∧ ((∃ x ∈ c.waiting, aged x ∧ ¬fits x ∧ ∀ y ∈ c.waiting, key x ≤ key y) ∨ ∀ x ∈ c.waiting, ¬fits x)) ∨
        ∃ x ∈ c.waiting, xs = [x] ∧ fits x ∧ ((∃ y ∈ c.waiting, aged y) → ∀ y ∈ c.waiting, key x ≤ key y) ∧
          ((∀ y ∈ c.waiting, ¬aged y) → ∀ y ∈ c.waiting, key y < key x → ¬fits y))) ∧
  (∀ (s : State) (core : Nat),
    let run := exec (.vectorPipeWindowEnd core) s
    ((s.core core).pipe = none → run = .next s) ∧
    (∀ t0, (s.core core).pipe = some t0 → (s.clockAt core < t0 + 64 → run = .next s) ∧
      (t0 + 64 ≤ s.clockAt core → ∃ t, run = .next t ∧ (t.core core).pipe = none ∧
        (t.cluster (clusterOf core)).held = (s.cluster (clusterOf core)).held.filter (fun x => !(x.core = core && x.who = .pipe)) ∧
        (∀ j, j ≠ core → t.core j = s.core j) ∧ { t with cores := [], clusters := [] } = { s with cores := [], clusters := [] }))) ∧
  (∀ (s : State) (k : Nat),
    let c := s.cluster k
    let run := exec (.operatingPointStepEnd k) s
    let rises := ratioOf c.ratio < ratioOf c.goal
    (c.busy = false → run = .next s) ∧
    (c.busy = true → ∃ t, run = .next t ∧ { t with clusters := [] } = { s with clusters := [] } ∧ (∀ j, j ≠ k → t.cluster j = s.cluster j) ∧
      (t.cluster k).cur = (if rises then c.cur else c.goal) ∧ (t.cluster k).tgt = c.tgt ∧ (t.cluster k).goal = c.tgt ∧
      ratioOf (t.cluster k).ratio = (if rises ∨ c.cur = c.goal then ratioOf c.goal else ratioOf c.ratio) ∧
      ((t.cluster k).busy = false ↔ (t.cluster k).cur = c.tgt ∧ ratioOf (t.cluster k).ratio = ratioOf c.tgt))) ∧
  (∀ (s : State) (source : BitVec 2),
    let b := s.throttle
    let bit := 1#4 <<< source.toNat
    let up := b.src ||| bit
    let down := b.src &&& ~~~bit
    let enters := fun (src : BitVec 4) (t : State) => t.throttle.on = true ∧ t.throttle.cnt = b.cnt + 1 ∧ t.throttle.src = src ∧ t.throttle.en = b.en ∧
      ∃ m, t.outbox = s.outbox ++ [m] ∧ m.notice = true ∧ m.pins = true ∧ m.words = [5, 0, 0, 0, 2, t.throttle.word, t.throttle.cnt]
    (∃ t, exec (.throttleAssert source) s = .next t ∧ { t with throttle := b, outbox := [], conns := [], wire := [] } = { s with outbox := [], conns := [], wire := [] } ∧
      (b.on = false → b.en &&& up ≠ 0 → enters up t) ∧
      (b.on = true ∨ b.en &&& up = 0 → t.outbox = s.outbox ∧ t.conns = s.conns ∧ t.wire = s.wire ∧ { t.throttle with since := 0 } = { b with src := up, since := 0 })) ∧
    (∃ t, exec (.throttleSourceDeassert source) s = .next t ∧ { t with throttle := b, outbox := [], conns := [], wire := [] } = { s with outbox := [], conns := [], wire := [] } ∧
      (b.on = false → b.en &&& down ≠ 0 → enters down t) ∧
      (b.on = true ∨ b.en &&& down = 0 → t.outbox = s.outbox ∧
        t.throttle = { b with src := down, since := if b.en &&& b.src ≠ 0 ∧ b.en &&& down = 0 then s.ptp else b.since })) ∧
    (let due := b.on = true ∧ b.en &&& b.src = 0 ∧ b.since + micro * b.hold.toNat ≤ s.ptp
     exec .throttleHoldExpiry s = .next (if due then { s with throttle := { b with on := false } } else s))) ∧
  (∀ s : State, exec .resetAssert s = .next { State.reset with inputs := s.inputs, fresh := s.fresh, towers := s.towers } ∧ (s.boot ≠ .held → exec .resetRelease s = .next s) ∧
    (s.boot = .held → ∃ t, exec .resetRelease s = .next t ∧ getD 0 t.meas 0 = sha256 (bytesOf (getD 0 s.meas 0).toNat 32 ++ bytesOf Config.romDigest.toNat 32) ∧
      (s.image = [] → t.boot = .recovery ∧ { t with meas := [], boot := .held } = { s with meas := [] }) ∧
      (s.image ≠ [] → s.imageGood = false → t.boot = .recovery ∧ { t with meas := [], boot := .held } = { s with meas := [], image := [], imageLen := 0 }) ∧
      (s.image ≠ [] → s.imageGood = true → t.boot = .running ∧ t.image = [] ∧ t.imageLen = 0 ∧ t.svn = wd (s.imageNat 4 4) ∧ t.dram = [] ∧ t.tags = [] ∧ t.bad = [] ∧ t.groups = s.groups ∧
        getD 0 t.meas 1 = sha256 (bytesOf (getD 0 s.meas 1).toNat 32 ++ bytesOf (sha256 (s.imageBytes 0 (64 + s.imageNat 8 8 + 7856))).toNat 32))) ∧
    (let l := s.imageNat 8 8
     s.imageGood = true ↔ s.imageNat 0 4 = 1 ∧ s.imageLen = (64 + l + 7856 + 3) / 4 * 4 ∧ sha256 (s.imageBytes 16 32) = Config.fusedKeyDigest ∧
      slhVerify (s.imageBytes 16 32) (s.imageBytes 0 (64 + l)) (s.imageBytes (64 + l) 7856) = true ∧ Config.fusedMinSvn.toNat ≤ s.imageNat 4 4 ∧ s.imageNat 48 16 = 0)) ∧
  (∀ (s : State) (part : Nat),
    let run := exec (.partitionValidSet part) s
    let valid := s.part part 0 1 = 1
    let seen := getD false s.valids part = true
    (s.boot ≠ .running ∨ 62 < part ∨ (valid ↔ seen) → run = .next s) ∧
    (s.boot = .running → part ≤ 62 → valid → ¬seen → ∃ t, run = .next t ∧ getD false t.valids part = true ∧
      find t.keys (s.keyOf part) = some (Config.randomKey s.fresh) ∧ t.fresh = s.fresh + 1 ∧
      getD 0 t.meas 3 = sha256 (bytesOf (getD 0 s.meas 3).toNat 32 ++ bytesOf (sha256 (bytesOf (s.partEntry part).toNat 128)).toNat 32) ∧
      (∀ a, (∀ p ∈ s.tags, p.1 = lineOf a → p.2 ≠ s.keyOf part) → getD 0 t.dram a = getD 0 s.dram a) ∧
      { t with valids := [], keys := [], fresh := 0, meas := [], dram := [], races := [] } = { s with valids := [], keys := [], fresh := 0, meas := [], dram := [], races := [] }) ∧
    (s.boot = .running → part ≤ 62 → ¬valid → seen → ∃ t, run = .next t ∧ getD false t.valids part = false ∧ { t with valids := [] } = { s with valids := [] })) ∧
  (∀ (s : State) (unit owner : Nat),
    let run := exec (.unitOwnerChange unit owner) s
    let due := s.boot = .running ∧ unit < 128 ∧ (s.dramByte reserveKey (s.mm 192 64 + unit)).toNat = owner ∧ getD 255 s.owners unit ≠ owner ∧
      ∀ c ∈ unitCores unit, ∀ slot < 16, s.group (gkOf c slot) = none ∧ (∀ x ∈ s.heirs, ¬(x.core = c ∧ x.slot = slot)) ∧
        ∀ x ∈ s.checks, x.2.core = c → ∀ q ∈ x.2.slots, q.2 ≠ slot
    (¬due → run = .next s) ∧
    (due → ∃ t, run = .next t ∧ getD 255 t.owners unit = owner ∧ (∀ u, u ≠ unit → getD 255 t.owners u = getD 255 s.owners u) ∧
      (∀ d, (∀ x ∈ getD [] t.walks d, x.2 ∉ unitCores unit) ∧ ∀ x ∈ getD [] t.held d, x.2.1 ∉ unitCores unit) ∧
      ∀ c ∈ unitCores unit, (t.core c).ops = [] ∧ (t.core c).q0 = [] ∧ (t.core c).q1 = [] ∧ (t.core c).holder = none ∧
        (∀ k < 65536, getD 0 t.rf (65536 * c + k) = 0) ∧ (∀ k < 524288, getD 0 t.pad (524288 * c + k) = 0) ∧ (∀ k < 32768, getD false t.full (32768 * c + k) = false) ∧
        (∀ k < 32768, getD 0 t.acc (32768 * c + k) = 0) ∧ (∀ k < 32, t.tag (32 * c + k) = SegTag.init) ∧ (∀ slot < 16, find t.rings (gkOf c slot) = none) ∧
        t.licence (pairOf c) = Licence.init ∧ ∀ b ∈ t.sbuf, b.core ≠ c))

/-! ## The fabric -/

/-- R252, R253, R363 to R365, R367, R368: a landing fills the ring's next entry and notifies, or is dropped and counted; a good frame goes to the
transport, to PTP, to the port itself (MAC control), or to the ring of the lowest entry that matches; a transport frame is taken only with a good
tag, in sequence, and is acknowledged; unacknowledged frames are sent again, and a connection that has retried seven times fails. The model's
choices: what the other standards' frames hold, that an acknowledgement takes no sequence number, and one containment for each lost write
(log 20); what a port keeps of PTP messages and answers (log 78); where notices go (log 34); a read request's payload, the empty answer of a
failed read, and a frame kept early that counts as owed (log 59); the lengths of frames (log 89); a landed byte that races with a plain store
may come before it (R160, log 86). -/
def Obligations.FabricTraffic : Prop :=
  (∀ (s : State) (port core slot rule skip : Nat) (ns : BitVec 64) (frac : BitVec 16) (bytes : List Byte),
    let gk := gkOf core slot
    let run := exec (.packetLanding port core slot rule skip ns frac bytes) s
    (18 ≤ port → run = .next s) ∧
    (port < 18 → find s.rings gk = none → run = .next (s.dropPort port)) ∧
    (∀ r, port < 18 → find s.rings gk = some r → slot < 16 → ringBase r.binding + (r.next + 1) * ringSize r.binding ≤ 2048 →
      let size := ringSize r.binding
      let entry := ringBase r.binding + r.next * size
      let granule := fun k => 32768 * core + 2048 * slot + entry + k
      let base := 524288 * core + 32768 * slot + 16 * entry
      let body := bytes.drop skip
      let landed := body.take (16 * size)
      let n := (landed.length + 15) / 16
      let fits := body ≠ [] ∧ (s.group gk).isSome ∧ (∀ k < size, getD false s.full (granule k) = false) ∧ r.q7.length < 64
      (¬fits → run = .next { s with rings := insert s.rings gk { r with drops := r.drops + 1 } }) ∧
      (fits → ∃ t b, run = .next t ∧
        { t with pad := [], full := [], rings := [], races := [], writes := [], wnum := 0, fresh := 0, gsync := [], lcores := [], checks := [] } =
          { s with pad := [], full := [], rings := [], races := [], writes := [], wnum := 0, fresh := 0, gsync := [], lcores := [], checks := [] } ∧
        (∀ k, base ≤ k → k < base + 16 * n → getD 0 t.pad k = landed.getD (k - base) 0 ∨
          (getD 0 t.pad k = getD 0 s.pad k ∧ ∃ r ∈ s.races, r.loc = .chip core (k - 524288 * core))) ∧
        (∀ k, (k < base ∨ base + 16 * n ≤ k) → getD 0 t.pad k = getD 0 s.pad k) ∧
        ((s.engineOf core slot (.landing gk)).det = none → t.lcores = s.lcores ∧ t.checks = s.checks) ∧
        (∀ j, getD false t.full j = if granule 0 ≤ j ∧ j < granule n then true else getD false s.full j) ∧
        (∀ q, q ≠ gk → find t.rings q = find s.rings q) ∧
        find t.rings gk = some { r with next := (r.next + 1) % ringCount r.binding, drops := 0, landed := r.landed + 1, q7 := r.q7 ++ [b] } ∧
        getD 0 b 0 = wd (16 * entry) ∧ getD 0 b 1 = wd landed.length ∧ getD 0 b 2 = wd bytes.length ∧
        getD 0 b 3 = (if landed.length < body.length then 1 else 0) + (if r.drops = 0 then 0 else 2) ∧ getD 0 b 4 = r.drops ∧ getD 0 b 5 = wd rule ∧
        getD 0 b 6 = ns.extractLsb' 0 32 ∧ getD 0 b 7 = ns.extractLsb' 32 32 ∧ getD 0 b 8 = frac.setWidth 32 ∧ getD 0 b 9 = wd port ∧ getD 0 b 10 = r.landed + 1))) ∧
  (∀ (s : State) (port : Nat) (bs : List Byte), 18 ≤ port → exec (.ptpEventMessage port bs) s = .next s ∧ ∀ fcs, exec (.frameReceive port bs fcs) s = .next s) ∧
  (∀ (s : State) (port : Nat) (bs : List Byte), port < 18 →
    let type := frameNat bs 14 1 % 16
    let sample := fun (time : Option Nat) => some ({ seq := frameNat bs 44 2, carried := time, passed := s.ptp } : PtpSample)
    let p := getD Port.init s.ports port
    let asks := p.role = .timeReceiver ∧ type = 0
    let number := ((p.asked.map (·.seq)).getD 0 + 1) % 65536
    ∃ t, exec (.ptpEventMessage port bs) s = .next t ∧ { t with ports := [], ptpStamps := [], ptpOut := [] } = { s with ports := [], ptpStamps := [], ptpOut := [] } ∧
      (p.role = .timeTransmitter ∧ type = 1 → ∃ m, t.ptpOut = s.ptpOut ++ [(port, m)] ∧ frameNat m 12 2 = 0x88F7 ∧ frameNat m 14 1 % 16 = 9 ∧
        frameNat m 44 2 = frameNat bs 44 2 ∧ frameNat m 48 10 = (2 ^ 32 * (s.ptp / 2 ^ 16 / 1000000000) + s.ptp / 2 ^ 16 % 1000000000) % 2 ^ 80 ∧ m.drop 58 = (bs.drop 34).take 10) ∧
      (asks → ∃ m, t.ptpOut = s.ptpOut ++ [(port, m)] ∧ frameNat m 12 2 = 0x88F7 ∧ frameNat m 14 1 % 16 = 1 ∧ frameNat m 44 2 = number) ∧
      (¬(p.role = .timeTransmitter ∧ type = 1) → ¬asks → t.ptpOut = s.ptpOut) ∧
      (∀ q, getD 0 t.ptpStamps q = if q = port ∧ type < 4 then s.ptp else getD 0 s.ptpStamps q) ∧
      (∀ q, q ≠ port → getD Port.init t.ports q = getD Port.init s.ports q) ∧
      getD Port.init t.ports port = match p.role with
        | .passive => p
        | .timeTransmitter => if type = 1 then { p with request := sample none } else p
        | .timeReceiver =>
          if type = 0 then { p with
            sync := sample (if frameNat bs 20 1 / 2 % 2 = 1 then none else some (frameNat bs 48 10))
            asked := some { seq := number, carried := none, passed := s.ptp } }
          else if type = 8 then { p with sync := p.sync.map (fun x => if x.seq = frameNat bs 44 2 then { x with carried := some (frameNat bs 48 10) } else x) }
          else if type = 9 then { p with response := sample (some (frameNat bs 48 10)) } else p) ∧
  (∀ (s : State) (port : Nat) (bs : List Byte), port < 18 → 
    (∀ fcs, fcs = false ∨ bs.length + 4 < 64 ∨ 9216 < bs.length + 4 → exec (.frameReceive port bs fcs) s = .next (s.dropPort port)) ∧
    (64 ≤ bs.length + 4 → bs.length + 4 ≤ 9216 →
    let run := exec (.frameReceive port bs true) s
    let goes := fun i => run = .next { s with inputs := i :: s.inputs }
    let lost := run = .next (s.dropPort port)
    let etype := frameNat bs 12 2
    (etype = 0x88F7 → goes (.ptpEventMessage port bs)) ∧
    (etype = 0x88B5 → (∀ f, frameOf bs = some f → goes (.transportFrameReceive f)) ∧ (frameOf bs = none → lost)) ∧
    (etype = 0x8808 → frameNat bs 14 2 ≠ 0x0101 → run = .next s) ∧
    (etype = 0x8808 → frameNat bs 14 2 = 0x0101 → ∃ t, run = .next t ∧ { t with ports := [] } = { s with ports := [] } ∧
      let p := getD Port.init s.ports port
      let stop := fun (k old : Nat) => if (frameNat bs 16 2).testBit k then s.ptp + frameNat bs (18 + 2 * k) 2 * 512 * 65536 / p.mode.rate else old
      (∀ q, q ≠ port → getD Port.init t.ports q = getD Port.init s.ports q) ∧ getD Port.init t.ports port = { p with pause0 := stop 0 p.pause0, pause1 := stop 1 p.pause1 }) ∧
    (etype ≠ 0x88F7 → etype ≠ 0x88B5 → etype ≠ 0x8808 → ((∀ e < 64, s.matches e port bs = false) → lost) ∧
      ∀ e < 64, s.matches e port bs = true → (∀ d < e, s.matches d port bs = false) →
        (find s.rings (gkOf (s.mt e 114 10) (s.mt e 110 4)) = none → lost) ∧
        ((find s.rings (gkOf (s.mt e 114 10) (s.mt e 110 4))).isSome →
          goes (.packetLanding port (s.mt e 114 10) (s.mt e 110 4) e (s.mt e 124 8) (BitVec.ofNat 64 (s.ptp / 2 ^ 16)) (BitVec.ofNat 16 s.ptp) bs))))) ∧
  (∀ (s : State) (f : TFrame),
    let run := exec (.transportFrameReceive f) s
    let taken := f.ver = 1 ∧ f.type ≤ 5 ∧ f.dst = s.node ∧ f.len ≤ 4096 ∧ f.len = f.payload.length
    let k := 65536 * f.src + f.conn
    let c := getD Conn.init s.conns k
    let a := f.addr.toNat % 2 ^ 40
    (¬taken → run = .next s) ∧ (taken → find s.tkeys f.keyid = none → run = .next (s.dropPort transportDrops)) ∧
    (∀ key, taken → find s.tkeys f.keyid = some key →
      (gcmOpen key f.nonce f.header f.payload f.tag = none → run = .next (s.dropPort transportDrops)) ∧
      (∀ payload, gcmOpen key f.nonce f.header f.payload f.tag = some payload →
        let inOrder := f.seq = c.expect ∧ c.early = []
        (f.type = 3 → ∃ t, run = .next t ∧ { t with conns := [] } = { s with conns := [] } ∧ (getD Conn.init t.conns k).expect = c.expect ∧
          ∀ x ∈ (getD Conn.init t.conns k).sent, 2 ^ 31 ≤ (f.ack - x.seq - 1).toNat) ∧
        (f.type ≠ 3 → 32 ≤ (f.seq - c.expect).toNat ∨ (∃ x ∈ c.early, x.1 = f.seq) → ∃ t w, run = .next t ∧ t.wire = s.wire ++ [w] ∧
          w.node = f.src ∧ w.conn = f.conn ∧ w.type = 3 ∧ w.ack = c.expect ∧ { t with conns := [], wire := [] } = { s with conns := [], wire := [] }) ∧
        (f.type ≠ 3 → f.seq ≠ c.expect → (f.seq - c.expect).toNat < 32 → (∀ x ∈ c.early, x.1 ≠ f.seq ∧ x.1 ≠ c.expect) → ∃ t, run = .next t ∧
          (getD Conn.init t.conns k).expect = c.expect ∧ (getD Conn.init t.conns k).early = c.early ++ [(f.seq, f.type, f.addr, payload)] ∧
          (c.owed < 7 → t.wire = s.wire ∧ (getD Conn.init t.conns k).owed = c.owed + 1) ∧
          (7 ≤ c.owed → ∃ w, t.wire = s.wire ++ [w] ∧ w.node = f.src ∧ w.conn = f.conn ∧ w.type = 3 ∧ w.ack = c.expect ∧ w.sack.getLsbD (f.seq - c.expect - 1).toNat = true) ∧
          { t with conns := [], wire := [] } = { s with conns := [], wire := [] }) ∧
        (f.type = 0 → inOrder → ∃ t, run = .next t ∧ (getD Conn.init t.conns k).expect = c.expect + 1 ∧ t.inputs = s.inputs ∧
          (a + payload.length ≤ s.usableTop → ∀ j < payload.length, t.dramByte f.keyid (a + j) = payload.getD j 0) ∧
          (s.usableTop < a + payload.length → t.dram = s.dram ∧ ∃ m, t.outbox = s.outbox ++ [m] ∧ m.notice = true ∧ m.words.take 1 = [2])) ∧
        (f.type = 1 → inOrder → 
          let size := natOf payload
          let frames := max 1 ((size + 4095) / 4096)
          let at_ := fun i => (f.addr + BitVec.ofNat 64 (4096 * i)).toNat % 2 ^ 40
          let part := fun i => min 4096 (size - 4096 * i)
          let good := fun i => at_ i + part i ≤ s.usableTop ∧ ∀ j < part i, s.badFor f.keyid (at_ i + j) = false
          ∃ t ms, run = .next t ∧ t.outbox = s.outbox ++ ms ∧ (∀ m ∈ ms, m.notice = true ∧ m.words.take 1 = [2]) ∧ (ms = [] ↔ ∀ i < frames, good i) ∧
            { t with conns := [], wire := [], outbox := [] } = { s with conns := [], wire := [], outbox := [] } ∧ (getD Conn.init t.conns k).expect = c.expect + 1 ∧
            (s.noticeTo = none ∨ ms = [] → (getD Conn.init t.conns k).owed = 0 ∧ ∃ ws : List Wire, t.wire = s.wire ++ ws ∧ ws.length = frames ∧
              ∀ i w, ws[i]? = some w → w.node = f.src ∧ w.conn = f.conn ∧ w.type = 2 ∧ w.keyid = f.keyid ∧ w.addr = f.addr + BitVec.ofNat 64 (4096 * i) ∧
                (good i → w.payload = (List.range (part i)).map (fun j => s.dramByte f.keyid (at_ i + j))) ∧ (¬good i → w.payload = []))) ∧
        (f.type = 2 → inOrder → ∃ t, run = .next t ∧ { t with conns := [], wire := [], asks := [], groups := [] } = { s with conns := [], wire := [], asks := [], groups := [] } ∧
          (getD Conn.init t.conns k).expect = c.expect + 1 ∧
          t.asks = s.asks.map (fun x => if x.node = f.src ∧ x.part = f.conn ∧ x.addr = f.addr.toNat ∧ x.answer = none ∧ (payload = [] ∨ x.len ≤ payload.length) then
            { x with answer := some (if payload = [] then none else some payload) } else x) ∧
          t.groups = s.groups.map (fun p => (p.1, { p.2 with copies := p.2.copies.map (fun o => { o with stall := false }) }))) ∧
        (f.type = 4 → inOrder → ∃ t, run = .next t ∧ t.dram = s.dram ∧ (getD Conn.init t.conns k).expect = c.expect + 1 ∧
          let r : Req := { pins := false, firmware := f.keyid = 255, part := s.partOfKey f.keyid, key := f.keyid, node := f.src, session := f.conn, tag := 0 }
          t.inputs = (decodeCommand r payload).getD (.malformedCommand r payload 0) :: s.inputs ∧
          t.noticeTo = if f.keyid = 255 then some (f.src, f.conn) else s.noticeTo)))) ∧
  (∀ (s : State) (node conn : Nat),
    let k := 65536 * node + conn
    let c := getD Conn.init s.conns k
    let late := fun (x : Sent) => x.marked = false ∧ x.stamp + 16 * micro * 2 ^ x.retries ≤ s.ptp
    (let due := c.owed ≠ 0 ∧ c.owedAt + 2 * micro ≤ s.ptp
     (¬due → exec (.transportAckTimer node conn) s = .next s) ∧
     (due → ∃ t w, exec (.transportAckTimer node conn) s = .next t ∧ t.wire = s.wire ++ [w] ∧ w.node = node ∧ w.conn = conn ∧ w.type = 3 ∧ w.ack = c.expect ∧
       w.sack = c.sack ∧ getD Conn.init t.conns k = { c with owed := 0 } ∧ { t with conns := [], wire := [] } = { s with conns := [], wire := [] })) ∧
    (let run := exec (.transportRetryTimeout node conn) s
     ((∀ x ∈ c.sent, ¬late x) → run = .next s) ∧
     ((∃ x ∈ c.sent, late x) → (∀ x ∈ c.sent, late x → x.retries < 7) → ∃ t, run = .next t ∧ { t with conns := [], wire := [] } = { s with conns := [], wire := [] } ∧
       (getD Conn.init t.conns k).sent = c.sent.map (fun x => if x.marked then x else { x with retries := x.retries + 1, stamp := s.ptp }) ∧
       (∀ q, q ≠ k → getD Conn.init t.conns q = getD Conn.init s.conns q) ∧
       ∃ ws, t.wire = s.wire ++ ws ∧ ws.map (fun w => (w.seq, w.type, w.addr, w.payload)) = (c.sent.filter (fun x => !x.marked)).map (fun x => (x.seq, x.type, x.addr, x.payload))) ∧
     ((∃ x ∈ c.sent, late x ∧ 7 ≤ x.retries) → ∃ t, run = .next t ∧ (s.noticeTo = none → find t.conns k = none ∧ t.wire = s.wire) ∧
       { t with conns := [], outbox := [], wire := [], asks := [], groups := [] } = { s with conns := [], outbox := [], wire := [], asks := [], groups := [] } ∧
       t.asks = s.asks.map (fun x => if x.node = node ∧ x.part = s.partOfKey c.key ∧ x.answer = none then { x with answer := some none } else x) ∧
       t.groups = s.groups.map (fun p => (p.1, { p.2 with copies := p.2.copies.map (fun o => { o with stall := false }) })) ∧
       ∃ ms, t.outbox = s.outbox ++ ms ∧ ms.length = max 1 (c.sent.filter (fun x => x.type = 0)).length ∧ ∀ m ∈ ms, m.notice = true ∧ m.words.take 1 = [2])))

/-! ## The management channel -/

/-- R314, R344 to R348, R350, R355, R359, R366, R371 to R373, R375: what each management command needs, what it changes and what it replies; a session
without the right gets status 1, recovery answers 4 on the pins to all but an image, and nothing is heard in reset. The byte order of a
transaction and of a digest (log 11), the key id of what firmware reads (log 12), the place of the phase records (log 38), the argument checks and
replies in parts (log 55), what a scrub leaves (log 57), commands in recovery and what an accepted image starts with (log 58), the reserved bits of
a ring binding (log 60), the queue's room for a chained record (log 73), which launch 0x06 names (log 77), the ports' configuration (log 78) and
the checks of an image's length (log 80) are the model's choice. -/
def Obligations.ManagementCommands : Prop :=
  (∀ (s : State) (req : Req) (addr victim offset : BitVec 64) (data digest nonce cores : List Word) (count prio keyid reg core slot wave word cluster op : Nat)
      (raw : List Byte) (key : BitVec 256) (value crc : Word),
    let commands : List (Nat × Bool × Instr) := [
        (1, true, .mgmtSubmitLaunch req addr), (2, true, .mgmtRead req addr count), (3, req.firm, .mgmtWrite req addr data), (4, req.firm, .mgmtResume req addr),
        (5, req.firm, .mgmtKill req addr), (6, req.firm, .mgmtSpatialPreemption req victim count prio), (7, req.firm, .mgmtScrub req keyid),
        (8, req.firm || s.bound req, .mgmtExtend req reg digest), (9, true, .mgmtAttestationReport req nonce), (10, req.firm, .mgmtDoorbell req cores),
        (12, req.firm, .mgmtLoadTransportKey req keyid key), (3, req.firm, .clockControlWrite req cluster value), (3, req.firm, .steelyardControlWrite req cluster value),
        (3, req.firm, .throttleControlWrite req value), (3, req.firm, .handlerStoreWrite req core word data), (3, req.firm, .landingRingBindingWrite req core slot value),
        (3, req.firm, .fullEmptyTableWrite req core slot word data), (3, req.firm, .trapRecordWrite req core slot wave word data)]
    (∀ p ∈ commands, (s.boot = .held → exec p.2.2 s = .next s) ∧ (s.boot = .recovery → exec p.2.2 s = .next (if req.pins then s.reply req p.1 4 [] else s)) ∧
      (s.boot = .running → p.2.1 = false → exec p.2.2 s = .next (s.reply req p.1 1 []))) ∧
    (let run := exec (.malformedCommand req raw crc) s;
      (payloadOf req raw crc = none → run = .next (if s.boot = .held then s else { s with pinAck := some false })) ∧
      (∀ bs, payloadOf req raw crc = some bs →
        (∀ i, decodeCommand req bs = some i → run = .next { s with inputs := i :: s.inputs }) ∧
        (decodeCommand req bs = none →
          let r := { req with tag := natOf ((bs.drop 2).take 2) }
          let reply := s.reply r (natOf (bs.take 1)) 4 []
          (s.boot = .held → run = .next s) ∧ (s.boot = .recovery → run = .next (if req.pins then reply else s)) ∧ (s.boot = .running → run = .next reply))) ∧
      (req.pins = false → payloadOf req raw crc = some raw) ∧
      (req.pins = true → ∀ bs : List Byte, bs.length ≤ 4084 →
        let covered := bytesOf bs.length 2 ++ bs
        payloadOf req (0x5A#8 :: covered) (crc32 covered) = some bs ∧ ∀ c : Word, c ≠ crc32 covered → payloadOf req (0x5A#8 :: covered) c = none)) ∧
    (let run := exec .mgmtPinReplyRead s;
      (∀ m, s.outbox.find? (·.pins) = some m →
        let covered := bytesOf (4 * m.words.length) 2 ++ wordBytes m.words
        run = .next { s with outbox := s.outbox.erase m, pinReply := covered ++ bytesOf (crc32 covered).toNat 4, pinAck := some true }) ∧
      ((∀ m ∈ s.outbox, m.pins = false) → run = .next { s with pinReply := [], pinAck := some false })) ∧
    (let r := if data = [] then s.checkImage else if 1016 < data.length then (s, 4)
        else ({ s with image := putAll 0 s.image offset.toNat ((List.range (4 * data.length)).zip (wordBytes data)), imageLen := max s.imageLen (offset.toNat + 4 * data.length) }, 0)
     let run := exec (.mgmtLoadFirmwareImage req offset data) s
     (s.boot = .held ∨ (s.boot = .recovery ∧ req.pins = false) → run = .next s) ∧ (s.boot = .running → req.firm = false → run = .next (s.reply req 11 1 [])) ∧
     ((s.boot = .recovery ∧ req.pins = true) ∨ (s.boot = .running ∧ req.firm = true) → run = .next (r.1.reply req 11 r.2 [])) ∧
     (s.imageGood = false → s.checkImage = ({ s with image := [], imageLen := 0 }, 6)) ∧
     (s.imageGood = true → let t := s.checkImage.1
       s.checkImage.2 = 0 ∧ t.boot = .running ∧ t.svn = wd (s.imageNat 4 4) ∧ t.image = [] ∧ t.imageLen = 0 ∧ (∀ k, k ≠ 1 → getD 0 t.meas k = getD 0 s.meas k) ∧
       (∀ q, { getD Port.init t.ports q with mode := Port.init.mode, role := Port.init.role } = Port.init) ∧ (s.boot ≠ .running → t.dram = [] ∧ t.tags = []) ∧
       (s.boot = .running → { t with svn := s.svn, meas := s.meas, image := s.image, imageLen := s.imageLen, ports := s.ports, fresh := s.fresh } = s))) ∧
    (req.pins = true → ∃ ms, (s.reply req op reg data).outbox = s.outbox ++ ms ∧ (s.reply req op reg data).pinAck = some true ∧
      { s.reply req op reg data with outbox := [], pinAck := none } = { s with outbox := [], pinAck := none } ∧ ms ≠ [] ∧ ms.flatMap (fun m => m.words.drop 5) = data ∧ ∀ m ∈ ms, m.pins = true ∧ m.notice = false ∧ m.words.length ≤ 1021 ∧ m.words.getD 1 0 = wd reg) ∧
    (req.pins = false → ∃ ws, (s.reply req op reg data).wire = s.wire ++ ws ∧ { s.reply req op reg data with conns := [], wire := [] } = { s with conns := [], wire := [] } ∧
      ws ≠ [] ∧ ws.flatMap (fun w => w.payload.drop 20) = wordBytes data ∧ ∀ w ∈ ws, w.node = req.node ∧ w.conn = req.session ∧ w.type = 4 ∧
        w.keyid = (if req.firm then 255 else s.keyOf req.part) ∧ w.payload.length ≤ 4084)) ∧
  (∀ (s : State) (req : Req) (addr : BitVec 64) (count : Nat) (nonce digest : List Word) (reg : Nat), s.boot = .running →
    let ends := fun (i : Instr) (op st : Nat) => exec i s = .next (s.reply req op st [])
    (let i := Instr.mgmtSubmitLaunch req addr
     (¬(addr.toNat % 256 = 0 ∧ addr.toNat < 2 ^ 52) → ends i 1 2) ∧
     (addr.toNat % 256 = 0 → addr.toNat < 2 ^ 52 → (256 ≤ s.queueLen req.part → ends i 1 3) ∧
       (s.queueLen req.part < 256 → let s0 := s.noteRecord req.part addr
         State.sansReads { s0 with groups := [] } = State.sansReads { s with groups := [] } ∧
         (∀ e, s.readRecord req.part addr = .error e → exec i s = .next (s0.reply req 1 (if e = 2 then 5 else 2) [])) ∧
         ∀ raw, s.readRecord req.part addr = .ok raw →
           let chained := raw.extractLsb' 320 64 ≠ 0
           (chained → s.queueLen req.part = 255 → ends i 1 3) ∧
           (¬(chained ∧ s.queueLen req.part = 255) → exec i s = .next ((s0.acceptRecord req.part req.firm addr raw none).1.reply req 1 0 []))))) ∧
    (let i := Instr.mgmtRead req addr count
     let one := 2 ≤ addr.toNat / 2 ^ 60 ∧ addr.toNat / 2 ^ 60 ≤ 4
     let line := fun k => (let tag := getD 0 s.tags (lineOf (addr.toNat + 4 * k)); if tag = 0 then 255 else tag)
     (count = 0 → ends i 2 (if one then 2 else 4)) ∧
     (0 < count → req.firm = true → (one → count ≠ 1 → ends i 2 2) ∧
       (addr.toNat % 4 = 0 → addr.toNat + 4 * count ≤ s.usableTop → (∀ k < count, s.badFor (line k) (addr.toNat + 4 * k) = false) →
         exec i s = .next (s.reply req 2 0 ((List.range count).map (fun k => s.dramWord (line k) (addr.toNat + 4 * k))))) ∧
       (addr.toNat % 4 = 0 → addr.toNat + 4 * count ≤ s.usableTop → ∀ j < count, s.badFor (line j) (addr.toNat + 4 * j) = true →
         (∀ k < j, s.badFor (line k) (addr.toNat + 4 * k) = false) → exec i s = .next ((s.contain req.part (addr.toNat + 4 * j)).reply req 2 5 [])) ∧
       (∀ p x, count = 1 → s.reserveStart ≤ addr.toNat → s.chanMapped addr.toNat = true →
         s.phased.find? (fun p => s.phaseAt p ≤ addr.toNat && addr.toNat < s.phaseAt p + 20480) = some p → addr.toNat = s.phaseAt p + 4 * x →
         exec i s = .next (s.reply req 2 0 [s.phaseImage p x]) ∧ s.phaseImage p 0 = (s.launch p.launch).addr.extractLsb' 0 32 ∧
         s.phaseImage p 1 = (s.launch p.launch).addr.extractLsb' 32 32 ∧ s.phaseImage p 2 = BitVec.ofNat 32 p.gid ∧ s.phaseImage p 4 = p.lseq ∧
         s.phaseImage p 5 = p.target ∧ (∀ k < 8, p.state ≠ 2 → s.phaseImage p (20 + k) = p.wrec.extractLsb' (32 * k) 32) ∧
         (∀ k < 128, ∀ y, p.state ≠ 2 → find p.threads k = some y → s.phaseImage p (64 + k) = 0#14 ++ (y.pc.seg ++ y.pc.off) ∧ s.phaseImage p (192 + k) = BitVec.ofNat 32 y.wbase ∧
           ∀ j < 32, s.phaseImage p (1024 + 128 * j + k) = y.carry.getD j 0))) ∧
     (0 < count → req.firm = false → s.bound req = false → s.onlyOwn req addr.toNat count = false → ends i 2 1)) ∧
    (req.firm = true ∨ s.bound req = true → let i := Instr.mgmtExtend req reg digest
      (reg < 4 ∨ 7 < reg ∨ digest.length ≠ 8 → ends i 8 4) ∧
      (4 ≤ reg → reg ≤ 7 → digest.length = 8 → exec i s = .next ({ s with meas := put 0 s.meas reg (sha256 (bytesOf (getD 0 s.meas reg).toNat 32 ++ wordBytes digest)) }.reply req 8 0 []))) ∧
    (let i := Instr.mgmtAttestationReport req nonce
     (nonce.length ≠ 8 → ends i 9 4) ∧
     (nonce.length = 8 → ∃ ws, exec i s = .next (s.reply req 9 0 ws) ∧ ws.length = 2060 ∧ ws.getD 0 0 = 1 ∧ ws.getD 1 0 = (if req.firm then 0xFF else wd req.part) ∧
       ws.getD 2 0 = s.svn ∧ ∀ k < 8, ws.getD (4 + k) 0 = nonce.getD k 0 ∧ ∀ j < 8, ws.getD (12 + 8 * k + j) 0 = (getD 0 s.meas k).extractLsb' (32 * j) 32))) ∧
  (∀ (s : State) (req : Req) (addr : BitVec 64) (data cores : List Word) (victim : BitVec 64) (count prio keyid core slot wave word cluster : Nat) (key : BitVec 256) (value : Word),
    s.boot = .running → req.firm = true →
    let ends := fun (i : Instr) (op st : Nat) => exec i s = .next (s.reply req op st [])
    let does := fun (i : Instr) (op : Nat) (p : State → Prop) => ∃ t, exec i s = .next (t.reply req op 0 []) ∧ p t
    (let i := Instr.mgmtWrite req addr data
     let one := 2 ≤ addr.toNat / 2 ^ 60 ∧ addr.toNat / 2 ^ 60 ≤ 4
     (one → data.length ≠ 1 → ends i 3 2) ∧ (¬one → data = [] ∨ 1016 < data.length → ends i 3 4) ∧
     ((one → data.length = 1) → data ≠ [] → data.length ≤ 1016 → (∀ e, State.chanPut req addr.toNat 0 data s = .error e → ends i 3 e) ∧
       (addr.toNat % 4 = 0 → addr.toNat + 4 * data.length ≤ s.usableTop → does i 3 (fun t =>
         ∀ k < data.length, t.dramWord req.key (addr.toNat + 4 * k) = data.getD k 0)))) ∧
    (∀ p ∈ [(4, false, Instr.mgmtResume req addr), (5, true, .mgmtKill req addr)],
      (∀ e, s.heldAt addr.toNat = .error e → ends p.2.2 p.1 e) ∧
      (∀ h, s.heldAt addr.toNat = .ok h → h.frag.mode = .held ∧
        let s1 := if p.2.1 then (lanesOf (getD 0 (s.wave h.wk).record 1)).foldl (fun s l => s.modThread (h.tk l) (fun t => { t with killed := true })) s else s
        exec p.2.2 s = .next (((s1.leaveTrap h).settle h.gk).reply req p.1 0 []))) ∧
    (let i := Instr.mgmtSpatialPreemption req victim count prio
     let named := s.launches.filter (fun p => p.2.addr = victim && !p.2.done && p.2.refused.isNone)
     let found := (named.filter (fun p => p.2.part = req.part) ++ named).head?
     (found = none → ends i 6 6) ∧
     (∀ n l, found = some (n, l) → (prio ≤ l.prio → ends i 6 6) ∧
       (l.prio < prio → let ks := s.vacated n count
         ks.length ≤ count ∧ (∀ c ∈ ks, ∀ p ∈ s.groups, p.1 / 16 = c → s.saveBlocked p.1 = false ∧ s.fixedPart (s.launch p.2.launch).part = false) ∧
         exec i s = .next (((s.vacate n ks).notice 6 (wd count :: ks.map wd)).reply req 6 0 (wd ks.length :: ks.map wd))))) ∧
    (let i := Instr.mgmtScrub req keyid
     (keyid = 0 ∨ 254 < keyid → ends i 7 4) ∧
     (0 < keyid → keyid ≤ 254 → canonical 0 s.flushAll.tags = true → does i 7 (fun t => ∀ a, (getD 0 s.flushAll.tags (lineOf a) = keyid → getD 0 t.tags (lineOf a) = 0 ∧ getD 0 t.dram a = 0) ∧
       (getD 0 s.flushAll.tags (lineOf a) ≠ keyid → getD 0 t.tags (lineOf a) = getD 0 s.flushAll.tags (lineOf a) ∧ getD 0 t.dram a = getD 0 s.flushAll.dram a)))) ∧
    (let i := Instr.mgmtDoorbell req cores
     (cores.length ≠ 32 → ends i 10 4) ∧
     (cores.length = 32 → does i 10 (fun t => { t with cores := [] } = { s with cores := [] } ∧
       ∀ c < 1024, t.core c = if (cores.getD (c / 32) 0).getLsbD (c % 32) then { s.core c with fwbell := 1 } else s.core c))) ∧
    (let i := Instr.mgmtLoadTransportKey req keyid key
     (255 < keyid → ends i 12 4) ∧ (keyid ≤ 255 → (∃ p ∈ s.conns, p.2.key = keyid ∧ p.2 ≠ Conn.init) → ends i 12 6) ∧
     (keyid ≤ 255 → (∀ p ∈ s.conns, ¬(p.2.key = keyid ∧ p.2 ≠ Conn.init)) → exec i s = .next ({ s with tkeys := insert s.tkeys keyid key }.reply req 12 0 []))) ∧
    (let i := Instr.clockControlWrite req cluster value
     let index := fun (old new : BitVec 4) => if 8 ≤ new.toNat then old else new
     let c := s.cluster cluster
     (256 ≤ cluster → ends i 3 2) ∧
     (cluster < 256 → does i 3 (fun t => let v := t.cluster cluster
       v.dflt = index c.dflt (value.extractLsb' 12 4) ∧ v.max = index c.max (value.extractLsb' 8 4) ∧ v.min = index c.min (value.extractLsb' 4 4) ∧ v.lock = value.getLsbD 0 ∧
       v.cur = c.cur ∧ v.tgt = t.clusterTarget cluster ∧ { t with clusters := [] } = { s with clusters := [] }))) ∧
    (let i := Instr.steelyardControlWrite req cluster value
     (256 ≤ cluster → ends i 3 2) ∧
     (cluster < 256 → does i 3 (fun t => let v := t.cluster cluster
       v.share = value.getLsbD 31 ∧ v.age = max 64 (value.extractLsb' 16 12).toNat ∧ v.budget = max 64 (min 256 (value.extractLsb' 0 9).toNat) ∧
       v.held = (s.cluster cluster).held ∧ v.peak = quanta (v.held ++ (s.cluster cluster).freedIn (s.clockAt (4 * cluster))) ∧ (v.share = true → v.waiting = []) ∧ { t with clusters := [] } = { s with clusters := [] }))) ∧
    does (.throttleControlWrite req value) 3 (fun t => t.throttle.hold = (if value.extractLsb' 24 8 = 0 then 1 else value.extractLsb' 24 8) ∧
      t.throttle.tlim = value.extractLsb' 16 8 ∧ t.throttle.en = value.extractLsb' 8 4 ||| 1 ∧ t.throttle.src = s.throttle.src) ∧
    (let i := Instr.handlerStoreWrite req core word data
     (1024 ≤ core ∨ 1024 ≤ word → ends i 3 2) ∧
     (core < 1024 → word < 1024 → (data = [] ∨ 1016 < data.length → ends i 3 4) ∧ (data ≠ [] → data.length ≤ 1016 → 1024 < word + data.length → ends i 3 2) ∧
       (data ≠ [] → data.length ≤ 1016 → word + data.length ≤ 1024 → does i 3 (fun t =>
         (∀ k, getD 0 t.hstore k = if 1024 * core + word ≤ k ∧ k < 1024 * core + word + data.length then data.getD (k - (1024 * core + word)) 0 else getD 0 s.hstore k) ∧
         getD 0 t.meas 2 = (if word + data.length = 1024 then
           sha256 (bytesOf (getD 0 s.meas 2).toNat 32 ++ bytesOf (sha256 (wordBytes ((List.range 1024).map (fun k => getD 0 t.hstore (1024 * core + k))))).toNat 32)
           else getD 0 s.meas 2) ∧ { t with hstore := [], meas := [] } = { s with hstore := [], meas := [] })))) ∧
    (let i := Instr.landingRingBindingWrite req core slot value
     let b := value &&& 0xFF7F07FF
     let n := (value.extractLsb' 24 8).toNat + 1
     let size := (value.extractLsb' 16 7).toNat + 1
     let base := (value.extractLsb' 0 11).toNat
     (1024 ≤ core ∨ 16 ≤ slot ∨ 2048 < base + n * size → ends i 3 2) ∧
     (core < 1024 → slot < 16 → base + n * size ≤ 2048 →
       exec i s = .next ({ s with rings := insert s.rings (gkOf core slot) { binding := b, next := 0, drops := 0, landed := 0, q7 := [] } }.reply req 3 0 []))) ∧
    (let i := Instr.fullEmptyTableWrite req core slot word data
     (1024 ≤ core ∨ 16 ≤ slot ∨ 64 ≤ word → ends i 3 2) ∧
     (core < 1024 → slot < 16 → word < 64 → data ≠ [] → word + data.length ≤ 64 → ((s.group (gkOf core slot)).isSome → ends i 3 3) ∧
       (s.group (gkOf core slot) = none → does i 3 (fun t => { t with full := [] } = { s with full := [] } ∧
         ∀ k, getD false t.full k = (let j := k - (32768 * core + 2048 * slot + 32 * word);
           if 32768 * core + 2048 * slot + 32 * word ≤ k ∧ j < 32 * data.length then (data.getD (j / 32) 0).getLsbD (j % 32) else getD false s.full k))))) ∧
    (let i := Instr.trapRecordWrite req core slot wave word [value]
     let gk := gkOf core slot
     (1024 ≤ core ∨ 16 ≤ slot ∨ 4 ≤ wave ∨ 2112 ≤ word → ends i 3 2) ∧
     (core < 1024 → slot < 16 → wave < 4 → word < 2112 → (s.group gk = none → ends i 3 2) ∧
       (∀ g, s.group gk = some g → ((s.launch g.launch).waves ≤ wave → ends i 3 2) ∧
         (wave < (s.launch g.launch).waves → let held := ∃ f ∈ (s.wave (wkOf gk wave)).frags, f.mode = .held
           (¬held → ends i 3 3) ∧ (held → word < 64 → ends i 3 0) ∧
           (held → 64 ≤ word → let n := (word - 64) % 64
             let mask : Word := if n = 0 ∨ (4 ≤ n ∧ n ≤ 7) ∨ n = 9 ∨ n = 11 ∨ (16 ≤ n ∧ n ≤ 31) ∨ 48 ≤ n then 0xFFFFFFFF
               else if n = 2 then 0x7C else if n = 3 then 0xFFFF007F else if n = 8 ∨ n = 10 then 0x03FF03FF else 0
             does i 3 (fun t => getD 0 (t.wave (wkOf gk wave)).record word = (getD 0 (s.wave (wkOf gk wave)).record word &&& ~~~mask) ||| (value &&& mask))))))))

/-! ## Reset, steps, words, memory -/

/-- What reset leaves (R63, R294, R343, R344, R350, R355, R359, R378): the device is held, nothing is resident, no unit has an owner, no partition
has been seen valid, and the privileged registers, the clusters and the throttle hold the values of their tables. The spec gives no reset value for
these, which the model takes empty or 0: store buffers and what coherence keeps (log 5), connections, keys and what is on the wire (log 8), the
image, the walks and held entries of translation caches, the cores' engine lists, the owners and the seen valid bits (log 9). -/
def Obligations.ResetLeaves : Prop :=
  let s := State.reset
  s.boot = .held ∧ s.memOk = true ∧ s.groups = [] ∧ s.launches = [] ∧ s.phased = [] ∧ s.heirs = [] ∧ s.saves = [] ∧ s.sbuf = [] ∧ s.walks = [] ∧ s.held = [] ∧
  s.here = none ∧ s.image = [] ∧ s.imageLen = 0 ∧ s.races = [] ∧ s.writes = [] ∧ s.asks = [] ∧ s.checks = [] ∧ s.conns = [] ∧ s.wire = [] ∧ s.outbox = [] ∧ s.ptpOut = [] ∧ s.keys = [] ∧ s.tkeys = [] ∧
  (∀ c, s.core c = { s.core c with hmask := 0, hfwd := 0, hagg := 64, hwd := 0x4000, svwd := 0x0100, tslice := 2000, fwbell := 0, ops := [], q0 := [], q1 := [], holder := none, loads := [] }) ∧
  (∀ k, s.cluster k = { s.cluster k with cur := 5, tgt := 5, busy := false, dflt := 5, max := 7, min := 0, lock := false, share := false, age := 1024, budget := 256, peak := 0, held := [], waiting := [] }) ∧
  s.throttle.hold = 100 ∧ s.throttle.tlim = 105 ∧ s.throttle.en = 0xF ∧ s.throttle.src = 0 ∧ s.throttle.on = false ∧
  (∀ u, getD 255 s.owners u = 255) ∧ (∀ p, getD false s.valids p = false) ∧ (∀ p, s.licence p = Licence.init) ∧ (∀ k, s.tag k = SegTag.init) ∧ (∀ k, find s.rings k = none) ∧
  (∀ k, s.thread k = Thread.init) ∧ (∀ k, getD 0 s.meas k = 0)

/-- R132, R140, R296, R301, R318: where the one possible move is the issue of a core at an instruction boundary with no trap due, the step runs the
instruction that the word of the picked fragment decodes to, in the state with time passed and the cursor at the fragment; a handler's word
stands in the handler store, another's in the store segment that holds its segment, and is the word there or one that a load has replaced
since the fragment's last fence; and a word that decodes to none runs as an illegal instruction. Where several moves are possible the
step makes one of them (which one, a free value says: log 3). -/
def Obligations.StepRunsTheDecodedInstruction : Prop :=
  (∀ (s : State) (c : Nat) (p : Pick) (h : Here),
    let n := s.note s.looks
    let passed := n.moved s.looks (.issue c)
    let t := passed.prepare p
    n.moves s.looks = [.issue c] → passed.issue s.looks c = some p → t.here = some h → h.frag.after = none → h.nevDue = 0 → h.frag.phw = 0 →
    let runs := fun (w : Word) (s1 : State) => step s = (match decode w with | .ok i => exec i s1 | .error _ => exec (.illegalInstructionWord w) s1)
    (h.frag.past = true → step s = exec (.fetchFault 1) t) ∧
    (h.frag.past = false → h.handler = true → runs (getD 0 t.hstore (1024 * h.core + h.frag.pc.off.toNat)) t) ∧
    (∀ s1 e, h.frag.past = false → h.handler = false → t.segCopy h.core h.g.launch h.frag.pc.seg.toNat = (s1, some e) →
      let tag := s1.tag (32 * h.core + (e.extractLsb' 64 5).toNat)
      let k := 32768 * h.core + 1024 * (e.extractLsb' 64 5).toNat + h.frag.pc.off.toNat
      tag.state = .loaded → tag.part = (s1.launch h.g.launch).part → tag.va = e.extractLsb' 0 52 →
      ∃ w, runs w s1 ∧ (w = getD 0 s1.istore k ∨ ∃ m, h.frag.fence = some m ∧ ∃ x ∈ getD [] s1.iold k, m ≤ x.1 ∧ w = x.2))) ∧
  (∀ s : State,
    let n := s.note s.looks
    (n.moves s.looks = [] → step s = .next (if s.boot = .held then n else n.tick 0 (n.timeBound s.looks))) ∧
    (∀ m, n.moves s.looks = [m] → step s = (n.makeMove s.looks m).out) ∧
    (n.moves s.looks ≠ [] → ∃ m ∈ n.moves s.looks, step s = (n.makeMove s.looks m).out ∨ step s = ({ n with fresh := n.fresh + 1 }.makeMove s.looks m).out))

/-- R66 to R78: words written out field by field from the encoding tables stand for the instructions that the spec gives them, and words with a
reserved field, number or function for none. -/
def Obligations.WordsDecode : Prop :=
  (∀ p ∈ ([
      (0x01#7 ++ (3#7 ++ (1#7 ++ (2#7 ++ 0#4))), .add 3 1 2), (0x20#7 ++ (1#7 ++ (0#7 ++ 2040#11)), .addi 1 0 (-8)), (0x39#7 ++ (5#7 ++ 0x3FFFC#18), .bnz 5 (-4)),
      (0x31#7 ++ (17#7 ++ 0x3FE00#18), .lih 17 0x3FE00), (0x10#7 ++ (4#7 ++ (1#7 ++ (2#5 ++ (1#2 ++ (2#2 ++ 1#2))))), .ld 4 1 2 .wf .acq .clu),
      (0x15#7 ++ (6#7 ++ (1#7 ++ (2#5 ++ (9#4 ++ 2#2)))), .atoma 6 1 2 .cas .dev), (0x12#7 ++ (8#7 ++ (2#7 ++ (1#5 ++ 3#6))), .ldm 8 2 1 3),
      (0x1A#7 ++ (0#7 ++ (0#7 ++ (0#3 ++ (1#2 ++ (2#2 ++ 3#4))))), .fence .rel .dev), (0x04#7 ++ (2#7 ++ (1#7 ++ (1#7 ++ 3#4))), .ffma 2 1 1),
      (0x40#7 ++ (1#7 ++ (4#7 ++ (0#7 ++ 3#4))), .ctxsv 1 4)] : List (Word × Instr)), decode p.1 = .ok p.2 ∧ encode p.2 = some p.1) ∧
  (∀ w ∈ ([0, 0x20100830, 0x22100830, 0x01#7 ++ (125#7 ++ (1#7 ++ (2#7 ++ 0#4))), 0x09#7 ++ (0#7 ++ (3#7 ++ (12#7 ++ 0#4))), 0x30#7 ++ 0x3FFFFFF#25] : List Word),
    ∃ e, decode w = .error e)

/-- R66 to R78: every well-formed instruction that is not an event has a word, an event has none; decoding the word of a well-formed instruction
gives that instruction back, with every operand; and a word that decodes is the word of the instruction that it decodes to, which is well
formed. -/
def Obligations.DecodeAndEncodeAgree : Prop :=
  (∀ i : Instr, i.wellFormed = true → i.isEvent = false → ∃ w, encode i = some w ∧ decode w = .ok i) ∧ (∀ i : Instr, i.isEvent = true → encode i = none) ∧
  (∀ (i : Instr) (w : Word), encode i = some w → i.wellFormed = true → decode w = .ok i) ∧
  (∀ (w : Word) (i : Instr), decode w = .ok i → i.wellFormed = true ∧ encode i = some w)

/-- Every step keeps device memory and the scratchpads in their canonical form: addresses rise, and no entry holds what an unlisted address
reads as. -/
def Obligations.StepsKeepTheFormOfMemory : Prop :=
  ∀ s t : State, s.memOk = true → step s = .next t → t.memOk = true
end

