-- ==== Sys2Proof/Laws/Maps.lean ====
section
/-! SUPPORT. Laws of sparse maps: reading after a write, and the canonical form that every write keeps. -/

namespace Sys2Proof.Machine

variable {α : Type}

/-! ## Reading after a write -/

theorem find_erase_same (m : SMap α) (k : Nat) : find (erase m k) k = none := by
  simp only [find, Option.map_eq_none_iff, List.find?_eq_none]
  intro p hp
  simp [erase] at hp
  simp [hp.2]

theorem find_erase_ne (m : SMap α) {k j : Nat} (h : j ≠ k) : find (erase m k) j = find m j := by
  simp only [find, erase]
  congr 1
  induction m with
  | nil => rfl
  | cons p r ih =>
    by_cases hk : p.1 = k
    · have hj : (p.1 == j) = false := by simp [hk, Ne.symm h]
      simp [hk, ih, Ne.symm h]
    · by_cases hj : p.1 = j
      · simp [hj, h]
      · simp [hk, hj, ih]

theorem find_ins_same (m : SMap α) (k : Nat) (v : α) (h : find m k = none) : find (ins k v m) k = some v := by
  induction m with
  | nil => simp [ins, find]
  | cons p r ih =>
    by_cases hp : p.1 = k
    · simp [find, hp] at h
    · have hr : find r k = none := by simpa [find, hp] using h
      simp only [ins]
      split
      · simp [find]
      · have := ih hr
        simp only [find] at this
        simp [find, hp, this]

theorem find_ins_ne (m : SMap α) {k j : Nat} (v : α) (h : j ≠ k) : find (ins k v m) j = find m j := by
  induction m with
  | nil => simp [ins, find, Ne.symm h]
  | cons p r ih =>
    simp only [ins]
    split
    · simp [find, Ne.symm h]
    · by_cases hp : p.1 = j
      · simp [find, hp]
      · simp only [find] at ih
        simp [find, hp, ih]

theorem find_insert_same (m : SMap α) (k : Nat) (v : α) : find (insert m k v) k = some v :=
  find_ins_same _ _ _ (find_erase_same m k)

theorem find_insert_ne (m : SMap α) {k j : Nat} (v : α) (h : j ≠ k) : find (insert m k v) j = find m j := by
  rw [insert, find_ins_ne _ _ h, find_erase_ne _ h]

theorem getD_put_same [DecidableEq α] (d : α) (m : SMap α) (k : Nat) (v : α) : getD d (put d m k v) k = v := by
  simp only [getD, put]
  split
  · simp [find_erase_same, *]
  · simp [find_insert_same]

theorem getD_put_ne [DecidableEq α] (d : α) (m : SMap α) {k j : Nat} (v : α) (h : j ≠ k) : getD d (put d m k v) j = getD d m j := by
  simp only [getD, put]
  split
  · rw [find_erase_ne _ h]
  · rw [find_insert_ne _ _ h]

theorem getD_put [DecidableEq α] (d : α) (m : SMap α) (k j : Nat) (v : α) :
    getD d (put d m k v) j = if j = k then v else getD d m j := by
  split
  · subst_vars; exact getD_put_same d m _ v
  · exact getD_put_ne d m v ‹_›

theorem find_dropRange (m : SMap α) (lo hi j : Nat) : find (dropRange m lo hi) j = if lo ≤ j ∧ j < hi then none else find m j := by
  simp only [find, dropRange]
  induction m with
  | nil => simp
  | cons p r ih =>
    by_cases hp : p.1 = j
    · subst hp
      by_cases hr : lo ≤ p.1 ∧ p.1 < hi
      · simp only [List.filter_cons]
        simp [hr] at ih ⊢
        exact fun a b ha => ih a b ha
      · have hd : (!(decide (lo ≤ p.1) && decide (p.1 < hi))) = true := by
          simp only [Bool.not_eq_true', Bool.and_eq_false_iff, decide_eq_false_iff_not]; omega
        rw [List.filter_cons, if_pos hd, if_neg hr]
        simp
    · simp only [List.filter_cons]
      split <;> simp [hp] <;> simpa using ih

theorem getD_dropRange (d : α) (m : SMap α) (lo hi j : Nat) :
    getD d (dropRange m lo hi) j = if lo ≤ j ∧ j < hi then d else getD d m j := by
  simp only [getD, find_dropRange]
  split <;> rfl

/-! ## The canonical form -/

/-- The canonical form as a proposition: keys strictly rising, no entry equal to the default. -/
theorem canonical_iff [DecidableEq α] (d : α) (m : SMap α) :
    canonical d m = true ↔ m.Pairwise (fun p q => p.1 < q.1) ∧ ∀ p ∈ m, p.2 ≠ d := by
  induction m with
  | nil => simp [canonical]
  | cons p r ih =>
    cases r with
    | nil => simp [canonical]
    | cons q r =>
      simp only [canonical, Bool.and_eq_true, decide_eq_true_eq, ih]
      constructor
      · rintro ⟨⟨hp, hlt⟩, hpw, hd⟩
        refine ⟨List.pairwise_cons.2 ⟨?_, hpw⟩, ?_⟩
        · intro x hx
          rcases List.mem_cons.1 hx with rfl | hx
          · exact hlt
          · exact Nat.lt_trans hlt ((List.pairwise_cons.1 hpw).1 x hx)
        · intro x hx
          rcases List.mem_cons.1 hx with rfl | hx
          · simpa using hp
          · exact hd x hx
      · rintro ⟨hpw, hd⟩
        have h1 := List.pairwise_cons.1 hpw
        exact ⟨⟨by simpa using hd p (by simp), h1.1 q (by simp)⟩, h1.2, fun x hx => hd x (by simp [hx])⟩

theorem canonical_filter [DecidableEq α] (d : α) (m : SMap α) (f : Nat × α → Bool) (h : canonical d m = true) :
    canonical d (List.filter f m) = true := by
  rw [canonical_iff] at *
  exact ⟨h.1.filter _, fun p hp => h.2 p (List.mem_filter.1 hp).1⟩

theorem canonical_erase [DecidableEq α] (d : α) (m : SMap α) (k : Nat) (h : canonical d m = true) : canonical d (erase m k) = true :=
  canonical_filter d m _ h

theorem canonical_dropRange [DecidableEq α] (d : α) (m : SMap α) (lo hi : Nat) (h : canonical d m = true) :
    canonical d (dropRange m lo hi) = true := canonical_filter d m _ h

theorem mem_ins (k : Nat) (v : α) (m : SMap α) (p : Nat × α) : p ∈ ins k v m ↔ p = (k, v) ∨ p ∈ m := by
  induction m with
  | nil => simp [ins]
  | cons q r ih =>
    simp only [ins]
    split
    · simp
    · rw [List.mem_cons, ih, List.mem_cons, or_left_comm]

theorem canonical_ins [DecidableEq α] (d : α) (m : SMap α) (k : Nat) (v : α) (hv : v ≠ d) (hk : ∀ p ∈ m, p.1 ≠ k)
    (h : canonical d m = true) : canonical d (ins k v m) = true := by
  rw [canonical_iff] at *
  obtain ⟨hpw, hd⟩ := h
  refine ⟨?_, fun p hp => ?_⟩
  · clear hd
    induction m with
    | nil => simp [ins]
    | cons q r ih =>
      have h1 := List.pairwise_cons.1 hpw
      simp only [ins]
      split
      next hlt =>
        refine List.pairwise_cons.2 ⟨fun x hx => ?_, hpw⟩
        rcases List.mem_cons.1 hx with rfl | hx
        · exact hlt
        · exact Nat.lt_trans hlt (h1.1 x hx)
      next hge =>
        refine List.pairwise_cons.2 ⟨fun x hx => ?_, ih (fun p hp => hk p (by simp [hp])) h1.2⟩
        rcases (mem_ins k v r x).1 hx with rfl | hx
        · have := hk q (by simp); simp only; omega
        · exact h1.1 x hx
  · rcases (mem_ins k v m p).1 hp with rfl | hp
    · exact hv
    · exact hd p hp

theorem canonical_put [DecidableEq α] (d : α) (m : SMap α) (k : Nat) (v : α) (h : canonical d m = true) :
    canonical d (put d m k v) = true := by
  simp only [put]
  split
  · exact canonical_erase d m k h
  · refine canonical_ins d _ k v ‹_› (fun p hp => ?_) (canonical_erase d m k h)
    simp [erase] at hp
    exact hp.2

theorem canonical_foldl_put [DecidableEq α] {β : Type} (d : α) (es : List β) (key : β → Nat) (val : β → α) (m : SMap α)
    (h : canonical d m = true) : canonical d (es.foldl (fun m e => put d m (key e) (val e)) m) = true := by
  induction es generalizing m with
  | nil => exact h
  | cons e r ih => exact ih _ (canonical_put d m _ _ h)

theorem canonical_putAll [DecidableEq α] (d : α) (m : SMap α) (base : Nat) (e : SMap α) (h : canonical d m = true) :
    canonical d (putAll d m base e) = true := canonical_foldl_put d e _ _ m h

/-- In the canonical form equal maps are equal data: reading the same everywhere gives the same list. -/
theorem canonical_ext [DecidableEq α] (d : α) (m n : SMap α) (hm : canonical d m = true) (hn : canonical d n = true)
    (h : ∀ k, getD d m k = getD d n k) : m = n := by
  rw [canonical_iff] at hm hn
  have getD_head (p : Nat × α) (r : SMap α) : getD d (p :: r) p.1 = p.2 := by simp [getD, find]
  have getD_low (p : Nat × α) (r : SMap α) (k : Nat) (hk : k < p.1) (hp : (p :: r).Pairwise (fun p q => p.1 < q.1)) : getD d (p :: r) k = d := by
    have hnone : find (p :: r) k = none := by
      simp only [find, Option.map_eq_none_iff, List.find?_eq_none, beq_iff_eq]
      intro x hx
      rcases List.mem_cons.1 hx with rfl | hx
      · omega
      · have := (List.pairwise_cons.1 hp).1 x hx; omega
    simp [getD, hnone]
  induction m generalizing n with
  | nil =>
    cases n with
    | nil => rfl
    | cons q r =>
      have := h q.1
      rw [getD_head] at this
      exact absurd this.symm (hn.2 q (by simp))
  | cons p m ih =>
    cases n with
    | nil =>
      have := h p.1
      rw [getD_head] at this
      exact absurd this (hm.2 p (by simp))
    | cons q n =>
      have hkey : p.1 = q.1 := by
        rcases Nat.lt_trichotomy p.1 q.1 with hlt | heq | hgt
        · have := h p.1
          rw [getD_head, getD_low q n p.1 hlt hn.1] at this
          exact absurd this (hm.2 p (by simp))
        · exact heq
        · have := h q.1
          rw [getD_head, getD_low p m q.1 hgt hm.1] at this
          exact absurd this.symm (hn.2 q (by simp))
      have hval : p.2 = q.2 := by
        have := h p.1
        rwa [getD_head, hkey, getD_head] at this
      have hpq : p = q := Prod.ext hkey hval
      subst hpq
      have hm1 := List.pairwise_cons.1 hm.1
      have hn1 := List.pairwise_cons.1 hn.1
      congr 1
      refine ih n ⟨hm1.2, fun x hx => hm.2 x (by simp [hx])⟩ ⟨hn1.2, fun x hx => hn.2 x (by simp [hx])⟩ (fun k => ?_)
      by_cases hk : p.1 = k
      · have none_of (r : SMap α) (hr : ∀ x ∈ r, p.1 < x.1) : getD d r k = d := by
          have : find r k = none := by
            simp only [find, Option.map_eq_none_iff, List.find?_eq_none, beq_iff_eq]
            intro x hx
            have := hr x hx; omega
          simp [getD, this]
        rw [none_of m hm1.1, none_of n hn1.1]
      · have := h k
        simpa [getD, find, hk] using this

end Sys2Proof.Machine
end

