-- ==== Sys2Proof/Laws/State.lean ====
section
/-! SUPPORT. One lemma for each field of State under each named update, and reading a component after writing one. -/

namespace Sys2Proof.Machine

variable (s : State)

section
variable (c : Nat) (v : Core)
@[simp] theorem setCore_cur : (s.setCore c v).cur = s.cur := rfl
@[simp] theorem setCore_fresh : (s.setCore c v).fresh = s.fresh := rfl
@[simp] theorem setCore_inputs : (s.setCore c v).inputs = s.inputs := rfl
@[simp] theorem setCore_towers : (s.setCore c v).towers = s.towers := rfl
@[simp] theorem setCore_dram : (s.setCore c v).dram = s.dram := rfl
@[simp] theorem setCore_tags : (s.setCore c v).tags = s.tags := rfl
@[simp] theorem setCore_bad : (s.setCore c v).bad = s.bad := rfl
@[simp] theorem setCore_marks : (s.setCore c v).marks = s.marks := rfl
@[simp] theorem setCore_walks : (s.setCore c v).walks = s.walks := rfl
@[simp] theorem setCore_held : (s.setCore c v).held = s.held := rfl
@[simp] theorem setCore_sbuf : (s.setCore c v).sbuf = s.sbuf := rfl
@[simp] theorem setCore_pad : (s.setCore c v).pad = s.pad := rfl
@[simp] theorem setCore_full : (s.setCore c v).full = s.full := rfl
@[simp] theorem setCore_races : (s.setCore c v).races = s.races := rfl
@[simp] theorem setCore_writes : (s.setCore c v).writes = s.writes := rfl
@[simp] theorem setCore_wnum : (s.setCore c v).wnum = s.wnum := rfl
@[simp] theorem setCore_gsync : (s.setCore c v).gsync = s.gsync := rfl
@[simp] theorem setCore_rf : (s.setCore c v).rf = s.rf := rfl
@[simp] theorem setCore_acc : (s.setCore c v).acc = s.acc := rfl
@[simp] theorem setCore_istore : (s.setCore c v).istore = s.istore := rfl
@[simp] theorem setCore_accBy : (s.setCore c v).accBy = s.accBy := rfl
@[simp] theorem setCore_itags : (s.setCore c v).itags = s.itags := rfl
@[simp] theorem setCore_iold : (s.setCore c v).iold = s.iold := rfl
@[simp] theorem setCore_ichg : (s.setCore c v).ichg = s.ichg := rfl
@[simp] theorem setCore_hstore : (s.setCore c v).hstore = s.hstore := rfl
@[simp] theorem setCore_threads : (s.setCore c v).threads = s.threads := rfl
@[simp] theorem setCore_waves : (s.setCore c v).waves = s.waves := rfl
@[simp] theorem setCore_groups : (s.setCore c v).groups = s.groups := rfl
@[simp] theorem setCore_rings : (s.setCore c v).rings = s.rings := rfl
@[simp] theorem setCore_lics : (s.setCore c v).lics = s.lics := rfl
@[simp] theorem setCore_clusters : (s.setCore c v).clusters = s.clusters := rfl
@[simp] theorem setCore_clocks : (s.setCore c v).clocks = s.clocks := rfl
@[simp] theorem setCore_throttle : (s.setCore c v).throttle = s.throttle := rfl
@[simp] theorem setCore_launches : (s.setCore c v).launches = s.launches := rfl
@[simp] theorem setCore_phased : (s.setCore c v).phased = s.phased := rfl
@[simp] theorem setCore_heirs : (s.setCore c v).heirs = s.heirs := rfl
@[simp] theorem setCore_lcores : (s.setCore c v).lcores = s.lcores := rfl
@[simp] theorem setCore_checks : (s.setCore c v).checks = s.checks := rfl
@[simp] theorem setCore_orphans : (s.setCore c v).orphans = s.orphans := rfl
@[simp] theorem setCore_saves : (s.setCore c v).saves = s.saves := rfl
@[simp] theorem setCore_owners : (s.setCore c v).owners = s.owners := rfl
@[simp] theorem setCore_valids : (s.setCore c v).valids = s.valids := rfl
@[simp] theorem setCore_ptp : (s.setCore c v).ptp = s.ptp := rfl
@[simp] theorem setCore_ptpStamps : (s.setCore c v).ptpStamps = s.ptpStamps := rfl
@[simp] theorem setCore_ports : (s.setCore c v).ports = s.ports := rfl
@[simp] theorem setCore_ptpOut : (s.setCore c v).ptpOut = s.ptpOut := rfl
@[simp] theorem setCore_matchTable : (s.setCore c v).matchTable = s.matchTable := rfl
@[simp] theorem setCore_drops : (s.setCore c v).drops = s.drops := rfl
@[simp] theorem setCore_conns : (s.setCore c v).conns = s.conns := rfl
@[simp] theorem setCore_asks : (s.setCore c v).asks = s.asks := rfl
@[simp] theorem setCore_tkeys : (s.setCore c v).tkeys = s.tkeys := rfl
@[simp] theorem setCore_keys : (s.setCore c v).keys = s.keys := rfl
@[simp] theorem setCore_wire : (s.setCore c v).wire = s.wire := rfl
@[simp] theorem setCore_outbox : (s.setCore c v).outbox = s.outbox := rfl
@[simp] theorem setCore_noticeTo : (s.setCore c v).noticeTo = s.noticeTo := rfl
@[simp] theorem setCore_pinReply : (s.setCore c v).pinReply = s.pinReply := rfl
@[simp] theorem setCore_pinAck : (s.setCore c v).pinAck = s.pinAck := rfl
@[simp] theorem setCore_meas : (s.setCore c v).meas = s.meas := rfl
@[simp] theorem setCore_image : (s.setCore c v).image = s.image := rfl
@[simp] theorem setCore_imageLen : (s.setCore c v).imageLen = s.imageLen := rfl
@[simp] theorem setCore_svn : (s.setCore c v).svn = s.svn := rfl
@[simp] theorem setCore_boot : (s.setCore c v).boot = s.boot := rfl
end

section
variable (k : Nat) (v : Group)
@[simp] theorem setGroup_cur : (s.setGroup k v).cur = s.cur := rfl
@[simp] theorem setGroup_fresh : (s.setGroup k v).fresh = s.fresh := rfl
@[simp] theorem setGroup_inputs : (s.setGroup k v).inputs = s.inputs := rfl
@[simp] theorem setGroup_towers : (s.setGroup k v).towers = s.towers := rfl
@[simp] theorem setGroup_dram : (s.setGroup k v).dram = s.dram := rfl
@[simp] theorem setGroup_tags : (s.setGroup k v).tags = s.tags := rfl
@[simp] theorem setGroup_bad : (s.setGroup k v).bad = s.bad := rfl
@[simp] theorem setGroup_marks : (s.setGroup k v).marks = s.marks := rfl
@[simp] theorem setGroup_walks : (s.setGroup k v).walks = s.walks := rfl
@[simp] theorem setGroup_held : (s.setGroup k v).held = s.held := rfl
@[simp] theorem setGroup_sbuf : (s.setGroup k v).sbuf = s.sbuf := rfl
@[simp] theorem setGroup_pad : (s.setGroup k v).pad = s.pad := rfl
@[simp] theorem setGroup_full : (s.setGroup k v).full = s.full := rfl
@[simp] theorem setGroup_races : (s.setGroup k v).races = s.races := rfl
@[simp] theorem setGroup_writes : (s.setGroup k v).writes = s.writes := rfl
@[simp] theorem setGroup_wnum : (s.setGroup k v).wnum = s.wnum := rfl
@[simp] theorem setGroup_gsync : (s.setGroup k v).gsync = s.gsync := rfl
@[simp] theorem setGroup_rf : (s.setGroup k v).rf = s.rf := rfl
@[simp] theorem setGroup_acc : (s.setGroup k v).acc = s.acc := rfl
@[simp] theorem setGroup_istore : (s.setGroup k v).istore = s.istore := rfl
@[simp] theorem setGroup_accBy : (s.setGroup k v).accBy = s.accBy := rfl
@[simp] theorem setGroup_itags : (s.setGroup k v).itags = s.itags := rfl
@[simp] theorem setGroup_iold : (s.setGroup k v).iold = s.iold := rfl
@[simp] theorem setGroup_ichg : (s.setGroup k v).ichg = s.ichg := rfl
@[simp] theorem setGroup_hstore : (s.setGroup k v).hstore = s.hstore := rfl
@[simp] theorem setGroup_threads : (s.setGroup k v).threads = s.threads := rfl
@[simp] theorem setGroup_waves : (s.setGroup k v).waves = s.waves := rfl
@[simp] theorem setGroup_cores : (s.setGroup k v).cores = s.cores := rfl
@[simp] theorem setGroup_rings : (s.setGroup k v).rings = s.rings := rfl
@[simp] theorem setGroup_lics : (s.setGroup k v).lics = s.lics := rfl
@[simp] theorem setGroup_clusters : (s.setGroup k v).clusters = s.clusters := rfl
@[simp] theorem setGroup_clocks : (s.setGroup k v).clocks = s.clocks := rfl
@[simp] theorem setGroup_throttle : (s.setGroup k v).throttle = s.throttle := rfl
@[simp] theorem setGroup_launches : (s.setGroup k v).launches = s.launches := rfl
@[simp] theorem setGroup_phased : (s.setGroup k v).phased = s.phased := rfl
@[simp] theorem setGroup_heirs : (s.setGroup k v).heirs = s.heirs := rfl
@[simp] theorem setGroup_lcores : (s.setGroup k v).lcores = s.lcores := rfl
@[simp] theorem setGroup_checks : (s.setGroup k v).checks = s.checks := rfl
@[simp] theorem setGroup_orphans : (s.setGroup k v).orphans = s.orphans := rfl
@[simp] theorem setGroup_saves : (s.setGroup k v).saves = s.saves := rfl
@[simp] theorem setGroup_owners : (s.setGroup k v).owners = s.owners := rfl
@[simp] theorem setGroup_valids : (s.setGroup k v).valids = s.valids := rfl
@[simp] theorem setGroup_ptp : (s.setGroup k v).ptp = s.ptp := rfl
@[simp] theorem setGroup_ptpStamps : (s.setGroup k v).ptpStamps = s.ptpStamps := rfl
@[simp] theorem setGroup_ports : (s.setGroup k v).ports = s.ports := rfl
@[simp] theorem setGroup_ptpOut : (s.setGroup k v).ptpOut = s.ptpOut := rfl
@[simp] theorem setGroup_matchTable : (s.setGroup k v).matchTable = s.matchTable := rfl
@[simp] theorem setGroup_drops : (s.setGroup k v).drops = s.drops := rfl
@[simp] theorem setGroup_conns : (s.setGroup k v).conns = s.conns := rfl
@[simp] theorem setGroup_asks : (s.setGroup k v).asks = s.asks := rfl
@[simp] theorem setGroup_tkeys : (s.setGroup k v).tkeys = s.tkeys := rfl
@[simp] theorem setGroup_keys : (s.setGroup k v).keys = s.keys := rfl
@[simp] theorem setGroup_wire : (s.setGroup k v).wire = s.wire := rfl
@[simp] theorem setGroup_outbox : (s.setGroup k v).outbox = s.outbox := rfl
@[simp] theorem setGroup_noticeTo : (s.setGroup k v).noticeTo = s.noticeTo := rfl
@[simp] theorem setGroup_pinReply : (s.setGroup k v).pinReply = s.pinReply := rfl
@[simp] theorem setGroup_pinAck : (s.setGroup k v).pinAck = s.pinAck := rfl
@[simp] theorem setGroup_meas : (s.setGroup k v).meas = s.meas := rfl
@[simp] theorem setGroup_image : (s.setGroup k v).image = s.image := rfl
@[simp] theorem setGroup_imageLen : (s.setGroup k v).imageLen = s.imageLen := rfl
@[simp] theorem setGroup_svn : (s.setGroup k v).svn = s.svn := rfl
@[simp] theorem setGroup_boot : (s.setGroup k v).boot = s.boot := rfl
end

section
variable (k : Nat) (v : Wave)
@[simp] theorem setWave_cur : (s.setWave k v).cur = s.cur := rfl
@[simp] theorem setWave_fresh : (s.setWave k v).fresh = s.fresh := rfl
@[simp] theorem setWave_inputs : (s.setWave k v).inputs = s.inputs := rfl
@[simp] theorem setWave_towers : (s.setWave k v).towers = s.towers := rfl
@[simp] theorem setWave_dram : (s.setWave k v).dram = s.dram := rfl
@[simp] theorem setWave_tags : (s.setWave k v).tags = s.tags := rfl
@[simp] theorem setWave_bad : (s.setWave k v).bad = s.bad := rfl
@[simp] theorem setWave_marks : (s.setWave k v).marks = s.marks := rfl
@[simp] theorem setWave_walks : (s.setWave k v).walks = s.walks := rfl
@[simp] theorem setWave_held : (s.setWave k v).held = s.held := rfl
@[simp] theorem setWave_sbuf : (s.setWave k v).sbuf = s.sbuf := rfl
@[simp] theorem setWave_pad : (s.setWave k v).pad = s.pad := rfl
@[simp] theorem setWave_full : (s.setWave k v).full = s.full := rfl
@[simp] theorem setWave_races : (s.setWave k v).races = s.races := rfl
@[simp] theorem setWave_writes : (s.setWave k v).writes = s.writes := rfl
@[simp] theorem setWave_wnum : (s.setWave k v).wnum = s.wnum := rfl
@[simp] theorem setWave_gsync : (s.setWave k v).gsync = s.gsync := rfl
@[simp] theorem setWave_rf : (s.setWave k v).rf = s.rf := rfl
@[simp] theorem setWave_acc : (s.setWave k v).acc = s.acc := rfl
@[simp] theorem setWave_istore : (s.setWave k v).istore = s.istore := rfl
@[simp] theorem setWave_accBy : (s.setWave k v).accBy = s.accBy := rfl
@[simp] theorem setWave_itags : (s.setWave k v).itags = s.itags := rfl
@[simp] theorem setWave_iold : (s.setWave k v).iold = s.iold := rfl
@[simp] theorem setWave_ichg : (s.setWave k v).ichg = s.ichg := rfl
@[simp] theorem setWave_hstore : (s.setWave k v).hstore = s.hstore := rfl
@[simp] theorem setWave_threads : (s.setWave k v).threads = s.threads := rfl
@[simp] theorem setWave_groups : (s.setWave k v).groups = s.groups := rfl
@[simp] theorem setWave_cores : (s.setWave k v).cores = s.cores := rfl
@[simp] theorem setWave_rings : (s.setWave k v).rings = s.rings := rfl
@[simp] theorem setWave_lics : (s.setWave k v).lics = s.lics := rfl
@[simp] theorem setWave_clusters : (s.setWave k v).clusters = s.clusters := rfl
@[simp] theorem setWave_clocks : (s.setWave k v).clocks = s.clocks := rfl
@[simp] theorem setWave_throttle : (s.setWave k v).throttle = s.throttle := rfl
@[simp] theorem setWave_launches : (s.setWave k v).launches = s.launches := rfl
@[simp] theorem setWave_phased : (s.setWave k v).phased = s.phased := rfl
@[simp] theorem setWave_heirs : (s.setWave k v).heirs = s.heirs := rfl
@[simp] theorem setWave_lcores : (s.setWave k v).lcores = s.lcores := rfl
@[simp] theorem setWave_checks : (s.setWave k v).checks = s.checks := rfl
@[simp] theorem setWave_orphans : (s.setWave k v).orphans = s.orphans := rfl
@[simp] theorem setWave_saves : (s.setWave k v).saves = s.saves := rfl
@[simp] theorem setWave_owners : (s.setWave k v).owners = s.owners := rfl
@[simp] theorem setWave_valids : (s.setWave k v).valids = s.valids := rfl
@[simp] theorem setWave_ptp : (s.setWave k v).ptp = s.ptp := rfl
@[simp] theorem setWave_ptpStamps : (s.setWave k v).ptpStamps = s.ptpStamps := rfl
@[simp] theorem setWave_ports : (s.setWave k v).ports = s.ports := rfl
@[simp] theorem setWave_ptpOut : (s.setWave k v).ptpOut = s.ptpOut := rfl
@[simp] theorem setWave_matchTable : (s.setWave k v).matchTable = s.matchTable := rfl
@[simp] theorem setWave_drops : (s.setWave k v).drops = s.drops := rfl
@[simp] theorem setWave_conns : (s.setWave k v).conns = s.conns := rfl
@[simp] theorem setWave_asks : (s.setWave k v).asks = s.asks := rfl
@[simp] theorem setWave_tkeys : (s.setWave k v).tkeys = s.tkeys := rfl
@[simp] theorem setWave_keys : (s.setWave k v).keys = s.keys := rfl
@[simp] theorem setWave_wire : (s.setWave k v).wire = s.wire := rfl
@[simp] theorem setWave_outbox : (s.setWave k v).outbox = s.outbox := rfl
@[simp] theorem setWave_noticeTo : (s.setWave k v).noticeTo = s.noticeTo := rfl
@[simp] theorem setWave_pinReply : (s.setWave k v).pinReply = s.pinReply := rfl
@[simp] theorem setWave_pinAck : (s.setWave k v).pinAck = s.pinAck := rfl
@[simp] theorem setWave_meas : (s.setWave k v).meas = s.meas := rfl
@[simp] theorem setWave_image : (s.setWave k v).image = s.image := rfl
@[simp] theorem setWave_imageLen : (s.setWave k v).imageLen = s.imageLen := rfl
@[simp] theorem setWave_svn : (s.setWave k v).svn = s.svn := rfl
@[simp] theorem setWave_boot : (s.setWave k v).boot = s.boot := rfl
end

section
variable (k : Nat) (v : Thread)
@[simp] theorem setThread_cur : (s.setThread k v).cur = s.cur := rfl
@[simp] theorem setThread_fresh : (s.setThread k v).fresh = s.fresh := rfl
@[simp] theorem setThread_inputs : (s.setThread k v).inputs = s.inputs := rfl
@[simp] theorem setThread_towers : (s.setThread k v).towers = s.towers := rfl
@[simp] theorem setThread_dram : (s.setThread k v).dram = s.dram := rfl
@[simp] theorem setThread_tags : (s.setThread k v).tags = s.tags := rfl
@[simp] theorem setThread_bad : (s.setThread k v).bad = s.bad := rfl
@[simp] theorem setThread_marks : (s.setThread k v).marks = s.marks := rfl
@[simp] theorem setThread_walks : (s.setThread k v).walks = s.walks := rfl
@[simp] theorem setThread_held : (s.setThread k v).held = s.held := rfl
@[simp] theorem setThread_sbuf : (s.setThread k v).sbuf = s.sbuf := rfl
@[simp] theorem setThread_pad : (s.setThread k v).pad = s.pad := rfl
@[simp] theorem setThread_full : (s.setThread k v).full = s.full := rfl
@[simp] theorem setThread_races : (s.setThread k v).races = s.races := rfl
@[simp] theorem setThread_writes : (s.setThread k v).writes = s.writes := rfl
@[simp] theorem setThread_wnum : (s.setThread k v).wnum = s.wnum := rfl
@[simp] theorem setThread_gsync : (s.setThread k v).gsync = s.gsync := rfl
@[simp] theorem setThread_rf : (s.setThread k v).rf = s.rf := rfl
@[simp] theorem setThread_acc : (s.setThread k v).acc = s.acc := rfl
@[simp] theorem setThread_istore : (s.setThread k v).istore = s.istore := rfl
@[simp] theorem setThread_accBy : (s.setThread k v).accBy = s.accBy := rfl
@[simp] theorem setThread_itags : (s.setThread k v).itags = s.itags := rfl
@[simp] theorem setThread_iold : (s.setThread k v).iold = s.iold := rfl
@[simp] theorem setThread_ichg : (s.setThread k v).ichg = s.ichg := rfl
@[simp] theorem setThread_hstore : (s.setThread k v).hstore = s.hstore := rfl
@[simp] theorem setThread_waves : (s.setThread k v).waves = s.waves := rfl
@[simp] theorem setThread_groups : (s.setThread k v).groups = s.groups := rfl
@[simp] theorem setThread_cores : (s.setThread k v).cores = s.cores := rfl
@[simp] theorem setThread_rings : (s.setThread k v).rings = s.rings := rfl
@[simp] theorem setThread_lics : (s.setThread k v).lics = s.lics := rfl
@[simp] theorem setThread_clusters : (s.setThread k v).clusters = s.clusters := rfl
@[simp] theorem setThread_clocks : (s.setThread k v).clocks = s.clocks := rfl
@[simp] theorem setThread_throttle : (s.setThread k v).throttle = s.throttle := rfl
@[simp] theorem setThread_launches : (s.setThread k v).launches = s.launches := rfl
@[simp] theorem setThread_phased : (s.setThread k v).phased = s.phased := rfl
@[simp] theorem setThread_heirs : (s.setThread k v).heirs = s.heirs := rfl
@[simp] theorem setThread_lcores : (s.setThread k v).lcores = s.lcores := rfl
@[simp] theorem setThread_checks : (s.setThread k v).checks = s.checks := rfl
@[simp] theorem setThread_orphans : (s.setThread k v).orphans = s.orphans := rfl
@[simp] theorem setThread_saves : (s.setThread k v).saves = s.saves := rfl
@[simp] theorem setThread_owners : (s.setThread k v).owners = s.owners := rfl
@[simp] theorem setThread_valids : (s.setThread k v).valids = s.valids := rfl
@[simp] theorem setThread_ptp : (s.setThread k v).ptp = s.ptp := rfl
@[simp] theorem setThread_ptpStamps : (s.setThread k v).ptpStamps = s.ptpStamps := rfl
@[simp] theorem setThread_ports : (s.setThread k v).ports = s.ports := rfl
@[simp] theorem setThread_ptpOut : (s.setThread k v).ptpOut = s.ptpOut := rfl
@[simp] theorem setThread_matchTable : (s.setThread k v).matchTable = s.matchTable := rfl
@[simp] theorem setThread_drops : (s.setThread k v).drops = s.drops := rfl
@[simp] theorem setThread_conns : (s.setThread k v).conns = s.conns := rfl
@[simp] theorem setThread_asks : (s.setThread k v).asks = s.asks := rfl
@[simp] theorem setThread_tkeys : (s.setThread k v).tkeys = s.tkeys := rfl
@[simp] theorem setThread_keys : (s.setThread k v).keys = s.keys := rfl
@[simp] theorem setThread_wire : (s.setThread k v).wire = s.wire := rfl
@[simp] theorem setThread_outbox : (s.setThread k v).outbox = s.outbox := rfl
@[simp] theorem setThread_noticeTo : (s.setThread k v).noticeTo = s.noticeTo := rfl
@[simp] theorem setThread_pinReply : (s.setThread k v).pinReply = s.pinReply := rfl
@[simp] theorem setThread_pinAck : (s.setThread k v).pinAck = s.pinAck := rfl
@[simp] theorem setThread_meas : (s.setThread k v).meas = s.meas := rfl
@[simp] theorem setThread_image : (s.setThread k v).image = s.image := rfl
@[simp] theorem setThread_imageLen : (s.setThread k v).imageLen = s.imageLen := rfl
@[simp] theorem setThread_svn : (s.setThread k v).svn = s.svn := rfl
@[simp] theorem setThread_boot : (s.setThread k v).boot = s.boot := rfl
end

section
variable (k : Nat) (v : Launch)
@[simp] theorem setLaunch_cur : (s.setLaunch k v).cur = s.cur := rfl
@[simp] theorem setLaunch_fresh : (s.setLaunch k v).fresh = s.fresh := rfl
@[simp] theorem setLaunch_inputs : (s.setLaunch k v).inputs = s.inputs := rfl
@[simp] theorem setLaunch_towers : (s.setLaunch k v).towers = s.towers := rfl
@[simp] theorem setLaunch_dram : (s.setLaunch k v).dram = s.dram := rfl
@[simp] theorem setLaunch_tags : (s.setLaunch k v).tags = s.tags := rfl
@[simp] theorem setLaunch_bad : (s.setLaunch k v).bad = s.bad := rfl
@[simp] theorem setLaunch_marks : (s.setLaunch k v).marks = s.marks := rfl
@[simp] theorem setLaunch_walks : (s.setLaunch k v).walks = s.walks := rfl
@[simp] theorem setLaunch_held : (s.setLaunch k v).held = s.held := rfl
@[simp] theorem setLaunch_sbuf : (s.setLaunch k v).sbuf = s.sbuf := rfl
@[simp] theorem setLaunch_pad : (s.setLaunch k v).pad = s.pad := rfl
@[simp] theorem setLaunch_full : (s.setLaunch k v).full = s.full := rfl
@[simp] theorem setLaunch_races : (s.setLaunch k v).races = s.races := rfl
@[simp] theorem setLaunch_writes : (s.setLaunch k v).writes = s.writes := rfl
@[simp] theorem setLaunch_wnum : (s.setLaunch k v).wnum = s.wnum := rfl
@[simp] theorem setLaunch_gsync : (s.setLaunch k v).gsync = s.gsync := rfl
@[simp] theorem setLaunch_rf : (s.setLaunch k v).rf = s.rf := rfl
@[simp] theorem setLaunch_acc : (s.setLaunch k v).acc = s.acc := rfl
@[simp] theorem setLaunch_istore : (s.setLaunch k v).istore = s.istore := rfl
@[simp] theorem setLaunch_accBy : (s.setLaunch k v).accBy = s.accBy := rfl
@[simp] theorem setLaunch_itags : (s.setLaunch k v).itags = s.itags := rfl
@[simp] theorem setLaunch_iold : (s.setLaunch k v).iold = s.iold := rfl
@[simp] theorem setLaunch_ichg : (s.setLaunch k v).ichg = s.ichg := rfl
@[simp] theorem setLaunch_hstore : (s.setLaunch k v).hstore = s.hstore := rfl
@[simp] theorem setLaunch_threads : (s.setLaunch k v).threads = s.threads := rfl
@[simp] theorem setLaunch_waves : (s.setLaunch k v).waves = s.waves := rfl
@[simp] theorem setLaunch_groups : (s.setLaunch k v).groups = s.groups := rfl
@[simp] theorem setLaunch_cores : (s.setLaunch k v).cores = s.cores := rfl
@[simp] theorem setLaunch_rings : (s.setLaunch k v).rings = s.rings := rfl
@[simp] theorem setLaunch_lics : (s.setLaunch k v).lics = s.lics := rfl
@[simp] theorem setLaunch_clusters : (s.setLaunch k v).clusters = s.clusters := rfl
@[simp] theorem setLaunch_clocks : (s.setLaunch k v).clocks = s.clocks := rfl
@[simp] theorem setLaunch_throttle : (s.setLaunch k v).throttle = s.throttle := rfl
@[simp] theorem setLaunch_phased : (s.setLaunch k v).phased = s.phased := rfl
@[simp] theorem setLaunch_heirs : (s.setLaunch k v).heirs = s.heirs := rfl
@[simp] theorem setLaunch_lcores : (s.setLaunch k v).lcores = s.lcores := rfl
@[simp] theorem setLaunch_checks : (s.setLaunch k v).checks = s.checks := rfl
@[simp] theorem setLaunch_orphans : (s.setLaunch k v).orphans = s.orphans := rfl
@[simp] theorem setLaunch_saves : (s.setLaunch k v).saves = s.saves := rfl
@[simp] theorem setLaunch_owners : (s.setLaunch k v).owners = s.owners := rfl
@[simp] theorem setLaunch_valids : (s.setLaunch k v).valids = s.valids := rfl
@[simp] theorem setLaunch_ptp : (s.setLaunch k v).ptp = s.ptp := rfl
@[simp] theorem setLaunch_ptpStamps : (s.setLaunch k v).ptpStamps = s.ptpStamps := rfl
@[simp] theorem setLaunch_ports : (s.setLaunch k v).ports = s.ports := rfl
@[simp] theorem setLaunch_ptpOut : (s.setLaunch k v).ptpOut = s.ptpOut := rfl
@[simp] theorem setLaunch_matchTable : (s.setLaunch k v).matchTable = s.matchTable := rfl
@[simp] theorem setLaunch_drops : (s.setLaunch k v).drops = s.drops := rfl
@[simp] theorem setLaunch_conns : (s.setLaunch k v).conns = s.conns := rfl
@[simp] theorem setLaunch_asks : (s.setLaunch k v).asks = s.asks := rfl
@[simp] theorem setLaunch_tkeys : (s.setLaunch k v).tkeys = s.tkeys := rfl
@[simp] theorem setLaunch_keys : (s.setLaunch k v).keys = s.keys := rfl
@[simp] theorem setLaunch_wire : (s.setLaunch k v).wire = s.wire := rfl
@[simp] theorem setLaunch_outbox : (s.setLaunch k v).outbox = s.outbox := rfl
@[simp] theorem setLaunch_noticeTo : (s.setLaunch k v).noticeTo = s.noticeTo := rfl
@[simp] theorem setLaunch_pinReply : (s.setLaunch k v).pinReply = s.pinReply := rfl
@[simp] theorem setLaunch_pinAck : (s.setLaunch k v).pinAck = s.pinAck := rfl
@[simp] theorem setLaunch_meas : (s.setLaunch k v).meas = s.meas := rfl
@[simp] theorem setLaunch_image : (s.setLaunch k v).image = s.image := rfl
@[simp] theorem setLaunch_imageLen : (s.setLaunch k v).imageLen = s.imageLen := rfl
@[simp] theorem setLaunch_svn : (s.setLaunch k v).svn = s.svn := rfl
@[simp] theorem setLaunch_boot : (s.setLaunch k v).boot = s.boot := rfl
end

section
variable (k : Nat) (v : Cluster)
@[simp] theorem setCluster_cur : (s.setCluster k v).cur = s.cur := rfl
@[simp] theorem setCluster_fresh : (s.setCluster k v).fresh = s.fresh := rfl
@[simp] theorem setCluster_inputs : (s.setCluster k v).inputs = s.inputs := rfl
@[simp] theorem setCluster_towers : (s.setCluster k v).towers = s.towers := rfl
@[simp] theorem setCluster_dram : (s.setCluster k v).dram = s.dram := rfl
@[simp] theorem setCluster_tags : (s.setCluster k v).tags = s.tags := rfl
@[simp] theorem setCluster_bad : (s.setCluster k v).bad = s.bad := rfl
@[simp] theorem setCluster_marks : (s.setCluster k v).marks = s.marks := rfl
@[simp] theorem setCluster_walks : (s.setCluster k v).walks = s.walks := rfl
@[simp] theorem setCluster_held : (s.setCluster k v).held = s.held := rfl
@[simp] theorem setCluster_sbuf : (s.setCluster k v).sbuf = s.sbuf := rfl
@[simp] theorem setCluster_pad : (s.setCluster k v).pad = s.pad := rfl
@[simp] theorem setCluster_full : (s.setCluster k v).full = s.full := rfl
@[simp] theorem setCluster_races : (s.setCluster k v).races = s.races := rfl
@[simp] theorem setCluster_writes : (s.setCluster k v).writes = s.writes := rfl
@[simp] theorem setCluster_wnum : (s.setCluster k v).wnum = s.wnum := rfl
@[simp] theorem setCluster_gsync : (s.setCluster k v).gsync = s.gsync := rfl
@[simp] theorem setCluster_rf : (s.setCluster k v).rf = s.rf := rfl
@[simp] theorem setCluster_acc : (s.setCluster k v).acc = s.acc := rfl
@[simp] theorem setCluster_istore : (s.setCluster k v).istore = s.istore := rfl
@[simp] theorem setCluster_accBy : (s.setCluster k v).accBy = s.accBy := rfl
@[simp] theorem setCluster_itags : (s.setCluster k v).itags = s.itags := rfl
@[simp] theorem setCluster_iold : (s.setCluster k v).iold = s.iold := rfl
@[simp] theorem setCluster_ichg : (s.setCluster k v).ichg = s.ichg := rfl
@[simp] theorem setCluster_hstore : (s.setCluster k v).hstore = s.hstore := rfl
@[simp] theorem setCluster_threads : (s.setCluster k v).threads = s.threads := rfl
@[simp] theorem setCluster_waves : (s.setCluster k v).waves = s.waves := rfl
@[simp] theorem setCluster_groups : (s.setCluster k v).groups = s.groups := rfl
@[simp] theorem setCluster_cores : (s.setCluster k v).cores = s.cores := rfl
@[simp] theorem setCluster_rings : (s.setCluster k v).rings = s.rings := rfl
@[simp] theorem setCluster_lics : (s.setCluster k v).lics = s.lics := rfl
@[simp] theorem setCluster_clocks : (s.setCluster k v).clocks = s.clocks := rfl
@[simp] theorem setCluster_throttle : (s.setCluster k v).throttle = s.throttle := rfl
@[simp] theorem setCluster_launches : (s.setCluster k v).launches = s.launches := rfl
@[simp] theorem setCluster_phased : (s.setCluster k v).phased = s.phased := rfl
@[simp] theorem setCluster_heirs : (s.setCluster k v).heirs = s.heirs := rfl
@[simp] theorem setCluster_lcores : (s.setCluster k v).lcores = s.lcores := rfl
@[simp] theorem setCluster_checks : (s.setCluster k v).checks = s.checks := rfl
@[simp] theorem setCluster_orphans : (s.setCluster k v).orphans = s.orphans := rfl
@[simp] theorem setCluster_saves : (s.setCluster k v).saves = s.saves := rfl
@[simp] theorem setCluster_owners : (s.setCluster k v).owners = s.owners := rfl
@[simp] theorem setCluster_valids : (s.setCluster k v).valids = s.valids := rfl
@[simp] theorem setCluster_ptp : (s.setCluster k v).ptp = s.ptp := rfl
@[simp] theorem setCluster_ptpStamps : (s.setCluster k v).ptpStamps = s.ptpStamps := rfl
@[simp] theorem setCluster_ports : (s.setCluster k v).ports = s.ports := rfl
@[simp] theorem setCluster_ptpOut : (s.setCluster k v).ptpOut = s.ptpOut := rfl
@[simp] theorem setCluster_matchTable : (s.setCluster k v).matchTable = s.matchTable := rfl
@[simp] theorem setCluster_drops : (s.setCluster k v).drops = s.drops := rfl
@[simp] theorem setCluster_conns : (s.setCluster k v).conns = s.conns := rfl
@[simp] theorem setCluster_asks : (s.setCluster k v).asks = s.asks := rfl
@[simp] theorem setCluster_tkeys : (s.setCluster k v).tkeys = s.tkeys := rfl
@[simp] theorem setCluster_keys : (s.setCluster k v).keys = s.keys := rfl
@[simp] theorem setCluster_wire : (s.setCluster k v).wire = s.wire := rfl
@[simp] theorem setCluster_outbox : (s.setCluster k v).outbox = s.outbox := rfl
@[simp] theorem setCluster_noticeTo : (s.setCluster k v).noticeTo = s.noticeTo := rfl
@[simp] theorem setCluster_pinReply : (s.setCluster k v).pinReply = s.pinReply := rfl
@[simp] theorem setCluster_pinAck : (s.setCluster k v).pinAck = s.pinAck := rfl
@[simp] theorem setCluster_meas : (s.setCluster k v).meas = s.meas := rfl
@[simp] theorem setCluster_image : (s.setCluster k v).image = s.image := rfl
@[simp] theorem setCluster_imageLen : (s.setCluster k v).imageLen = s.imageLen := rfl
@[simp] theorem setCluster_svn : (s.setCluster k v).svn = s.svn := rfl
@[simp] theorem setCluster_boot : (s.setCluster k v).boot = s.boot := rfl
end

section
variable (k : Nat) (v : Licence)
@[simp] theorem setLicence_cur : (s.setLicence k v).cur = s.cur := rfl
@[simp] theorem setLicence_fresh : (s.setLicence k v).fresh = s.fresh := rfl
@[simp] theorem setLicence_inputs : (s.setLicence k v).inputs = s.inputs := rfl
@[simp] theorem setLicence_towers : (s.setLicence k v).towers = s.towers := rfl
@[simp] theorem setLicence_dram : (s.setLicence k v).dram = s.dram := rfl
@[simp] theorem setLicence_tags : (s.setLicence k v).tags = s.tags := rfl
@[simp] theorem setLicence_bad : (s.setLicence k v).bad = s.bad := rfl
@[simp] theorem setLicence_marks : (s.setLicence k v).marks = s.marks := rfl
@[simp] theorem setLicence_walks : (s.setLicence k v).walks = s.walks := rfl
@[simp] theorem setLicence_held : (s.setLicence k v).held = s.held := rfl
@[simp] theorem setLicence_sbuf : (s.setLicence k v).sbuf = s.sbuf := rfl
@[simp] theorem setLicence_pad : (s.setLicence k v).pad = s.pad := rfl
@[simp] theorem setLicence_full : (s.setLicence k v).full = s.full := rfl
@[simp] theorem setLicence_races : (s.setLicence k v).races = s.races := rfl
@[simp] theorem setLicence_writes : (s.setLicence k v).writes = s.writes := rfl
@[simp] theorem setLicence_wnum : (s.setLicence k v).wnum = s.wnum := rfl
@[simp] theorem setLicence_gsync : (s.setLicence k v).gsync = s.gsync := rfl
@[simp] theorem setLicence_rf : (s.setLicence k v).rf = s.rf := rfl
@[simp] theorem setLicence_acc : (s.setLicence k v).acc = s.acc := rfl
@[simp] theorem setLicence_istore : (s.setLicence k v).istore = s.istore := rfl
@[simp] theorem setLicence_accBy : (s.setLicence k v).accBy = s.accBy := rfl
@[simp] theorem setLicence_itags : (s.setLicence k v).itags = s.itags := rfl
@[simp] theorem setLicence_iold : (s.setLicence k v).iold = s.iold := rfl
@[simp] theorem setLicence_ichg : (s.setLicence k v).ichg = s.ichg := rfl
@[simp] theorem setLicence_hstore : (s.setLicence k v).hstore = s.hstore := rfl
@[simp] theorem setLicence_threads : (s.setLicence k v).threads = s.threads := rfl
@[simp] theorem setLicence_waves : (s.setLicence k v).waves = s.waves := rfl
@[simp] theorem setLicence_groups : (s.setLicence k v).groups = s.groups := rfl
@[simp] theorem setLicence_cores : (s.setLicence k v).cores = s.cores := rfl
@[simp] theorem setLicence_rings : (s.setLicence k v).rings = s.rings := rfl
@[simp] theorem setLicence_clusters : (s.setLicence k v).clusters = s.clusters := rfl
@[simp] theorem setLicence_clocks : (s.setLicence k v).clocks = s.clocks := rfl
@[simp] theorem setLicence_throttle : (s.setLicence k v).throttle = s.throttle := rfl
@[simp] theorem setLicence_launches : (s.setLicence k v).launches = s.launches := rfl
@[simp] theorem setLicence_phased : (s.setLicence k v).phased = s.phased := rfl
@[simp] theorem setLicence_heirs : (s.setLicence k v).heirs = s.heirs := rfl
@[simp] theorem setLicence_lcores : (s.setLicence k v).lcores = s.lcores := rfl
@[simp] theorem setLicence_checks : (s.setLicence k v).checks = s.checks := rfl
@[simp] theorem setLicence_orphans : (s.setLicence k v).orphans = s.orphans := rfl
@[simp] theorem setLicence_saves : (s.setLicence k v).saves = s.saves := rfl
@[simp] theorem setLicence_owners : (s.setLicence k v).owners = s.owners := rfl
@[simp] theorem setLicence_valids : (s.setLicence k v).valids = s.valids := rfl
@[simp] theorem setLicence_ptp : (s.setLicence k v).ptp = s.ptp := rfl
@[simp] theorem setLicence_ptpStamps : (s.setLicence k v).ptpStamps = s.ptpStamps := rfl
@[simp] theorem setLicence_ports : (s.setLicence k v).ports = s.ports := rfl
@[simp] theorem setLicence_ptpOut : (s.setLicence k v).ptpOut = s.ptpOut := rfl
@[simp] theorem setLicence_matchTable : (s.setLicence k v).matchTable = s.matchTable := rfl
@[simp] theorem setLicence_drops : (s.setLicence k v).drops = s.drops := rfl
@[simp] theorem setLicence_conns : (s.setLicence k v).conns = s.conns := rfl
@[simp] theorem setLicence_asks : (s.setLicence k v).asks = s.asks := rfl
@[simp] theorem setLicence_tkeys : (s.setLicence k v).tkeys = s.tkeys := rfl
@[simp] theorem setLicence_keys : (s.setLicence k v).keys = s.keys := rfl
@[simp] theorem setLicence_wire : (s.setLicence k v).wire = s.wire := rfl
@[simp] theorem setLicence_outbox : (s.setLicence k v).outbox = s.outbox := rfl
@[simp] theorem setLicence_noticeTo : (s.setLicence k v).noticeTo = s.noticeTo := rfl
@[simp] theorem setLicence_pinReply : (s.setLicence k v).pinReply = s.pinReply := rfl
@[simp] theorem setLicence_pinAck : (s.setLicence k v).pinAck = s.pinAck := rfl
@[simp] theorem setLicence_meas : (s.setLicence k v).meas = s.meas := rfl
@[simp] theorem setLicence_image : (s.setLicence k v).image = s.image := rfl
@[simp] theorem setLicence_imageLen : (s.setLicence k v).imageLen = s.imageLen := rfl
@[simp] theorem setLicence_svn : (s.setLicence k v).svn = s.svn := rfl
@[simp] theorem setLicence_boot : (s.setLicence k v).boot = s.boot := rfl
end

section
variable (k : Nat) (v : SegTag)
@[simp] theorem setTag_cur : (s.setTag k v).cur = s.cur := rfl
@[simp] theorem setTag_fresh : (s.setTag k v).fresh = s.fresh := rfl
@[simp] theorem setTag_inputs : (s.setTag k v).inputs = s.inputs := rfl
@[simp] theorem setTag_towers : (s.setTag k v).towers = s.towers := rfl
@[simp] theorem setTag_dram : (s.setTag k v).dram = s.dram := rfl
@[simp] theorem setTag_tags : (s.setTag k v).tags = s.tags := rfl
@[simp] theorem setTag_bad : (s.setTag k v).bad = s.bad := rfl
@[simp] theorem setTag_marks : (s.setTag k v).marks = s.marks := rfl
@[simp] theorem setTag_walks : (s.setTag k v).walks = s.walks := rfl
@[simp] theorem setTag_held : (s.setTag k v).held = s.held := rfl
@[simp] theorem setTag_sbuf : (s.setTag k v).sbuf = s.sbuf := rfl
@[simp] theorem setTag_pad : (s.setTag k v).pad = s.pad := rfl
@[simp] theorem setTag_full : (s.setTag k v).full = s.full := rfl
@[simp] theorem setTag_races : (s.setTag k v).races = s.races := rfl
@[simp] theorem setTag_writes : (s.setTag k v).writes = s.writes := rfl
@[simp] theorem setTag_wnum : (s.setTag k v).wnum = s.wnum := rfl
@[simp] theorem setTag_gsync : (s.setTag k v).gsync = s.gsync := rfl
@[simp] theorem setTag_rf : (s.setTag k v).rf = s.rf := rfl
@[simp] theorem setTag_acc : (s.setTag k v).acc = s.acc := rfl
@[simp] theorem setTag_istore : (s.setTag k v).istore = s.istore := rfl
@[simp] theorem setTag_accBy : (s.setTag k v).accBy = s.accBy := rfl
@[simp] theorem setTag_iold : (s.setTag k v).iold = s.iold := rfl
@[simp] theorem setTag_ichg : (s.setTag k v).ichg = s.ichg := rfl
@[simp] theorem setTag_hstore : (s.setTag k v).hstore = s.hstore := rfl
@[simp] theorem setTag_threads : (s.setTag k v).threads = s.threads := rfl
@[simp] theorem setTag_waves : (s.setTag k v).waves = s.waves := rfl
@[simp] theorem setTag_groups : (s.setTag k v).groups = s.groups := rfl
@[simp] theorem setTag_cores : (s.setTag k v).cores = s.cores := rfl
@[simp] theorem setTag_rings : (s.setTag k v).rings = s.rings := rfl
@[simp] theorem setTag_lics : (s.setTag k v).lics = s.lics := rfl
@[simp] theorem setTag_clusters : (s.setTag k v).clusters = s.clusters := rfl
@[simp] theorem setTag_clocks : (s.setTag k v).clocks = s.clocks := rfl
@[simp] theorem setTag_throttle : (s.setTag k v).throttle = s.throttle := rfl
@[simp] theorem setTag_launches : (s.setTag k v).launches = s.launches := rfl
@[simp] theorem setTag_phased : (s.setTag k v).phased = s.phased := rfl
@[simp] theorem setTag_heirs : (s.setTag k v).heirs = s.heirs := rfl
@[simp] theorem setTag_lcores : (s.setTag k v).lcores = s.lcores := rfl
@[simp] theorem setTag_checks : (s.setTag k v).checks = s.checks := rfl
@[simp] theorem setTag_orphans : (s.setTag k v).orphans = s.orphans := rfl
@[simp] theorem setTag_saves : (s.setTag k v).saves = s.saves := rfl
@[simp] theorem setTag_owners : (s.setTag k v).owners = s.owners := rfl
@[simp] theorem setTag_valids : (s.setTag k v).valids = s.valids := rfl
@[simp] theorem setTag_ptp : (s.setTag k v).ptp = s.ptp := rfl
@[simp] theorem setTag_ptpStamps : (s.setTag k v).ptpStamps = s.ptpStamps := rfl
@[simp] theorem setTag_ports : (s.setTag k v).ports = s.ports := rfl
@[simp] theorem setTag_ptpOut : (s.setTag k v).ptpOut = s.ptpOut := rfl
@[simp] theorem setTag_matchTable : (s.setTag k v).matchTable = s.matchTable := rfl
@[simp] theorem setTag_drops : (s.setTag k v).drops = s.drops := rfl
@[simp] theorem setTag_conns : (s.setTag k v).conns = s.conns := rfl
@[simp] theorem setTag_asks : (s.setTag k v).asks = s.asks := rfl
@[simp] theorem setTag_tkeys : (s.setTag k v).tkeys = s.tkeys := rfl
@[simp] theorem setTag_keys : (s.setTag k v).keys = s.keys := rfl
@[simp] theorem setTag_wire : (s.setTag k v).wire = s.wire := rfl
@[simp] theorem setTag_outbox : (s.setTag k v).outbox = s.outbox := rfl
@[simp] theorem setTag_noticeTo : (s.setTag k v).noticeTo = s.noticeTo := rfl
@[simp] theorem setTag_pinReply : (s.setTag k v).pinReply = s.pinReply := rfl
@[simp] theorem setTag_pinAck : (s.setTag k v).pinAck = s.pinAck := rfl
@[simp] theorem setTag_meas : (s.setTag k v).meas = s.meas := rfl
@[simp] theorem setTag_image : (s.setTag k v).image = s.image := rfl
@[simp] theorem setTag_imageLen : (s.setTag k v).imageLen = s.imageLen := rfl
@[simp] theorem setTag_svn : (s.setTag k v).svn = s.svn := rfl
@[simp] theorem setTag_boot : (s.setTag k v).boot = s.boot := rfl
end

section
variable (h : Here) (l x : Nat) (v : Word)
@[simp] theorem setFront_cur : (s.setFront h l x v).cur = s.cur := rfl
@[simp] theorem setFront_fresh : (s.setFront h l x v).fresh = s.fresh := rfl
@[simp] theorem setFront_inputs : (s.setFront h l x v).inputs = s.inputs := rfl
@[simp] theorem setFront_towers : (s.setFront h l x v).towers = s.towers := rfl
@[simp] theorem setFront_dram : (s.setFront h l x v).dram = s.dram := rfl
@[simp] theorem setFront_tags : (s.setFront h l x v).tags = s.tags := rfl
@[simp] theorem setFront_bad : (s.setFront h l x v).bad = s.bad := rfl
@[simp] theorem setFront_marks : (s.setFront h l x v).marks = s.marks := rfl
@[simp] theorem setFront_walks : (s.setFront h l x v).walks = s.walks := rfl
@[simp] theorem setFront_held : (s.setFront h l x v).held = s.held := rfl
@[simp] theorem setFront_sbuf : (s.setFront h l x v).sbuf = s.sbuf := rfl
@[simp] theorem setFront_pad : (s.setFront h l x v).pad = s.pad := rfl
@[simp] theorem setFront_full : (s.setFront h l x v).full = s.full := rfl
@[simp] theorem setFront_races : (s.setFront h l x v).races = s.races := rfl
@[simp] theorem setFront_writes : (s.setFront h l x v).writes = s.writes := rfl
@[simp] theorem setFront_wnum : (s.setFront h l x v).wnum = s.wnum := rfl
@[simp] theorem setFront_gsync : (s.setFront h l x v).gsync = s.gsync := rfl
@[simp] theorem setFront_acc : (s.setFront h l x v).acc = s.acc := rfl
@[simp] theorem setFront_istore : (s.setFront h l x v).istore = s.istore := rfl
@[simp] theorem setFront_accBy : (s.setFront h l x v).accBy = s.accBy := rfl
@[simp] theorem setFront_itags : (s.setFront h l x v).itags = s.itags := rfl
@[simp] theorem setFront_iold : (s.setFront h l x v).iold = s.iold := rfl
@[simp] theorem setFront_ichg : (s.setFront h l x v).ichg = s.ichg := rfl
@[simp] theorem setFront_hstore : (s.setFront h l x v).hstore = s.hstore := rfl
@[simp] theorem setFront_threads : (s.setFront h l x v).threads = s.threads := rfl
@[simp] theorem setFront_waves : (s.setFront h l x v).waves = s.waves := rfl
@[simp] theorem setFront_groups : (s.setFront h l x v).groups = s.groups := rfl
@[simp] theorem setFront_cores : (s.setFront h l x v).cores = s.cores := rfl
@[simp] theorem setFront_rings : (s.setFront h l x v).rings = s.rings := rfl
@[simp] theorem setFront_lics : (s.setFront h l x v).lics = s.lics := rfl
@[simp] theorem setFront_clusters : (s.setFront h l x v).clusters = s.clusters := rfl
@[simp] theorem setFront_clocks : (s.setFront h l x v).clocks = s.clocks := rfl
@[simp] theorem setFront_throttle : (s.setFront h l x v).throttle = s.throttle := rfl
@[simp] theorem setFront_launches : (s.setFront h l x v).launches = s.launches := rfl
@[simp] theorem setFront_phased : (s.setFront h l x v).phased = s.phased := rfl
@[simp] theorem setFront_heirs : (s.setFront h l x v).heirs = s.heirs := rfl
@[simp] theorem setFront_lcores : (s.setFront h l x v).lcores = s.lcores := rfl
@[simp] theorem setFront_checks : (s.setFront h l x v).checks = s.checks := rfl
@[simp] theorem setFront_orphans : (s.setFront h l x v).orphans = s.orphans := rfl
@[simp] theorem setFront_saves : (s.setFront h l x v).saves = s.saves := rfl
@[simp] theorem setFront_owners : (s.setFront h l x v).owners = s.owners := rfl
@[simp] theorem setFront_valids : (s.setFront h l x v).valids = s.valids := rfl
@[simp] theorem setFront_ptp : (s.setFront h l x v).ptp = s.ptp := rfl
@[simp] theorem setFront_ptpStamps : (s.setFront h l x v).ptpStamps = s.ptpStamps := rfl
@[simp] theorem setFront_ports : (s.setFront h l x v).ports = s.ports := rfl
@[simp] theorem setFront_ptpOut : (s.setFront h l x v).ptpOut = s.ptpOut := rfl
@[simp] theorem setFront_matchTable : (s.setFront h l x v).matchTable = s.matchTable := rfl
@[simp] theorem setFront_drops : (s.setFront h l x v).drops = s.drops := rfl
@[simp] theorem setFront_conns : (s.setFront h l x v).conns = s.conns := rfl
@[simp] theorem setFront_asks : (s.setFront h l x v).asks = s.asks := rfl
@[simp] theorem setFront_tkeys : (s.setFront h l x v).tkeys = s.tkeys := rfl
@[simp] theorem setFront_keys : (s.setFront h l x v).keys = s.keys := rfl
@[simp] theorem setFront_wire : (s.setFront h l x v).wire = s.wire := rfl
@[simp] theorem setFront_outbox : (s.setFront h l x v).outbox = s.outbox := rfl
@[simp] theorem setFront_noticeTo : (s.setFront h l x v).noticeTo = s.noticeTo := rfl
@[simp] theorem setFront_pinReply : (s.setFront h l x v).pinReply = s.pinReply := rfl
@[simp] theorem setFront_pinAck : (s.setFront h l x v).pinAck = s.pinAck := rfl
@[simp] theorem setFront_meas : (s.setFront h l x v).meas = s.meas := rfl
@[simp] theorem setFront_image : (s.setFront h l x v).image = s.image := rfl
@[simp] theorem setFront_imageLen : (s.setFront h l x v).imageLen = s.imageLen := rfl
@[simp] theorem setFront_svn : (s.setFront h l x v).svn = s.svn := rfl
@[simp] theorem setFront_boot : (s.setFront h l x v).boot = s.boot := rfl
end

section
variable (k : Nat) (f : Core → Core)
@[simp] theorem modCore_cur : (s.modCore k f).cur = s.cur := rfl
@[simp] theorem modCore_fresh : (s.modCore k f).fresh = s.fresh := rfl
@[simp] theorem modCore_inputs : (s.modCore k f).inputs = s.inputs := rfl
@[simp] theorem modCore_towers : (s.modCore k f).towers = s.towers := rfl
@[simp] theorem modCore_dram : (s.modCore k f).dram = s.dram := rfl
@[simp] theorem modCore_tags : (s.modCore k f).tags = s.tags := rfl
@[simp] theorem modCore_bad : (s.modCore k f).bad = s.bad := rfl
@[simp] theorem modCore_marks : (s.modCore k f).marks = s.marks := rfl
@[simp] theorem modCore_walks : (s.modCore k f).walks = s.walks := rfl
@[simp] theorem modCore_held : (s.modCore k f).held = s.held := rfl
@[simp] theorem modCore_sbuf : (s.modCore k f).sbuf = s.sbuf := rfl
@[simp] theorem modCore_pad : (s.modCore k f).pad = s.pad := rfl
@[simp] theorem modCore_full : (s.modCore k f).full = s.full := rfl
@[simp] theorem modCore_races : (s.modCore k f).races = s.races := rfl
@[simp] theorem modCore_writes : (s.modCore k f).writes = s.writes := rfl
@[simp] theorem modCore_wnum : (s.modCore k f).wnum = s.wnum := rfl
@[simp] theorem modCore_gsync : (s.modCore k f).gsync = s.gsync := rfl
@[simp] theorem modCore_rf : (s.modCore k f).rf = s.rf := rfl
@[simp] theorem modCore_acc : (s.modCore k f).acc = s.acc := rfl
@[simp] theorem modCore_istore : (s.modCore k f).istore = s.istore := rfl
@[simp] theorem modCore_accBy : (s.modCore k f).accBy = s.accBy := rfl
@[simp] theorem modCore_itags : (s.modCore k f).itags = s.itags := rfl
@[simp] theorem modCore_iold : (s.modCore k f).iold = s.iold := rfl
@[simp] theorem modCore_ichg : (s.modCore k f).ichg = s.ichg := rfl
@[simp] theorem modCore_hstore : (s.modCore k f).hstore = s.hstore := rfl
@[simp] theorem modCore_threads : (s.modCore k f).threads = s.threads := rfl
@[simp] theorem modCore_waves : (s.modCore k f).waves = s.waves := rfl
@[simp] theorem modCore_groups : (s.modCore k f).groups = s.groups := rfl
@[simp] theorem modCore_rings : (s.modCore k f).rings = s.rings := rfl
@[simp] theorem modCore_lics : (s.modCore k f).lics = s.lics := rfl
@[simp] theorem modCore_clusters : (s.modCore k f).clusters = s.clusters := rfl
@[simp] theorem modCore_clocks : (s.modCore k f).clocks = s.clocks := rfl
@[simp] theorem modCore_throttle : (s.modCore k f).throttle = s.throttle := rfl
@[simp] theorem modCore_launches : (s.modCore k f).launches = s.launches := rfl
@[simp] theorem modCore_phased : (s.modCore k f).phased = s.phased := rfl
@[simp] theorem modCore_heirs : (s.modCore k f).heirs = s.heirs := rfl
@[simp] theorem modCore_lcores : (s.modCore k f).lcores = s.lcores := rfl
@[simp] theorem modCore_checks : (s.modCore k f).checks = s.checks := rfl
@[simp] theorem modCore_orphans : (s.modCore k f).orphans = s.orphans := rfl
@[simp] theorem modCore_saves : (s.modCore k f).saves = s.saves := rfl
@[simp] theorem modCore_owners : (s.modCore k f).owners = s.owners := rfl
@[simp] theorem modCore_valids : (s.modCore k f).valids = s.valids := rfl
@[simp] theorem modCore_ptp : (s.modCore k f).ptp = s.ptp := rfl
@[simp] theorem modCore_ptpStamps : (s.modCore k f).ptpStamps = s.ptpStamps := rfl
@[simp] theorem modCore_ports : (s.modCore k f).ports = s.ports := rfl
@[simp] theorem modCore_ptpOut : (s.modCore k f).ptpOut = s.ptpOut := rfl
@[simp] theorem modCore_matchTable : (s.modCore k f).matchTable = s.matchTable := rfl
@[simp] theorem modCore_drops : (s.modCore k f).drops = s.drops := rfl
@[simp] theorem modCore_conns : (s.modCore k f).conns = s.conns := rfl
@[simp] theorem modCore_asks : (s.modCore k f).asks = s.asks := rfl
@[simp] theorem modCore_tkeys : (s.modCore k f).tkeys = s.tkeys := rfl
@[simp] theorem modCore_keys : (s.modCore k f).keys = s.keys := rfl
@[simp] theorem modCore_wire : (s.modCore k f).wire = s.wire := rfl
@[simp] theorem modCore_outbox : (s.modCore k f).outbox = s.outbox := rfl
@[simp] theorem modCore_noticeTo : (s.modCore k f).noticeTo = s.noticeTo := rfl
@[simp] theorem modCore_pinReply : (s.modCore k f).pinReply = s.pinReply := rfl
@[simp] theorem modCore_pinAck : (s.modCore k f).pinAck = s.pinAck := rfl
@[simp] theorem modCore_meas : (s.modCore k f).meas = s.meas := rfl
@[simp] theorem modCore_image : (s.modCore k f).image = s.image := rfl
@[simp] theorem modCore_imageLen : (s.modCore k f).imageLen = s.imageLen := rfl
@[simp] theorem modCore_svn : (s.modCore k f).svn = s.svn := rfl
@[simp] theorem modCore_boot : (s.modCore k f).boot = s.boot := rfl
end

section
variable (k : Nat) (f : Wave → Wave)
@[simp] theorem modWave_cur : (s.modWave k f).cur = s.cur := rfl
@[simp] theorem modWave_fresh : (s.modWave k f).fresh = s.fresh := rfl
@[simp] theorem modWave_inputs : (s.modWave k f).inputs = s.inputs := rfl
@[simp] theorem modWave_towers : (s.modWave k f).towers = s.towers := rfl
@[simp] theorem modWave_dram : (s.modWave k f).dram = s.dram := rfl
@[simp] theorem modWave_tags : (s.modWave k f).tags = s.tags := rfl
@[simp] theorem modWave_bad : (s.modWave k f).bad = s.bad := rfl
@[simp] theorem modWave_marks : (s.modWave k f).marks = s.marks := rfl
@[simp] theorem modWave_walks : (s.modWave k f).walks = s.walks := rfl
@[simp] theorem modWave_held : (s.modWave k f).held = s.held := rfl
@[simp] theorem modWave_sbuf : (s.modWave k f).sbuf = s.sbuf := rfl
@[simp] theorem modWave_pad : (s.modWave k f).pad = s.pad := rfl
@[simp] theorem modWave_full : (s.modWave k f).full = s.full := rfl
@[simp] theorem modWave_races : (s.modWave k f).races = s.races := rfl
@[simp] theorem modWave_writes : (s.modWave k f).writes = s.writes := rfl
@[simp] theorem modWave_wnum : (s.modWave k f).wnum = s.wnum := rfl
@[simp] theorem modWave_gsync : (s.modWave k f).gsync = s.gsync := rfl
@[simp] theorem modWave_rf : (s.modWave k f).rf = s.rf := rfl
@[simp] theorem modWave_acc : (s.modWave k f).acc = s.acc := rfl
@[simp] theorem modWave_istore : (s.modWave k f).istore = s.istore := rfl
@[simp] theorem modWave_accBy : (s.modWave k f).accBy = s.accBy := rfl
@[simp] theorem modWave_itags : (s.modWave k f).itags = s.itags := rfl
@[simp] theorem modWave_iold : (s.modWave k f).iold = s.iold := rfl
@[simp] theorem modWave_ichg : (s.modWave k f).ichg = s.ichg := rfl
@[simp] theorem modWave_hstore : (s.modWave k f).hstore = s.hstore := rfl
@[simp] theorem modWave_threads : (s.modWave k f).threads = s.threads := rfl
@[simp] theorem modWave_groups : (s.modWave k f).groups = s.groups := rfl
@[simp] theorem modWave_cores : (s.modWave k f).cores = s.cores := rfl
@[simp] theorem modWave_rings : (s.modWave k f).rings = s.rings := rfl
@[simp] theorem modWave_lics : (s.modWave k f).lics = s.lics := rfl
@[simp] theorem modWave_clusters : (s.modWave k f).clusters = s.clusters := rfl
@[simp] theorem modWave_clocks : (s.modWave k f).clocks = s.clocks := rfl
@[simp] theorem modWave_throttle : (s.modWave k f).throttle = s.throttle := rfl
@[simp] theorem modWave_launches : (s.modWave k f).launches = s.launches := rfl
@[simp] theorem modWave_phased : (s.modWave k f).phased = s.phased := rfl
@[simp] theorem modWave_heirs : (s.modWave k f).heirs = s.heirs := rfl
@[simp] theorem modWave_lcores : (s.modWave k f).lcores = s.lcores := rfl
@[simp] theorem modWave_checks : (s.modWave k f).checks = s.checks := rfl
@[simp] theorem modWave_orphans : (s.modWave k f).orphans = s.orphans := rfl
@[simp] theorem modWave_saves : (s.modWave k f).saves = s.saves := rfl
@[simp] theorem modWave_owners : (s.modWave k f).owners = s.owners := rfl
@[simp] theorem modWave_valids : (s.modWave k f).valids = s.valids := rfl
@[simp] theorem modWave_ptp : (s.modWave k f).ptp = s.ptp := rfl
@[simp] theorem modWave_ptpStamps : (s.modWave k f).ptpStamps = s.ptpStamps := rfl
@[simp] theorem modWave_ports : (s.modWave k f).ports = s.ports := rfl
@[simp] theorem modWave_ptpOut : (s.modWave k f).ptpOut = s.ptpOut := rfl
@[simp] theorem modWave_matchTable : (s.modWave k f).matchTable = s.matchTable := rfl
@[simp] theorem modWave_drops : (s.modWave k f).drops = s.drops := rfl
@[simp] theorem modWave_conns : (s.modWave k f).conns = s.conns := rfl
@[simp] theorem modWave_asks : (s.modWave k f).asks = s.asks := rfl
@[simp] theorem modWave_tkeys : (s.modWave k f).tkeys = s.tkeys := rfl
@[simp] theorem modWave_keys : (s.modWave k f).keys = s.keys := rfl
@[simp] theorem modWave_wire : (s.modWave k f).wire = s.wire := rfl
@[simp] theorem modWave_outbox : (s.modWave k f).outbox = s.outbox := rfl
@[simp] theorem modWave_noticeTo : (s.modWave k f).noticeTo = s.noticeTo := rfl
@[simp] theorem modWave_pinReply : (s.modWave k f).pinReply = s.pinReply := rfl
@[simp] theorem modWave_pinAck : (s.modWave k f).pinAck = s.pinAck := rfl
@[simp] theorem modWave_meas : (s.modWave k f).meas = s.meas := rfl
@[simp] theorem modWave_image : (s.modWave k f).image = s.image := rfl
@[simp] theorem modWave_imageLen : (s.modWave k f).imageLen = s.imageLen := rfl
@[simp] theorem modWave_svn : (s.modWave k f).svn = s.svn := rfl
@[simp] theorem modWave_boot : (s.modWave k f).boot = s.boot := rfl
end

section
variable (k : Nat) (f : Thread → Thread)
@[simp] theorem modThread_cur : (s.modThread k f).cur = s.cur := rfl
@[simp] theorem modThread_fresh : (s.modThread k f).fresh = s.fresh := rfl
@[simp] theorem modThread_inputs : (s.modThread k f).inputs = s.inputs := rfl
@[simp] theorem modThread_towers : (s.modThread k f).towers = s.towers := rfl
@[simp] theorem modThread_dram : (s.modThread k f).dram = s.dram := rfl
@[simp] theorem modThread_tags : (s.modThread k f).tags = s.tags := rfl
@[simp] theorem modThread_bad : (s.modThread k f).bad = s.bad := rfl
@[simp] theorem modThread_marks : (s.modThread k f).marks = s.marks := rfl
@[simp] theorem modThread_walks : (s.modThread k f).walks = s.walks := rfl
@[simp] theorem modThread_held : (s.modThread k f).held = s.held := rfl
@[simp] theorem modThread_sbuf : (s.modThread k f).sbuf = s.sbuf := rfl
@[simp] theorem modThread_pad : (s.modThread k f).pad = s.pad := rfl
@[simp] theorem modThread_full : (s.modThread k f).full = s.full := rfl
@[simp] theorem modThread_races : (s.modThread k f).races = s.races := rfl
@[simp] theorem modThread_writes : (s.modThread k f).writes = s.writes := rfl
@[simp] theorem modThread_wnum : (s.modThread k f).wnum = s.wnum := rfl
@[simp] theorem modThread_gsync : (s.modThread k f).gsync = s.gsync := rfl
@[simp] theorem modThread_rf : (s.modThread k f).rf = s.rf := rfl
@[simp] theorem modThread_acc : (s.modThread k f).acc = s.acc := rfl
@[simp] theorem modThread_istore : (s.modThread k f).istore = s.istore := rfl
@[simp] theorem modThread_accBy : (s.modThread k f).accBy = s.accBy := rfl
@[simp] theorem modThread_itags : (s.modThread k f).itags = s.itags := rfl
@[simp] theorem modThread_iold : (s.modThread k f).iold = s.iold := rfl
@[simp] theorem modThread_ichg : (s.modThread k f).ichg = s.ichg := rfl
@[simp] theorem modThread_hstore : (s.modThread k f).hstore = s.hstore := rfl
@[simp] theorem modThread_waves : (s.modThread k f).waves = s.waves := rfl
@[simp] theorem modThread_groups : (s.modThread k f).groups = s.groups := rfl
@[simp] theorem modThread_cores : (s.modThread k f).cores = s.cores := rfl
@[simp] theorem modThread_rings : (s.modThread k f).rings = s.rings := rfl
@[simp] theorem modThread_lics : (s.modThread k f).lics = s.lics := rfl
@[simp] theorem modThread_clusters : (s.modThread k f).clusters = s.clusters := rfl
@[simp] theorem modThread_clocks : (s.modThread k f).clocks = s.clocks := rfl
@[simp] theorem modThread_throttle : (s.modThread k f).throttle = s.throttle := rfl
@[simp] theorem modThread_launches : (s.modThread k f).launches = s.launches := rfl
@[simp] theorem modThread_phased : (s.modThread k f).phased = s.phased := rfl
@[simp] theorem modThread_heirs : (s.modThread k f).heirs = s.heirs := rfl
@[simp] theorem modThread_lcores : (s.modThread k f).lcores = s.lcores := rfl
@[simp] theorem modThread_checks : (s.modThread k f).checks = s.checks := rfl
@[simp] theorem modThread_orphans : (s.modThread k f).orphans = s.orphans := rfl
@[simp] theorem modThread_saves : (s.modThread k f).saves = s.saves := rfl
@[simp] theorem modThread_owners : (s.modThread k f).owners = s.owners := rfl
@[simp] theorem modThread_valids : (s.modThread k f).valids = s.valids := rfl
@[simp] theorem modThread_ptp : (s.modThread k f).ptp = s.ptp := rfl
@[simp] theorem modThread_ptpStamps : (s.modThread k f).ptpStamps = s.ptpStamps := rfl
@[simp] theorem modThread_ports : (s.modThread k f).ports = s.ports := rfl
@[simp] theorem modThread_ptpOut : (s.modThread k f).ptpOut = s.ptpOut := rfl
@[simp] theorem modThread_matchTable : (s.modThread k f).matchTable = s.matchTable := rfl
@[simp] theorem modThread_drops : (s.modThread k f).drops = s.drops := rfl
@[simp] theorem modThread_conns : (s.modThread k f).conns = s.conns := rfl
@[simp] theorem modThread_asks : (s.modThread k f).asks = s.asks := rfl
@[simp] theorem modThread_tkeys : (s.modThread k f).tkeys = s.tkeys := rfl
@[simp] theorem modThread_keys : (s.modThread k f).keys = s.keys := rfl
@[simp] theorem modThread_wire : (s.modThread k f).wire = s.wire := rfl
@[simp] theorem modThread_outbox : (s.modThread k f).outbox = s.outbox := rfl
@[simp] theorem modThread_noticeTo : (s.modThread k f).noticeTo = s.noticeTo := rfl
@[simp] theorem modThread_pinReply : (s.modThread k f).pinReply = s.pinReply := rfl
@[simp] theorem modThread_pinAck : (s.modThread k f).pinAck = s.pinAck := rfl
@[simp] theorem modThread_meas : (s.modThread k f).meas = s.meas := rfl
@[simp] theorem modThread_image : (s.modThread k f).image = s.image := rfl
@[simp] theorem modThread_imageLen : (s.modThread k f).imageLen = s.imageLen := rfl
@[simp] theorem modThread_svn : (s.modThread k f).svn = s.svn := rfl
@[simp] theorem modThread_boot : (s.modThread k f).boot = s.boot := rfl
end

section
variable (k : Nat) (f : Launch → Launch)
@[simp] theorem modLaunch_cur : (s.modLaunch k f).cur = s.cur := rfl
@[simp] theorem modLaunch_fresh : (s.modLaunch k f).fresh = s.fresh := rfl
@[simp] theorem modLaunch_inputs : (s.modLaunch k f).inputs = s.inputs := rfl
@[simp] theorem modLaunch_towers : (s.modLaunch k f).towers = s.towers := rfl
@[simp] theorem modLaunch_dram : (s.modLaunch k f).dram = s.dram := rfl
@[simp] theorem modLaunch_tags : (s.modLaunch k f).tags = s.tags := rfl
@[simp] theorem modLaunch_bad : (s.modLaunch k f).bad = s.bad := rfl
@[simp] theorem modLaunch_marks : (s.modLaunch k f).marks = s.marks := rfl
@[simp] theorem modLaunch_walks : (s.modLaunch k f).walks = s.walks := rfl
@[simp] theorem modLaunch_held : (s.modLaunch k f).held = s.held := rfl
@[simp] theorem modLaunch_sbuf : (s.modLaunch k f).sbuf = s.sbuf := rfl
@[simp] theorem modLaunch_pad : (s.modLaunch k f).pad = s.pad := rfl
@[simp] theorem modLaunch_full : (s.modLaunch k f).full = s.full := rfl
@[simp] theorem modLaunch_races : (s.modLaunch k f).races = s.races := rfl
@[simp] theorem modLaunch_writes : (s.modLaunch k f).writes = s.writes := rfl
@[simp] theorem modLaunch_wnum : (s.modLaunch k f).wnum = s.wnum := rfl
@[simp] theorem modLaunch_gsync : (s.modLaunch k f).gsync = s.gsync := rfl
@[simp] theorem modLaunch_rf : (s.modLaunch k f).rf = s.rf := rfl
@[simp] theorem modLaunch_acc : (s.modLaunch k f).acc = s.acc := rfl
@[simp] theorem modLaunch_istore : (s.modLaunch k f).istore = s.istore := rfl
@[simp] theorem modLaunch_accBy : (s.modLaunch k f).accBy = s.accBy := rfl
@[simp] theorem modLaunch_itags : (s.modLaunch k f).itags = s.itags := rfl
@[simp] theorem modLaunch_iold : (s.modLaunch k f).iold = s.iold := rfl
@[simp] theorem modLaunch_ichg : (s.modLaunch k f).ichg = s.ichg := rfl
@[simp] theorem modLaunch_hstore : (s.modLaunch k f).hstore = s.hstore := rfl
@[simp] theorem modLaunch_threads : (s.modLaunch k f).threads = s.threads := rfl
@[simp] theorem modLaunch_waves : (s.modLaunch k f).waves = s.waves := rfl
@[simp] theorem modLaunch_groups : (s.modLaunch k f).groups = s.groups := rfl
@[simp] theorem modLaunch_cores : (s.modLaunch k f).cores = s.cores := rfl
@[simp] theorem modLaunch_rings : (s.modLaunch k f).rings = s.rings := rfl
@[simp] theorem modLaunch_lics : (s.modLaunch k f).lics = s.lics := rfl
@[simp] theorem modLaunch_clusters : (s.modLaunch k f).clusters = s.clusters := rfl
@[simp] theorem modLaunch_clocks : (s.modLaunch k f).clocks = s.clocks := rfl
@[simp] theorem modLaunch_throttle : (s.modLaunch k f).throttle = s.throttle := rfl
@[simp] theorem modLaunch_phased : (s.modLaunch k f).phased = s.phased := rfl
@[simp] theorem modLaunch_heirs : (s.modLaunch k f).heirs = s.heirs := rfl
@[simp] theorem modLaunch_lcores : (s.modLaunch k f).lcores = s.lcores := rfl
@[simp] theorem modLaunch_checks : (s.modLaunch k f).checks = s.checks := rfl
@[simp] theorem modLaunch_orphans : (s.modLaunch k f).orphans = s.orphans := rfl
@[simp] theorem modLaunch_saves : (s.modLaunch k f).saves = s.saves := rfl
@[simp] theorem modLaunch_owners : (s.modLaunch k f).owners = s.owners := rfl
@[simp] theorem modLaunch_valids : (s.modLaunch k f).valids = s.valids := rfl
@[simp] theorem modLaunch_ptp : (s.modLaunch k f).ptp = s.ptp := rfl
@[simp] theorem modLaunch_ptpStamps : (s.modLaunch k f).ptpStamps = s.ptpStamps := rfl
@[simp] theorem modLaunch_ports : (s.modLaunch k f).ports = s.ports := rfl
@[simp] theorem modLaunch_ptpOut : (s.modLaunch k f).ptpOut = s.ptpOut := rfl
@[simp] theorem modLaunch_matchTable : (s.modLaunch k f).matchTable = s.matchTable := rfl
@[simp] theorem modLaunch_drops : (s.modLaunch k f).drops = s.drops := rfl
@[simp] theorem modLaunch_conns : (s.modLaunch k f).conns = s.conns := rfl
@[simp] theorem modLaunch_asks : (s.modLaunch k f).asks = s.asks := rfl
@[simp] theorem modLaunch_tkeys : (s.modLaunch k f).tkeys = s.tkeys := rfl
@[simp] theorem modLaunch_keys : (s.modLaunch k f).keys = s.keys := rfl
@[simp] theorem modLaunch_wire : (s.modLaunch k f).wire = s.wire := rfl
@[simp] theorem modLaunch_outbox : (s.modLaunch k f).outbox = s.outbox := rfl
@[simp] theorem modLaunch_noticeTo : (s.modLaunch k f).noticeTo = s.noticeTo := rfl
@[simp] theorem modLaunch_pinReply : (s.modLaunch k f).pinReply = s.pinReply := rfl
@[simp] theorem modLaunch_pinAck : (s.modLaunch k f).pinAck = s.pinAck := rfl
@[simp] theorem modLaunch_meas : (s.modLaunch k f).meas = s.meas := rfl
@[simp] theorem modLaunch_image : (s.modLaunch k f).image = s.image := rfl
@[simp] theorem modLaunch_imageLen : (s.modLaunch k f).imageLen = s.imageLen := rfl
@[simp] theorem modLaunch_svn : (s.modLaunch k f).svn = s.svn := rfl
@[simp] theorem modLaunch_boot : (s.modLaunch k f).boot = s.boot := rfl
end

section
variable (k : Nat) (f : Cluster → Cluster)
@[simp] theorem modCluster_cur : (s.modCluster k f).cur = s.cur := rfl
@[simp] theorem modCluster_fresh : (s.modCluster k f).fresh = s.fresh := rfl
@[simp] theorem modCluster_inputs : (s.modCluster k f).inputs = s.inputs := rfl
@[simp] theorem modCluster_towers : (s.modCluster k f).towers = s.towers := rfl
@[simp] theorem modCluster_dram : (s.modCluster k f).dram = s.dram := rfl
@[simp] theorem modCluster_tags : (s.modCluster k f).tags = s.tags := rfl
@[simp] theorem modCluster_bad : (s.modCluster k f).bad = s.bad := rfl
@[simp] theorem modCluster_marks : (s.modCluster k f).marks = s.marks := rfl
@[simp] theorem modCluster_walks : (s.modCluster k f).walks = s.walks := rfl
@[simp] theorem modCluster_held : (s.modCluster k f).held = s.held := rfl
@[simp] theorem modCluster_sbuf : (s.modCluster k f).sbuf = s.sbuf := rfl
@[simp] theorem modCluster_pad : (s.modCluster k f).pad = s.pad := rfl
@[simp] theorem modCluster_full : (s.modCluster k f).full = s.full := rfl
@[simp] theorem modCluster_races : (s.modCluster k f).races = s.races := rfl
@[simp] theorem modCluster_writes : (s.modCluster k f).writes = s.writes := rfl
@[simp] theorem modCluster_wnum : (s.modCluster k f).wnum = s.wnum := rfl
@[simp] theorem modCluster_gsync : (s.modCluster k f).gsync = s.gsync := rfl
@[simp] theorem modCluster_rf : (s.modCluster k f).rf = s.rf := rfl
@[simp] theorem modCluster_acc : (s.modCluster k f).acc = s.acc := rfl
@[simp] theorem modCluster_istore : (s.modCluster k f).istore = s.istore := rfl
@[simp] theorem modCluster_accBy : (s.modCluster k f).accBy = s.accBy := rfl
@[simp] theorem modCluster_itags : (s.modCluster k f).itags = s.itags := rfl
@[simp] theorem modCluster_iold : (s.modCluster k f).iold = s.iold := rfl
@[simp] theorem modCluster_ichg : (s.modCluster k f).ichg = s.ichg := rfl
@[simp] theorem modCluster_hstore : (s.modCluster k f).hstore = s.hstore := rfl
@[simp] theorem modCluster_threads : (s.modCluster k f).threads = s.threads := rfl
@[simp] theorem modCluster_waves : (s.modCluster k f).waves = s.waves := rfl
@[simp] theorem modCluster_groups : (s.modCluster k f).groups = s.groups := rfl
@[simp] theorem modCluster_cores : (s.modCluster k f).cores = s.cores := rfl
@[simp] theorem modCluster_rings : (s.modCluster k f).rings = s.rings := rfl
@[simp] theorem modCluster_lics : (s.modCluster k f).lics = s.lics := rfl
@[simp] theorem modCluster_clocks : (s.modCluster k f).clocks = s.clocks := rfl
@[simp] theorem modCluster_throttle : (s.modCluster k f).throttle = s.throttle := rfl
@[simp] theorem modCluster_launches : (s.modCluster k f).launches = s.launches := rfl
@[simp] theorem modCluster_phased : (s.modCluster k f).phased = s.phased := rfl
@[simp] theorem modCluster_heirs : (s.modCluster k f).heirs = s.heirs := rfl
@[simp] theorem modCluster_lcores : (s.modCluster k f).lcores = s.lcores := rfl
@[simp] theorem modCluster_checks : (s.modCluster k f).checks = s.checks := rfl
@[simp] theorem modCluster_orphans : (s.modCluster k f).orphans = s.orphans := rfl
@[simp] theorem modCluster_saves : (s.modCluster k f).saves = s.saves := rfl
@[simp] theorem modCluster_owners : (s.modCluster k f).owners = s.owners := rfl
@[simp] theorem modCluster_valids : (s.modCluster k f).valids = s.valids := rfl
@[simp] theorem modCluster_ptp : (s.modCluster k f).ptp = s.ptp := rfl
@[simp] theorem modCluster_ptpStamps : (s.modCluster k f).ptpStamps = s.ptpStamps := rfl
@[simp] theorem modCluster_ports : (s.modCluster k f).ports = s.ports := rfl
@[simp] theorem modCluster_ptpOut : (s.modCluster k f).ptpOut = s.ptpOut := rfl
@[simp] theorem modCluster_matchTable : (s.modCluster k f).matchTable = s.matchTable := rfl
@[simp] theorem modCluster_drops : (s.modCluster k f).drops = s.drops := rfl
@[simp] theorem modCluster_conns : (s.modCluster k f).conns = s.conns := rfl
@[simp] theorem modCluster_asks : (s.modCluster k f).asks = s.asks := rfl
@[simp] theorem modCluster_tkeys : (s.modCluster k f).tkeys = s.tkeys := rfl
@[simp] theorem modCluster_keys : (s.modCluster k f).keys = s.keys := rfl
@[simp] theorem modCluster_wire : (s.modCluster k f).wire = s.wire := rfl
@[simp] theorem modCluster_outbox : (s.modCluster k f).outbox = s.outbox := rfl
@[simp] theorem modCluster_noticeTo : (s.modCluster k f).noticeTo = s.noticeTo := rfl
@[simp] theorem modCluster_pinReply : (s.modCluster k f).pinReply = s.pinReply := rfl
@[simp] theorem modCluster_pinAck : (s.modCluster k f).pinAck = s.pinAck := rfl
@[simp] theorem modCluster_meas : (s.modCluster k f).meas = s.meas := rfl
@[simp] theorem modCluster_image : (s.modCluster k f).image = s.image := rfl
@[simp] theorem modCluster_imageLen : (s.modCluster k f).imageLen = s.imageLen := rfl
@[simp] theorem modCluster_svn : (s.modCluster k f).svn = s.svn := rfl
@[simp] theorem modCluster_boot : (s.modCluster k f).boot = s.boot := rfl
end

section
variable (k : Nat) (d : List Word)
@[simp] theorem notice_cur : (s.notice k d).cur = s.cur := rfl
@[simp] theorem notice_fresh : (s.notice k d).fresh = s.fresh := rfl
@[simp] theorem notice_inputs : (s.notice k d).inputs = s.inputs := rfl
@[simp] theorem notice_towers : (s.notice k d).towers = s.towers := rfl
@[simp] theorem notice_dram : (s.notice k d).dram = s.dram := rfl
@[simp] theorem notice_tags : (s.notice k d).tags = s.tags := rfl
@[simp] theorem notice_bad : (s.notice k d).bad = s.bad := rfl
@[simp] theorem notice_marks : (s.notice k d).marks = s.marks := rfl
@[simp] theorem notice_walks : (s.notice k d).walks = s.walks := rfl
@[simp] theorem notice_held : (s.notice k d).held = s.held := rfl
@[simp] theorem notice_sbuf : (s.notice k d).sbuf = s.sbuf := rfl
@[simp] theorem notice_pad : (s.notice k d).pad = s.pad := rfl
@[simp] theorem notice_full : (s.notice k d).full = s.full := rfl
@[simp] theorem notice_races : (s.notice k d).races = s.races := rfl
@[simp] theorem notice_writes : (s.notice k d).writes = s.writes := rfl
@[simp] theorem notice_wnum : (s.notice k d).wnum = s.wnum := rfl
@[simp] theorem notice_gsync : (s.notice k d).gsync = s.gsync := rfl
@[simp] theorem notice_rf : (s.notice k d).rf = s.rf := rfl
@[simp] theorem notice_acc : (s.notice k d).acc = s.acc := rfl
@[simp] theorem notice_istore : (s.notice k d).istore = s.istore := rfl
@[simp] theorem notice_accBy : (s.notice k d).accBy = s.accBy := rfl
@[simp] theorem notice_itags : (s.notice k d).itags = s.itags := rfl
@[simp] theorem notice_iold : (s.notice k d).iold = s.iold := rfl
@[simp] theorem notice_ichg : (s.notice k d).ichg = s.ichg := rfl
@[simp] theorem notice_hstore : (s.notice k d).hstore = s.hstore := rfl
@[simp] theorem notice_threads : (s.notice k d).threads = s.threads := rfl
@[simp] theorem notice_waves : (s.notice k d).waves = s.waves := rfl
@[simp] theorem notice_groups : (s.notice k d).groups = s.groups := rfl
@[simp] theorem notice_cores : (s.notice k d).cores = s.cores := rfl
@[simp] theorem notice_rings : (s.notice k d).rings = s.rings := rfl
@[simp] theorem notice_lics : (s.notice k d).lics = s.lics := rfl
@[simp] theorem notice_clusters : (s.notice k d).clusters = s.clusters := rfl
@[simp] theorem notice_clocks : (s.notice k d).clocks = s.clocks := rfl
@[simp] theorem notice_throttle : (s.notice k d).throttle = s.throttle := rfl
@[simp] theorem notice_launches : (s.notice k d).launches = s.launches := rfl
@[simp] theorem notice_phased : (s.notice k d).phased = s.phased := rfl
@[simp] theorem notice_heirs : (s.notice k d).heirs = s.heirs := rfl
@[simp] theorem notice_lcores : (s.notice k d).lcores = s.lcores := rfl
@[simp] theorem notice_checks : (s.notice k d).checks = s.checks := rfl
@[simp] theorem notice_orphans : (s.notice k d).orphans = s.orphans := rfl
@[simp] theorem notice_saves : (s.notice k d).saves = s.saves := rfl
@[simp] theorem notice_owners : (s.notice k d).owners = s.owners := rfl
@[simp] theorem notice_valids : (s.notice k d).valids = s.valids := rfl
@[simp] theorem notice_ptp : (s.notice k d).ptp = s.ptp := rfl
@[simp] theorem notice_ptpStamps : (s.notice k d).ptpStamps = s.ptpStamps := rfl
@[simp] theorem notice_ports : (s.notice k d).ports = s.ports := rfl
@[simp] theorem notice_ptpOut : (s.notice k d).ptpOut = s.ptpOut := rfl
@[simp] theorem notice_matchTable : (s.notice k d).matchTable = s.matchTable := rfl
@[simp] theorem notice_drops : (s.notice k d).drops = s.drops := rfl
@[simp] theorem notice_asks : (s.notice k d).asks = s.asks := rfl
@[simp] theorem notice_tkeys : (s.notice k d).tkeys = s.tkeys := rfl
@[simp] theorem notice_keys : (s.notice k d).keys = s.keys := rfl
@[simp] theorem notice_noticeTo : (s.notice k d).noticeTo = s.noticeTo := rfl
@[simp] theorem notice_pinReply : (s.notice k d).pinReply = s.pinReply := rfl
@[simp] theorem notice_pinAck : (s.notice k d).pinAck = s.pinAck := rfl
@[simp] theorem notice_meas : (s.notice k d).meas = s.meas := rfl
@[simp] theorem notice_image : (s.notice k d).image = s.image := rfl
@[simp] theorem notice_imageLen : (s.notice k d).imageLen = s.imageLen := rfl
@[simp] theorem notice_svn : (s.notice k d).svn = s.svn := rfl
@[simp] theorem notice_boot : (s.notice k d).boot = s.boot := rfl
end

section
variable (p a : Nat)
@[simp] theorem contain_cur : (s.contain p a).cur = s.cur := rfl
@[simp] theorem contain_fresh : (s.contain p a).fresh = s.fresh := rfl
@[simp] theorem contain_inputs : (s.contain p a).inputs = s.inputs := rfl
@[simp] theorem contain_towers : (s.contain p a).towers = s.towers := rfl
@[simp] theorem contain_dram : (s.contain p a).dram = s.dram := rfl
@[simp] theorem contain_tags : (s.contain p a).tags = s.tags := rfl
@[simp] theorem contain_bad : (s.contain p a).bad = s.bad := rfl
@[simp] theorem contain_marks : (s.contain p a).marks = s.marks := rfl
@[simp] theorem contain_walks : (s.contain p a).walks = s.walks := rfl
@[simp] theorem contain_held : (s.contain p a).held = s.held := rfl
@[simp] theorem contain_sbuf : (s.contain p a).sbuf = s.sbuf := rfl
@[simp] theorem contain_pad : (s.contain p a).pad = s.pad := rfl
@[simp] theorem contain_full : (s.contain p a).full = s.full := rfl
@[simp] theorem contain_races : (s.contain p a).races = s.races := rfl
@[simp] theorem contain_writes : (s.contain p a).writes = s.writes := rfl
@[simp] theorem contain_wnum : (s.contain p a).wnum = s.wnum := rfl
@[simp] theorem contain_gsync : (s.contain p a).gsync = s.gsync := rfl
@[simp] theorem contain_rf : (s.contain p a).rf = s.rf := rfl
@[simp] theorem contain_acc : (s.contain p a).acc = s.acc := rfl
@[simp] theorem contain_istore : (s.contain p a).istore = s.istore := rfl
@[simp] theorem contain_accBy : (s.contain p a).accBy = s.accBy := rfl
@[simp] theorem contain_itags : (s.contain p a).itags = s.itags := rfl
@[simp] theorem contain_iold : (s.contain p a).iold = s.iold := rfl
@[simp] theorem contain_ichg : (s.contain p a).ichg = s.ichg := rfl
@[simp] theorem contain_hstore : (s.contain p a).hstore = s.hstore := rfl
@[simp] theorem contain_threads : (s.contain p a).threads = s.threads := rfl
@[simp] theorem contain_waves : (s.contain p a).waves = s.waves := rfl
@[simp] theorem contain_groups : (s.contain p a).groups = s.groups := rfl
@[simp] theorem contain_cores : (s.contain p a).cores = s.cores := rfl
@[simp] theorem contain_rings : (s.contain p a).rings = s.rings := rfl
@[simp] theorem contain_lics : (s.contain p a).lics = s.lics := rfl
@[simp] theorem contain_clusters : (s.contain p a).clusters = s.clusters := rfl
@[simp] theorem contain_clocks : (s.contain p a).clocks = s.clocks := rfl
@[simp] theorem contain_throttle : (s.contain p a).throttle = s.throttle := rfl
@[simp] theorem contain_launches : (s.contain p a).launches = s.launches := rfl
@[simp] theorem contain_phased : (s.contain p a).phased = s.phased := rfl
@[simp] theorem contain_heirs : (s.contain p a).heirs = s.heirs := rfl
@[simp] theorem contain_lcores : (s.contain p a).lcores = s.lcores := rfl
@[simp] theorem contain_checks : (s.contain p a).checks = s.checks := rfl
@[simp] theorem contain_orphans : (s.contain p a).orphans = s.orphans := rfl
@[simp] theorem contain_saves : (s.contain p a).saves = s.saves := rfl
@[simp] theorem contain_owners : (s.contain p a).owners = s.owners := rfl
@[simp] theorem contain_valids : (s.contain p a).valids = s.valids := rfl
@[simp] theorem contain_ptp : (s.contain p a).ptp = s.ptp := rfl
@[simp] theorem contain_ptpStamps : (s.contain p a).ptpStamps = s.ptpStamps := rfl
@[simp] theorem contain_ports : (s.contain p a).ports = s.ports := rfl
@[simp] theorem contain_ptpOut : (s.contain p a).ptpOut = s.ptpOut := rfl
@[simp] theorem contain_matchTable : (s.contain p a).matchTable = s.matchTable := rfl
@[simp] theorem contain_drops : (s.contain p a).drops = s.drops := rfl
@[simp] theorem contain_asks : (s.contain p a).asks = s.asks := rfl
@[simp] theorem contain_tkeys : (s.contain p a).tkeys = s.tkeys := rfl
@[simp] theorem contain_keys : (s.contain p a).keys = s.keys := rfl
@[simp] theorem contain_noticeTo : (s.contain p a).noticeTo = s.noticeTo := rfl
@[simp] theorem contain_pinReply : (s.contain p a).pinReply = s.pinReply := rfl
@[simp] theorem contain_pinAck : (s.contain p a).pinAck = s.pinAck := rfl
@[simp] theorem contain_meas : (s.contain p a).meas = s.meas := rfl
@[simp] theorem contain_image : (s.contain p a).image = s.image := rfl
@[simp] theorem contain_imageLen : (s.contain p a).imageLen = s.imageLen := rfl
@[simp] theorem contain_svn : (s.contain p a).svn = s.svn := rfl
@[simp] theorem contain_boot : (s.contain p a).boot = s.boot := rfl
end

section
variable (h : Here) (f : Frag → Frag)
@[simp] theorem modFrag_cur : (s.modFrag h f).cur = s.cur := rfl
@[simp] theorem modFrag_fresh : (s.modFrag h f).fresh = s.fresh := rfl
@[simp] theorem modFrag_inputs : (s.modFrag h f).inputs = s.inputs := rfl
@[simp] theorem modFrag_towers : (s.modFrag h f).towers = s.towers := rfl
@[simp] theorem modFrag_dram : (s.modFrag h f).dram = s.dram := rfl
@[simp] theorem modFrag_tags : (s.modFrag h f).tags = s.tags := rfl
@[simp] theorem modFrag_bad : (s.modFrag h f).bad = s.bad := rfl
@[simp] theorem modFrag_marks : (s.modFrag h f).marks = s.marks := rfl
@[simp] theorem modFrag_walks : (s.modFrag h f).walks = s.walks := rfl
@[simp] theorem modFrag_held : (s.modFrag h f).held = s.held := rfl
@[simp] theorem modFrag_sbuf : (s.modFrag h f).sbuf = s.sbuf := rfl
@[simp] theorem modFrag_pad : (s.modFrag h f).pad = s.pad := rfl
@[simp] theorem modFrag_full : (s.modFrag h f).full = s.full := rfl
@[simp] theorem modFrag_races : (s.modFrag h f).races = s.races := rfl
@[simp] theorem modFrag_writes : (s.modFrag h f).writes = s.writes := rfl
@[simp] theorem modFrag_wnum : (s.modFrag h f).wnum = s.wnum := rfl
@[simp] theorem modFrag_gsync : (s.modFrag h f).gsync = s.gsync := rfl
@[simp] theorem modFrag_rf : (s.modFrag h f).rf = s.rf := rfl
@[simp] theorem modFrag_acc : (s.modFrag h f).acc = s.acc := rfl
@[simp] theorem modFrag_istore : (s.modFrag h f).istore = s.istore := rfl
@[simp] theorem modFrag_accBy : (s.modFrag h f).accBy = s.accBy := rfl
@[simp] theorem modFrag_itags : (s.modFrag h f).itags = s.itags := rfl
@[simp] theorem modFrag_iold : (s.modFrag h f).iold = s.iold := rfl
@[simp] theorem modFrag_ichg : (s.modFrag h f).ichg = s.ichg := rfl
@[simp] theorem modFrag_hstore : (s.modFrag h f).hstore = s.hstore := rfl
@[simp] theorem modFrag_threads : (s.modFrag h f).threads = s.threads := rfl
@[simp] theorem modFrag_groups : (s.modFrag h f).groups = s.groups := rfl
@[simp] theorem modFrag_cores : (s.modFrag h f).cores = s.cores := rfl
@[simp] theorem modFrag_rings : (s.modFrag h f).rings = s.rings := rfl
@[simp] theorem modFrag_lics : (s.modFrag h f).lics = s.lics := rfl
@[simp] theorem modFrag_clusters : (s.modFrag h f).clusters = s.clusters := rfl
@[simp] theorem modFrag_clocks : (s.modFrag h f).clocks = s.clocks := rfl
@[simp] theorem modFrag_throttle : (s.modFrag h f).throttle = s.throttle := rfl
@[simp] theorem modFrag_launches : (s.modFrag h f).launches = s.launches := rfl
@[simp] theorem modFrag_phased : (s.modFrag h f).phased = s.phased := rfl
@[simp] theorem modFrag_heirs : (s.modFrag h f).heirs = s.heirs := rfl
@[simp] theorem modFrag_lcores : (s.modFrag h f).lcores = s.lcores := rfl
@[simp] theorem modFrag_checks : (s.modFrag h f).checks = s.checks := rfl
@[simp] theorem modFrag_orphans : (s.modFrag h f).orphans = s.orphans := rfl
@[simp] theorem modFrag_saves : (s.modFrag h f).saves = s.saves := rfl
@[simp] theorem modFrag_owners : (s.modFrag h f).owners = s.owners := rfl
@[simp] theorem modFrag_valids : (s.modFrag h f).valids = s.valids := rfl
@[simp] theorem modFrag_ptp : (s.modFrag h f).ptp = s.ptp := rfl
@[simp] theorem modFrag_ptpStamps : (s.modFrag h f).ptpStamps = s.ptpStamps := rfl
@[simp] theorem modFrag_ports : (s.modFrag h f).ports = s.ports := rfl
@[simp] theorem modFrag_ptpOut : (s.modFrag h f).ptpOut = s.ptpOut := rfl
@[simp] theorem modFrag_matchTable : (s.modFrag h f).matchTable = s.matchTable := rfl
@[simp] theorem modFrag_drops : (s.modFrag h f).drops = s.drops := rfl
@[simp] theorem modFrag_conns : (s.modFrag h f).conns = s.conns := rfl
@[simp] theorem modFrag_asks : (s.modFrag h f).asks = s.asks := rfl
@[simp] theorem modFrag_tkeys : (s.modFrag h f).tkeys = s.tkeys := rfl
@[simp] theorem modFrag_keys : (s.modFrag h f).keys = s.keys := rfl
@[simp] theorem modFrag_wire : (s.modFrag h f).wire = s.wire := rfl
@[simp] theorem modFrag_outbox : (s.modFrag h f).outbox = s.outbox := rfl
@[simp] theorem modFrag_noticeTo : (s.modFrag h f).noticeTo = s.noticeTo := rfl
@[simp] theorem modFrag_pinReply : (s.modFrag h f).pinReply = s.pinReply := rfl
@[simp] theorem modFrag_pinAck : (s.modFrag h f).pinAck = s.pinAck := rfl
@[simp] theorem modFrag_meas : (s.modFrag h f).meas = s.meas := rfl
@[simp] theorem modFrag_image : (s.modFrag h f).image = s.image := rfl
@[simp] theorem modFrag_imageLen : (s.modFrag h f).imageLen = s.imageLen := rfl
@[simp] theorem modFrag_svn : (s.modFrag h f).svn = s.svn := rfl
@[simp] theorem modFrag_boot : (s.modFrag h f).boot = s.boot := rfl
end

section
variable (h : Here)
@[simp] theorem await_cur : (s.await h).cur = s.cur := rfl
@[simp] theorem await_fresh : (s.await h).fresh = s.fresh := rfl
@[simp] theorem await_inputs : (s.await h).inputs = s.inputs := rfl
@[simp] theorem await_towers : (s.await h).towers = s.towers := rfl
@[simp] theorem await_dram : (s.await h).dram = s.dram := rfl
@[simp] theorem await_tags : (s.await h).tags = s.tags := rfl
@[simp] theorem await_bad : (s.await h).bad = s.bad := rfl
@[simp] theorem await_marks : (s.await h).marks = s.marks := rfl
@[simp] theorem await_walks : (s.await h).walks = s.walks := rfl
@[simp] theorem await_held : (s.await h).held = s.held := rfl
@[simp] theorem await_sbuf : (s.await h).sbuf = s.sbuf := rfl
@[simp] theorem await_pad : (s.await h).pad = s.pad := rfl
@[simp] theorem await_full : (s.await h).full = s.full := rfl
@[simp] theorem await_races : (s.await h).races = s.races := rfl
@[simp] theorem await_writes : (s.await h).writes = s.writes := rfl
@[simp] theorem await_wnum : (s.await h).wnum = s.wnum := rfl
@[simp] theorem await_gsync : (s.await h).gsync = s.gsync := rfl
@[simp] theorem await_rf : (s.await h).rf = s.rf := rfl
@[simp] theorem await_acc : (s.await h).acc = s.acc := rfl
@[simp] theorem await_istore : (s.await h).istore = s.istore := rfl
@[simp] theorem await_accBy : (s.await h).accBy = s.accBy := rfl
@[simp] theorem await_itags : (s.await h).itags = s.itags := rfl
@[simp] theorem await_iold : (s.await h).iold = s.iold := rfl
@[simp] theorem await_ichg : (s.await h).ichg = s.ichg := rfl
@[simp] theorem await_hstore : (s.await h).hstore = s.hstore := rfl
@[simp] theorem await_threads : (s.await h).threads = s.threads := rfl
@[simp] theorem await_groups : (s.await h).groups = s.groups := rfl
@[simp] theorem await_cores : (s.await h).cores = s.cores := rfl
@[simp] theorem await_rings : (s.await h).rings = s.rings := rfl
@[simp] theorem await_lics : (s.await h).lics = s.lics := rfl
@[simp] theorem await_clusters : (s.await h).clusters = s.clusters := rfl
@[simp] theorem await_clocks : (s.await h).clocks = s.clocks := rfl
@[simp] theorem await_throttle : (s.await h).throttle = s.throttle := rfl
@[simp] theorem await_launches : (s.await h).launches = s.launches := rfl
@[simp] theorem await_phased : (s.await h).phased = s.phased := rfl
@[simp] theorem await_heirs : (s.await h).heirs = s.heirs := rfl
@[simp] theorem await_lcores : (s.await h).lcores = s.lcores := rfl
@[simp] theorem await_checks : (s.await h).checks = s.checks := rfl
@[simp] theorem await_orphans : (s.await h).orphans = s.orphans := rfl
@[simp] theorem await_saves : (s.await h).saves = s.saves := rfl
@[simp] theorem await_owners : (s.await h).owners = s.owners := rfl
@[simp] theorem await_valids : (s.await h).valids = s.valids := rfl
@[simp] theorem await_ptp : (s.await h).ptp = s.ptp := rfl
@[simp] theorem await_ptpStamps : (s.await h).ptpStamps = s.ptpStamps := rfl
@[simp] theorem await_ports : (s.await h).ports = s.ports := rfl
@[simp] theorem await_ptpOut : (s.await h).ptpOut = s.ptpOut := rfl
@[simp] theorem await_matchTable : (s.await h).matchTable = s.matchTable := rfl
@[simp] theorem await_drops : (s.await h).drops = s.drops := rfl
@[simp] theorem await_conns : (s.await h).conns = s.conns := rfl
@[simp] theorem await_asks : (s.await h).asks = s.asks := rfl
@[simp] theorem await_tkeys : (s.await h).tkeys = s.tkeys := rfl
@[simp] theorem await_keys : (s.await h).keys = s.keys := rfl
@[simp] theorem await_wire : (s.await h).wire = s.wire := rfl
@[simp] theorem await_outbox : (s.await h).outbox = s.outbox := rfl
@[simp] theorem await_noticeTo : (s.await h).noticeTo = s.noticeTo := rfl
@[simp] theorem await_pinReply : (s.await h).pinReply = s.pinReply := rfl
@[simp] theorem await_pinAck : (s.await h).pinAck = s.pinAck := rfl
@[simp] theorem await_meas : (s.await h).meas = s.meas := rfl
@[simp] theorem await_image : (s.await h).image = s.image := rfl
@[simp] theorem await_imageLen : (s.await h).imageLen = s.imageLen := rfl
@[simp] theorem await_svn : (s.await h).svn = s.svn := rfl
@[simp] theorem await_boot : (s.await h).boot = s.boot := rfl
end

section
variable (k : Nat) (f : Group → Group)
@[simp] theorem modGroup_cur : (s.modGroup k f).cur = s.cur := by unfold State.modGroup; split <;> rfl
@[simp] theorem modGroup_fresh : (s.modGroup k f).fresh = s.fresh := by unfold State.modGroup; split <;> rfl
@[simp] theorem modGroup_inputs : (s.modGroup k f).inputs = s.inputs := by unfold State.modGroup; split <;> rfl
@[simp] theorem modGroup_towers : (s.modGroup k f).towers = s.towers := by unfold State.modGroup; split <;> rfl
@[simp] theorem modGroup_dram : (s.modGroup k f).dram = s.dram := by unfold State.modGroup; split <;> rfl
@[simp] theorem modGroup_tags : (s.modGroup k f).tags = s.tags := by unfold State.modGroup; split <;> rfl
@[simp] theorem modGroup_bad : (s.modGroup k f).bad = s.bad := by unfold State.modGroup; split <;> rfl
@[simp] theorem modGroup_marks : (s.modGroup k f).marks = s.marks := by unfold State.modGroup; split <;> rfl
@[simp] theorem modGroup_walks : (s.modGroup k f).walks = s.walks := by unfold State.modGroup; split <;> rfl
@[simp] theorem modGroup_held : (s.modGroup k f).held = s.held := by unfold State.modGroup; split <;> rfl
@[simp] theorem modGroup_sbuf : (s.modGroup k f).sbuf = s.sbuf := by unfold State.modGroup; split <;> rfl
@[simp] theorem modGroup_pad : (s.modGroup k f).pad = s.pad := by unfold State.modGroup; split <;> rfl
@[simp] theorem modGroup_full : (s.modGroup k f).full = s.full := by unfold State.modGroup; split <;> rfl
@[simp] theorem modGroup_races : (s.modGroup k f).races = s.races := by unfold State.modGroup; split <;> rfl
@[simp] theorem modGroup_writes : (s.modGroup k f).writes = s.writes := by unfold State.modGroup; split <;> rfl
@[simp] theorem modGroup_wnum : (s.modGroup k f).wnum = s.wnum := by unfold State.modGroup; split <;> rfl
@[simp] theorem modGroup_gsync : (s.modGroup k f).gsync = s.gsync := by unfold State.modGroup; split <;> rfl
@[simp] theorem modGroup_rf : (s.modGroup k f).rf = s.rf := by unfold State.modGroup; split <;> rfl
@[simp] theorem modGroup_acc : (s.modGroup k f).acc = s.acc := by unfold State.modGroup; split <;> rfl
@[simp] theorem modGroup_istore : (s.modGroup k f).istore = s.istore := by unfold State.modGroup; split <;> rfl
@[simp] theorem modGroup_accBy : (s.modGroup k f).accBy = s.accBy := by unfold State.modGroup; split <;> rfl
@[simp] theorem modGroup_itags : (s.modGroup k f).itags = s.itags := by unfold State.modGroup; split <;> rfl
@[simp] theorem modGroup_iold : (s.modGroup k f).iold = s.iold := by unfold State.modGroup; split <;> rfl
@[simp] theorem modGroup_ichg : (s.modGroup k f).ichg = s.ichg := by unfold State.modGroup; split <;> rfl
@[simp] theorem modGroup_hstore : (s.modGroup k f).hstore = s.hstore := by unfold State.modGroup; split <;> rfl
@[simp] theorem modGroup_threads : (s.modGroup k f).threads = s.threads := by unfold State.modGroup; split <;> rfl
@[simp] theorem modGroup_waves : (s.modGroup k f).waves = s.waves := by unfold State.modGroup; split <;> rfl
@[simp] theorem modGroup_cores : (s.modGroup k f).cores = s.cores := by unfold State.modGroup; split <;> rfl
@[simp] theorem modGroup_rings : (s.modGroup k f).rings = s.rings := by unfold State.modGroup; split <;> rfl
@[simp] theorem modGroup_lics : (s.modGroup k f).lics = s.lics := by unfold State.modGroup; split <;> rfl
@[simp] theorem modGroup_clusters : (s.modGroup k f).clusters = s.clusters := by unfold State.modGroup; split <;> rfl
@[simp] theorem modGroup_clocks : (s.modGroup k f).clocks = s.clocks := by unfold State.modGroup; split <;> rfl
@[simp] theorem modGroup_throttle : (s.modGroup k f).throttle = s.throttle := by unfold State.modGroup; split <;> rfl
@[simp] theorem modGroup_launches : (s.modGroup k f).launches = s.launches := by unfold State.modGroup; split <;> rfl
@[simp] theorem modGroup_phased : (s.modGroup k f).phased = s.phased := by unfold State.modGroup; split <;> rfl
@[simp] theorem modGroup_heirs : (s.modGroup k f).heirs = s.heirs := by unfold State.modGroup; split <;> rfl
@[simp] theorem modGroup_lcores : (s.modGroup k f).lcores = s.lcores := by unfold State.modGroup; split <;> rfl
@[simp] theorem modGroup_checks : (s.modGroup k f).checks = s.checks := by unfold State.modGroup; split <;> rfl
@[simp] theorem modGroup_orphans : (s.modGroup k f).orphans = s.orphans := by unfold State.modGroup; split <;> rfl
@[simp] theorem modGroup_saves : (s.modGroup k f).saves = s.saves := by unfold State.modGroup; split <;> rfl
@[simp] theorem modGroup_owners : (s.modGroup k f).owners = s.owners := by unfold State.modGroup; split <;> rfl
@[simp] theorem modGroup_valids : (s.modGroup k f).valids = s.valids := by unfold State.modGroup; split <;> rfl
@[simp] theorem modGroup_ptp : (s.modGroup k f).ptp = s.ptp := by unfold State.modGroup; split <;> rfl
@[simp] theorem modGroup_ptpStamps : (s.modGroup k f).ptpStamps = s.ptpStamps := by unfold State.modGroup; split <;> rfl
@[simp] theorem modGroup_ports : (s.modGroup k f).ports = s.ports := by unfold State.modGroup; split <;> rfl
@[simp] theorem modGroup_ptpOut : (s.modGroup k f).ptpOut = s.ptpOut := by unfold State.modGroup; split <;> rfl
@[simp] theorem modGroup_matchTable : (s.modGroup k f).matchTable = s.matchTable := by unfold State.modGroup; split <;> rfl
@[simp] theorem modGroup_drops : (s.modGroup k f).drops = s.drops := by unfold State.modGroup; split <;> rfl
@[simp] theorem modGroup_conns : (s.modGroup k f).conns = s.conns := by unfold State.modGroup; split <;> rfl
@[simp] theorem modGroup_asks : (s.modGroup k f).asks = s.asks := by unfold State.modGroup; split <;> rfl
@[simp] theorem modGroup_tkeys : (s.modGroup k f).tkeys = s.tkeys := by unfold State.modGroup; split <;> rfl
@[simp] theorem modGroup_keys : (s.modGroup k f).keys = s.keys := by unfold State.modGroup; split <;> rfl
@[simp] theorem modGroup_wire : (s.modGroup k f).wire = s.wire := by unfold State.modGroup; split <;> rfl
@[simp] theorem modGroup_outbox : (s.modGroup k f).outbox = s.outbox := by unfold State.modGroup; split <;> rfl
@[simp] theorem modGroup_noticeTo : (s.modGroup k f).noticeTo = s.noticeTo := by unfold State.modGroup; split <;> rfl
@[simp] theorem modGroup_pinReply : (s.modGroup k f).pinReply = s.pinReply := by unfold State.modGroup; split <;> rfl
@[simp] theorem modGroup_pinAck : (s.modGroup k f).pinAck = s.pinAck := by unfold State.modGroup; split <;> rfl
@[simp] theorem modGroup_meas : (s.modGroup k f).meas = s.meas := by unfold State.modGroup; split <;> rfl
@[simp] theorem modGroup_image : (s.modGroup k f).image = s.image := by unfold State.modGroup; split <;> rfl
@[simp] theorem modGroup_imageLen : (s.modGroup k f).imageLen = s.imageLen := by unfold State.modGroup; split <;> rfl
@[simp] theorem modGroup_svn : (s.modGroup k f).svn = s.svn := by unfold State.modGroup; split <;> rfl
@[simp] theorem modGroup_boot : (s.modGroup k f).boot = s.boot := by unfold State.modGroup; split <;> rfl
end

@[simp] theorem setCore_same (k : Nat) (v : Core) : (s.setCore k v).core k = v := getD_put_same _ _ _ _
theorem setCore_other (j k : Nat) (v : Core) (h : j ≠ k) : (s.setCore k v).core j = s.core j := getD_put_ne _ _ _ h
@[simp] theorem setWave_same (k : Nat) (v : Wave) : (s.setWave k v).wave k = v := getD_put_same _ _ _ _
theorem setWave_other (j k : Nat) (v : Wave) (h : j ≠ k) : (s.setWave k v).wave j = s.wave j := getD_put_ne _ _ _ h
@[simp] theorem setThread_same (k : Nat) (v : Thread) : (s.setThread k v).thread k = v := getD_put_same _ _ _ _
theorem setThread_other (j k : Nat) (v : Thread) (h : j ≠ k) : (s.setThread k v).thread j = s.thread j := getD_put_ne _ _ _ h
@[simp] theorem setCluster_same (k : Nat) (v : Cluster) : (s.setCluster k v).cluster k = v := getD_put_same _ _ _ _
theorem setCluster_other (j k : Nat) (v : Cluster) (h : j ≠ k) : (s.setCluster k v).cluster j = s.cluster j := getD_put_ne _ _ _ h
@[simp] theorem setLicence_same (k : Nat) (v : Licence) : (s.setLicence k v).licence k = v := getD_put_same _ _ _ _
theorem setLicence_other (j k : Nat) (v : Licence) (h : j ≠ k) : (s.setLicence k v).licence j = s.licence j := getD_put_ne _ _ _ h
@[simp] theorem setTag_same (k : Nat) (v : SegTag) : (s.setTag k v).tag k = v := getD_put_same _ _ _ _
theorem setTag_other (j k : Nat) (v : SegTag) (h : j ≠ k) : (s.setTag k v).tag j = s.tag j := getD_put_ne _ _ _ h
@[simp] theorem modCore_same (k : Nat) (f : Core → Core) : (s.modCore k f).core k = f (s.core k) := getD_put_same _ _ _ _
theorem modCore_other (j k : Nat) (f : Core → Core) (h : j ≠ k) : (s.modCore k f).core j = s.core j := getD_put_ne _ _ _ h
@[simp] theorem modWave_same (k : Nat) (f : Wave → Wave) : (s.modWave k f).wave k = f (s.wave k) := getD_put_same _ _ _ _
theorem modWave_other (j k : Nat) (f : Wave → Wave) (h : j ≠ k) : (s.modWave k f).wave j = s.wave j := getD_put_ne _ _ _ h
@[simp] theorem modThread_same (k : Nat) (f : Thread → Thread) : (s.modThread k f).thread k = f (s.thread k) := getD_put_same _ _ _ _
theorem modThread_other (j k : Nat) (f : Thread → Thread) (h : j ≠ k) : (s.modThread k f).thread j = s.thread j := getD_put_ne _ _ _ h
@[simp] theorem modCluster_same (k : Nat) (f : Cluster → Cluster) : (s.modCluster k f).cluster k = f (s.cluster k) := getD_put_same _ _ _ _
theorem modCluster_other (j k : Nat) (f : Cluster → Cluster) (h : j ≠ k) : (s.modCluster k f).cluster j = s.cluster j := getD_put_ne _ _ _ h
@[simp] theorem setGroup_same (k : Nat) (v : Group) : (s.setGroup k v).group k = some v := find_insert_same _ _ _
theorem setGroup_other (j k : Nat) (v : Group) (h : j ≠ k) : (s.setGroup k v).group j = s.group j := find_insert_ne _ _ h
@[simp] theorem modGroup_same (k : Nat) (f : Group → Group) : (s.modGroup k f).group k = (s.group k).map f := by
  unfold State.modGroup
  split <;> simp [*]
theorem modGroup_other (j k : Nat) (f : Group → Group) (h : j ≠ k) : (s.modGroup k f).group j = s.group j := by
  unfold State.modGroup
  split
  · exact setGroup_other s _ _ _ h
  · rfl
@[simp] theorem setLaunch_same (k : Nat) (v : Launch) : (s.setLaunch k v).launch k = v := by simp [State.launch, State.setLaunch, getD, find_insert_same]
theorem setLaunch_other (j k : Nat) (v : Launch) (h : j ≠ k) : (s.setLaunch k v).launch j = s.launch j := by
  simp [State.launch, State.setLaunch, getD, find_insert_ne _ _ h]

end Sys2Proof.Machine
end

