-- ==== Sys2Proof/Laws/Memory.lean ====
section
/-! SUPPORT. Memory: what a read depends on, reading after a write, and the canonical form that every memory operation keeps. -/

namespace Sys2Proof.Machine

/-! ## What a read depends on -/

section congr
variable {s t : State}

theorem dramByte_congr (hd : t.dram = s.dram) (ht : t.tags = s.tags) (key a : Nat) : t.dramByte key a = s.dramByte key a := by
  simp only [State.dramByte, hd, ht]

theorem dramNat_congr (hd : t.dram = s.dram) (ht : t.tags = s.tags) (key a n : Nat) : t.dramNat key a n = s.dramNat key a n := by
  induction n generalizing a with
  | zero => rfl
  | succ n ih => simp only [State.dramNat, dramByte_congr hd ht, ih]

theorem reserveStart_congr (hw : t.towers = s.towers) : t.reserveStart = s.reserveStart := by
  unfold State.reserveStart State.towerCount
  rw [hw]

theorem part_congr (hd : t.dram = s.dram) (ht : t.tags = s.tags) (hw : t.towers = s.towers) (p lo len : Nat) : t.part p lo len = s.part p lo len := by
  simp only [State.part, State.mm, State.dramField, dramNat_congr hd ht, reserveStart_congr hw]

theorem keyOf_congr (hd : t.dram = s.dram) (ht : t.tags = s.tags) (hw : t.towers = s.towers) (p : Nat) : t.keyOf p = s.keyOf p := by
  simp only [State.keyOf, part_congr hd ht hw]

/-- A read of a byte of device memory depends on memory, its line tags, the towers and the store buffers alone. -/
theorem readByte_congr (hd : t.dram = s.dram) (ht : t.tags = s.tags) (hw : t.towers = s.towers) (hb : t.sbuf = s.sbuf) (who : Actor) (a : Nat) :
    t.readByte who (.dram a) = s.readByte who (.dram a) := by
  simp only [State.readByte, hb, keyOf_congr hd ht hw, dramByte_congr hd ht]

/-- A read of a byte of the on-chip map outside the register file depends on the scratchpads, the accumulators and the instruction
stores alone. -/
theorem chipByte_congr (hp : t.pad = s.pad) (ha : t.acc = s.acc) (hi : t.istore = s.istore) (core : Nat) {o : Nat} (ho : (regionKind o).1 ≠ 1) :
    t.chipByte core o = s.chipByte core o := by
  unfold State.chipByte
  simp only
  split
  · rw [hp]
  · contradiction
  · rw [ha]
  · rw [hi]

/-- Both at once. -/
theorem sameMemory_of (hd : t.dram = s.dram) (ht : t.tags = s.tags) (hw : t.towers = s.towers) (hb : t.sbuf = s.sbuf) (hp : t.pad = s.pad) (ha : t.acc = s.acc)
    (hi : t.istore = s.istore) : SameMemory s t :=
  ⟨fun who a => readByte_congr hd ht hw hb who a, fun core _ ho => chipByte_congr hp ha hi core ho⟩

end congr

/-! ## Reading after a write -/

theorem putDram_same (s : State) (key a : Nat) (v : Byte) : (s.putDram key a v).dramByte key a = v := by
  unfold State.putDram
  split
  next h => simp [State.dramByte, h, getD_put_same]
  next h => simp [State.dramByte, getD_put_same]

/-- A write of one byte leaves every other byte of its line as it read, where the line carries the writer's key. -/
theorem putDram_other (s : State) (key a b : Nat) (v : Byte) (hk : getD 0 s.tags (lineOf a) = key) (hb : b ≠ a) (k : Nat) :
    (s.putDram key a v).dramByte k b = s.dramByte k b := by
  simp [State.putDram, hk, State.dramByte, getD_put_ne _ _ _ hb]

/-- A write leaves every byte of every other line as it read. -/
theorem putDram_line (s : State) (key a b : Nat) (v : Byte) (hb : lineOf b ≠ lineOf a) (k : Nat) :
    (s.putDram key a v).dramByte k b = s.dramByte k b := by
  have hne : b ≠ a := by rintro rfl; exact hb rfl
  unfold State.putDram
  split
  · simp [State.dramByte, getD_put_ne _ _ _ hne]
  · simp only [State.dramByte, getD_put_ne _ _ _ hb, getD_put_ne _ _ _ hne, getD_dropRange]
    have hr : ¬ (128 * lineOf a ≤ b ∧ b < 128 * lineOf a + 128) := by
      intro h
      apply hb
      simp only [lineOf] at *
      omega
    rw [if_neg hr]

/-- A write that every agent sees reads as its byte. -/
theorem setDram_same (s : State) (key a : Nat) (v : Byte) : (s.setDram key a v).dramByte key a = v := putDram_same s key a v

theorem setDram_other (s : State) (key a b : Nat) (v : Byte) (hk : getD 0 s.tags (lineOf a) = key) (hb : b ≠ a) (k : Nat) :
    (s.setDram key a v).dramByte k b = s.dramByte k b := putDram_other s key a b v hk hb k

theorem setDram_line (s : State) (key a b : Nat) (v : Byte) (hb : lineOf b ≠ lineOf a) (k : Nat) :
    (s.setDram key a v).dramByte k b = s.dramByte k b := putDram_line s key a b v hb k

theorem setByte_same (w : Word) (k : Nat) (hk : k < 4) (v : Byte) : (setByte w k v).extractLsb' (8 * k) 8 = v := by
  simp only [setByte]
  ext i hi
  simp only [BitVec.getElem_extractLsb', BitVec.getLsbD_or, BitVec.getLsbD_and, BitVec.getLsbD_not, BitVec.getLsbD_shiftLeft]
  have h1 : 8 * k + i < 32 := by omega
  have h2 : 8 * k + i - 8 * k = i := by omega
  have h4 : (255#32).getLsbD i = true := by
    have : ∀ j : Fin 8, (255#32).getLsbD j.val = true := by decide
    exact this ⟨i, hi⟩
  simp [h1, h2, h4]
  have h6 : ¬ (8 * k + i < 8 * k) := by omega
  have h5 : i < 32 := by omega
  simp [h6, h5, BitVec.getLsbD_eq_getElem hi]

/-- A byte of the on-chip map reads back. -/
theorem setChip_same (s : State) (c o : Nat) (v : Byte) : (s.setChip c o v).chipByte c o = v := by
  unfold State.setChip State.chipByte
  simp only
  split <;> simp [getD_put_same, setByte_same _ _ (Nat.mod_lt o (by decide : 4 > 0))]

/-! ## The canonical form -/

/-- Both memories in the canonical form. -/
def MemOk (s : State) : Prop := canonical 0 s.dram = true ∧ canonical 0 s.pad = true

theorem memOk_iff (s : State) : s.memOk = true ↔ MemOk s := by simp [State.memOk, Memory.wf, MemOk]

/-- A change of other fields keeps it. -/
theorem MemOk.of_eq {s t : State} (h : MemOk s) (hd : t.dram = s.dram) (hp : t.pad = s.pad) : MemOk t := by
  unfold MemOk
  rw [hd, hp]
  exact h

theorem reset_memOk : MemOk State.reset := ⟨rfl, rfl⟩

/-- Folding steps that keep the form keeps it. -/
theorem MemOk.foldl {β : Type} {f : State → β → State} (hf : ∀ s b, MemOk s → MemOk (f s b)) (bs : List β) {s : State} (h : MemOk s) :
    MemOk (bs.foldl f s) := by
  induction bs generalizing s with
  | nil => exact h
  | cons b r ih => exact ih (hf s b h)

theorem putDram_memOk {s : State} (h : MemOk s) (key a : Nat) (v : Byte) : MemOk (s.putDram key a v) := by
  unfold State.putDram
  split
  · exact ⟨canonical_put _ _ _ _ h.1, h.2⟩
  · exact ⟨canonical_put _ _ _ _ (canonical_dropRange _ _ _ _ h.1), h.2⟩

theorem setDram_memOk {s : State} (h : MemOk s) (key a : Nat) (v : Byte) : MemOk (s.setDram key a v) := putDram_memOk h key a v

theorem setDramBytes_memOk {s : State} (h : MemOk s) (key a : Nat) (bs : List Byte) : MemOk (s.setDramBytes key a bs) := by
  induction bs generalizing s a with
  | nil => exact h
  | cons b r ih => exact ih (setDram_memOk h key a b) (a + 1)

theorem setChip_memOk {s : State} (h : MemOk s) (c o : Nat) (v : Byte) : MemOk (s.setChip c o v) := by
  unfold State.setChip
  simp only
  split
  · exact ⟨h.1, canonical_put _ _ _ _ h.2⟩
  · exact h
  · exact h
  · exact h

/-- Noting entries that writes replace changes no memory (R341). -/
theorem noteEntry_frame (s : State) (d : Nat) : (s.noteEntry d).dram = s.dram ∧ (s.noteEntry d).pad = s.pad ∧ (s.noteEntry d).tags = s.tags := by
  unfold State.noteEntry
  split <;> exact ⟨rfl, rfl, rfl⟩

theorem noteEntry_memOk {s : State} (h : MemOk s) (d : Nat) : MemOk (s.noteEntry d) :=
  h.of_eq (noteEntry_frame s d).1 (noteEntry_frame s d).2.1

theorem noteEntries_memOk {s : State} (h : MemOk s) (a n : Nat) : MemOk (s.noteEntries a n) := by
  unfold State.noteEntries
  split
  · exact h
  · exact MemOk.foldl (fun _ _ h => noteEntry_memOk h _) _ h

theorem noteLocs_memOk {s : State} (h : MemOk s) (ls : List Loc) : MemOk (s.noteLocs ls) :=
  MemOk.foldl (fun s l h => by
    cases l with
    | dram a => exact noteEntry_memOk h _
    | remote n a => exact h
    | chip c o =>
      simp only
      split
      · exact h.of_eq rfl rfl
      · exact h) _ h

theorem performBytes_memOk {s : State} (h : MemOk s) (p k a : Nat) (bs : List Byte) : MemOk (s.performBytes p k a bs) := by
  unfold State.performBytes
  simp only
  split
  · exact (setDramBytes_memOk (noteEntries_memOk h a bs.length) k a bs).of_eq rfl rfl
  · exact setDramBytes_memOk (noteEntries_memOk h a bs.length) k a bs

theorem contain_memOk {s : State} (h : MemOk s) (p a : Nat) : MemOk (s.contain p a) := h.of_eq (by simp) (by simp)

theorem putByte_memOk {s : State} (h : MemOk s) (key : Nat) (v : Byte) (l : Loc) : MemOk (s.putByte key v l) := by
  cases l with
  | dram a => exact putDram_memOk h key a v
  | remote n a => exact h
  | chip c o => exact ⟨h.1, canonical_put _ _ _ _ h.2⟩

/-- Bytes that enter coherence order keep the form (R259). -/
theorem placeUnit_memOk {s : State} (h : MemOk s) (key id : Nat) (later : List Nat) (bs : List Byte) (ls : List Loc) :
    MemOk (s.placeUnit key id later bs ls) := by
  unfold State.placeUnit
  refine MemOk.of_eq (MemOk.foldl (f := fun t p => if List.any _ _ then t else State.putByte t key p.1 p.2) (fun t p ht => ?_) (bs.zip ls)
    (s := s.dropForeign key ls) (h.of_eq rfl rfl)) rfl rfl
  split
  · exact ht
  · exact putByte_memOk ht _ _ _

theorem performStore_memOk {s : State} (h : MemOk s) (b : Buffered) : MemOk (s.performStore b) := by
  unfold State.performStore
  split
  · exact performBytes_memOk h _ _ _ _
  · simp only
    split
    · exact contain_memOk (placeUnit_memOk (noteEntries_memOk h _ _) _ _ _ _ _) _ _
    · exact placeUnit_memOk (noteEntries_memOk h _ _) _ _ _ _ _

theorem flushCore_memOk {s : State} (h : MemOk s) (c : Nat) : MemOk (s.flushCore c) :=
  MemOk.foldl (fun _ b h => performStore_memOk h b) _ (h.of_eq rfl rfl)

theorem flushAll_memOk {s : State} (h : MemOk s) : MemOk s.flushAll :=
  MemOk.foldl (fun _ b h => performStore_memOk h b) _ (h.of_eq rfl rfl)

theorem transmit_memOk {s : State} (h : MemOk s) (n c t k : Nat) (a : BitVec 64) (p : List Byte) : MemOk (s.transmit n c t k a p) :=
  h.of_eq rfl rfl

theorem writeByte_memOk {s : State} (h : MemOk s) (who : Actor) (v : Byte) (l : Loc) : MemOk (s.writeByte who v l) := by
  cases l with
  | dram a => exact setDram_memOk h _ a v
  | remote n a => exact transmit_memOk h _ _ _ _ _ _
  | chip c o =>
    show MemOk ((s.setChip c o v).ownWord who c o)
    unfold State.ownWord
    simp only
    split
    · exact (setChip_memOk h c o v).of_eq rfl rfl
    · exact setChip_memOk h c o v

theorem writeEach_memOk {s : State} (h : MemOk s) (who : Actor) (vs : List Byte) (ls : List Loc) : MemOk (s.writeEach who vs ls) := by
  induction vs generalizing s ls with
  | nil => cases ls <;> exact h
  | cons v r ih =>
    cases ls with
    | nil => exact h
    | cons l q => exact ih (writeByte_memOk h who v l) q

theorem containLines_memOk {s : State} (h : MemOk s) (p : Nat) (ls : List Loc) : MemOk (s.containLines p ls) := by
  unfold State.containLines
  split
  · exact contain_memOk h _ _
  · exact h

theorem foldUnit_memOk {s : State} (h : MemOk s) (who : Actor) (bs : List Byte) (ls : List Loc) : MemOk (s.foldUnit who bs ls) := by
  unfold State.foldUnit
  split
  · exact h
  · split
    · exact h.of_eq rfl rfl
    · exact h

theorem writeUnit_memOk {s : State} (h : MemOk s) (who : Actor) (bs : List Byte) (ls : List Loc) : MemOk (s.writeUnit who bs ls) := by
  have h1 := containLines_memOk (noteLocs_memOk (foldUnit_memOk h who bs ls) ls) who.part ls
  unfold State.writeUnit
  simp only
  split
  · split
    · exact transmit_memOk h1 _ _ _ _ _ _
    · exact writeEach_memOk h1 _ _ _
  · exact writeEach_memOk h1 _ _ _

theorem writeNat_memOk {s : State} (h : MemOk s) (who : Actor) (v : Nat) (ls : List Loc) : MemOk (s.writeNat who v ls) :=
  writeUnit_memOk h _ _ _

theorem flushLine_memOk {s : State} (h : MemOk s) (c l : Nat) : MemOk (s.flushLine c l) :=
  MemOk.foldl (fun _ b h => performStore_memOk h b) _ (h.of_eq rfl rfl)

theorem bufferStore_memOk {s : State} (h : MemOk s) (who : Actor) (v a n id : Nat) : MemOk (s.bufferStore who v a n id) := by
  unfold State.bufferStore
  simp only
  have h1 := foldUnit_memOk h who (bytesOf v n) ((List.range n).map (fun k => .dram (a + k)))
  split
  · split
    · exact (flushLine_memOk h1 _ _).of_eq rfl rfl
    · exact h1.of_eq rfl rfl
  · exact h1.of_eq rfl rfl

/-! ## Accesses that race (R160, R260) -/

/-- With nothing that the agent need not have seen, a plain read is a read. -/
theorem partBytes_calm {s : State} {who : Actor} {ls : List Loc} (h : s.racing who ls = []) : s.partBytes who ls = ls.map (s.readByte who) := by
  have none : ∀ es : List Race, es.find? (fun _ => false) = none := fun es => by simp
  simp [State.partBytes, State.undoneAt, h, State.byteBefore, none]

/-- A plain read changes only which writes its agent has read. -/
theorem markSeen_frame (s : State) (a : Agent) (ids : List Nat) : { s.markSeen a ids with writes := [] } = { s with writes := [] } := rfl

theorem record_memOk {s : State} (h : MemOk s) (id : Nat) (a : Agent) (rel made : List Sync) (rmw : Bool) : MemOk (s.record id a rel made rmw) :=
  h.of_eq rfl rfl

theorem plainWrite_memOk {s : State} (h : MemOk s) (who : Actor) (first v : Nat) (ls : List Loc) : MemOk (s.plainWrite who first v ls) := by
  unfold State.plainWrite
  simp only
  refine MemOk.foldl (fun s p h => ?_) _ (containLines_memOk (noteLocs_memOk h ls) who.part ls)
  exact placeUnit_memOk (record_memOk (s := { s with wnum := s.wnum + 1 }) (h.of_eq rfl rfl) _ _ _ _ _) _ _ _ _ _

theorem useFresh_memOk {s : State} (h : MemOk s) (b : Bool) : MemOk (s.useFresh b) := by
  unfold State.useFresh
  split
  · exact h.of_eq rfl rfl
  · exact h

theorem engineWrite_memOk {s : State} (h : MemOk s) (who : Actor) (v : Nat) (ls : List Loc) : MemOk (s.engineWrite who v ls) := by
  unfold State.engineWrite
  split
  · exact useFresh_memOk (plainWrite_memOk h _ _ _ _) _
  · exact writeNat_memOk h _ _ _

end Sys2Proof.Machine
end

