-- ==== Sys2Proof/Laws/Regs.lean ====
section
/-! SUPPORT. What writing registers and latches, and retiring, can do: one lemma for each shared operation of Machine/Ops.lean. -/

namespace Sys2Proof.Machine

/-! ## Lanes and keys -/

theorem mem_lanesOf {m : Mask} {l : Nat} : l ∈ lanesOf m ↔ l < 32 ∧ m.getLsbD l = true := by simp [lanesOf]

theorem lanesOf_nodup (m : Mask) : (lanesOf m).Nodup := List.nodup_range.filter _

theorem Here.lt_of_mem {h : Here} {l : Nat} (hl : l ∈ h.lanes) : l < 32 := (mem_lanesOf.1 hl).1

theorem tk_inj (h : Here) {a b : Nat} : h.tk a = h.tk b ↔ a = b := by simp only [Here.tk, tkOf]; omega

theorem bit_getLsbD (l j : Nat) (hl : l < 32) : (bit l).getLsbD j = decide (l = j) := by
  have key : ∀ a b : Fin 32, (bit a.val).getLsbD b.val = decide (a.val = b.val) := by decide
  by_cases hj : j < 32
  · exact key ⟨l, hl⟩ ⟨j, hj⟩
  · rw [BitVec.getLsbD_of_ge _ _ (by omega)]
    simp; omega

theorem maskWhere_eq_zero {m : Mask} {p : Nat → Bool} (h : ∀ l ∈ lanesOf m, p l = false) : maskWhere m p = 0 := by
  have : (lanesOf m).filter p = [] := by
    rw [List.filter_eq_nil_iff]
    intro a ha
    simp [h a ha]
  simp [maskWhere, this, maskOf]

theorem rfKey_lane {c sl R w x x' l l' : Nat} (hl : l < 32) (hl' : l' < 32) (h : rfKey c sl R w x l = rfKey c sl R w x' l') : x = x' ∧ l = l' := by
  simp only [rfKey] at h
  omega

/-! ## Checks -/

theorem Ready.range_zero {s : State} {h : Here} {named reads : List Reg} (r : Ready s h named reads) : s.rangeFails h named = 0 := by
  apply maskWhere_eq_zero
  intro l hl
  rw [List.any_eq_false]
  intro x hx
  have := r.range l hl x hx
  by_cases h1 : x.toNat ≤ 123
  · have h2 := this h1
    by_cases h3 : h.handler = true
    · simp [h3] at h2 ⊢; omega
    · simp only [Bool.not_eq_true] at h3
      simp [h3] at h2 ⊢; omega
  · simp [h1]

theorem Ready.latch_zero {s : State} {h : Here} {named reads : List Reg} (r : Ready s h named reads) : s.latchFails h reads = 0 := by
  apply maskWhere_eq_zero
  intro l hl
  rw [List.any_eq_false]
  intro x hx
  have := r.latch l hl x hx
  by_cases h1 : 124 ≤ x.toNat
  · have := this h1
    simp [h1]; omega
  · simp [h1]

/-- The word's checks pass: the instruction's own meaning decides. -/
theorem checked_of_ready {s : State} {h : Here} {named reads : List Reg} (r : Ready s h named reads) (k : Out) : checked s h named reads k = k := by
  simp [checked, r.range_zero, r.latch_zero]

theorem withHere_of_ready {s : State} {h : Here} {named reads : List Reg} (r : Ready s h named reads) (k : Here → Out) : withHere s k = k h := by
  simp [withHere, r.here]

/-- What `checked` can answer: its continuation, a register-range trap or a latch trap (R73). -/
theorem checked_cases (s : State) (h : Here) (named reads : List Reg) (k : Out) :
    checked s h named reads k = k ∨ checked s h named reads k = trapIn s h kRange (s.rangeFails h named)
      ∨ checked s h named reads k = trapIn s h kLatch (s.latchFails h reads) := by
  unfold checked
  split
  · exact .inr (.inl rfl)
  · split
    · exact .inr (.inr rfl)
    · exact .inl rfl

/-! ## One register of one lane -/

section setReg
variable (s : State) (h : Here) (l : Nat) (r : Reg) (v : Word)

/-- A register write touches one register-file word, or the handler registers or the shadow of its own thread. -/
theorem setReg_cases :
    s.setReg h l r v = s ∨ (∃ x, h.handler = true ∧ s.setReg h l r v = s.setThread (h.tk l) { s.thread (h.tk l) with hregs := x }) ∨
    (∃ x, s.setReg h l r v = s.setThread (h.tk l) { s.thread (h.tk l) with shadow := x }) ∨
    s.setReg h l r v = s.setFront h l ((s.thread (h.tk l)).wbase + r.toNat) v := by
  unfold State.setReg
  simp only
  split
  · exact .inl rfl
  · split
    · exact .inr (.inl ⟨_, ‹_›, rfl⟩)
    · split
      · exact .inr (.inr (.inl ⟨_, rfl⟩))
      · exact .inr (.inr (.inr rfl))

theorem setReg_thread_other {k : Nat} (hk : k ≠ h.tk l) : (s.setReg h l r v).thread k = s.thread k := by
  rcases setReg_cases s h l r v with e | ⟨x, _, e⟩ | ⟨x, e⟩ | e <;> rw [e]
  · exact setThread_other _ _ _ _ hk
  · exact setThread_other _ _ _ _ hk
  · rfl

theorem setReg_thread : ∃ x y, (s.setReg h l r v).thread (h.tk l) = { s.thread (h.tk l) with hregs := x, shadow := y } := by
  rcases setReg_cases s h l r v with e | ⟨x, _, e⟩ | ⟨x, e⟩ | e <;> rw [e]
  · exact ⟨(s.thread (h.tk l)).hregs, (s.thread (h.tk l)).shadow, rfl⟩
  · exact ⟨x, (s.thread (h.tk l)).shadow, by simp⟩
  · exact ⟨(s.thread (h.tk l)).hregs, x, by simp⟩
  · exact ⟨(s.thread (h.tk l)).hregs, (s.thread (h.tk l)).shadow, rfl⟩

/-- The register written reads back (R46, R56, R301). -/
theorem setReg_reg_same (hr : r.toNat ≤ 123) : (s.setReg h l r v).reg h l r = v := by
  have h1 : ¬ 124 ≤ r.toNat := by omega
  unfold State.setReg
  simp only [h1, if_false]
  split
  · simp [State.reg, *, getD_put_same]
  · split
    · rename_i hh hb
      unfold State.reg
      simp only [h1, if_false, setThread_same]
      have : Thread.inBank { s.thread (h.tk l) with shadow := put 0 (s.thread (h.tk l)).shadow (r.toNat - 16 * (s.thread (h.tk l)).bank.toNat) v } r.toNat = true := hb
      simp only [hh, this, if_true]
      simp [getD_put_same]
    · rename_i hh hb
      have : ((s.setFront h l ((s.thread (h.tk l)).wbase + r.toNat) v).thread (h.tk l)) = s.thread (h.tk l) := rfl
      unfold State.reg
      rw [this]
      simp only [h1, if_false, hh, hb]
      exact getD_put_same _ _ _ _

/-- Every other window register of every lane of the wave keeps its value. -/
theorem setReg_reg_other {l' : Nat} {r' : Reg} (hl : l < 32) (hl' : l' < 32) (hr' : r'.toNat ≤ 123) (hne : l' ≠ l ∨ r' ≠ r) :
    (s.setReg h l r v).reg h l' r' = s.reg h l' r' := by
  have h1' : ¬ 124 ≤ r'.toNat := by omega
  have hnn : l' = l → r'.toNat ≠ r.toNat := by
    rintro rfl e
    rcases hne with hne | hne
    · exact hne rfl
    · exact hne (BitVec.eq_of_toNat_eq e)
  by_cases hll : l' = l
  · subst hll
    have hn := hnn rfl
    unfold State.setReg
    simp only
    split
    · rfl
    · split
      · rename_i hh
        simp [State.reg, h1', hh, getD_put_ne _ _ _ hn]
      · split
        · rename_i hh hb
          unfold State.reg
          simp only [h1', if_false, setThread_same, hh]
          have hbank : Thread.inBank { s.thread (h.tk l') with shadow := put 0 (s.thread (h.tk l')).shadow (r.toNat - 16 * (s.thread (h.tk l')).bank.toNat) v } r'.toNat = Thread.inBank (s.thread (h.tk l')) r'.toNat := rfl
          rw [hbank]
          split
          · rfl
          · split
            · rename_i _ hb'
              simp only [Thread.inBank, Bool.and_eq_true, decide_eq_true_eq] at hb hb'
              exact getD_put_ne _ _ _ (by omega)
            · rfl
        · rename_i hh hb
          have : ((s.setFront h l' ((s.thread (h.tk l')).wbase + r.toNat) v).thread (h.tk l')) = s.thread (h.tk l') := rfl
          simp only [State.reg, h1', if_false, this]
          split
          · rfl
          · split
            · rfl
            · simp only [State.front, State.setFront]
              refine getD_put_ne _ _ _ (fun e => ?_)
              have := (rfKey_lane hl hl e).1
              omega
  · have hk : h.tk l' ≠ h.tk l := fun e => hll ((tk_inj h).1 e)
    have ht := setReg_thread_other s h l r v hk
    unfold State.reg
    rw [ht]
    simp only [h1', if_false]
    split
    · rfl
    · split
      · rfl
      · simp only [State.front]
        rcases setReg_cases s h l r v with e | ⟨x, _, e⟩ | ⟨x, e⟩ | e <;> rw [e]
        · rfl
        · rfl
        · simp only [State.setFront]
          refine getD_put_ne _ _ _ (fun e => ?_)
          exact hll (rfKey_lane hl' hl e).2

theorem setReg_file {k : Nat} (hk : k ≠ rfKey h.core h.slot h.R h.wave ((s.thread (h.tk l)).wbase + r.toNat) l) :
    getD 0 (s.setReg h l r v).rf k = getD 0 s.rf k := by
  rcases setReg_cases s h l r v with e | ⟨x, _, e⟩ | ⟨x, e⟩ | e <;> rw [e]
  · rfl
  · rfl
  · exact getD_put_ne _ _ _ hk

/-- Nothing beside threads and the register file changes. -/
theorem setReg_else : { s.setReg h l r v with threads := [], rf := [] } = { s with threads := [], rf := [] } := by
  rcases setReg_cases s h l r v with e | ⟨x, _, e⟩ | ⟨x, e⟩ | e <;> rw [e] <;> rfl

end setReg

/-! ## Threads -/

/-- What a change of threads leaves in a register read: the thread's window, bank, shadow, handler registers and latches decide. -/
theorem reg_congr {s t : State} {h : Here} {l : Nat} {r : Reg} (hr : r.toNat ≤ 123)
    (hw : (t.thread (h.tk l)).wbase = (s.thread (h.tk l)).wbase) (ho : (t.thread (h.tk l)).isOpen = (s.thread (h.tk l)).isOpen)
    (hb : (t.thread (h.tk l)).bank = (s.thread (h.tk l)).bank) (hs : (t.thread (h.tk l)).shadow = (s.thread (h.tk l)).shadow)
    (hh : (t.thread (h.tk l)).hregs = (s.thread (h.tk l)).hregs) (hrf : t.rf = s.rf) : t.reg h l r = s.reg h l r := by
  have h1 : ¬ 124 ≤ r.toNat := by omega
  have hi : (t.thread (h.tk l)).inBank r.toNat = (s.thread (h.tk l)).inBank r.toNat := by simp only [Thread.inBank, ho, hb]
  have hf : t.front h l ((t.thread (h.tk l)).wbase + r.toNat) = s.front h l ((s.thread (h.tk l)).wbase + r.toNat) := by
    simp only [State.front, hrf, hw]
  unfold State.reg
  rw [if_neg h1, if_neg h1, hi, hf, hs, hb, hh]

/-- A thread after a write of window register `r` (its register-file word apart). -/
def Thread.wrote (t : Thread) (handler : Bool) (r : Reg) (v : Word) : Thread :=
  if 124 ≤ r.toNat then t
  else if handler then { t with hregs := put 0 t.hregs r.toNat v }
  else if t.inBank r.toNat then { t with shadow := put 0 t.shadow (r.toNat - 16 * t.bank.toNat) v }
  else t

theorem setReg_own (s : State) (h : Here) (l : Nat) (r : Reg) (v : Word) :
    (s.setReg h l r v).thread (h.tk l) = (s.thread (h.tk l)).wrote h.handler r v := by
  unfold State.setReg Thread.wrote
  simp only
  split
  · rfl
  · split
    · simp
    · split
      · simp
      · rfl

@[simp] theorem Thread.wrote_kept (t : Thread) (b : Bool) (r : Reg) (v : Word) : (t.wrote b r v).kept = t.kept := by
  unfold Thread.wrote; split <;> (try split) <;> (try split) <;> rfl
@[simp] theorem Thread.produce_kept (t : Thread) (b : Bool) (v : Word) : (t.produce b v).kept = t.kept := rfl

/-! ## Folds over lanes -/

section folds
variable {f : State → Nat → State} {h : Here}

/-- A fold of steps that each change one lane's thread leaves every other thread. -/
theorem foldl_thread_other (hf : ∀ s l k, k ≠ h.tk l → (f s l).thread k = s.thread k) (ls : List Nat) (s : State) {k : Nat}
    (hk : ∀ l ∈ ls, k ≠ h.tk l) : (ls.foldl f s).thread k = s.thread k := by
  induction ls generalizing s with
  | nil => rfl
  | cons a r ih =>
    rw [List.foldl_cons, ih _ (fun l hl => hk l (by simp [hl]))]
    exact hf s a k (hk a (by simp))

/-- In a fold of steps that each change one lane's thread, every lane's thread changes as its own step says. -/
theorem foldl_thread_own (hf : ∀ s l k, k ≠ h.tk l → (f s l).thread k = s.thread k) {φ : Nat → Thread → Thread}
    (ho : ∀ s l, (f s l).thread (h.tk l) = φ l (s.thread (h.tk l))) (ls : List Nat) (hn : ls.Nodup) (s : State) {l : Nat} (hl : l ∈ ls) :
    (ls.foldl f s).thread (h.tk l) = φ l (s.thread (h.tk l)) := by
  induction ls generalizing s with
  | nil => simp at hl
  | cons a r ih =>
    have hn' := List.nodup_cons.1 hn
    rw [List.foldl_cons]
    rcases List.mem_cons.1 hl with rfl | hl
    · rw [foldl_thread_other hf r _ (fun x hx e => hn'.1 (by rwa [(tk_inj h).1 e])), ho]
    · rw [ih hn'.2 _ hl, hf s a _ (fun e => hn'.1 ((tk_inj h).1 e ▸ hl))]

/-- A projection that every step of a fold keeps is kept. -/
theorem foldl_keeps {β : Type} (π : State → β) (hf : ∀ s l, π (f s l) = π s) (ls : List Nat) (s : State) : π (ls.foldl f s) = π s := by
  induction ls generalizing s with
  | nil => rfl
  | cons a r ih => rw [List.foldl_cons, ih, hf]

end folds

/-! ## Producing -/

section produce
variable (s : State) (h : Here) (d : Reg) (latch : Bool) (val : Nat → Word)

/-- One lane's part of a producing instruction. -/
def produceLane (h : Here) (d : Reg) (latch : Bool) (val : Nat → Word) (s : State) (l : Nat) : State :=
  (s.setReg h l d (val l)).modThread (h.tk l) (fun t => t.produce latch (val l))

theorem produce_eq : s.produce h d latch val = h.lanes.foldl (produceLane h d latch val) s := rfl

theorem produceLane_other (s : State) (l k : Nat) (hk : k ≠ h.tk l) : (produceLane h d latch val s l).thread k = s.thread k := by
  rw [produceLane, modThread_other _ _ _ _ hk, setReg_thread_other _ _ _ _ _ hk]

theorem produceLane_own (s : State) (l : Nat) :
    (produceLane h d latch val s l).thread (h.tk l) = ((s.thread (h.tk l)).wrote h.handler d (val l)).produce latch (val l) := by
  rw [produceLane, modThread_same, setReg_own]

theorem produce_thread_other {k : Nat} (hk : ∀ l ∈ h.lanes, k ≠ h.tk l) : (s.produce h d latch val).thread k = s.thread k :=
  foldl_thread_other (produceLane_other h d latch val) _ _ hk

theorem produce_thread {l : Nat} (hl : l ∈ h.lanes) :
    (s.produce h d latch val).thread (h.tk l) = ((s.thread (h.tk l)).wrote h.handler d (val l)).produce latch (val l) :=
  foldl_thread_own (produceLane_other h d latch val) (φ := fun l t => (t.wrote h.handler d (val l)).produce latch (val l))
    (produceLane_own h d latch val) _ (lanesOf_nodup _) _ hl

theorem produce_else : { s.produce h d latch val with threads := [], rf := [] } = { s with threads := [], rf := [] } :=
  foldl_keeps (fun s : State => ({ s with threads := [], rf := [] } : State)) (fun s l => by
    show ({ s.setReg h l d (val l) with threads := [], rf := [] } : State) = _
    exact setReg_else s h l d (val l)) _ s

theorem modThread_produce_reg (s : State) (l : Nat) (v : Word) {l' : Nat} {r : Reg} (hr : r.toNat ≤ 123) :
    (s.modThread (h.tk l) (fun t => t.produce latch v)).reg h l' r = s.reg h l' r := by
  by_cases e : l' = l
  · subst e
    have : (s.modThread (h.tk l') (fun t => t.produce latch v)).thread (h.tk l') = (s.thread (h.tk l')).produce latch v := modThread_same _ _ _
    exact reg_congr hr (by rw [this]; rfl) (by rw [this]; rfl) (by rw [this]; rfl) (by rw [this]; rfl) (by rw [this]; rfl) rfl
  · have : (s.modThread (h.tk l) (fun t => t.produce latch v)).thread (h.tk l') = s.thread (h.tk l') :=
      modThread_other _ _ _ _ (fun x => e ((tk_inj h).1 x))
    exact reg_congr hr (by rw [this]) (by rw [this]) (by rw [this]) (by rw [this]) (by rw [this]) rfl

/-- Registers that a producing instruction does not write keep their values (R46, R50). -/
theorem produce_reg_other {l : Nat} {r : Reg} (hl : l < 32) (hr : r.toNat ≤ 123) (hne : l ∈ h.lanes → r ≠ d) :
    (s.produce h d latch val).reg h l r = s.reg h l r := by
  have key : ∀ (ls : List Nat) (s : State), (∀ x ∈ ls, x < 32) → (l ∈ ls → r ≠ d) →
      (ls.foldl (produceLane h d latch val) s).reg h l r = s.reg h l r := by
    intro ls
    induction ls with
    | nil => intros; rfl
    | cons a q ih =>
      intro s h32 hd
      rw [List.foldl_cons, ih _ (fun x hx => h32 x (by simp [hx])) (fun hx => hd (by simp [hx])), produceLane, modThread_produce_reg h latch _ _ _ hr]
      refine setReg_reg_other _ _ _ _ _ (h32 a (by simp)) hl hr ?_
      by_cases e : l = a
      · exact .inr (hd (by simp [e]))
      · exact .inl e
  exact key _ _ (fun x hx => Here.lt_of_mem hx) hne

/-- The register that a producing instruction writes holds its result in every active lane (R50). -/
theorem produce_reg {l : Nat} (hl : l ∈ h.lanes) (hd : d.toNat ≤ 123) : (s.produce h d latch val).reg h l d = val l := by
  have stay : ∀ (ls : List Nat) (s : State), (∀ x ∈ ls, x < 32) → l ∉ ls → l < 32 →
      (ls.foldl (produceLane h d latch val) s).reg h l d = s.reg h l d := by
    intro ls
    induction ls with
    | nil => intros; rfl
    | cons a q ih =>
      intro s h32 hn h1
      rw [List.foldl_cons, ih _ (fun x hx => h32 x (by simp [hx])) (fun hx => hn (by simp [hx])) h1, produceLane, modThread_produce_reg h latch _ _ _ hd]
      exact setReg_reg_other _ _ _ _ _ (h32 a (by simp)) h1 hd (.inl (fun e => hn (by simp [e])))
  have key : ∀ (ls : List Nat) (s : State), ls.Nodup → (∀ x ∈ ls, x < 32) → l ∈ ls →
      (ls.foldl (produceLane h d latch val) s).reg h l d = val l := by
    intro ls
    induction ls with
    | nil => intro _ _ _ hx; simp at hx
    | cons a q ih =>
      intro s hn h32 hx
      have hn' := List.nodup_cons.1 hn
      rw [List.foldl_cons]
      rcases List.mem_cons.1 hx with rfl | hx
      · rw [stay _ _ (fun x hx => h32 x (by simp [hx])) hn'.1 (h32 l (by simp)), produceLane, modThread_produce_reg h latch _ _ _ hd]
        exact setReg_reg_same _ _ _ _ _ hd
      · exact ih _ hn'.2 (fun x hx => h32 x (by simp [hx])) hx
  exact key _ _ (lanesOf_nodup _) (fun x hx => Here.lt_of_mem hx) hl

theorem produce_file {k : Nat} (hk : ∀ l ∈ h.lanes, k ≠ rfKey h.core h.slot h.R h.wave ((s.thread (h.tk l)).wbase + d.toNat) l) :
    getD 0 (s.produce h d latch val).rf k = getD 0 s.rf k := by
  have key : ∀ (ls : List Nat) (t : State), ls.Nodup → (∀ l ∈ ls, (t.thread (h.tk l)).wbase = (s.thread (h.tk l)).wbase) →
      (∀ l ∈ ls, k ≠ rfKey h.core h.slot h.R h.wave ((s.thread (h.tk l)).wbase + d.toNat) l) →
      getD 0 (ls.foldl (produceLane h d latch val) t).rf k = getD 0 t.rf k := by
    intro ls
    induction ls with
    | nil => intros; rfl
    | cons a q ih =>
      intro t hn hw hk
      have hn' := List.nodup_cons.1 hn
      rw [List.foldl_cons, ih _ hn'.2 _ (fun l hl => hk l (by simp [hl]))]
      · show getD 0 (t.setReg h a d (val a)).rf k = _
        refine setReg_file _ _ _ _ _ ?_
        rw [hw a (by simp)]
        exact hk a (by simp)
      · intro l hl
        rw [produceLane_other h d latch val t a _ (fun e => hn'.1 ((tk_inj h).1 e ▸ hl))]
        exact hw l (by simp [hl])
  exact key _ _ (lanesOf_nodup _) (fun _ _ => rfl) hk

/-- A latch as destination writes no register (R50). -/
theorem produce_latch_file (hd : 124 ≤ d.toNat) : (s.produce h d latch val).rf = s.rf :=
  foldl_keeps (f := produceLane h d latch val) (fun s : State => s.rf) (fun s l => by
    show (s.setReg h l d (val l)).rf = _
    unfold State.setReg
    simp only [if_pos hd]) _ s

end produce

end Sys2Proof.Machine
end

