-- ==== Sys2Proof/Laws/Retire.lean ====
section
/-! SUPPORT. What retiring an instruction can do (R24, R102-R105, R142, R143), and what every producing instruction over registers
therefore does. -/

namespace Sys2Proof.Machine

/-! ## Counting -/

theorem satCount_zero (c : Word) : satCount c 0 = c := by
  have : c.toNat < 2 ^ 32 := c.isLt
  have hm : Nat.min c.toNat (2 ^ 32 - 1) = c.toNat := Nat.min_eq_left (by omega)
  apply BitVec.eq_of_toNat_eq
  show (BitVec.ofNat 32 (Nat.min (c.toNat + 0) (2 ^ 32 - 1))).toNat = c.toNat
  rw [Nat.add_zero, hm, BitVec.toNat_ofNat, Nat.mod_eq_of_lt this]

theorem count_evtc (g : Group) (ev : SMap Nat) (hn : (ev.map (·.1)).Nodup) (k : Nat) :
    getD 0 (g.count ev).evtc k = satCount (getD 0 g.evtc k) (getD 0 ev k) := by
  have key : ∀ (ev : SMap Nat) (m : SMap Word), (ev.map (·.1)).Nodup →
      getD 0 (ev.foldl (fun m p => put 0 m p.1 (satCount (getD 0 m p.1) p.2)) m) k = satCount (getD 0 m k) (getD 0 ev k) := by
    intro ev
    induction ev with
    | nil => intro m _; rw [List.foldl_nil]; exact (satCount_zero _).symm
    | cons p r ih =>
      intro m hn
      have hn' := List.nodup_cons.1 hn
      rw [List.foldl_cons, ih _ hn'.2]
      by_cases e : k = p.1
      · subst e
        have hz : getD 0 r p.1 = 0 := by
          have : find r p.1 = none := by
            simp only [find, Option.map_eq_none_iff, List.find?_eq_none, beq_iff_eq]
            intro x hx e
            exact hn'.1 (by
              rw [show (fun x : Nat × Nat => x.1) p = x.1 from e.symm]
              exact List.mem_map_of_mem (f := fun x : Nat × Nat => x.1) hx)
          simp [getD, this]
        rw [hz, satCount_zero, getD_put_same]
        simp [getD, find]
      · rw [getD_put_ne _ _ _ e]
        have : getD 0 (p :: r) k = getD 0 r k := by simp [getD, find, Ne.symm e]
        rw [this]
  exact key ev _ hn

theorem countEvents_nodup (es : List Ev) : ((countEvents es).map (·.1)).Nodup := by
  have h : ((List.range 8).map (fun k => (k, (es.filter (fun e => e.getLsbD k)).length))).map (·.1) = List.range 8 := by
    rw [List.map_map]
    exact List.map_id _
  exact (h ▸ List.nodup_range).sublist ((List.filter_sublist).map _)

theorem countEvents_get (es : List Ev) {k : Nat} (hk : k < 8) :
    getD 0 (countEvents es) k = (es.filter (fun e => e.getLsbD k)).length := by
  have h : ∀ n, n = (es.filter (fun e => e.getLsbD k)).length →
      getD 0 (countEvents es) k = n := by
    intro n hn
    by_cases hz : n = 0
    · have : find (countEvents es) k = none := by
        simp only [find, Option.map_eq_none_iff, List.find?_eq_none, beq_iff_eq]
        rintro ⟨a, b⟩ hx rfl
        simp only [countEvents, List.mem_filter, List.mem_map, List.mem_range, Prod.mk.injEq] at hx
        obtain ⟨⟨c, _, rfl, hb⟩, hne⟩ := hx
        simp only [decide_eq_true_eq] at hne
        exact hne (by rw [← hb, ← hn, hz])
      rw [getD, this, hz]; rfl
    · have hmem : (k, n) ∈ countEvents es := by
        simp only [countEvents, List.mem_filter, List.mem_map, List.mem_range, Prod.mk.injEq]
        exact ⟨⟨k, hk, rfl, hn.symm⟩, by simpa using hz⟩
      have hnd := countEvents_nodup es
      have : find (countEvents es) k = some n := by
        generalize countEvents es = m at hmem hnd
        induction m with
        | nil => simp at hmem
        | cons p r ih =>
          have hnd' := List.nodup_cons.1 hnd
          rcases List.mem_cons.1 hmem with rfl | hm
          · simp [find]
          · have : p.1 ≠ k := fun e => hnd'.1 (by
              rw [show (fun x : Nat × Nat => x.1) p = k from e]
              exact List.mem_map_of_mem (f := fun x : Nat × Nat => x.1) hm)
            simpa [find, this] using ih hm hnd'.2
      rw [getD, this]; rfl
  exact h _ rfl

theorem closeWindows_keeps (g : Group) : g.closeWindows.evtc = g.evtc ∧ g.closeWindows.nret = g.nret ∧ g.closeWindows.kept = g.kept := by
  unfold Group.closeWindows
  generalize List.range 8 = ls
  induction ls generalizing g with
  | nil => exact ⟨rfl, rfl, rfl⟩
  | cons a r ih =>
    rw [List.foldl_cons]
    obtain ⟨h1, h2, h3⟩ := ih (if nevWin (g.nevOf a) ≠ 0 && g.nret % 2 ^ nevWin (g.nevOf a) = 0 then
      { g with evbase := put 0 g.evbase a (getD 0 g.evtc a), fired := g.fired &&& ~~~(1#8 <<< a) } else g)
    refine ⟨h1.trans ?_, h2.trans ?_, h3.trans ?_⟩ <;> split <;> rfl

/-- Everything beside groups, retired counts and notices stays when events are counted. -/
theorem charge_else (s : State) (gk : Nat) (ev : SMap Nat) :
    { (s.charge gk ev).2 with groups := [], outbox := [], conns := [], wire := [] } = { s with groups := [], outbox := [], conns := [], wire := [] } := by
  unfold State.charge
  split
  · rfl
  · simp only
    split <;> rfl

/-- Counting that sends no notice sends no frame. -/
theorem charge_wire (s : State) (gk : Nat) (ev : SMap Nat) (ho : (s.charge gk ev).2.outbox = s.outbox) :
    (s.charge gk ev).2.conns = s.conns ∧ (s.charge gk ev).2.wire = s.wire := by
  revert ho
  unfold State.charge
  split
  · exact fun _ => ⟨rfl, rfl⟩
  · simp only
    split
    · exact fun _ => ⟨rfl, rfl⟩
    · intro ho
      have := congrArg List.length ho
      simp [State.notice, noticeParts] at this

theorem charge_group_other (s : State) (gk k : Nat) (ev : SMap Nat) (hk : k ≠ gk) : (s.charge gk ev).2.group k = s.group k := by
  unfold State.charge
  split
  · rfl
  · simp only
    split
    · exact setGroup_other _ _ _ _ hk
    · exact setGroup_other _ _ _ _ hk

theorem charge_group (s : State) (gk : Nat) (ev : SMap Nat) {g : Group} (hg : s.group gk = some g) :
    ∃ x, (s.charge gk ev).2.group gk = some { g.count ev with fired := x } := by
  unfold State.charge
  rw [hg]
  simp only
  split
  · exact ⟨_, setGroup_same _ _ _⟩
  · exact ⟨_, setGroup_same _ _ _⟩

/-- `retireCount` changes the retiring group, its logical core's count and notices, nothing else. -/
theorem retireCount_else (s : State) (h : Here) (ev : SMap Nat) :
    { (s.retireCount h ev).2 with groups := [], lcores := [], outbox := [], conns := [], wire := [] } = { s with groups := [], lcores := [], outbox := [], conns := [], wire := [] } := by
  unfold State.retireCount
  split
  · rfl
  · simp only
    have h1 : ∀ x : State, ({ x.modGroup h.gk (fun g => { g with nret := g.nret + 1 }) with groups := [], lcores := [], outbox := [], conns := [], wire := [] } : State)
        = { x with groups := [], lcores := [], outbox := [], conns := [], wire := [] } := by intro x; unfold State.modGroup; split <;> rfl
    have h2 : ∀ x : State, ({ x.modGroup h.gk (fun g => g.closeWindows) with groups := [], lcores := [], outbox := [], conns := [], wire := [] } : State)
        = { x with groups := [], lcores := [], outbox := [], conns := [], wire := [] } := by intro x; unfold State.modGroup; split <;> rfl
    have h3 := charge_else (s.modGroup h.gk (fun g => { g with nret := g.nret + 1 })) h.gk ev
    have h4 : ∀ x y : State, ({ x with groups := [], outbox := [], conns := [], wire := [] } : State) = { y with groups := [], outbox := [], conns := [], wire := [] } →
        ({ x with groups := [], lcores := [], outbox := [], conns := [], wire := [] } : State) = { y with groups := [], lcores := [], outbox := [], conns := [], wire := [] } := by
      intro x y e
      have := congrArg (fun z : State => ({ z with lcores := [] } : State)) e
      exact this
    rw [← h1 s, ← h4 _ _ h3]
    split
    · exact h2 _
    · exact h2 _

theorem retireCount_wire (s : State) (h : Here) (ev : SMap Nat) (ho : (s.retireCount h ev).2.outbox = s.outbox) :
    (s.retireCount h ev).2.conns = s.conns ∧ (s.retireCount h ev).2.wire = s.wire := by
  revert ho
  unfold State.retireCount
  split
  · exact fun _ => ⟨rfl, rfl⟩
  · simp only
    intro ho
    have hc := charge_wire (s.modGroup h.gk (fun g => { g with nret := g.nret + 1 })) h.gk ev
    split at ho <;> split <;> simp_all

theorem retireCount_group_other (s : State) (h : Here) (ev : SMap Nat) {k : Nat} (hk : k ≠ h.gk) :
    (s.retireCount h ev).2.group k = s.group k := by
  unfold State.retireCount
  split
  · rfl
  · have e : ((((s.modGroup h.gk (fun g => { g with nret := g.nret + 1 })).charge h.gk ev).2.modGroup h.gk (fun g => g.closeWindows))).group k = s.group k := by
      rw [modGroup_other _ _ _ _ hk, charge_group_other _ _ _ _ hk, modGroup_other _ _ _ _ hk]
    simp only
    split
    · exact e
    · exact e

/-- The retiring group: its count rises by one and its event classes by `ev` (R103, R105). -/
theorem retireCount_group (s : State) (h : Here) (ev : SMap Nat) {g : Group} (hg : s.group h.gk = some g) :
    ∃ g', (s.retireCount h ev).2.group h.gk = some g' ∧ g'.kept = g.kept ∧ (h.handler = true → g' = g) ∧
      (h.handler = false → g'.nret = g.nret + 1 ∧ g'.evtc = (g.count ev).evtc) := by
  unfold State.retireCount
  split
  next hh => exact ⟨g, hg, rfl, fun _ => rfl, fun x => by simp [hh] at x⟩
  next hh =>
    have h1 : (s.modGroup h.gk (fun g => { g with nret := g.nret + 1 })).group h.gk = some { g with nret := g.nret + 1 } := by
      rw [modGroup_same, hg]; rfl
    obtain ⟨x, h2⟩ := charge_group _ h.gk ev h1
    have h3 : ((((s.modGroup h.gk (fun g => { g with nret := g.nret + 1 })).charge h.gk ev).2.modGroup h.gk (fun g => g.closeWindows))).group h.gk
        = some (Group.closeWindows { Group.count { g with nret := g.nret + 1 } ev with fired := x }) := by
      rw [modGroup_same, h2]; rfl
    have hc := closeWindows_keeps { Group.count { g with nret := g.nret + 1 } ev with fired := x }
    refine ⟨Group.closeWindows { Group.count { g with nret := g.nret + 1 } ev with fired := x }, ?_, ?_, fun x => absurd x hh, fun _ => ⟨?_, ?_⟩⟩
    · simp only
      split
      · exact h3
      · exact h3
    · rw [hc.2.2]; rfl
    · rw [hc.2.1]; rfl
    · rw [hc.1]; rfl

/-! ## Fragments -/

/-- Each lane of the list stands in a fragment at the address that `to` gives it (R24, R136). -/
theorem splitLanes_mem (base : Frag) (dest : Nat → CodeAddr × Bool) (ls : List Nat) (acc : List Frag) (h32 : ∀ l ∈ ls, l < 32)
    (hacc : ∀ f ∈ acc, f.mode = base.mode) :
    (∀ f ∈ splitLanes base dest ls acc, f.mode = base.mode) ∧
    (∀ l, (∃ f ∈ acc, f.lanes.getLsbD l = true ∧ (f.pc, f.past) = dest l) ∨ l ∈ ls →
      ∃ f ∈ splitLanes base dest ls acc, f.lanes.getLsbD l = true ∧ (f.pc, f.past) = dest l) := by
  induction ls generalizing acc with
  | nil =>
    refine ⟨hacc, fun l hl => ?_⟩
    rcases hl with hl | hl
    · exact hl
    · simp at hl
  | cons a r ih =>
    have ha := h32 a (by simp)
    simp only [splitLanes]
    split
    next hany =>
      obtain ⟨h1, h2⟩ := ih (acc.map (fun f => if f.pc = (dest a).1 && f.past = (dest a).2 then { f with lanes := f.lanes ||| bit a } else f))
        (fun l hl => h32 l (by simp [hl])) (by
          intro f hf
          obtain ⟨g, hg, rfl⟩ := List.mem_map.1 hf
          split
          · exact hacc g hg
          · exact hacc g hg)
      refine ⟨h1, fun l hl => h2 l ?_⟩
      rcases hl with ⟨f, hf, hb, hp⟩ | hl
      · left
        refine ⟨_, List.mem_map_of_mem hf, ?_, ?_⟩
        · split
          · simp [hb]
          · exact hb
        · split
          · exact hp
          · exact hp
      · rcases List.mem_cons.1 hl with rfl | hl
        · left
          obtain ⟨f, hf, hp⟩ := List.any_eq_true.1 hany
          refine ⟨_, List.mem_map_of_mem hf, ?_, ?_⟩
          · rw [if_pos hp]
            simp [bit_getLsbD _ _ ha]
          · rw [if_pos hp]
            simp only [Bool.and_eq_true, decide_eq_true_eq] at hp
            exact Prod.ext hp.1 hp.2
        · exact .inr hl
    next =>
      obtain ⟨h1, h2⟩ := ih (acc ++ [{ base with lanes := bit a, pc := (dest a).1, past := (dest a).2 }]) (fun l hl => h32 l (by simp [hl])) (by
        intro f hf
        rcases List.mem_append.1 hf with hf | hf
        · exact hacc f hf
        · simp at hf; simp [hf])
      refine ⟨h1, fun l hl => h2 l ?_⟩
      rcases hl with ⟨f, hf, hb, hp⟩ | hl
      · exact .inl ⟨f, List.mem_append_left _ hf, hb, hp⟩
      · rcases List.mem_cons.1 hl with rfl | hl
        · exact .inl ⟨{ base with lanes := bit l, pc := (dest l).1, past := (dest l).2 }, List.mem_append_right _ (by simp), by simp [bit_getLsbD _ _ ha], rfl⟩
        · exact .inr hl

/-! ## Retiring -/

section retire
variable (s : State) (h : Here) (ev : SMap Nat) (after : Option (Nat × Word)) (go : Nat → Goto)

/-- Change the loop levels of the lanes that stay, as `retireTo` does. -/
def loopLane (h : Here) (go : Nat → Goto) (s : State) (l : Nat) : State :=
  s.modThread (h.tk l) (fun t => { t with loops := (advance h.frag.pc t.loops (go l)).1 })

theorem loopLane_other (s : State) (l k : Nat) (hk : k ≠ h.tk l) : (loopLane h go s l).thread k = s.thread k := modThread_other _ _ _ _ hk

/-- The lanes that stay in a retiring fragment. -/
def stays (h : Here) (go : Nat → Goto) : List Nat := h.lanes.filter (fun l => go l ≠ .leave)

theorem retireTo_eq : ∃ parts : List Frag, ∃ times : Wave → Nat × Mask,
    s.retireTo h ev after go = ((stays h go).foldl (loopLane h go) (s.retireCount h ev).2).modWave h.wk (fun w =>
      { w with frags := w.frags.filter (fun f => f.lanes ≠ h.frag.lanes) ++ parts, issued := (times w).1, yielded := (times w).2 }) ∧
    ∀ l ∈ h.lanes, go l ≠ .leave → ∃ f ∈ parts, f.lanes.getLsbD l = true ∧ f.mode = h.frag.mode ∧
      (f.pc, f.past) = (advance h.frag.pc ((s.retireCount h ev).2.thread (h.tk l)).loops (go l)).2 := by
  refine ⟨_, fun w => (if h.frag.wait = .access then w.issued else (s.retireCount h ev).2.now h, if h.frag.wait = .access then w.yielded else 0), rfl, fun l hl hg => ?_⟩
  have hm : l ∈ stays h go := List.mem_filter.2 ⟨hl, by simpa using hg⟩
  have := splitLanes_mem { h.frag with lanes := 0, wait := .none, xfer := 0, t0 := 0, retired := (s.retireCount h ev).2.now h, since := (s.retireCount h ev).2.sinceNow h, after := after, nev := h.frag.nev ||| (s.retireCount h ev).1, phw := 0, kept := none, fence := some (h.frag.fence.getD (s.retireCount h ev).2.ichg), able := true }
    (fun l => (advance h.frag.pc ((s.retireCount h ev).2.thread (h.tk l)).loops (go l)).2) (stays h go) []
    (fun x hx => Here.lt_of_mem (List.mem_filter.1 hx).1) (by simp)
  obtain ⟨f, hf, hb, hp⟩ := this.2 l (.inr hm)
  exact ⟨f, hf, hb, this.1 f hf, hp⟩

theorem retireCount_field {β : Type} (π : State → β) (hπ : ∀ x : State, π x = π { x with groups := [], lcores := [], outbox := [], conns := [], wire := [] }) :
    π (s.retireCount h ev).2 = π s := by rw [hπ, retireCount_else, ← hπ]

theorem retireCount_thread (k : Nat) : (s.retireCount h ev).2.thread k = s.thread k :=
  retireCount_field s h ev (fun x => x.thread k) (fun _ => rfl)

/-- Threads of lanes outside the fragment stay (R11). -/
theorem retireTo_thread_other {k : Nat} (hk : ∀ l ∈ h.lanes, k ≠ h.tk l) : (s.retireTo h ev after go).thread k = s.thread k := by
  obtain ⟨parts, times, e, _⟩ := retireTo_eq s h ev after go
  rw [e]
  show ((stays h go).foldl (loopLane h go) (s.retireCount h ev).2).thread k = _
  rw [foldl_thread_other (loopLane_other h go) (stays h go) _ (fun l hl => hk l (List.mem_filter.1 hl).1), retireCount_thread]

/-- A lane that stays changes its loop levels and nothing else of its thread. -/
theorem retireTo_thread {l : Nat} (hl : l ∈ h.lanes) :
    (s.retireTo h ev after go).thread (h.tk l) =
      if go l = .leave then s.thread (h.tk l)
      else { s.thread (h.tk l) with loops := (advance h.frag.pc (s.thread (h.tk l)).loops (go l)).1 } := by
  obtain ⟨parts, times, e, _⟩ := retireTo_eq s h ev after go
  rw [e]
  show ((stays h go).foldl (loopLane h go) (s.retireCount h ev).2).thread (h.tk l) = _
  split
  next hg =>
    rw [foldl_thread_other (loopLane_other h go), retireCount_thread]
    intro x hx ex
    have := (tk_inj h).1 ex
    subst this
    exact absurd hg (by simpa using (List.mem_filter.1 hx).2)
  next hg =>
    rw [foldl_thread_own (loopLane_other h go) (φ := fun l t => { t with loops := (advance h.frag.pc t.loops (go l)).1 })
      (fun s l => modThread_same _ _ _) (stays h go) ((lanesOf_nodup _).filter _) _ (List.mem_filter.2 ⟨hl, by simpa using hg⟩), retireCount_thread]

/-- Beside threads, the wave, groups, retired counts and notices nothing changes. -/
theorem retireTo_else :
    { s.retireTo h ev after go with threads := [], waves := [], groups := [], lcores := [], outbox := [], conns := [], wire := [] }
      = { s with threads := [], waves := [], groups := [], lcores := [], outbox := [], conns := [], wire := [] } := by
  obtain ⟨parts, times, e, _⟩ := retireTo_eq s h ev after go
  rw [e]
  show ({ (stays h go).foldl (loopLane h go) (s.retireCount h ev).2 with threads := [], waves := [], groups := [], lcores := [], outbox := [], conns := [], wire := [] } : State) = _
  refine (foldl_keeps (f := loopLane h go) (fun s : State => ({ s with threads := [], waves := [], groups := [], lcores := [], outbox := [], conns := [], wire := [] } : State))
    (fun _ _ => rfl) (stays h go) _).trans ?_
  exact congrArg (fun z : State => ({ z with threads := [], waves := [] } : State)) (retireCount_else s h ev)

theorem retireTo_field {β : Type} (π : State → β)
    (hπ : ∀ x : State, π x = π { x with threads := [], waves := [], groups := [], lcores := [], outbox := [], conns := [], wire := [] }) :
    π (s.retireTo h ev after go) = π s := by rw [hπ, retireTo_else, ← hπ]

theorem retireTo_wire (ho : (s.retireTo h ev after go).outbox = s.outbox) :
    (s.retireTo h ev after go).conns = s.conns ∧ (s.retireTo h ev after go).wire = s.wire := by
  obtain ⟨parts, times, e, _⟩ := retireTo_eq s h ev after go
  have hk : ∀ {β : Type} (π : State → β), (∀ x : State, π x = π { x with threads := [], waves := [] }) → π (s.retireTo h ev after go) = π (s.retireCount h ev).2 := by
    intro β π hπ
    rw [e, hπ]
    exact (foldl_keeps (f := loopLane h go) (fun s => π { s with threads := [], waves := [] }) (fun _ _ => rfl) _ _).trans (hπ _).symm
  rw [hk (·.outbox) (fun _ => rfl)] at ho
  rw [hk (·.conns) (fun _ => rfl), hk (·.wire) (fun _ => rfl)]
  exact retireCount_wire s h ev ho

/-- Registers keep their values: retiring writes none. -/
theorem retireTo_reg {l : Nat} {r : Reg} (hr : r.toNat ≤ 123) : (s.retireTo h ev after go).reg h l r = s.reg h l r := by
  have hrf : (s.retireTo h ev after go).rf = s.rf := retireTo_field s h ev after go (·.rf) (fun _ => rfl)
  by_cases hl : l ∈ h.lanes
  · have := retireTo_thread s h ev after go hl
    exact reg_congr hr (by rw [this]; split <;> rfl) (by rw [this]; split <;> rfl) (by rw [this]; split <;> rfl) (by rw [this]; split <;> rfl)
      (by rw [this]; split <;> rfl) hrf
  · have : (s.retireTo h ev after go).thread (h.tk l) = s.thread (h.tk l) :=
      retireTo_thread_other s h ev after go (fun x hx e => hl ((tk_inj h).1 e ▸ hx))
    exact reg_congr hr (by rw [this]) (by rw [this]) (by rw [this]) (by rw [this]) (by rw [this]) hrf

theorem retireTo_wave_other {k : Nat} (hk : k ≠ h.wk) : (s.retireTo h ev after go).wave k = s.wave k := by
  obtain ⟨parts, times, e, _⟩ := retireTo_eq s h ev after go
  rw [e, modWave_other _ _ _ _ hk]
  rw [foldl_keeps (f := loopLane h go) (fun s : State => s.wave k) (fun _ _ => rfl)]
  exact retireCount_field s h ev (fun x => x.wave k) (fun _ => rfl)

theorem retireTo_wave : ∃ parts : List Frag, ∃ times : Wave → Nat × Mask,
    (s.retireTo h ev after go).wave h.wk =
      { s.wave h.wk with frags := (s.wave h.wk).frags.filter (fun f => f.lanes ≠ h.frag.lanes) ++ parts, issued := (times (s.wave h.wk)).1, yielded := (times (s.wave h.wk)).2 } ∧
    ∀ l ∈ h.lanes, go l ≠ .leave → ∃ f ∈ parts, f.lanes.getLsbD l = true ∧ f.mode = h.frag.mode ∧
      (f.pc, f.past) = (advance h.frag.pc (s.thread (h.tk l)).loops (go l)).2 := by
  obtain ⟨parts, times, e, hp⟩ := retireTo_eq s h ev after go
  refine ⟨parts, times, ?_, fun l hl hg => ?_⟩
  · rw [e, modWave_same]
    have : ((stays h go).foldl (loopLane h go) (s.retireCount h ev).2).wave h.wk = s.wave h.wk := by
      rw [foldl_keeps (f := loopLane h go) (fun s : State => s.wave h.wk) (fun _ _ => rfl)]
      exact retireCount_field s h ev (fun x => x.wave h.wk) (fun _ => rfl)
    rw [this]
  · obtain ⟨f, hf, hb, hm, hx⟩ := hp l hl hg
    exact ⟨f, hf, hb, hm, by rw [hx, retireCount_thread]⟩

theorem retireTo_group (k : Nat) : (s.retireTo h ev after go).group k = (s.retireCount h ev).2.group k := by
  obtain ⟨parts, times, e, _⟩ := retireTo_eq s h ev after go
  rw [e]
  show ((stays h go).foldl (loopLane h go) (s.retireCount h ev).2).group k = _
  rw [foldl_keeps (f := loopLane h go) (fun s : State => s.group k) (fun _ _ => rfl)]

/-- Each lane that stays stands where R132, R142 and R143 put it. -/
theorem retireTo_continues : Continues s (s.retireTo h ev after go) h go := by
  intro l hl hg
  obtain ⟨parts, times, e, hp⟩ := retireTo_wave s h ev after go
  obtain ⟨f, hf, hb, hm, hx⟩ := hp l hl hg
  refine ⟨?_, f, ?_, hb, hm, hx⟩
  · rw [retireTo_thread s h ev after go hl, if_neg hg]
  · rw [e]
    exact List.mem_append_right _ hf

theorem retireTo_counted (hn : (ev.map (·.1)).Nodup) : Counted s (s.retireTo h ev after go) h (getD 0 ev) := by
  intro g hg
  obtain ⟨g', h1, h2, h3, h4⟩ := retireCount_group s h ev hg
  refine ⟨g', by rw [retireTo_group, h1], fun hh => ⟨(h4 hh).1, fun k _ => ?_⟩, h3⟩
  rw [(h4 hh).2, count_evtc g ev hn]

end retire

/-! ## Instructions that write no register -/

/-- Everything an instruction leaves unchanged that writes no register and nothing else beside. -/
theorem retireTo_frame (s : State) (h : Here) (ev : SMap Nat) (after : Option (Nat × Word)) (go : Nat → Goto) :
    Frame s (s.retireTo h ev after go) h 127 where
  device := retireTo_field s h ev after go State.kept (fun _ => rfl)
  wire := retireTo_wire s h ev after go
  memory := sameMemory_of (retireTo_field s h ev after go (·.dram) (fun _ => rfl)) (retireTo_field s h ev after go (·.tags) (fun _ => rfl)) (retireTo_field s h ev after go (·.towers) (fun _ => rfl))
    (retireTo_field s h ev after go (·.sbuf) (fun _ => rfl)) (retireTo_field s h ev after go (·.pad) (fun _ => rfl))
    (retireTo_field s h ev after go (·.acc) (fun _ => rfl)) (retireTo_field s h ev after go (·.istore) (fun _ => rfl))
  registers := fun l _ r hr _ => retireTo_reg s h ev after go hr
  file := fun k _ => retireTo_field s h ev after go (fun x => getD 0 x.rf k) (fun _ => rfl)
  shadows := fun l hl j _ => by rw [retireTo_thread s h ev after go hl]; split <;> rfl
  handlers := fun l hl j _ => by rw [retireTo_thread s h ev after go hl]; split <;> rfl
  threads := fun k hk => retireTo_thread_other s h ev after go hk
  thread := fun l hl => by rw [retireTo_thread s h ev after go hl]; split <;> rfl
  waves := fun k hk => retireTo_wave_other s h ev after go hk
  wave := by obtain ⟨_, _, e, _⟩ := retireTo_wave s h ev after go; rw [e]; rfl
  fragments := by
    obtain ⟨_, _, e, _⟩ := retireTo_wave s h ev after go
    intro f hf hne
    rw [e]
    exact List.mem_append_left _ (List.mem_filter.2 ⟨hf, by simpa using hne⟩)
  groups := fun k hk => by rw [retireTo_group, retireCount_group_other s h ev hk]
  group := by
    rw [retireTo_group]
    cases hg : s.group h.gk with
    | none =>
      have : (s.retireCount h ev).2.group h.gk = none := by
        unfold State.retireCount
        split
        · exact hg
        · have h1 : s.modGroup h.gk (fun g => { g with nret := g.nret + 1 }) = s := by unfold State.modGroup; rw [hg]
          have h2 : s.charge h.gk ev = (0, s) := by unfold State.charge; rw [hg]
          have h3 : s.modGroup h.gk (fun g => g.closeWindows) = s := by unfold State.modGroup; rw [hg]
          simp only [h1, h2, h3]
          split
          · exact hg
          · exact hg
      rw [this]
    | some g =>
      obtain ⟨g', h1, h2, _⟩ := retireCount_group s h ev hg
      rw [h1]
      simp [h2]

/-! ## Producing instructions -/

/-- A register write leaves the shadow words and handler registers of other codes (R56, R301). -/
theorem wrote_shadow (t : Thread) (b : Bool) (d : Reg) (v : Word) {j : Nat} (hj : d.toNat ≤ 123 → j + 16 * t.bank.toNat ≠ d.toNat) :
    getD 0 (t.wrote b d v).shadow j = getD 0 t.shadow j := by
  unfold Thread.wrote
  split
  · rfl
  · split
    · rfl
    · split
      · rename_i h1 _ h2
        simp only [Thread.inBank, Bool.and_eq_true, decide_eq_true_eq] at h2
        have := hj (by omega)
        exact getD_put_ne _ _ _ (by omega)
      · rfl

theorem wrote_hregs (t : Thread) (b : Bool) (d : Reg) (v : Word) {j : Nat} (hj : d.toNat ≤ 123 → j ≠ d.toNat) :
    getD 0 (t.wrote b d v).hregs j = getD 0 t.hregs j := by
  unfold Thread.wrote
  split
  · rfl
  · split
    · exact getD_put_ne _ _ _ (hj (by omega))
    · split <;> rfl

/-- What every producing instruction over registers does when its word's checks pass. -/
theorem produce_retire_spec (s : State) (h : Here) (reads : List Reg) (d : Reg) (val : Nat → Word) (ev : SMap Nat) (hn : (ev.map (·.1)).Nodup) :
    Resulted s ((s.produce h d (readsLatch reads) val).retire h ev) h reads d val (getD 0 ev) := by
  have hth (l : Nat) (hl : l ∈ h.lanes) := produce_thread s h d (readsLatch reads) val hl
  have hrt (l : Nat) (hl : l ∈ h.lanes) := retireTo_thread (s.produce h d (readsLatch reads) val) h ev none (fun _ => .seq) hl
  have hloops (l : Nat) (hl : l ∈ h.lanes) : ((s.produce h d (readsLatch reads) val).thread (h.tk l)).loops = (s.thread (h.tk l)).loops := by
    rw [hth l hl]
    show ((s.thread (h.tk l)).wrote h.handler d (val l)).loops = _
    unfold Thread.wrote; split <;> (try split) <;> (try split) <;> rfl
  have helse : ∀ {β : Type} (π : State → β), (∀ x : State, π x = π { x with threads := [], rf := [] }) → π (s.produce h d (readsLatch reads) val) = π s := by
    intro β π hπ; rw [hπ, produce_else, ← hπ]
  have hw (k : Nat) : (s.produce h d (readsLatch reads) val).wave k = s.wave k := helse (fun x => x.wave k) (fun _ => rfl)
  have hg (k : Nat) : (s.produce h d (readsLatch reads) val).group k = s.group k := helse (fun x => x.group k) (fun _ => rfl)
  have ylem (l : Nat) (hl : l ∈ h.lanes) : ((s.produce h d (readsLatch reads) val).retire h ev).thread (h.tk l) =
      { ((s.thread (h.tk l)).wrote h.handler d (val l)).produce (readsLatch reads) (val l) with
        loops := (advance h.frag.pc (s.thread (h.tk l)).loops (.seq)).1 } := by
    have := hrt l hl
    rw [if_neg (by simp), hloops l hl, hth l hl] at this
    exact this
  have ykeep (l : Nat) : ((s.thread (h.tk l)).wrote h.handler d (val l)).y0 = (s.thread (h.tk l)).y0 ∧
      ((s.thread (h.tk l)).wrote h.handler d (val l)).y1 = (s.thread (h.tk l)).y1 ∧
      ((s.thread (h.tk l)).wrote h.handler d (val l)).y2 = (s.thread (h.tk l)).y2 ∧
      ((s.thread (h.tk l)).wrote h.handler d (val l)).depth = (s.thread (h.tk l)).depth := by
    unfold Thread.wrote; split <;> (try split) <;> (try split) <;> exact ⟨rfl, rfl, rfl, rfl⟩
  have fr := retireTo_frame (s.produce h d (readsLatch reads) val) h ev none (fun _ => .seq)
  refine ⟨⟨?_, ?_, ?_, ?_, ?_, ?_⟩, ?_, ?_, ?_⟩
  · intro l hl hd
    show (State.retireTo _ h ev none (fun _ => .seq)).reg h l d = _
    rw [retireTo_reg _ _ _ _ _ hd, produce_reg s h d (readsLatch reads) val hl hd]
  · intro l hl; rw [ylem l hl]; rfl
  · intro l hl; rw [ylem l hl]; exact (ykeep l).1
  · intro l hl; rw [ylem l hl]; exact (ykeep l).2.1
  · intro l hl; rw [ylem l hl]; exact (ykeep l).2.2.1
  · intro l hl
    rw [ylem l hl]
    show nextDepth (readsLatch reads) true ((s.thread (h.tk l)).wrote h.handler d (val l)).depth = _
    rw [(ykeep l).2.2.2]
    cases readsLatch reads <;> rfl
  · intro g hgs
    exact retireTo_counted (s.produce h d (readsLatch reads) val) h ev none _ hn g (by rw [hg, hgs])
  · intro l hl hgo
    obtain ⟨h1, f, hf⟩ := retireTo_continues (s.produce h d (readsLatch reads) val) h ev none (fun _ => .seq) l hl hgo
    rw [hloops l hl] at h1 hf
    exact ⟨h1, f, hf⟩
  · have hm : SameMemory s (s.produce h d (readsLatch reads) val) := sameMemory_of (helse (·.dram) (fun _ => rfl)) (helse (·.tags) (fun _ => rfl)) (helse (·.towers) (fun _ => rfl))
      (helse (·.sbuf) (fun _ => rfl)) (helse (·.pad) (fun _ => rfl)) (helse (·.acc) (fun _ => rfl)) (helse (·.istore) (fun _ => rfl))
    refine ⟨?_, ?_, ⟨fun who a => (fr.memory.1 who a).trans (hm.1 who a), fun c o ho => (fr.memory.2 c o ho).trans (hm.2 c o ho)⟩, ?_, ?_, ?_, ?_, ?_, ?_, ?_, ?_, ?_, ?_, ?_⟩
    · exact fr.device.trans (helse State.kept (fun _ => rfl))
    · exact fun ho => ⟨(fr.wire (ho.trans (helse (·.outbox) (fun _ => rfl)).symm)).1.trans (helse (·.conns) (fun _ => rfl)),
        (fr.wire (ho.trans (helse (·.outbox) (fun _ => rfl)).symm)).2.trans (helse (·.wire) (fun _ => rfl))⟩
    · intro l hl r hr hne
      exact (fr.registers l hl r hr (fun _ => by rintro rfl; simp at hr)).trans (produce_reg_other s h d (readsLatch reads) val hl hr hne)
    · intro k hk
      have : ((s.produce h d (readsLatch reads) val).retire h ev).rf = (s.produce h d (readsLatch reads) val).rf :=
        retireTo_field _ h ev none _ (·.rf) (fun _ => rfl)
      rw [this]
      by_cases hd : d.toNat ≤ 123
      · exact produce_file s h d (readsLatch reads) val (fun l hl => hk l hl hd)
      · exact congrArg (fun x => getD 0 x k) (produce_latch_file s h d (readsLatch reads) val (by omega))
    · intro l hl j hj
      rw [ylem l hl]
      show getD 0 ((s.thread (h.tk l)).wrote h.handler d (val l)).shadow j = _
      exact wrote_shadow _ _ _ _ hj
    · intro l hl j hj
      rw [ylem l hl]
      show getD 0 ((s.thread (h.tk l)).wrote h.handler d (val l)).hregs j = _
      exact wrote_hregs _ _ _ _ hj
    · intro k hk
      exact (fr.threads k hk).trans (produce_thread_other s h d (readsLatch reads) val hk)
    · intro l hl
      refine (fr.thread l hl).trans ?_
      rw [hth l hl]
      simp
    · intro k hk; exact (fr.waves k hk).trans (hw k)
    · exact fr.wave.trans (by rw [hw])
    · intro f hf hne
      exact fr.fragments f (by rw [hw]; exact hf) hne
    · intro k hk; exact (fr.groups k hk).trans (hg k)
    · exact fr.group.trans (by rw [hg])

/-- `produceAll` answers a next state when its word's checks pass: the result, the counts, the next addresses and the frame. -/
theorem produceAll_spec {s : State} {h : Here} {named reads : List Reg} {d : Reg} {val : State → Here → Nat → Word} {ev : State → Here → SMap Nat}
    (r : Ready s h named reads) (hn : ((ev s h).map (·.1)).Nodup) :
    ∃ t, produceAll s named reads d val ev = .next t ∧ Resulted s t h reads d (val s h) (getD 0 (ev s h)) := by
  refine ⟨_, ?_, produce_retire_spec s h reads d (val s h) (ev s h) hn⟩
  rw [produceAll, withHere_of_ready r, checked_of_ready r]

/-- Results and counts matter in the active lanes and the eight classes only. -/
theorem Resulted.congr {s t : State} {h : Here} {reads : List Reg} {d : Reg} {v v' : Nat → Word} {e e' : Nat → Nat} (r : Resulted s t h reads d v e)
    (hv : ∀ l ∈ h.lanes, v l = v' l) (he : ∀ k < 8, e k = e' k) : Resulted s t h reads d v' e' where
  produced := ⟨fun l hl hd => (r.produced.written l hl hd).trans (hv l hl), fun l hl => (r.produced.first l hl).trans (hv l hl), r.produced.second,
    r.produced.third, r.produced.fourth, r.produced.depth⟩
  counted := fun g hg => by
    obtain ⟨g', h1, h2, h3⟩ := r.counted g hg
    exact ⟨g', h1, fun hh => ⟨(h2 hh).1, fun k hk => by rw [(h2 hh).2 k hk, he k hk]⟩, h3⟩
  sequence := r.sequence
  frame := r.frame

/-- An instruction that is one `produceAll` writes what that computes. -/
theorem writes_of_produceAll {i : Instr} {s : State} {h : Here} {named reads : List Reg} {d : Reg} {val : State → Here → Nat → Word}
    {ev : State → Here → SMap Nat} {v : Nat → Word} {e : Nat → Nat} (hx : exec i s = produceAll s named reads d val ev) (r : Ready s h named reads)
    (hn : ((ev s h).map (·.1)).Nodup) (hv : ∀ l ∈ h.lanes, val s h l = v l) (he : ∀ k < 8, getD 0 (ev s h) k = e k) : Writes i s h reads d v e := by
  obtain ⟨t, h1, h2⟩ := produceAll_spec r hn (val := val) (d := d)
  exact ⟨t, hx.trans h1, h2.congr hv he⟩

/-- The same for an instruction without events. -/
theorem writes_of_quiet {i : Instr} {s : State} {h : Here} {named reads : List Reg} {d : Reg} {val : State → Here → Nat → Word} {v : Nat → Word}
    (hx : exec i s = produceAll s named reads d val noEvents) (r : Ready s h named reads) (hv : ∀ l ∈ h.lanes, val s h l = v l) :
    Writes i s h reads d v quiet :=
  writes_of_produceAll hx r (by simp [noEvents]) hv (fun _ _ => rfl)

/-- The same for an instruction whose lanes raise events. -/
theorem writes_of_laneEvents {i : Instr} {s : State} {h : Here} {named reads : List Reg} {d : Reg} {val : State → Here → Nat → Word}
    {f : State → Here → Nat → Ev} {v : Nat → Word} {e : Nat → Ev} (hx : exec i s = produceAll s named reads d val (fun s h => h.laneEvents (f s h)))
    (r : Ready s h named reads) (hv : ∀ l ∈ h.lanes, val s h l = v l) (he : ∀ l ∈ h.lanes, f s h l = e l) : Writes i s h reads d v (raised h e) := by
  refine writes_of_produceAll hx r (countEvents_nodup _) hv (fun k hk => ?_)
  rw [Here.laneEvents, countEvents_get _ hk, List.filter_map, List.length_map, raised]
  congr 1
  exact List.filter_congr (fun l hl => by simp [he l hl])

/-! ## Changes of registers and threads beside a result -/

/-- A register written in every active lane. -/
theorem setRegs_written (s : State) (h : Here) (r : Reg) (v : Nat → Word) : Written s (h.lanes.foldl (fun s l => s.setReg h l r (v l)) s) h r v := by
  let f : State → Nat → State := fun s l => s.setReg h l r (v l)
  have ho : ∀ s l k, k ≠ h.tk l → (f s l).thread k = s.thread k := fun s l k hk => setReg_thread_other s h l r (v l) hk
  have hth {l : Nat} (hl : l ∈ h.lanes) : (h.lanes.foldl f s).thread (h.tk l) = (s.thread (h.tk l)).wrote h.handler r (v l) :=
    foldl_thread_own ho (φ := fun l t => t.wrote h.handler r (v l)) (fun s l => setReg_own s h l r (v l)) _ (lanesOf_nodup _) s hl
  have helse : ∀ {β : Type} (π : State → β), (∀ x : State, π x = π { x with threads := [], rf := [] }) → π (h.lanes.foldl f s) = π s := fun π hπ =>
    foldl_keeps (f := f) π (fun s l => by rw [hπ, hπ s]; exact congrArg π (setReg_else s h l r (v l))) _ s
  have hreg {l : Nat} {q : Reg} (hl : l < 32) (hq : q.toNat ≤ 123) (hne : l ∈ h.lanes → q ≠ r) : (h.lanes.foldl f s).reg h l q = s.reg h l q := by
    have key : ∀ (ls : List Nat) (s : State), (∀ x ∈ ls, x < 32) → (l ∈ ls → q ≠ r) → (ls.foldl f s).reg h l q = s.reg h l q := by
      intro ls
      induction ls with
      | nil => intros; rfl
      | cons a t ih =>
        intro s h32 hd
        rw [List.foldl_cons, ih _ (fun x hx => h32 x (by simp [hx])) (fun hx => hd (by simp [hx]))]
        refine setReg_reg_other _ _ _ _ _ (h32 a (by simp)) hl hq ?_
        by_cases e : l = a
        · exact .inr (hd (by simp [e]))
        · exact .inl e
    exact key _ _ (fun x hx => Here.lt_of_mem hx) hne
  refine ⟨?_, ?_, ?_, ?_, ?_, ?_, ?_, ?_, ?_, ?_, ?_, ?_, ?_, ?_, ?_, ?_⟩
  · intro l hl hr
    have stay : ∀ (ls : List Nat) (s : State), (∀ x ∈ ls, x < 32) → l ∉ ls → (ls.foldl f s).reg h l r = s.reg h l r := by
      intro ls
      induction ls with
      | nil => intros; rfl
      | cons a q ih =>
        intro s h32 hn
        rw [List.foldl_cons, ih _ (fun x hx => h32 x (by simp [hx])) (fun hx => hn (by simp [hx]))]
        exact setReg_reg_other _ _ _ _ _ (h32 a (by simp)) (Here.lt_of_mem hl) hr (.inl (fun e => hn (by simp [e])))
    have key : ∀ (ls : List Nat) (s : State), ls.Nodup → (∀ x ∈ ls, x < 32) → l ∈ ls → (ls.foldl f s).reg h l r = v l := by
      intro ls
      induction ls with
      | nil => intro _ _ _ hx; simp at hx
      | cons a q ih =>
        intro s hn h32 hx
        have hn' := List.nodup_cons.1 hn
        rw [List.foldl_cons]
        rcases List.mem_cons.1 hx with rfl | hx
        · rw [stay _ _ (fun x hx => h32 x (by simp [hx])) hn'.1]
          exact setReg_reg_same _ _ _ _ _ hr
        · exact ih _ hn'.2 (fun x hx => h32 x (by simp [hx])) hx
    exact key _ _ (lanesOf_nodup _) (fun x hx => Here.lt_of_mem hx) hl
  · intro l hl
    rw [hth hl]
    unfold Thread.wrote
    split <;> (try split) <;> (try split) <;> rfl
  · exact helse State.kept (fun _ => rfl)
  · exact fun _ => ⟨helse (·.conns) (fun _ => rfl), helse (·.wire) (fun _ => rfl)⟩
  · exact sameMemory_of (helse (·.dram) (fun _ => rfl)) (helse (·.tags) (fun _ => rfl)) (helse (·.towers) (fun _ => rfl)) (helse (·.sbuf) (fun _ => rfl)) (helse (·.pad) (fun _ => rfl))
      (helse (·.acc) (fun _ => rfl)) (helse (·.istore) (fun _ => rfl))
  · exact fun l hl q hq hne => hreg hl hq hne
  · intro k hk
    have key : ∀ (ls : List Nat) (t : State), ls.Nodup → (∀ l ∈ ls, (t.thread (h.tk l)).wbase = (s.thread (h.tk l)).wbase) →
        (∀ l ∈ ls, r.toNat ≤ 123 → k ≠ rfKey h.core h.slot h.R h.wave ((s.thread (h.tk l)).wbase + r.toNat) l) →
        getD 0 (ls.foldl f t).rf k = getD 0 t.rf k := by
      intro ls
      induction ls with
      | nil => intros; rfl
      | cons a q ih =>
        intro t hn hw hk
        have hn' := List.nodup_cons.1 hn
        rw [List.foldl_cons, ih _ hn'.2 _ (fun l hl => hk l (by simp [hl]))]
        · by_cases hr : r.toNat ≤ 123
          · refine setReg_file _ _ _ _ _ ?_
            rw [hw a (by simp)]
            exact hk a (by simp) hr
          · show getD 0 (t.setReg h a r (v a)).rf k = _
            unfold State.setReg
            rw [if_pos (show 124 ≤ r.toNat by omega)]
        · intro l hl
          rw [ho t a _ (fun e => hn'.1 ((tk_inj h).1 e ▸ hl))]
          exact hw l (by simp [hl])
    exact key _ _ (lanesOf_nodup _) (fun _ _ => rfl) hk
  · intro l hl j hj
    rw [hth hl]
    exact wrote_shadow _ _ _ _ hj
  · intro l hl j hj
    rw [hth hl]
    exact wrote_hregs _ _ _ _ hj
  · exact fun k hk => foldl_thread_other ho _ _ hk
  · intro l hl
    rw [hth hl]
    simp
  · exact fun k _ => helse (fun x => x.wave k) (fun _ => rfl)
  · exact congrArg Wave.kept (helse (fun x => x.wave h.wk) (fun _ => rfl))
  · intro g hg _
    rw [helse (fun x => x.wave h.wk) (fun _ => rfl)]
    exact hg
  · exact fun k _ => helse (fun x => x.group k) (fun _ => rfl)
  · exact congrArg (Option.map Group.kept) (helse (fun x => x.group h.gk) (fun _ => rfl))

/-- The thread of every active lane changed. -/
theorem modThreads_each (s : State) (h : Here) (f : Nat → Thread → Thread) :
    EachThread s (h.lanes.foldl (fun s l => s.modThread (h.tk l) (f l)) s) h f where
  lane := fun _ hl => foldl_thread_own (f := fun s l => s.modThread (h.tk l) (f l)) (fun _ _ _ hk => modThread_other _ _ _ _ hk) (φ := f)
    (fun _ _ => modThread_same _ _ _) _ (lanesOf_nodup _) s hl
  others := fun _ hk => foldl_thread_other (f := fun s l => s.modThread (h.tk l) (f l)) (fun _ _ _ hk => modThread_other _ _ _ _ hk) _ _ hk
  rest := foldl_keeps (f := fun s l => s.modThread (h.tk l) (f l)) (fun s : State => ({ s with threads := [] } : State)) (fun _ _ => rfl) _ s

/-! ## Instructions that do not produce -/

/-- One lane's part of an instruction that does not produce. -/
def depthLane (h : Here) (latch : Bool) (s : State) (l : Nat) : State :=
  s.modThread (h.tk l) (fun t => { t with depth := nextDepth latch false t.depth })

theorem depthLane_other (h : Here) (latch : Bool) (s : State) (l k : Nat) (hk : k ≠ h.tk l) : (depthLane h latch s l).thread k = s.thread k :=
  modThread_other _ _ _ _ hk

theorem unproduce_thread (s : State) (h : Here) (latch : Bool) {l : Nat} (hl : l ∈ h.lanes) :
    (s.unproduce h latch).thread (h.tk l) = { s.thread (h.tk l) with depth := nextDepth latch false (s.thread (h.tk l)).depth } :=
  foldl_thread_own (depthLane_other h latch) (φ := fun _ t => { t with depth := nextDepth latch false t.depth })
    (fun _ _ => modThread_same _ _ _) _ (lanesOf_nodup _) _ hl

theorem unproduce_thread_other (s : State) (h : Here) (latch : Bool) {k : Nat} (hk : ∀ l ∈ h.lanes, k ≠ h.tk l) :
    (s.unproduce h latch).thread k = s.thread k :=
  foldl_thread_other (depthLane_other h latch) _ _ hk

/-- Beside threads nothing changes. -/
theorem unproduce_else (s : State) (h : Here) (latch : Bool) : { s.unproduce h latch with threads := [] } = { s with threads := [] } :=
  foldl_keeps (f := depthLane h latch) (fun s : State => ({ s with threads := [] } : State)) (fun _ _ => rfl) _ s

theorem unproduce_reg (s : State) (h : Here) (latch : Bool) {l : Nat} {r : Reg} (hr : r.toNat ≤ 123) : (s.unproduce h latch).reg h l r = s.reg h l r := by
  have hrf : (s.unproduce h latch).rf = s.rf := by
    have := congrArg State.rf (unproduce_else s h latch)
    exact this
  by_cases hl : l ∈ h.lanes
  · have := unproduce_thread s h latch hl
    exact reg_congr hr (by rw [this]) (by rw [this]) (by rw [this]) (by rw [this]) (by rw [this]) hrf
  · have : (s.unproduce h latch).thread (h.tk l) = s.thread (h.tk l) := unproduce_thread_other s h latch (fun x hx e => hl ((tk_inj h).1 e ▸ hx))
    exact reg_congr hr (by rw [this]) (by rw [this]) (by rw [this]) (by rw [this]) (by rw [this]) hrf

/-- What every instruction that writes no register does as it retires: the chain depth, the counts, the next addresses and the frame. -/
theorem leaveWith_spec (s : State) (h : Here) (reads : List Reg) (after : Option (Nat × Word)) (go : Nat → Goto) :
    Retired s ((s.unproduce h (readsLatch reads)).retireTo h [] after go) h reads go := by
  have hth (l : Nat) (hl : l ∈ h.lanes) := unproduce_thread s h (readsLatch reads) hl
  have helse : ∀ {β : Type} (π : State → β), (∀ x : State, π x = π { x with threads := [] }) → π (s.unproduce h (readsLatch reads)) = π s := by
    intro β π hπ; rw [hπ, unproduce_else, ← hπ]
  have hw (k : Nat) : (s.unproduce h (readsLatch reads)).wave k = s.wave k := helse (fun x => x.wave k) (fun _ => rfl)
  have hg (k : Nat) : (s.unproduce h (readsLatch reads)).group k = s.group k := helse (fun x => x.group k) (fun _ => rfl)
  have fr := retireTo_frame (s.unproduce h (readsLatch reads)) h [] after go
  have hm : SameMemory s (s.unproduce h (readsLatch reads)) := sameMemory_of (helse (·.dram) (fun _ => rfl)) (helse (·.tags) (fun _ => rfl)) (helse (·.towers) (fun _ => rfl))
    (helse (·.sbuf) (fun _ => rfl)) (helse (·.pad) (fun _ => rfl)) (helse (·.acc) (fun _ => rfl)) (helse (·.istore) (fun _ => rfl))
  have hlt (l : Nat) (hl : l ∈ h.lanes) := retireTo_thread (s.unproduce h (readsLatch reads)) h [] after go hl
  refine ⟨⟨?_, ?_⟩, ?_, ?_, ⟨?_, ?_, ⟨fun who a => (fr.memory.1 who a).trans (hm.1 who a), fun c o ho => (fr.memory.2 c o ho).trans (hm.2 c o ho)⟩, ?_, ?_, ?_, ?_, ?_, ?_, ?_, ?_, ?_, ?_, ?_⟩⟩
  · intro l hl
    show ((State.retireTo _ h [] after go).thread _).y0 = _ ∧ _
    rw [hlt l hl, hth l hl]
    split <;> exact ⟨rfl, rfl, rfl, rfl⟩
  · intro l hl
    show ((State.retireTo _ h [] after go).thread _).depth = _
    rw [hlt l hl, hth l hl]
    cases readsLatch reads <;> split <;> rfl
  · intro g hgs
    exact retireTo_counted (s.unproduce h (readsLatch reads)) h [] after go (by simp) g (by rw [hg, hgs])
  · intro l hl hgo
    obtain ⟨h1, f, hf⟩ := retireTo_continues (s.unproduce h (readsLatch reads)) h [] after go l hl hgo
    rw [hth l hl] at h1 hf
    exact ⟨h1, f, hf⟩
  · exact fr.device.trans (helse State.kept (fun _ => rfl))
  · exact fun ho => ⟨(fr.wire (ho.trans (helse (·.outbox) (fun _ => rfl)).symm)).1.trans (helse (·.conns) (fun _ => rfl)),
      (fr.wire (ho.trans (helse (·.outbox) (fun _ => rfl)).symm)).2.trans (helse (·.wire) (fun _ => rfl))⟩
  · intro l hl r hr hne
    exact (fr.registers l hl r hr hne).trans (unproduce_reg s h (readsLatch reads) hr)
  · intro k hk
    refine (fr.file k (fun _ _ hd => by simp at hd)).trans (helse (fun x => getD 0 x.rf k) (fun _ => rfl))
  · intro l hl j hj
    refine (fr.shadows l hl j (fun hd => by simp at hd)).trans (by rw [hth l hl])
  · intro l hl j hj
    refine (fr.handlers l hl j (fun hd => by simp at hd)).trans (by rw [hth l hl])
  · intro k hk
    exact (fr.threads k hk).trans (unproduce_thread_other s h (readsLatch reads) hk)
  · intro l hl
    refine (fr.thread l hl).trans ?_
    rw [hth l hl]
    rfl
  · intro k hk; exact (fr.waves k hk).trans (hw k)
  · exact fr.wave.trans (by rw [hw])
  · intro f hf hne
    exact fr.fragments f (by rw [hw]; exact hf) hne
  · intro k hk; exact (fr.groups k hk).trans (hg k)
  · exact fr.group.trans (by rw [hg])

/-- The same without a trap that follows. -/
theorem leave_spec (s : State) (h : Here) (reads : List Reg) (go : Nat → Goto) : Retired s (s.leave h reads go) h reads go :=
  leaveWith_spec s h reads none go

end Sys2Proof.Machine
end

