-- ==== Sys2Proof/Tests/Slice0.lean ====
section
/-! SUPPORT. The model's own tests: ill-formed terms that the check refuses, words written out from the encoding tables, single steps on small
states, and for each statement a state and operands that meet its hypotheses. -/

namespace Sys2Proof.Machine.Slice0

set_option Elab.async false

/-! ## Well-formedness: each check refuses a term -/

theorem test_latchDest_refused : (Instr.add 125 1 2).illFormed = some .latchDest := by decide
theorem test_latchField_refused : (Instr.callr 124 1).illFormed = some .latchField := by decide
theorem test_pastWindow_refused : (Instr.ldm 122 2 1 3).illFormed = some .pastWindow := by decide
theorem test_plainScope_refused : (Instr.ld 1 2 0 .none .plain .dev).illFormed = some .plainScope := by decide
theorem test_promoteCore_refused : (Instr.ld 1 2 0 .none .pacq .core).illFormed = some .promoteCore := by decide
theorem test_indexLoaded_refused : (Instr.ldm 1 2 0 3).illFormed = some .indexLoaded := by decide
theorem test_noQueue_refused : (Instr.qpop 1 12).illFormed = some .noQueue := by decide
theorem test_flagIsDest_refused : (Instr.qtry 3 3 8).illFormed = some .flagIsDest := by decide
theorem test_noBank_refused : (Instr.popen 7).illFormed = some .noBank := by decide
theorem test_badBase_refused : (Instr.wbase 6).illFormed = some .badBase := by decide
theorem test_readOnly_refused : (Instr.wrsr .lane 1).illFormed = some .readOnly := by decide
theorem test_noSelector_refused : (Instr.mstat 1 5).illFormed = some .noSelector := by decide
theorem test_noTwinRegister_refused : (Instr.tget 1 115).illFormed = some .noTwinRegister := by decide
theorem test_noTile_refused : (Instr.mzero 0).illFormed = some .noTile := by decide
theorem test_noRowSlot_refused : (Instr.cpyg 1 true 31 .fifoA).illFormed = some .noRowSlot := by decide
theorem test_noLevel_refused : (Instr.cbar 0).illFormed = some .noLevel := by decide

/-! ## Words written out from the spec's encodings (R66-R78), one or more of each family -/

/-- The word `w` stands for `i`, and `i` is written as `w`. -/
def reads (w : Word) (i : Instr) : Bool := (match decode w with | .ok j => decide (j = i) | .error _ => false) && encode i = some w

theorem test_words_int : reads (0x01#7 ++ (6#7 ++ (4#7 ++ (1#7 ++ 0#4)))) (.add 6 4 1) ∧ reads (0x02#7 ++ (2#7 ++ (1#7 ++ (1#7 ++ 11#4)))) (.bfxz 2 1 1) ∧
    reads (0x03#7 ++ (3#7 ++ (1#7 ++ (2#7 ++ 3#4)))) (.divs 3 1 2) := by decide
theorem test_words_float : reads (0x04#7 ++ (2#7 ++ (1#7 ++ (1#7 ++ 3#4)))) (.ffma 2 1 1) ∧ reads (0x05#7 ++ (3#7 ++ (2#7 ++ 1#11))) (.frcp 3 2) := by decide
theorem test_words_convert_packed : reads (0x06#7 ++ (3#7 ++ (2#7 ++ 0#11))) (.cvtfs 3 2) ∧ reads (0x07#7 ++ (3#7 ++ (2#7 ++ (1#7 ++ 0#4)))) (.bfadd2 3 2 1) := by decide
theorem test_words_lanes : reads (0x08#7 ++ (2#7 ++ (1#7 ++ (1#7 ++ 0#4)))) (.lshup 2 1 1) ∧ reads (0x08#7 ++ (4#7 ++ (1#7 ++ 5#11))) (.lsum 4 1) := by decide
theorem test_words_queues : reads (0x09#7 ++ (0#7 ++ (3#7 ++ (8#7 ++ 0#4)))) (.qpush 3 8) ∧ reads (0x09#7 ++ (4#7 ++ (5#7 ++ (8#7 ++ 2#4)))) (.qtry 4 5 8) := by decide
theorem test_words_proposals : reads (0x0A#7 ++ (19#7 ++ (126#7 ++ (20#7 ++ 0#4)))) (.accept 19 126 20) ∧ reads (0x0A#7 ++ (3#7 ++ (0#7 ++ (6#7 ++ 3#4)))) (.rngu 3 6) ∧
    reads (0x0B#7 ++ 0#25) (.popen 0) := by decide
theorem test_words_mrelc : reads (0x0D#7 ++ (0#7 ++ (0#7 ++ 5#11))) .mrelc := by decide
theorem test_words_matrix_operands : reads 0x1AC08801 (.mma 0 false false true true 17) ∧ reads 0x1BD02082 (.mdrain 0 (some 1) true true 4 8) ∧ reads 0x1A0C0003 (.mzero 3) ∧
    reads 0x1A44E004 (.mwait 17 28) ∧ reads 0x1A182006 (.mstat 6 4) := by decide
theorem test_words_licence : reads 0x18000003 .mlic ∧ reads 0x18000004 .mlicr ∧ reads 0x18140005 (.mlictry 5) := by decide
theorem test_words_memory : reads (0x10#7 ++ (4#7 ++ (1#7 ++ (2#5 ++ (1#2 ++ (2#2 ++ 1#2)))))) (.ld 4 1 2 .wf .acq .clu) ∧
    reads (0x12#7 ++ (8#7 ++ (2#7 ++ (1#5 ++ 3#6)))) (.ldm 8 2 1 3) ∧ reads (0x15#7 ++ (6#7 ++ (1#7 ++ (2#5 ++ (9#4 ++ 2#2))))) (.atoma 6 1 2 .cas .dev) := by decide
theorem test_words_granules : reads 0x2C0808E0 (.fetest 2 1 3 .core) ∧ reads 0x2C0008C0 (.feset 1 3 .core) := by decide
theorem test_words_sync : reads (0x1A#7 ++ (0#7 ++ (0#7 ++ (0#3 ++ (1#2 ++ (2#2 ++ 3#4)))))) (.fence .rel .dev) ∧ reads 0x34101811 (.barsWait 4 3) ∧ reads 0x34008002 (.phase 16) ∧
    reads 0x34105008 (.launch 4 10) := by decide
theorem test_words_special : reads 0x30400000 (.rdsr 16 .lane) ∧ reads 0x32000820 (.wrsr .progress 1) ∧ reads 0x38000008 (.wbase 8) := by decide
theorem test_words_cells : reads 0x3A002803 (.rgive 5 3) ∧ reads 0x3E180003 (.rclaim 6 3) := by decide
theorem test_words_immediates : reads (0x20#7 ++ (1#7 ++ (0#7 ++ 2040#11))) (.addi 1 0 (-8)) ∧ reads (0x27#7 ++ (7#7 ++ (4#7 ++ 4#11))) (.shrsi 7 4 4) ∧
    reads (0x31#7 ++ (17#7 ++ 0x3FE00#18)) (.lih 17 0x3FE00) := by decide
theorem test_words_branches : reads (0x39#7 ++ (5#7 ++ 0x3FFFC#18)) (.bnz 5 (-4)) ∧ reads (0x3B#7 ++ (30#7 ++ 19#18)) (.call 30 19) ∧ reads (0x3D#7 ++ (1#7 ++ 2#18)) (.hloop 1 2) ∧
    reads (0x3E#7 ++ (17#7 ++ 0x3FFEF#18)) (.refill 17 (-17)) := by decide
theorem test_words_privileged : reads (0x40#7 ++ (1#7 ++ (4#7 ++ (0#7 ++ 3#4)))) (.ctxsv 1 4) ∧ reads 0x80042004 (.ctxld 1 4) := by decide

/-- A word with an unassigned major, with a reserved field set, or with an unassigned function stands for no instruction (R72). -/
theorem test_reserved_words_refused : decodeTableWord 32 0 = none ∧ decodeTableWord 32 0x20100830 = none ∧ decodeTableWord 32 0x06042047 = none ∧
    decodeTableWord 32 0x020C0820 = some (.add 3 1 2) := by decide

/-! ## Small states -/

/-- A state of one group in slot 0 of core 0, as a test changes it: the fragment of `lanes` at offset 16 of segment 0, 16 registers a thread, and
the registers that `regs` lists as (lane, register, value). -/
structure Scene where
  lanes : Mask := 5
  frag : Frag → Frag := id
  wave : Wave → Wave := id
  group : Group → Group := id
  launch : Launch → Launch := id
  thread : Thread → Thread := id
  regs : List (Nat × Nat × Word) := []
  more : State → State := id

/-- The state of a scene. -/
def Scene.state (c : Scene) : State :=
  let l := c.launch placedLaunch
  c.more { State.reset with
    boot := .running, cur := { core := 0, slot := 0, wave := 0, lanes := c.lanes }
    itags := [(0, { state := .loaded, part := 0, va := 0, sects := [] })]
    launches := [(0, l)], groups := [(0, c.group (State.reset.newGroup 0 l 0 0 0 0))]
    waves := [(0, c.wave { Wave.init with frags := [c.frag (startFrag 0 { seg := 0, off := 16 } c.lanes)] })]
    threads := (lanesOf c.lanes).map (fun k => (k, c.thread Thread.init))
    rf := c.regs.foldl (fun m p => put 0 m (rfKey 0 0 l.regs 0 p.2.1 p.1) p.2.2) [] }

/-- The state after `i`; reset where it does not answer a next state. -/
def after (c : Scene) (i : Instr) : State := match exec i c.state with | .next t => t | _ => State.reset

/-- Register `r` of lane `l` after `i`. -/
def result (c : Scene) (i : Instr) (l r : Nat) : Word := getD 0 (after c i).rf (rfKey 0 0 16 0 r l)

/-- Both operands in lane 0: `v1` and `v2`. -/
def pair (x y : Word) : Scene := { regs := [(0, 1, x), (0, 2, y)] }

/-- Trap kind that the wave of slot 0 has entered, 0 for none, with its fault mask. -/
def trapped (c : Scene) (i : Instr) : Nat × Word :=
  let t := after { c with more := fun s => (c.more s).modCore 0 (fun k => { k with hmask := 0xFFFFFFFF }) } i
  ((t.wave 0).tkind, getD 0 (t.wave 0).record 2)

/-! ## Integer instructions: expected results by hand from R110-R115 -/

theorem test_add_wraps : result (pair 0xFFFFFFFF 2) (.add 3 1 2) 0 3 = 1 := by decide +kernel
theorem test_sub_of_itself_as_destination : result (pair 5 7) (.sub 1 1 2) 0 1 = 0xFFFFFFFE := by decide +kernel
theorem test_mulhs_and_mulhz_differ : result (pair 0xFFFFFFFF 2) (.mulhs 3 1 2) 0 3 = 0xFFFFFFFF ∧ result (pair 0xFFFFFFFF 2) (.mulhz 3 1 2) 0 3 = 1 := by decide +kernel
theorem test_shifts_by_32 : result (pair 0x80000001 32) (.shl 3 1 2) 0 3 = 0 ∧ result (pair 0x80000001 32) (.shrs 3 1 2) 0 3 = 0xFFFFFFFF := by decide +kernel
theorem test_andn_clears_b : result (pair 0xFF 0x0F) (.andn 3 1 2) 0 3 = 0xF0 := by decide +kernel
/-- R112, its worked example. -/
theorem test_bfxs_sign : result (pair 0x000000F0 0x00000304) (.bfxs 3 1 2) 0 3 = 0xFFFFFFFF ∧ result (pair 0x000000F0 0x00000304) (.bfxz 3 1 2) 0 3 = 15 := by decide +kernel
theorem test_divs_overflow_and_zero : result (pair 0x80000000 0xFFFFFFFF) (.divs 3 1 2) 0 3 = 0x80000000 ∧ result (pair 7 0) (.divs 3 1 2) 0 3 = 0xFFFFFFFF := by decide +kernel
theorem test_rems_sign_follows_a : result (pair 0xFFFFFFF9 2) (.rems 3 1 2) 0 3 = 0xFFFFFFFF := by decide +kernel
theorem test_addss_saturates : result (pair 0x7FFFFFFF 1) (.addss 3 1 2) 0 3 = 0x7FFFFFFF ∧
    (((after (pair 0x7FFFFFFF 1) (.addss 3 1 2)).group 0).map (fun g => getD 0 g.evtc 5)) = some 1 := by decide +kernel
theorem test_lih_keeps_low_bits : result (pair 0x3FFF 0) (.lih 1 0x3FE00) 0 1 = 0xFF803FFF := by decide +kernel
theorem test_shrsi_fills : result (pair 0x80000000 0) (.shrsi 3 1 4) 0 3 = 0xF8000000 := by decide +kernel
theorem test_latches_shift : (((after { thread := fun t => { t with y0 := 1, y1 := 2, y2 := 3, depth := 3 }, regs := [(0, 1, 9)] } (.add 3 1 124)).thread 0).y0,
    ((after { thread := fun t => { t with y0 := 1, y1 := 2, y2 := 3, depth := 3 }, regs := [(0, 1, 9)] } (.add 3 1 124)).thread 0).y1,
    ((after { thread := fun t => { t with y0 := 1, y1 := 2, y2 := 3, depth := 3 }, regs := [(0, 1, 9)] } (.add 3 1 124)).thread 0).depth) = (10, 1, 4) := by decide +kernel

/-! ## Binary32 and conversions: from R85-R101 and R116-R125 -/

theorem test_fadd_of_opposites_is_plus_zero : result (pair 0x3F800000 0xBF800000) (.fadd 3 1 2) 0 3 = 0 := by decide +kernel
theorem test_fmul_overflows : result (pair 0x7F7FFFFF 0x7F7FFFFF) (.fmul 3 1 2) 0 3 = 0x7F800000 := by decide +kernel
theorem test_fmin_of_zeros : result (pair 0 0x80000000) (.fmin 3 1 2) 0 3 = 0x80000000 := by decide +kernel
theorem test_fslt_of_nan_is_invalid : result (pair 0x7FC00000 0) (.fslt 3 1 2) 0 3 = 0 ∧
    (((after (pair 0x7FC00000 0) (.fslt 3 1 2)).group 0).map (fun g => (getD 0 g.evtc 0, getD 0 g.evtc 4))) = some (1, 1) := by decide +kernel
theorem test_frcp_of_three : result (pair 0x40400000 0) (.frcp 3 1) 0 3 = 0x3EAAAAAB := by decide +kernel
theorem test_fsqrt_of_two : result (pair 0x40000000 0) (.fsqrt 3 1) 0 3 = 0x3FB504F3 := by decide +kernel
theorem test_cvtfs_ties_to_even : result (pair 0x40200000 0) (.cvtfs 3 1) 0 3 = 2 ∧ result (pair 0x4F000000 0) (.cvtfs 3 1) 0 3 = 0x7FFFFFFF := by decide +kernel
theorem test_cvtbf2_packs_b_high : result (pair 0x3F800000 0x40000000) (.cvtbf2 3 1 2) 0 3 = 0x40003F80 := by decide +kernel
theorem test_hadd2_halves : result (pair 0x3C004000 0x3C003C00) (.hadd2 3 1 2) 0 3 = 0x40004200 := by decide +kernel

/-! ## Lanes: lanes 0, 1, 2 and 5 hold 1, 2, 3 and 5 (R127-R129) -/

/-- Lanes 0, 1, 2 and 5 active. -/
def four : Scene := { lanes := 0x27, regs := [(0, 1, 1), (1, 1, 2), (2, 1, 3), (5, 1, 5), (0, 2, 1), (1, 2, 1), (2, 2, 1), (5, 2, 1)] }

theorem test_lshup_where_the_source_is_inactive : (result four (.lshup 3 1 2) 0 3, result four (.lshup 3 1 2) 1 3, result four (.lshup 3 1 2) 2 3, result four (.lshup 3 1 2) 5 3) =
    (1, 1, 2, 5) := by decide +kernel
theorem test_lscan_over_active_lanes : (result four (.lscan 3 1) 0 3, result four (.lscan 3 1) 2 3, result four (.lscan 3 1) 5 3) = (1, 6, 11) := by decide +kernel
theorem test_ballot_counts_active_lanes : result four (.ballot 3 1) 5 3 = 0x27 := by decide +kernel

/-! ## Control, traps, queues, barriers -/

theorem test_bnz_splits : ((after { regs := [(2, 1, 1)] } (.bnz 1 (-4))).wave 0).frags.map (fun f => (f.lanes, f.pc.off)) = [(1, 17), (4, 13)] := by decide +kernel
theorem test_call_links : result {} (.call 4 19) 0 4 = 17 ∧ ((after {} (.call 4 19)).wave 0).frags.map (fun f => f.pc.off) = [36] := by decide +kernel
theorem test_hloop_of_count_zero_skips : ((after { regs := [(2, 1, 1)] } (.hloop 1 3)).wave 0).frags.map (fun f => (f.lanes, f.pc.off)) = [(1, 21), (4, 17)] := by decide +kernel
theorem test_register_past_the_allocation_traps : trapped {} (.add 16 1 2) = (4, 5) := by decide +kernel
theorem test_stale_latch_traps : trapped { thread := fun t => { t with depth := 1 } } (.add 1 125 2) = (5, 5) := by decide +kernel
theorem test_privileged_word_of_a_user_traps : (trapped {} .hret).1 = 2 := by decide +kernel
theorem test_qpop_takes_the_oldest : result { group := fun g => { g with queues := [(8, [[(0, 7)], [(0, 9)]])] } } (.qpop 3 8) 0 3 = 7 := by decide +kernel
theorem test_qpush_zero_outside_the_mask : (((after { regs := [(0, 1, 4), (1, 1, 5), (2, 1, 6)] } (.qpush 1 8)).group 0).map (fun g => g.queue 8)) = some [[(0, 4), (2, 6)]] := by decide +kernel
theorem test_bar_of_the_last_thread : (((after { lanes := 0xFFFFFFFF } .bar).group 0).map (·.bgen)) = some 1 := by decide +kernel
theorem test_rgive_fills : ((after { regs := [(2, 1, 8)] } (.rgive 1 3)).group 0).map (fun g => (getD 0 g.cells 35, getD false g.cellFull 3, getD false g.cellFull 35)) = some (8, true, true) := by decide +kernel
theorem test_rdsr_lane : result {} (.rdsr 3 .lane) 2 3 = 2 := by decide +kernel
theorem test_wrsr_fair_clamps : ((after { regs := [(0, 1, 3)] } (.wrsr .fair 1)).wave 0).fair = 16 := by decide +kernel

/-- R100, the worked example of BeadMix: key 0, counter 0. -/
theorem test_beadmix_example : beadMix 0 0 0 0 = 0xBDABC4D0 := by decide +kernel

/-! ## Memory: a record of the scratchpad, 16 bytes of words (R162-R185) -/

/-- Slot 1 describes the group's scratchpad: 64 bytes from 0, words in one row of 16. -/
def padRec : List (Nat × Word) := [(8, 0), (9, 0), (10, 0), (11, 0), (12, 0), (13, 0), (14, 0), (15, 0)]

/-- The kernel's first instruction runs from reset with the word placed. -/
theorem test_step_runs_the_placed_word : (match step (State.reset.withFetchWord 32 0x400407F8) with | .next t => getD 0 t.rf (rfKey 0 0 16 0 1 0) | _ => 0) = 0xFFFFFFF8 := by
  decide +kernel

/-! ## Witnesses: for each statement a state and operands that meet its hypotheses, for each of its clauses -/

/-- The checks of `Ready`, computed. -/
def passes (s : State) (h : Here) (named reads : List Reg) : Bool :=
  h.lanes.all (fun l => named.all (fun r => decide (124 ≤ r.toNat) || (if h.handler then decide (r.toNat < 16) else decide ((s.thread (h.tk l)).wbase + r.toNat < h.R))) &&
    reads.all (fun r => decide (r.toNat < 124) || decide (r.toNat - 124 < (s.thread (h.tk l)).depth)))

/-- The cursor's fragment passes the checks for these registers, and `p` holds of it. -/
def Meets (s : State) (named reads : List Reg) (p : Here → Bool) : Prop := ∃ h, Ready s h named reads ∧ p h = true

/-- `Meets`, computed. -/
def meets (s : State) (named reads : List Reg) (p : Here → Bool) : Bool := match s.here with | some h => passes s h named reads && p h | none => false

theorem meets_of {s : State} {named reads : List Reg} {p : Here → Bool} (hm : meets s named reads p = true) : Meets s named reads p := by
  unfold meets at hm
  split at hm
  next h hh =>
    rw [Bool.and_eq_true] at hm
    refine ⟨h, ⟨hh, fun l hl r hr h123 => ?_, fun l hl r hr h124 => ?_⟩, hm.2⟩
    · have := List.all_eq_true.mp hm.1 l hl
      simp only [Bool.and_eq_true, List.all_eq_true, Bool.or_eq_true, decide_eq_true_eq] at this
      have hx := this.1 r hr
      rcases hx with hx | hx
      · omega
      · by_cases hb : h.handler = true
        · rw [if_pos hb] at hx ⊢; simpa using hx
        · rw [if_neg hb] at hx ⊢; simpa using hx
    · have := List.all_eq_true.mp hm.1 l hl
      simp only [Bool.and_eq_true, List.all_eq_true, Bool.or_eq_true, decide_eq_true_eq] at this
      rcases this.2 r hr with hx | hx <;> omega
  next => simp at hm

/-- Lanes 0 and 2 with deep latches, at window base 0: register 15 is the last that they have. -/
def deep : Scene := { thread := fun t => { t with depth := 4, y3 := 7 }, regs := [(0, 1, 6), (2, 1, 9), (0, 2, 3), (2, 2, 40)] }

/-- In handler mode, with a record. -/
def inHandler : Scene := { deep with frag := fun f => { f with mode := .handler }, wave := fun w => { w with tkind := 9, tseq := 1, record := [(0, 9), (1, 5), (6, 16)] } }

theorem witness_IntegerArithmeticResults : Meets deep.state [15, 1, 124] [1, 124] (fun _ => true) ∧ Meets inHandler.state [15, 1, 2] [1, 2] (fun h => h.handler) :=
  ⟨meets_of (by decide +kernel), meets_of (by decide +kernel)⟩
theorem witness_IntegerSelectAndCount : Meets deep.state [15, 1, 127] [1, 127] (fun _ => true) ∧ Meets deep.state [15, 1, 2] [15, 1, 2] (fun _ => true) ∧
    Meets deep.state [15, 1] [1] (fun _ => true) := ⟨meets_of (by decide +kernel), meets_of (by decide +kernel), meets_of (by decide +kernel)⟩
theorem witness_BitFieldResults : Meets deep.state [15, 1, 2] [1, 2] (fun _ => true) ∧ Meets deep.state [15, 1, 2] [15, 1, 2] (fun _ => true) :=
  ⟨meets_of (by decide +kernel), meets_of (by decide +kernel)⟩
theorem witness_FoldsAndDivisions : Meets (pair 0x80000000 0xFFFFFFFF).state [15, 1, 2] [1, 2] (fun _ => true) ∧
    Meets (pair 0x80000000 0xFFFFFFFF).state [15, 1, 2] [15, 1, 2] (fun _ => true) ∧ 7 ≤ (7#4).toNat := ⟨meets_of (by decide +kernel), meets_of (by decide +kernel), by decide⟩
theorem witness_ImmediateForms : Meets deep.state [15, 127] [127] (fun _ => true) ∧ Meets deep.state [15, 1] [15, 1] (fun _ => true) ∧ Meets deep.state [15] [] (fun _ => true) ∧
    Meets deep.state [15] [15] (fun _ => true) := ⟨meets_of (by decide +kernel), meets_of (by decide +kernel), meets_of (by decide +kernel), meets_of (by decide +kernel)⟩
theorem witness_RoundingKeepsCodes : ∀ f ∈ [f32, bf16, f16, e5m2, e4m3, e3m4, e3m2, e2m3, e2m1], f.max < 2 ^ f.width ∧ (f.decode f.max).isNan = false := by decide +kernel
/-- Both sides of the overflow point: 448 and the tie 464 of E4M3, whose largest finite code is even, and 2^9. -/
theorem witness_RoundingIsNearestEven :
    let f := e4m3
    let e0 := min (0 : Int) (1 - f.bias - f.mbits)
    let top := (f.decode f.max).over e0
    let ulp := top - (f.decode (f.max - 1)).over e0
    let x := fun m => (Val.fin false m 0).over e0
    let low := fun m => 2 * x m < 2 * top + ulp ∨ (2 * x m = 2 * top + ulp ∧ f.max % 2 = 0)
    low 448 ∧ low 464 ∧ ¬low 512 := by decide +kernel
theorem witness_ExactSumsAndProducts :
    let vs := [Val.fin false 3 0, Val.fin true 1 (-2)]
    (∀ v ∈ vs, v.isNan = false ∧ v.isInf = false) ∧ (∀ v ∈ vs, -2 ≤ v.expo) ∧ (Val.fin true 0 0).isZero = true := by decide +kernel
/-- Lane 0 has two numbers, lane 2 a NaN. -/
def nanLane : Scene := { regs := [(0, 1, 0x3F800000), (0, 2, 0x40000000), (2, 1, 0x7FC00000), (2, 2, 0x3F800000), (0, 3, 0x40400000), (2, 3, 0x7FC00000)] }
theorem witness_FloatArithmetic : Meets nanLane.state [4, 1, 2] [1, 2] (fun h => (f32.decode (nanLane.state.reg h 2 1).toNat).isNan) ∧
    Meets nanLane.state [3, 1, 2] [3, 1, 2] (fun h => (f32.decode (nanLane.state.reg h 2 3).toNat).isNan) := ⟨meets_of (by decide +kernel), meets_of (by decide +kernel)⟩
/-- Each case of the NaN operands in one lane: none, the first, the second, both. -/
def nanCases : Scene := { lanes := 15, regs := [(0, 1, 0x3F800000), (0, 2, 0x40000000), (1, 1, 0x7FC00000), (1, 2, 0x3F800000), (2, 1, 0x3F800000), (2, 2, 0x7FC00000), (3, 1, 0x7FC00000), (3, 2, 0x7FC00000)] }
theorem witness_FloatComparisons : Meets nanCases.state [4, 1, 2] [1, 2] (fun h =>
      let nan := fun l r => (f32.decode (nanCases.state.reg h l r).toNat).isNan
      !nan 0 1 && !nan 0 2 && nan 1 1 && !nan 1 2 && !nan 2 1 && nan 2 2 && nan 3 1 && nan 3 2) ∧ Meets nanCases.state [4, 1] [1] (fun _ => true) :=
  ⟨meets_of (by decide +kernel), meets_of (by decide +kernel)⟩
/-- Operands of `faddmin` and of the functions of FP2: lane by lane NaN sums and folds, infinities and zeros. -/
def special : Scene := { lanes := 63, regs := [(0, 1, 0x7FC00000), (0, 3, 0x7FC00000), (1, 1, 0x7FC00000), (1, 3, 0x3F800000), (2, 1, 0x3F800000), (2, 3, 0x40000000),
  (3, 1, 0x40000000), (3, 3, 0x3F800000), (4, 1, 0x7F800000), (4, 2, 0xFF800000), (5, 1, 0xFF800000), (5, 2, 0x80000000)] }
theorem witness_FloatFunctions :
    Meets special.state [3, 1, 2] [3, 1, 2] (fun h =>
      let val := fun l r => f32.decode (special.state.reg h l r).toNat
      let t := fun l => (sumVals [val l 1, val l 2]).1
      (t 0).isNan && (val 0 3).isNan && (t 1).isNan && !(val 1 3).isNan && (t 2).below (val 2 3) && !(t 3).below (val 3 3) && !(val 3 3).isNan && !(t 3).isNan) ∧
    Meets special.state [5, 1] [1] (fun h => special.state.reg h 4 1 == 0x7F800000 && special.state.reg h 5 1 == 0xFF800000) ∧
    Meets special.state [5, 2] [2] (fun h => special.state.reg h 0 2 == 0 && special.state.reg h 5 2 == 0x80000000) ∧
    Meets special.state [5, 1, 2] [1, 2] (fun h =>
      let val := fun l r => f32.decode (special.state.reg h l r).toNat
      (val 0 1).isNan && (val 2 2).isZero && !(val 2 1).isZero && (val 4 1).isInf && (val 4 2).isInf) ∧
    Meets special.state [5, 2, 2] [2, 2] (fun h => (f32.decode (special.state.reg h 0 2).toNat).isZero) ∧
    (f32.decode 0x40C00000 = .fin false (4 * 3145728) (-21) ∧ f32.decode 0x40400000 = .fin false 12582912 (-22) ∧ f32.decode 0x40C00000 = .fin false (1 * 12582912) (-21)) :=
  ⟨meets_of (by decide +kernel), meets_of (by decide +kernel), meets_of (by decide +kernel), meets_of (by decide +kernel), meets_of (by decide +kernel), by decide +kernel⟩
/-- Lanes 0 to 7 hold -1, 2, 128, -152, 1, 0.5, 3 and 3.5 in register 1, and 3 in register 2. -/
def finite : Scene := { lanes := 255, regs := [(0, 1, 0xBF800000), (1, 1, 0x40000000), (2, 1, 0x43000000), (3, 1, 0xC3180000), (4, 1, 0x3F800000), (5, 1, 0x3F000000),
  (6, 1, 0x40400000), (7, 1, 0x40600000)] ++ (List.range 8).map (fun l => (l, 2, 0x40400000)) }
/-- Finite operands of the functions of FP2: negative, whole, past either bound of the power of two, powers of two, and quotients that are not whole. -/
theorem witness_FloatFunctions_of_finite_operands :
    Meets finite.state [5, 1] [1] (fun h =>
      let val := fun l => f32.decode (finite.state.reg h l 1).toNat
      decide (val 0 = .fin true 8388608 (-23)) && decide (val 6 = .fin false 12582912 (-22)) && (val 1).same (Val.ofInt 2) && !(val 2).below (Val.ofInt 128) &&
        (val 3).below (Val.ofInt (-151)) && (val 5).same (.fin false 1 (-1)) && finite.state.reg h 4 1 == 0x3F800000) ∧
    Meets finite.state [5, 1, 2] [1, 2] (fun h => decide (f32.decode (finite.state.reg h 0 1).toNat = .fin true 8388608 (-23)) && decide (f32.decode (finite.state.reg h 0 2).toNat = .fin false 12582912 (-22))) ∧
    f32.decode 0x40600000 = .fin false 14680064 (-22) := ⟨meets_of (by decide +kernel), meets_of (by decide +kernel), by decide +kernel⟩
theorem witness_Conversions : Meets special.state [5, 1] [1] (fun h =>
      let val := fun l => f32.decode (special.state.reg h l 1).toNat
      (val 0).isNan && decide (val 4 = .inf false) && decide (val 5 = .inf true) && decide (val 2 = .fin false 8388608 (-23))) ∧
    Meets special.state [5, 1, 2] [1, 2] (fun _ => true) := ⟨meets_of (by decide +kernel), meets_of (by decide +kernel)⟩
theorem witness_PackedHalves : Meets deep.state [15, 1, 2] [1, 2] (fun _ => true) ∧ Meets deep.state [15, 1, 2] [15, 1, 2] (fun _ => true) :=
  ⟨meets_of (by decide +kernel), meets_of (by decide +kernel)⟩
/-- A count of 31 lanes, whose source is not active in lane 0, and a count of 40. -/
theorem witness_LaneMoves : Meets deep.state [15, 1, 2] [1, 2] (fun h => decide (deep.state.reg h 0 2 = 3)) ∧
    Meets { deep with regs := [(0, 2, 40)] }.state [15, 1, 2] [1, 2] (fun h => decide (32 ≤ (Scene.state { deep with regs := [(0, 2, 40)] } |>.reg h 0 2).toNat)) :=
  ⟨meets_of (by decide +kernel), meets_of (by decide +kernel)⟩
theorem witness_LaneReductions : Meets four.state [3, 1] [1] (fun h => h.lanes ≠ []) := meets_of (by decide +kernel)

/-- No lane is at the end of a loop level, computed. -/
def clear (s : State) (h : Here) : Bool := h.lanes.all (fun l => (s.thread (h.tk l)).loops.all (fun v => v.stop ≠ h.frag.pc.off))
theorem clear_iff {s : State} {h : Here} (hc : clear s h = true) : NotAtLoopEnd s h := by
  intro l hl v hv
  have := List.all_eq_true.mp (List.all_eq_true.mp hc l hl) v hv
  simpa using this

/-- At the last word of the segment. -/
def atEnd : Scene := { frag := fun f => { f with pc := { seg := 0, off := 1023 } }, regs := [(0, 1, 1)] }
/-- A level of both lanes ends at the next instruction's address. -/
def inLoop (stop : BitVec 10) : Scene := { thread := fun t => { t with loops := [{ start := 10, stop := stop, count := 2 }] }, regs := [(0, 1, 1)] }
/-- Targets: inside and outside the segment, taken by some lane or by none; the last word; register jumps to a segment that is named and to one that is not. -/
theorem witness_BranchesGoToTheirTargets :
    Meets deep.state [1] [1] (fun h => clear deep.state h && decide (0 ≤ (h.frag.pc.off.toNat : Int) + 1 + (-17#18).toInt)) ∧
    Meets deep.state [1] [1] (fun h => decide ((h.frag.pc.off.toNat : Int) + 1 + (-18#18).toInt < 0) && h.lanes.any (fun l => deep.state.reg h l 1 ≠ 0)) ∧
    Meets deep.state [3] [3] (fun h => h.lanes.all (fun l => deep.state.reg h l 3 = 0)) ∧
    Meets atEnd.state [4] [] (fun h => clear atEnd.state h && decide (h.frag.pc.off = 1023) && decide ((h.frag.pc.off.toNat : Int) + 1 + (-1#18).toInt ≤ 1023) && decide (h.lanes ≠ [])) ∧
    Meets deep.state [4, 1] [1] (fun h => h.lanes.all (fun l => decide ((deep.state.reg h l 1).toNat < 2 ^ 18) && decide (((deep.state.reg h l 1).extractLsb' 10 8).toNat ≤ h.l.codeCount))) ∧
    Meets (pair 0x400 0).state [1] [1] (fun h => decide (h.l.codeCount < (((pair 0x400 0).state.reg h 0 1).extractLsb' 10 8).toNat)) ∧
    Meets (pair 0x40000 0).state [1] [1] (fun h => decide (2 ^ 18 ≤ ((pair 0x40000 0).state.reg h 0 1).toNat)) :=
  ⟨meets_of (by decide +kernel), meets_of (by decide +kernel), meets_of (by decide +kernel), meets_of (by decide +kernel), meets_of (by decide +kernel), meets_of (by decide +kernel),
    meets_of (by decide +kernel)⟩
/-- Levels to open: a last body instruction within the segment, at its last word with a non-zero count, and at its last word with a zero count; inside a
level that ends there, and before one; the ends of levels of counts 1 and 2; transfers that leave a level. -/
theorem witness_HardwareLoops :
    Meets deep.state [1] [1] (fun h => clear deep.state h && decide (h.lanes ≠ [])) ∧
    Meets deep.state [1] [1] (fun h => decide (h.frag.pc.off.toNat + 1 + (1006#18).toInt = 1023) && h.lanes.all (fun l => deep.state.reg h l 1 ≠ 0)) ∧
    Meets deep.state [3] [3] (fun h => decide (h.frag.pc.off.toNat + 1 + (1006#18).toInt = 1023) && h.lanes.any (fun l => deep.state.reg h l 3 = 0)) ∧
    Meets (inLoop 20).state [1] [1] (fun h => clear (inLoop 20).state h && h.lanes.all (fun l => ((inLoop 20).state.thread (h.tk l)).loops.all (fun v => decide (h.frag.pc.off.toNat + 1 + 3 ≤ v.stop.toNat)))) ∧
    Meets (inLoop 16).state [4, 1] [1] (fun h => !h.handler && h.lanes.any (fun l => ((inLoop 16).state.thread (h.tk l)).loops.any (fun v => v.stop = h.frag.pc.off))) ∧
    (let v : Loop := { start := 10, stop := 16, count := 2 }; v.stop = (16 : BitVec 10) ∧ 2 ≤ v.count.toNat ∧ (∀ x ∈ [v].head?, x.stop ≠ (17 : BitVec 10))) :=
  ⟨meets_of (by decide +kernel), meets_of (by decide +kernel), meets_of (by decide +kernel), meets_of (by decide +kernel), meets_of (by decide +kernel), by decide⟩

/-! ### Refill, proposals, checks, queues, special registers, barriers -/

/-- All lanes of a wave, with first index 5 in register 1, end `stop` in register 2 and cap 32 in register 5. -/
def region (stop : Word) (open' : Bool) : Scene :=
  { lanes := 0xFFFFFFFF, regs := [(0, 1, 5), (0, 2, stop), (0, 5, 32)], wave := fun w => { w with rfOpen := open', rfNext := 5, rfEnd := stop }
    more := fun s => { s with istore := [(20, 0x7C000000)] } }
/-- A region of which lane 1 alone is active; the 31 others are parked, or none is. -/
def resting (parked : Word) : Scene :=
  { lanes := 2, wave := fun w => { w with rfOpen := true, rfNext := 5, rfEnd := 5, rfParked := parked } }

/-- Opening with indices and without, with a `refill` after it and without; the traps; the last active lane of a region that is spent, or not the last. -/
theorem witness_RefillRegions :
    Meets (region 6 false).state [5, 1, 2] [5, 1, 2] (fun h => !h.w.rfOpen && h.frag.lanes == (region 6 false).state.liveLanes h && decide (h.lanes ≠ []) &&
      decide (0 < min ((region 6 false).state.uniform h 5).toNat (((region 6 false).state.uniform h 2).toNat - ((region 6 false).state.uniform h 1).toNat))) ∧
    Meets (region 5 false).state [5, 1, 2] [5, 1, 2] (fun h => !h.w.rfOpen && h.frag.lanes == (region 5 false).state.liveLanes h && decide ((region 5 false).state.regionEnd h = some 21)) ∧
    Meets { region 5 false with more := id }.state [5, 1, 2] [5, 1, 2] (fun h => decide ((Scene.state { region 5 false with more := id }).regionEnd h = none)) ∧
    Meets (region 6 true).state [5, 1, 2] [5, 1, 2] (fun h => h.w.rfOpen) ∧
    Meets (resting 0xFFFFFFFD).state [3] [] (fun h => clear (resting 0xFFFFFFFD).state h && h.w.rfOpen && decide ((dispTarget h.frag.pc (-4)).isSome = true) &&
      h.lanes.all (fun l => !((resting 0xFFFFFFFD).state.thread (h.tk l)).isOpen) && (h.w.rfParked ||| 2 == (resting 0xFFFFFFFD).state.liveLanes h)) ∧
    Meets (resting 1).state [3] [] (fun h => clear (resting 1).state h && h.w.rfOpen && (h.w.rfParked ||| 2 != (resting 1).state.liveLanes h)) ∧
    Meets deep.state [3] [] (fun h => clear deep.state h && !h.w.rfOpen) ∧ Meets deep.state [15] [] (fun _ => true) :=
  ⟨meets_of (by decide +kernel), meets_of (by decide +kernel), meets_of (by decide +kernel), meets_of (by decide +kernel), meets_of (by decide +kernel), meets_of (by decide +kernel),
    meets_of (by decide +kernel), meets_of (by decide +kernel)⟩

/-- An open proposal on bank 0, or none. -/
def proposal (o : Bool) : Scene := { thread := fun t => { t with isOpen := o, shadow := [(3, 8)] } }
theorem witness_ProposalBank :
    Meets (proposal false).state ((List.range 16).map (fun j => BitVec.ofNat 7 (16 * 0 + j))) [] (fun h => !h.handler && h.lanes.all (fun l => !((proposal false).state.thread (h.tk l)).isOpen)) ∧
    Meets (proposal true).state ((List.range 16).map (fun j => BitVec.ofNat 7 (16 * 0 + j))) [] (fun h => h.lanes.any (fun l => ((proposal true).state.thread (h.tk l)).isOpen)) ∧
    Meets (proposal true).state [] [] (fun h => !h.handler) ∧
    Meets (proposal true).state [3, 1, 2] [1, 2] (fun h => h.lanes.all (fun l => ((proposal true).state.thread (h.tk l)).isOpen)) ∧
    Meets (proposal false).state [3, 1, 2] [1, 2] (fun h => h.lanes.any (fun l => !((proposal false).state.thread (h.tk l)).isOpen)) :=
  ⟨meets_of (by decide +kernel), meets_of (by decide +kernel), meets_of (by decide +kernel), meets_of (by decide +kernel), meets_of (by decide +kernel)⟩
theorem witness_Draws : Meets deep.state [15, 127] [127] (fun h => !h.handler) ∧ Meets deep.state [15, 1, 2] [1, 2] (fun h => !h.handler) ∧
    Meets inHandler.state [15, 2] [2] (fun h => h.handler) ∧ Meets inHandler.state [15, 1, 2] [1, 2] (fun h => h.handler) ∧
    (f32.decode 0x7FC00000).isNan = true ∧ ((f32.decode 0x3F800000).isNan = false ∧ (f32.decode 0x3F800000).neg = false) ∧
    (f32.decode 0xC1880000).below (.fin true 67 (-2)) = true ∧ f32.decode 0xBE99999A = .fin true 10066330 (-25) :=
  ⟨meets_of (by decide +kernel), meets_of (by decide +kernel), meets_of (by decide +kernel), meets_of (by decide +kernel), by decide +kernel, by decide +kernel, by decide +kernel, by decide +kernel⟩
/-- A log ratio whose test the bracket of the exponential settles: -1/4 against the first draw of key 0. -/
theorem test_accept_of_a_quarter : acceptTest 0xBDABC4D0 0xBE800000 = true ∧ acceptTest 0xBDABC4D0 0xBE99999A = false := by decide +kernel
/-- Register 16 of 16 in user mode and in handler mode; latch `y1` at depth 1. -/
theorem witness_OperandChecksTrap :
    (∃ h, deep.state.here = some h ∧ h.handler = false ∧ h.R ≤ (deep.state.thread (h.tk 0)).wbase + 16 ∧ h.frag.lanes.getLsbD 0 = true) ∧
    (∃ h, inHandler.state.here = some h ∧ h.handler = true) ∧
    (∃ h, (Scene.state { thread := fun t => { t with depth := 1 } }).here = some h ∧ ((Scene.state { thread := fun t => { t with depth := 1 } }).thread (h.tk 0)).depth ≤ 125 - 124) := by
  refine ⟨⟨_, rfl, ?_⟩, ⟨_, rfl, ?_⟩, ⟨_, rfl, ?_⟩⟩ <;> decide +kernel
/-- Register 16 of a copy, a handler form and a firmware form; a latch of a memory form whose fields are all in range. -/
theorem witness_OperandChecksTrap_by_form :
    let past := fun (s : State) (i : Instr) => s.here.any (fun h => maskWhere h.frag.lanes (fun l => i.named.any (fun r => decide (r.toNat ≤ 123) &&
      decide (if h.handler then 16 ≤ r.toNat else h.R ≤ (s.thread (h.tk l)).wbase + r.toNat))) != 0)
    let stale := fun (s : State) (i : Instr) => s.here.any (fun h => maskWhere h.frag.lanes (fun l => i.sources.any (fun r => decide (124 ≤ r.toNat) &&
      decide ((s.thread (h.tk l)).depth ≤ r.toNat - 124))) != 0)
    past deep.state (.ldm 14 2 1 3) = true ∧ inHandler.state.here.any (fun h => h.level == 1) = true ∧ past inHandler.state (.rdpr 16 .priv) = true ∧
    ({ launch := fun l => { l with firmware := true } : Scene }).state.here.any (fun h => h.level == 2) = true ∧
    past (Scene.state { launch := fun l => { l with firmware := true } }) (.tlbinv 16 1) = true ∧
    past (Scene.state {}) (.ld 4 124 1 .none .plain .core) = false ∧ stale (Scene.state {}) (.ld 4 124 1 .none .plain .core) = true := by decide +kernel

/-- Beats in `q8` and an array configuration or none. -/
def queued (n : Nat) (cfg : Option (List Word)) : Scene :=
  { group := fun g => { g with queues := if n = 0 then [] else [(8, List.replicate n [(0, 7)])], cfg := cfg }, regs := [(0, 1, 4)] }
/-- Queue 8 empty, with a beat, and full; queue 0 with and without a configuration; queue 2, which software may not push. -/
theorem witness_QueueInstructions :
    Meets (queued 15 none).state [1] [1] (fun h => !h.handler && canPush h 8 && decide (((queued 15 none).state.beatsOf h 8).length < queueCap 8)) ∧
    Meets (queued 16 none).state [1] [1] (fun h => canPush h 8 && decide (queueCap 8 ≤ ((queued 16 none).state.beatsOf h 8).length)) ∧
    Meets (queued 0 (some [0, 0, 0, 0, 0])).state [1] [1] (fun h => canPush h 1 && decide (((queued 0 (some [0, 0, 0, 0, 0])).state.beatsOf h 1).length < queueCap 1)) ∧
    Meets (queued 0 none).state [1] [1] (fun h => !canPush h 0 && !canPush h 2) ∧
    Meets (queued 1 none).state [3] [] (fun h => !h.handler && decide ((queued 1 none).state.beatsOf h 8 ≠ [])) ∧
    Meets (queued 0 none).state [3] [] (fun h => decide ((queued 0 none).state.beatsOf h 8 = [])) ∧
    Meets (queued 1 none).state [3, 4] [] (fun h => decide ((queued 1 none).state.beatsOf h 8 ≠ [])) ∧
    Meets (queued 0 none).state [3, 4] [] (fun h => decide ((queued 0 none).state.beatsOf h 8 = [])) :=
  ⟨meets_of (by decide +kernel), meets_of (by decide +kernel), meets_of (by decide +kernel), meets_of (by decide +kernel), meets_of (by decide +kernel), meets_of (by decide +kernel),
    meets_of (by decide +kernel), meets_of (by decide +kernel)⟩

/-- The first copy operation of the group is suspended; the trap has been taken for lanes 1 of wave 0, or by none. -/
def heldUp (told : Option (Nat × Mask)) : Scene :=
  { group := fun g => { g with copies := [{ CopyOp.start 0 1 2 true 1 with started := true, num := 5, susp := some { cause := 2, va := 64, acc := 1, told := told } }] } }
theorem witness_QueueInstructions_behind_a_suspension :
    Meets (heldUp none).state [3, 4] [] (fun h => !h.handler && (h.stuck 2).any (fun p => p.1.told.isNone) && decide ((heldUp none).state.beatsOf h 2 = [])) ∧
    Meets (heldUp (some (0, 1))).state [3, 4] [] (fun h => !h.handler && (h.stuck 2).any (fun p => decide (p.1.told = some (0, 1))) && decide ((heldUp (some (0, 1))).state.beatsOf h 2 = [])) :=
  ⟨meets_of (by decide +kernel), meets_of (by decide +kernel)⟩

/-- A launch with det = 1. -/
def det : Scene := { launch := fun l => { l with raw := 2 ^ 156 }, regs := [(0, 1, 6), (2, 1, 9)] }
theorem witness_SpecialRegisters : Meets deep.state [15] [] (fun h => !h.l.det) ∧ Meets det.state [15] [] (fun h => h.l.det) ∧ Meets deep.state [1] [1] (fun _ => true) :=
  ⟨meets_of (by decide +kernel), meets_of (by decide +kernel), meets_of (by decide +kernel)⟩
/-- Firmware's memory map and partition 0's table entry, in the device reserve (R342, R374). -/
def tables (entry : Nat) (s : State) : State :=
  (s.setDramBytes reserveKey (s.reserveStart + 16) (bytesOf (s.reserveStart + 0x1000) 8)).setDramBytes reserveKey (s.reserveStart + 0x1000) (bytesOf entry 128)
/-- A `wbase` immediate past the allocation, at its last place, and with a proposal open; a wave that progresses and one that does not; performance
levels 7 and 8; a part that is fixed. -/
theorem witness_ThreadAndWaveControls :
    Meets deep.state [1] [1] (fun h => !h.handler && decide (h.R < (16#11).toNat + 4) && decide ((12#11).toNat + 4 ≤ h.R) && h.w.progress && !h.l.det) ∧
    Meets (proposal true).state [] [] (fun h => h.lanes.any (fun l => ((proposal true).state.thread (h.tk l)).isOpen)) ∧
    Meets (proposal false).state [] [] (fun h => h.lanes.all (fun l => !((proposal false).state.thread (h.tk l)).isOpen)) ∧
    Meets det.state [1] [1] (fun h => h.l.det) ∧ Meets { wave := fun w => { w with progress := false } : Scene }.state [] [] (fun h => !h.w.progress) ∧
    Meets (pair 7 0).state [1] [1] (fun h => decide (((pair 7 0).state.uniform h 1).toNat < 8) && !(pair 7 0).state.fixedPart h.l.part) ∧
    Meets (pair 8 0).state [1] [1] (fun h => decide (8 ≤ ((pair 8 0).state.uniform h 1).toNat)) ∧
    Meets (Scene.state { pair 7 0 with more := tables 3 }) [1] [1] (fun h => (Scene.state { pair 7 0 with more := tables 3 }).fixedPart h.l.part) :=
  ⟨meets_of (by decide +kernel), meets_of (by decide +kernel), meets_of (by decide +kernel), meets_of (by decide +kernel), meets_of (by decide +kernel), meets_of (by decide +kernel),
    meets_of (by decide +kernel), meets_of (by decide +kernel)⟩

/-- A system-call window is open for service 6; the launching group's addresses and pending launches. -/
def calling (agg : Option Agg) (window : Word) : Scene := { deep with wave := fun w => { w with agg := agg }, more := fun s => s.modCore 0 (fun c => { c with hagg := window }) }
/-- A launch record's address in registers 1 and 2, with `n` launches pending. -/
def launching (lo hi : Word) (n : Nat) : Scene :=
  { pair lo hi with group := fun g => { g with pend := (List.range n).map (fun k => { addr := 0, seq := wd (k + 1), launch := none, beat := none }) } }
theorem witness_SystemCallsAndLaunch :
    Meets (calling none 0).state [1] [1] (fun h => !h.handler && clear (calling none 0).state h && decide (h.lanes ≠ []) && decide ((calling none 0).state.aggWindow h.core = 0)) ∧
    Meets (calling none 64).state [1] [1] (fun h => decide ((calling none 64).state.aggWindow h.core ≠ 0) && decide (h.w.agg = none)) ∧
    Meets (calling (some { service := 6, opened := 0, lead := 1 }) 64).state [1] [1] (fun h => decide (h.w.agg.map (·.service) = some ((calling (some { service := 6, opened := 0, lead := 1 }) 64).state.uniform h 1))) ∧
    Meets (calling (some { service := 7, opened := 0, lead := 1 }) 64).state [1] [1] (fun h => decide (h.w.agg.map (·.service) ≠ some ((calling (some { service := 7, opened := 0, lead := 1 }) 64).state.uniform h 1))) ∧
    Meets { det with regs := [] }.state [4, 1, regPlus 1 1] [] (fun h => h.l.det) ∧
    Meets (launching 0x100 0xFFFFF 3).state [4, 1, regPlus 1 1] [] (fun h => !h.l.det && decide (h.g.pend.length < 4) &&
      decide (((launching 0x100 0xFFFFF 3).state.uniform h 1).toNat % 256 = 0) && decide (((launching 0x100 0xFFFFF 3).state.uniform h 2).toNat < 2 ^ 20)) ∧
    Meets (launching 0x100 0 4).state [4, 1, regPlus 1 1] [] (fun h => decide (4 ≤ h.g.pend.length)) ∧
    Meets (launching 0x10 0 0).state [4, 1, regPlus 1 1] [] (fun h => decide (((launching 0x10 0 0).state.uniform h 1).toNat % 256 ≠ 0)) ∧
    Meets (launching 0 0x100000 0).state [4, 1, regPlus 1 1] [] (fun h => decide (2 ^ 20 ≤ ((launching 0 0x100000 0).state.uniform h 2).toNat)) :=
  ⟨meets_of (by decide +kernel), meets_of (by decide +kernel), meets_of (by decide +kernel), meets_of (by decide +kernel), meets_of (by decide +kernel), meets_of (by decide +kernel),
    meets_of (by decide +kernel), meets_of (by decide +kernel), meets_of (by decide +kernel)⟩

/-- The window of register 1's service has closed. -/
theorem witness_SystemCalls_after_the_window : let s := Scene.state { calling (some { service := 6, opened := 0, lead := 1 }) 64 with
      more := fun s => { s.modCore 0 (fun c => { c with hagg := 64 }) with clocks := [(0, 65 * cyclePhase)] } }
    Meets s [1] [1] (fun h => decide (h.w.agg.map (·.service) = some (s.uniform h 1)) && decide (0 + s.aggWindow h.core < s.now h)) := meets_of (by decide +kernel)
/-- Threads that have arrived at the barriers or not; generation 5, and the generation that register 1 waits for. -/
def atBar (arrived : Bool) (gen : Word) : Scene :=
  { group := fun g => { g with bgen := 5 }, thread := fun t => { t with barIn := arrived, tbarIn := arrived }, regs := [(0, 1, gen)] }
/-- The twin group of the same launch, in the same slot of core 1. -/
def twins (c : Scene) : Scene := { c with more := fun s => (c.more s).setGroup 2048 { s.newGroup 0 placedLaunch 1 128 1 0 with gid := 1 } }
theorem witness_Barriers :
    Meets (atBar false 4).state [4, 1] [1] (fun h => !h.handler && !h.w.rfOpen && h.lanes.all (fun l => !((atBar false 4).state.thread (h.tk l)).barIn) &&
      decide ((h.g.bgen.toNat + 2 ^ 16 - ((atBar false 4).state.uniform h 1).toNat % 2 ^ 16) % 2 ^ 16 = 1)) ∧
    Meets (atBar true 5).state [4, 1] [1] (fun h => h.lanes.any (fun l => ((atBar true 5).state.thread (h.tk l)).barIn) &&
      decide ((h.g.bgen.toNat + 2 ^ 16 - ((atBar true 5).state.uniform h 1).toNat % 2 ^ 16) % 2 ^ 16 = 0)) ∧
    Meets (atBar false 6).state [4, 1] [1] (fun h => decide (32768 ≤ (h.g.bgen.toNat + 2 ^ 16 - ((atBar false 6).state.uniform h 1).toNat % 2 ^ 16) % 2 ^ 16)) ∧
    Meets det.state [] [] (fun h => h.l.det) ∧ Meets (atBar false 0).state [] [] (fun h => !h.l.det && (atBar false 0).state.twinState h == .missing) ∧
    Meets (twins (atBar false 0)).state [] [] (fun h => !h.l.det && (twins (atBar false 0)).state.twinState h == .here) ∧
    (let s := Scene.state { lanes := 0xFFFFFFFF, thread := fun t => { t with barIn := true } };
      s.liveIds 0 (s.launch 0).waves ≠ [] ∧ s.allIn 0 (s.launch 0).waves (·.barIn) = true ∧ (s.group 0).isSome = true) ∧
    (let s := (atBar false 0).state; s.allIn 0 (s.launch 0).waves (·.barIn) = false ∧ (s.group 0).isSome = true) :=
  ⟨meets_of (by decide +kernel), meets_of (by decide +kernel), meets_of (by decide +kernel), meets_of (by decide +kernel), meets_of (by decide +kernel), meets_of (by decide +kernel),
    by decide +kernel, by decide +kernel⟩

/-- A refill region is open at the barriers. -/
theorem witness_Barriers_in_a_region : Meets { atBar false 4 with wave := fun w => { w with rfOpen := true } : Scene }.state [4, 1] [1] (fun h => !h.handler && h.w.rfOpen) :=
  meets_of (by decide +kernel)
/-- Words 0-7 of shape slot 1: words from `base`, `extent` bytes of them, in one row of 16, with bounds mode and space in `mode`, and a publish entry. -/
def shapeOf (base extent fmt mode pub : Nat) : SMap Word :=
  [(8, wd base), (10, wd extent), (11, wd (16 + 2 ^ 24 * fmt)), (12, 4), (13, 64), (14, wd (mode + 256 * pub))].filter (fun p => p.2 ≠ 0)
/-- A scene with that record in slot 1 and the lanes' element numbers in register 1. -/
def through (shape : SMap Word) (i0 i2 : Word) : Scene := { group := fun g => { g with shape := shape }, regs := [(0, 1, i0), (2, 1, i2), (0, 4, 77), (2, 4, 88)].filter (fun p => p.2.2 ≠ 0) }
/-- The scratchpad words of the slot (space 2), faulting outside. -/
def pad : Scene := through (shapeOf 0 64 17 8 0) 1 15
/-- Every lane's unit can be found. -/
def found (s : State) (h : Here) (r : Rec) (a : Reg) (acc : Access) (fmtOk needPad : Bool) : Bool :=
  h.lanes.all (fun l => match s.spot h r (s.reg h l a).toNat acc fmtOk needPad with | .ok (some _) => true | _ => false)
/-- The lowest lane of a fragment faults. -/
def faults (s : State) (h : Here) (r : Rec) (a : Reg) (acc : Access) (fmtOk needPad : Bool) : Bool :=
  match s.spot h r (s.reg h (lowest h.frag.lanes) a).toNat acc fmtOk needPad with | .error _ => true | _ => false

/-- Memory that no table maps: an access through slot 1 faults. -/
def unmapped : Scene := through (shapeOf 0 64 17 0 0) 1 15
theorem witness_PhaseArrivals :
    Meets deep.state [1] [1] (fun h => !h.handler && !h.w.rfOpen) ∧ Meets { wave := fun w => { w with rfOpen := true } : Scene }.state [1, 2] [1, 2] (fun h => h.w.rfOpen && !h.l.det) ∧
    Meets det.state [1, 2] [1, 2] (fun h => h.l.det) ∧
    Meets pad.state [1, 2] [1, 2] (fun h => !h.l.det && decide ((h.g.shapeRec 1).space ≠ 0) && (match pad.state.spot h (h.g.shapeRec 1) 0 .read true false with | .ok _ => true | _ => false)) ∧
    Meets unmapped.state [1, 2] [1, 2] (fun h => !h.l.det && decide ((h.g.shapeRec 1).space = 0) && (match unmapped.state.spot h (h.g.shapeRec 1) 0 .read true false with | .error _ => true | _ => false)) :=
  ⟨meets_of (by decide +kernel), meets_of (by decide +kernel), meets_of (by decide +kernel), meets_of (by decide +kernel), meets_of (by decide +kernel)⟩
/-- Cells 3 of lanes 0 and 2: both empty, both full, and one of them full. -/
def cells (full : SMap Bool) : Scene := { group := fun g => { g with cellFull := full, cells := [(3, 9)] }, regs := [(0, 1, 4)] }
theorem witness_HandOffCells :
    Meets (cells []).state [1] [1] (fun h => !h.handler && !h.frag.defer && h.lanes.all (fun l => !getD false h.g.cellFull (16 * l + 3)) && h.lanes.all (fun l => !((cells []).state.thread (h.tk l)).done)) ∧
    Meets (cells [(3, true), (35, true)]).state [1] [] (fun h => h.lanes.all (fun l => getD false h.g.cellFull (16 * l + 3))) ∧
    Meets (cells [(3, true)]).state [1] [1] (fun h => h.lanes.any (fun l => getD false h.g.cellFull (16 * l + 3)) && h.lanes.any (fun l => !getD false h.g.cellFull (16 * l + 3))) :=
  ⟨meets_of (by decide +kernel), meets_of (by decide +kernel), meets_of (by decide +kernel)⟩
/-- Lane 0 is done and lane 2 is not; a fragment that may not retire yet. -/
theorem witness_HandOffCells_tried_again :
    let again := Scene.state { cells [(35, true)] with more := fun s => s.modThread 0 (fun t => { t with done := true, pend := 4 }) }
    let early := Scene.state { cells [] with frag := fun f => { f with defer := true } }
    Meets again [1] [1] (fun h => !h.handler && !h.frag.defer && (h.lanes.filter (fun l => !(again.thread (h.tk l)).done) == [2]) && getD false h.g.cellFull (16 * 2 + 3) &&
      decide (again.reg h 0 1 = (again.thread (h.tk 0)).pend)) ∧ Meets early [1] [1] (fun h => h.frag.defer) :=
  ⟨meets_of (by decide +kernel), meets_of (by decide +kernel)⟩

/-! ### Memory -/

/-- Partition 0 maps virtual addresses 0 to 0xFFFF of this device to 0x20000, for reads, writes and fetches (R336-R339, R374). -/
def mapped (s : State) : State :=
  let put8 := fun (s : State) (a v : Nat) => s.setDramBytes 0 a (bytesOf v 8)
  let s0 := (tables (1 + 0x10000 * 2 ^ 512 + (s.reserveStart + 0x2000) * 2 ^ 704) s).setDramBytes reserveKey (s.reserveStart + 0x2000) (bytesOf (2 ^ 63) 8)
  put8 (put8 (put8 (put8 s0 0x10000 0x11001) 0x11000 0x12001) 0x12000 0x13001) 0x13000 0x200E3
/-- Device memory words through slot 1. -/
def dram : Scene := { unmapped with more := mapped }
/-- The same, and the line of element 1 has an uncorrectable error. -/
def badLine : Scene := { unmapped with more := fun s => { mapped s with bad := [(0x20000 / 128, 0xFFFF)] } }

/-- An actor of slot 0 of core 0, and a copy engine there. -/
def me (engine : Bool) : Actor := { core := 0, slot := 0, part := 0, engine := engine, det := none }
/-- The byte of device memory that an actor's translation gives, or its error. -/
def walkTo (s : State) (va : Nat) (acc : Access) : Option Nat × Nat :=
  match s.translate (me false) va acc with | .ok (.dram a) => (some a, 0) | .ok _ => (none, 0) | .error e => (none, e)

theorem test_walk_finds_the_page : walkTo dram.state 0x1234 .read = (some 0x21234, 0) ∧ walkTo dram.state 0x10000 .read = (none, 1) := by decide +kernel
/-- A scene after an instruction, the fragment at its place again. -/
def next (c : Scene) (i : Instr) : Scene := { c with more := fun s => match exec i (c.more s) with | .next t => { t with waves := s.waves } | _ => s }
/-- Both lanes store to element 1: the higher lane's word stays, and a strong load reads it from the core's own store buffer (R166, R178). -/
theorem test_store_then_load : (result (next { dram with regs := [(0, 1, 1), (2, 1, 1), (0, 4, 77), (2, 4, 88)] } (.st 4 1 1 .none .plain .core)) (.ld 5 1 1 .none .sr .core) 0 5) = 88 := by
  decide +kernel
theorem test_misaligned_unit_traps : trapped (through (shapeOf 2 64 17 8 0) 0 1) (.ld 5 1 1 .none .plain .core) = (10, 1) := by decide +kernel
theorem test_atom_add_takes_lanes_in_order : (result { pad with regs := [(0, 1, 3), (2, 1, 3), (0, 4, 5), (2, 4, 6)] } (.atom 4 1 1 .add .core) 0 4,
    result { pad with regs := [(0, 1, 3), (2, 1, 3), (0, 4, 5), (2, 4, 6)] } (.atom 4 1 1 .add .core) 2 4) = (0, 5) := by decide +kernel

/-- A record of words: base, extent, mode word (bounds, space) and publish entry. -/
def wordRec (base extent mode pub : Nat) : Rec := (Scene.state { group := fun g => { g with shape := shapeOf base extent 17 mode pub } }).here.elim 0 (fun h => h.g.shapeRec 1)
/-- A 64 KiB page through four tables, and the entry of the next page is not valid. -/
theorem witness_PagesAreTranslated :
    let s := dram.state
    walkTo s 0x1234 .read = (some 0x21234, 0) ∧ s.held = [] ∧ s.nodeOf 0 0 = some s.node ∧ s.part 0 512 64 = 0x10000 ∧
    (∀ p ∈ [(0x10000, 0x11001), (0x11000, 0x12001), (0x12000, 0x13001), (0x13000, 0x200E3)], s.badFor (s.keyOf 0) p.1 = false ∧ s.dramNat (s.keyOf 0) p.1 8 = p.2) ∧
    (∀ t ∈ [0x12000, 0x13000], (List.range 32).all (fun k => s.dramNat (s.keyOf 0) (t + 8 * k) 8 % 4 ≠ 3 || s.dramNat (s.keyOf 0) (t + 8 * k) 8 / 8 % 4 = 0) = true) ∧
    (0x200E3 = 0x20000 + 3 + 32 * 7) ∧ 0x20000 + 2 ^ 16 ≤ s.usableTop ∧ s.badFor (s.keyOf 0) 0x13008 = false ∧ s.dramNat (s.keyOf 0) 0x13008 8 % 2 = 0 := by decide +kernel
/-- A top table whose entry is read with an error, is not valid, has a reserved bit, or is a leaf; the next ones end the walk. -/
theorem witness_WalksThatFault :
    let put8 := fun (a v : Nat) => dram.state.setDramBytes 0 a (bytesOf v 8)
    (∀ p ∈ [(put8 0x10000 0x11000, 1), (put8 0x10000 (0x11001 + 2 ^ 52), 3), (put8 0x10000 (0x11001 + 2 ^ 8), 3), (put8 0x10000 0x11005, 3), (put8 0x10000 0x11003, 3),
        (put8 0x10000 0x11009, 3), (put8 0x11000 0, 1), (put8 0x12000 0, 1), (put8 0x13000 0, 1)],
      p.1.held = [] ∧ p.1.nodeOf 0 0 = some p.1.node ∧ walkTo p.1 0x1234 .read = (none, p.2)) ∧
    (let s := { dram.state with bad := [(0x10000 / 128, 1)] }; s.badFor (s.keyOf 0) 0x10000 = true ∧ walkTo s 0x1234 .read = (none, 5)) ∧
    walkTo dram.state (2 ^ 52) .read = (none, 4) := by decide +kernel
/-- A 2 MiB page and a 1 GiB page, of 32 equal entries. -/
theorem witness_LargePages :
    let put8 := fun (s : State) (a v : Nat) => s.setDramBytes 0 a (bytesOf v 8)
    let two := (List.range 32).foldl (fun s k => put8 s (0x13000 + 8 * k) (0x200000 + 11 + 32 * 7)) dram.state
    let one := (List.range 32).foldl (fun s k => put8 s (0x12000 + 8 * k) (0x40000000 + 19 + 32 * 1)) dram.state
    walkTo two 0x1F1234 .read = (some 0x3F1234, 0) ∧ walkTo one 0x3F1F1234 .read = (some 0x7F1F1234, 0) ∧
    walkTo one 0x3F1F1234 .write = (none, 2) ∧
    (List.range 32).all (fun k => two.dramNat (two.keyOf 0) (0x13000 + 8 * k) 8 = 0x200000 + 11 + 32 * 7) = true ∧
    (List.range 32).all (fun k => one.dramNat (one.keyOf 0) (0x12000 + 8 * k) 8 = 0x40000000 + 19 + 32 * 1) = true ∧ 0x40000000 + 2 ^ 30 ≤ one.usableTop := by decide +kernel
/-- A replaced entry stays held until `tlbinv`'s invalidation of its page, and another page's invalidation leaves it (R341). -/
theorem test_replaced_entry_is_held :
    let s := (dram.state.noteWalk (me false) 0x1234).performBytes 0 (dram.state.keyOf 0) 0x13000 (bytesOf 0x300E3 8)
    (dram.state.performBytes 0 (dram.state.keyOf 0) 0x13000 (bytesOf 0x300E3 8)).held = [] ∧
    s.cachedAt (s.keyOf 0) 0 0x13000 = [0x200E3] ∧ s.cachedAt (s.keyOf 0) 128 0x13000 = [] ∧ (s.invalidate 0 0x1234 false).held = [] ∧ (s.invalidate 0 0x500000 false).held = s.held ∧ (s.invalidate 0 0 true).held = [] ∧
    walkTo (s.invalidate 0 0x1234 false) 0x1234 .read = (some 0x31234, 0) := by decide +kernel
/-- A publish entry of size 0x100 with these bits from bit 192 on, which the reserved bits follow. -/
def published (high : Nat) : State :=
  let s := tables (1 + 2 ^ 496 + (dram.state.reserveStart + 0x3000) * 2 ^ 576) dram.state
  s.setDramBytes reserveKey (s.reserveStart + 0x3000) (bytesOf (0x100 * 2 ^ 128 + high * 2 ^ 192) 32)
/-- Inside at the last element; outside with each bounds mode; refused; a publish record; misaligned; the three spaces, with core 4 of another cluster and
one that no partition owns; an unmapped page. -/
theorem witness_UnitsAreLocated :
    let s := dram.state
    let owned := { s with owners := [(0, 0), (1, 0)] }
    s.refused 0 (wordRec 0 64 8 0) = false ∧ s.refused 0 (wordRec 0 64 11 0) = true ∧ (wordRec 0 64 0 1).publish ≠ 0 ∧
    (let r := wordRec 0 64 8 0; (15 : Int) * r.stride0 + 4 ≤ r.extent ∧ ¬((16 % r.rowlen : Nat) * r.stride0 + (16 / r.rowlen : Nat) * r.stride1 + 4 ≤ (r.extent : Int)) ∧ r.bounds = 0) ∧
    (wordRec 0 64 9 0).bounds = 1 ∧ (wordRec 0 64 10 0).bounds = 2 ∧ ((wordRec 0 64 10 0).extent : Int) ≠ 0 ∧ ((64 : Int) % (wordRec 0 64 10 0).extent).toNat + 4 ≤ (wordRec 0 64 10 0).extent ∧
    ((wordRec 0 62 10 0).extent < ((124 - 64 : Int) % (wordRec 0 62 10 0).extent).toNat + 4) ∧ (wordRec 0 0 10 0).extent = 0 ∧ (wordRec 2 64 8 0).base % 4 ≠ 0 ∧
    (wordRec 0 64 8 0).space = 2 ∧ (wordRec 0x7FFC0 64 4 0).space = 1 ∧ owned.owner 0 = (me false).part ∧ s.owner 0 ≠ (me false).part ∧ owned.owner 4 = 0 ∧ 4 / 4 ≠ (me false).core / 4 ∧
    (published 2).pubEntry 0 1 = 2 ^ 193 + 0x100 * 2 ^ 128 ∧ pubBad ((published 2).pubEntry 0 1) = true ∧ pubBad ((published 0).pubEntry 0 1) = false ∧ (published 0).refused 0 (wordRec 0 64 0 1) = false ∧
    (wordRec 0 64 0 0).space = 0 ∧ (walkTo s 0x10000 .read).1 = none := by decide +kernel
/-- Two bytes of device memory and of a scratchpad below the reserve; no store of another core; a full buffer and one with room. -/
theorem witness_BytesReadAsWritten :
    let s := dram.state
    let ls := [Loc.dram 0x20000, .chip 3 5]
    ls.Nodup ∧ (∀ x ∈ ls, x.own = true) ∧ s.sbuf = [] ∧ 0x20000 < s.reserveStart ∧ s.reserveStart ≤ s.mm 128 64 ∧ (∀ b ∈ s.sbuf, b.core ≠ 0) ∧ (s.bufLines 0).length < 32 := by decide +kernel
/-- A buffer that holds 32 lines, which a store to one of them leaves, and which has no room for another line. -/
theorem witness_BufferedLines :
    let s := (List.range 32).foldl (fun s k => s.bufferStore (me false) 7 (0x20000 + 128 * k) 4 0) dram.state
    (∀ b ∈ s.sbuf, b.core = 0 → b.key = s.keyOf 0 ∧ b.addr % 128 + b.bytes.length ≤ 128 ∧ b.addr + b.bytes.length ≤ s.reserveStart) ∧ s.reserveStart ≤ s.mm 128 64 ∧
    (s.bufLines 0).length = 32 ∧ 0x20004 / 128 ∈ s.bufLines 0 ∧ 0x30000 / 128 ∉ s.bufLines 0 := by decide +kernel
/-- A scene with full granules. -/
def granules (full : SMap Bool) (c : Scene) : Scene := { c with more := fun s => { c.more s with full := full } }
/-- Both lanes in one granule of the scratchpad. -/
def shared : Scene := through (shapeOf 0 64 17 8 0) 1 2
/-- det = 1 through the scratchpad. -/
def detPad : Scene := { pad with launch := fun l => { l with raw := 2 ^ 156 } }
/-- Every granule of the lanes is full. -/
def allFull (s : State) (h : Here) (r : Rec) (a : Reg) (acc : Access) : Bool :=
  h.lanes.all (fun l => match s.spot h r (s.reg h l a).toNat acc true true with | .ok (some ls) => s.isFull (granuleOf ls) | _ => false)
/-- No byte of the lanes' units is unreadable. -/
def readable (s : State) (h : Here) (r : Rec) (a : Reg) : Bool :=
  h.lanes.all (fun l => match s.spot h r (s.reg h l a).toNat .read true false with | .ok (some ls) => ls.all (fun x => !s.unreadable h.actor x) | _ => false)
/-- No lane is done. -/
def fresh (s : State) (h : Here) : Bool := !h.frag.defer && h.lanes.all (fun l => !(s.thread (h.tk l)).done)

/-- The units of the lanes are bytes of this device that programs may map. -/
def mappable (s : State) (h : Here) (r : Rec) (a : Reg) : Bool :=
  h.lanes.all (fun l => match s.spot h r (s.reg h l a).toNat .write true false with
    | .ok (some ls) => ls.all (fun x => x.own && match x with | .dram a => decide (a < s.reserveStart) | _ => true)
    | _ => false)
/-- A write of another thread, or none, races with the unit of each lane. -/
def raced (s : State) (h : Here) (r : Rec) (a : Reg) (some' : Bool) : Bool :=
  h.lanes.all (fun l => match s.spot h r (s.reg h l a).toNat .read true false with | .ok (some ls) => s.raced (h.lane l) ls == some' | _ => false)
/-- Both lanes at a word to which a thread that they have not heard of has written. -/
def racy : Scene :=
  { through (shapeOf 0 64 17 8 0) 1 1 with more := fun s => { s with
    races := (List.range 4).map (fun k => { loc := .chip 0 (4 + k), before := 9, id := 1 })
    writes := [(1, { agent := .thread 4000, known := [], seen := [], rel := [], fars := [], rmw := false })], wnum := 2 } }
/-- A load that waits, with the units that it located at issue. -/
def keptLoad : Scene :=
  { pad with frag := fun f => { f with wait := .access, kept := some (wordRec 0 64 8 0, [{ lane := 0, locs := some ((List.range 4).map (fun k => .chip 0 (4 + k))) }, { lane := 2, locs := some ((List.range 4).map (fun k => .chip 0 (60 + k))) }]) } }
/-- What a waiting access keeps are the units of its lanes, as they were located; it goes through the record that it keeps. -/
theorem witness_KeptUnits :
    Meets keptLoad.state [4, 1] [1] (fun h => fresh keptLoad.state h && (h.frag.kept.map (·.1)).any (fun r => decide (r = h.record 1)) && h.frag.kept.any (fun p => decide (p.2.filter (fun q => h.lanes.contains q.lane) = p.2) &&
      decide (p.2.map (·.lane) = h.lanes) && p.2.all (fun q => match pad.state.spot h p.1 (pad.state.reg h q.lane 1).toNat .read true true with | .ok x => decide (x = q.locs) | .error _ => false))) :=
  meets_of (by decide +kernel)
/-- Plain accesses that race, and that do not (R258, R260). -/
theorem witness_RacesWithPlainAccesses :
    Meets racy.state [4, 1] [4, 1] (fun h => raced racy.state h (h.record 1) 1 true && mappable racy.state h (h.record 1) 1) ∧
    Meets pad.state [4, 1] [4, 1] (fun h => raced pad.state h (h.record 1) 1 false && mappable pad.state h (h.record 1) 1) ∧
    Meets dram.state [4, 1] [4, 1] (fun h => mappable dram.state h (h.record 1) 1 && raced dram.state h (h.record 1) 1 false && !h.holdsUnits h.lanes &&
      h.lanes.all (fun l => match dram.state.spot h (h.record 1) (dram.state.reg h l 1).toNat .read true false with | .ok (some ls) => !dram.state.lacks h.actor ls | _ => false)) ∧
    dram.state.lacks (me false) [.remote 1 (2 ^ 40)] = true := ⟨meets_of (by decide +kernel), meets_of (by decide +kernel), meets_of (by decide +kernel), by decide +kernel⟩

theorem witness_LoadsReadTheirUnits :
    Meets detPad.state [4, 1] [1] (fun h => !h.handler && h.l.det) ∧
    Meets unmapped.state [4, 1] [1] (fun h => !h.l.det && faults unmapped.state h (h.record 1) 1 .read true false) ∧
    Meets dram.state [4, 1] [1] (fun h => found dram.state h (h.record 1) 1 .read true false && readable dram.state h (h.record 1) 1) ∧
    Meets badLine.state [4, 1] [1] (fun h => found badLine.state h (h.record 1) 1 .read true false && !readable badLine.state h (h.record 1) 1) ∧
    Meets (granules [(0, true), (3, true)] pad).state [4, 1] [1] (fun h => let s := (granules [(0, true), (3, true)] pad).state
      found s h (h.record 1) 1 .read true true && fresh s h && allFull s h (h.record 1) 1 .read) ∧
    Meets pad.state [4, 1] [1] (fun h => found pad.state h (h.record 1) 1 .read true true && fresh pad.state h && !allFull pad.state h (h.record 1) 1 .read) ∧
    Meets (granules [(0, true)] shared).state [4, 1] [1] (fun h => let s := (granules [(0, true)] shared).state
      allFull s h (h.record 1) 1 .read && h.lanes.all (fun l => match s.spot h (h.record 1) (s.reg h l 1).toNat .read true true with | .ok (some ls) => granuleOf ls = 0 | _ => false)) :=
  ⟨meets_of (by decide +kernel), meets_of (by decide +kernel), meets_of (by decide +kernel), meets_of (by decide +kernel), meets_of (by decide +kernel), meets_of (by decide +kernel),
    meets_of (by decide +kernel)⟩
theorem witness_StoresWriteTheirUnits :
    Meets detPad.state [4, 1] [4, 1] (fun h => !h.handler && h.l.det) ∧
    Meets unmapped.state [4, 1] [4, 1] (fun h => !h.l.det && faults unmapped.state h (h.record 1) 1 .write true false) ∧
    Meets dram.state [4, 1] [4, 1] (fun h => found dram.state h (h.record 1) 1 .write true false && decide (dram.state.reserveStart ≤ dram.state.mm 128 64) && decide (dram.state.sbuf = []) && decide (dram.state.marks = [])) ∧
    Meets pad.state [4, 1] [4, 1] (fun h => found pad.state h (h.record 1) 1 .write true true && fresh pad.state h && !allFull pad.state h (h.record 1) 1 .write) ∧
    Meets (granules [(3, true)] pad).state [4, 1] [4, 1] (fun h => let s := (granules [(3, true)] pad).state; found s h (h.record 1) 1 .write true true && fresh s h) ∧
    Meets shared.state [4, 1] [4, 1] (fun h => found shared.state h (h.record 1) 1 .write true true && fresh shared.state h) :=
  ⟨meets_of (by decide +kernel), meets_of (by decide +kernel), meets_of (by decide +kernel), meets_of (by decide +kernel), meets_of (by decide +kernel), meets_of (by decide +kernel)⟩
/-- Registers 8 to 11, at the start and from the third on; a scratchpad and memory that is not mapped. -/
theorem witness_TransfersMoveRegisterByRegister :
    Meets shared.state ((List.range ((3#6).toNat + 1)).map (fun j => BitVec.ofNat 7 (8 + j)) ++ [1]) [1] (fun h => !h.handler && decide (h.frag.xfer ≤ 3) &&
      (List.range 4).all (fun j => h.lanes.all (fun l => match shared.state.spot h (h.g.shapeRec 1) (shared.state.reg h l 1 + BitVec.ofNat 32 j).toNat .write true false with
        | .ok (some ls) => ls.all Loc.isPad && !shared.state.raced (h.lane l) ls && ls.all (fun x => !shared.state.unreadable h.actor x) | _ => false))) ∧
    Meets (Scene.state { unmapped with frag := fun f => { f with xfer := 2 } }) ((List.range ((3#6).toNat + 1)).map (fun j => BitVec.ofNat 7 (8 + j)) ++ [1]) [1] (fun h => decide (h.frag.xfer ≤ 3)) :=
  ⟨meets_of (by decide +kernel), meets_of (by decide +kernel)⟩
theorem witness_AtomicsTakeLanesInTurn :
    Meets detPad.state [4, 1] [4, 1] (fun h => !h.handler && h.l.det) ∧ Meets unmapped.state [4, 1, 5] [4, 1, 5] (fun h => faults unmapped.state h (h.record 1) 1 .rmw true false) ∧
    Meets dram.state [4, 1, 5] [4, 1, 5] (fun h => !h.l.det && found dram.state h (h.record 1) 1 .rmw true false && readable dram.state h (h.record 1) 1) ∧
    Meets pad.state [4, 1] [4, 1] (fun h => found pad.state h (h.record 1) 1 .rmw true false) :=
  ⟨meets_of (by decide +kernel), meets_of (by decide +kernel), meets_of (by decide +kernel), meets_of (by decide +kernel)⟩
theorem witness_GranuleInstructions :
    Meets detPad.state [4, 1] [1] (fun h => !h.handler && h.l.det) ∧ Meets detPad.state [1] [1] (fun _ => true) ∧
    Meets unmapped.state [1] [1] (fun h => !h.l.det && faults unmapped.state h (h.record 1) 1 .write true true && faults unmapped.state h (h.record 1) 1 .read true true) ∧
    Meets pad.state [4, 1] [1] (fun h => found pad.state h (h.record 1) 1 .read true true && found pad.state h (h.record 1) 1 .write true true) :=
  ⟨meets_of (by decide +kernel), meets_of (by decide +kernel), meets_of (by decide +kernel), meets_of (by decide +kernel)⟩

/-- The lanes of a waiting `wne` expect `v` in their words, and have waited since cycle 0; the core's cycle count is `now`. -/
def expecting (v : Word) (now : Nat) : Scene :=
  { pad with
    regs := [(0, 1, 1), (2, 1, 15), (0, 4, v), (2, 4, v)].filter (fun p => p.2.2 ≠ 0), frag := fun f => { f with wait := .access, t0 := 0 }
    more := fun s => { s with clocks := [(0, now * cyclePhase)], istore := [(16, 0x17#7 ++ (4#7 ++ (1#7 ++ (1#5 ++ 0#6))))] } }
/-- The words differ, or they are equal; a timeslice that is over after issue and one that is not. -/
theorem witness_WaitsUntilWordsDiffer :
    Meets detPad.state [4, 1] [4, 1] (fun h => !h.handler && h.l.det) ∧ Meets unmapped.state [4, 1] [4, 1] (fun h => faults unmapped.state h (h.record 1) 1 .read true false) ∧
    Meets (expecting 5 0).state [4, 1] [4, 1] (fun h => let s := (expecting 5 0).state; !h.l.det && found s h (h.record 1) 1 .read true false && readable s h (h.record 1) 1 && fresh s h &&
      h.lanes.all (fun l => s.reg h l 4 ≠ 0)) ∧
    Meets (expecting 0 0).state [4, 1] [4, 1] (fun h => let s := (expecting 0 0).state; h.lanes.all (fun l => s.reg h l 4 = 0) && h.frag.wait == .access && h.frag.mode == .user &&
      (match decode (s.wordAt h h.frag.pc false) with | .ok i => decide (i = .wne 4 1 1 .core) | .error _ => false) && decide (s.now h < h.frag.t0 + s.sliceCycles h.core)) ∧
    Meets (expecting 0 10000000).state [4, 1] [4, 1] (fun h => let s := (expecting 0 10000000).state; decide (h.frag.t0 + s.sliceCycles h.core ≤ s.now h)) :=
  ⟨meets_of (by decide +kernel), meets_of (by decide +kernel), meets_of (by decide +kernel), meets_of (by decide +kernel), meets_of (by decide +kernel)⟩
/-- Lane 0 has read, strongly, a release by which it may come after a write of another thread. -/
def released : Scene :=
  { dram with
    thread := fun t => { t with reads := [{ num := 7, thread := 4000, core := 0, part := 0, scope := .dev }] }
    more := fun s => { mapped s with writes := [(1, { agent := .thread 4000, known := [.sync 7], seen := [], rel := [], fars := [], rmw := false })] } }
theorem witness_FencesPerformStores : (∃ h, det.state.here = some h ∧ h.l.det = true) ∧ Meets dram.state [] [] (fun h => !h.l.det && decide (dram.state.sbuf = []) && decide (dram.state.reserveStart ≤ dram.state.mm 128 64)) ∧
    Meets released.state [] [] (fun h => !h.l.det && h.lanes.any (fun m => (released.state.thread (h.tk m)).reads.any (fun t => h.matches .dev t && released.state.writes.any (fun x => x.2.known.contains (.sync t.num))))) := by
  refine ⟨⟨_, rfl, ?_⟩, meets_of ?_, meets_of ?_⟩ <;> decide +kernel

/-! ### Code segments, copies, matrix -/

/-- A scene of one code-table entry at virtual address 0 with mapped memory; `n` loads of slot 0 under way. -/
def coded (e : Nat) (n : Nat) (c : Word) : Scene :=
  { regs := [(0, 1, c)].filter (fun p => p.2.2 ≠ 0)
    more := fun s => ((mapped s).setDramBytes 0 0x20000 (bytesOf e 16)).modCore 0 (fun k =>
      { k with loads := List.replicate n { slot := 0, launch := 0, seg := 0, store := 3, entry := BitVec.ofNat 128 e, begun := true, report := true, code := 0 } }) }
/-- Two words at virtual address 0x100, for store segment 3, without sections. -/
def goodEntry : Nat := 0x100 + 2 ^ 64 * 3 + 2 ^ 96 * 2
/-- The launch holds the entry, and the store segment is in this state. -/
def taggedAs (st : SegState) (e : Nat) : Scene :=
  { launch := fun l => { l with segs := [(0, BitVec.ofNat 128 e)] }, more := fun s => { s with itags := [(3, { state := st, part := 0, va := 0x100, sects := [] })] } }
theorem witness_CodeSegmentLoads :
    Meets (coded goodEntry 0 1).state [1] [1] (fun h => !h.handler && decide (h.l.codeCount < ((coded goodEntry 0 1).state.uniform h 1).toNat)) ∧
    Meets (coded goodEntry 4 0).state [1] [1] (fun h => decide (4 ≤ ((((coded goodEntry 4 0).state.core h.core).loads).filter (fun x => x.slot = h.slot)).length)) ∧
    Meets (coded goodEntry 0 0).state [4, 1] [1] (fun h => let s := (coded goodEntry 0 0).state; decide ((s.core h.core).loads = []) && decide (((s.uniform h 1).toNat) ≤ h.l.codeCount) &&
      (match (s.flushCore h.core).readVirtual (deviceAt h.core h.l.part) 0 16 .read with | .ok v => decide (v = goodEntry) && !badEntry (BitVec.ofNat 128 v) && !((s.tag 3).isFor h.l.part (BitVec.ofNat 128 v)) | .error _ => false)) ∧
    Meets (coded 0 0 0).state [1] [1] (fun h => (match (coded 0 0 0).state.readVirtual (deviceAt h.core h.l.part) 0 16 .read with | .ok v => badEntry (BitVec.ofNat 128 v) | .error _ => false)) ∧
    Meets deep.state [3] [3] (fun h => (match deep.state.readVirtual (deviceAt h.core h.l.part) 0 16 .read with | .error _ => true | .ok _ => false)) ∧
    Meets (taggedAs .loading goodEntry).state [4, 3] [3] (fun h => decide (find h.l.segs 0 = some (BitVec.ofNat 128 goodEntry)) && decide (((taggedAs .loading goodEntry).state.tag 3).state = .loading)) ∧
    Meets (taggedAs .loaded goodEntry).state [4, 3] [3] (fun _ => decide (((taggedAs .loaded goodEntry).state.tag 3).state ≠ .loading) && !badEntry (BitVec.ofNat 128 goodEntry)) ∧
    Meets (taggedAs .empty 0).state [4, 3] [3] (fun h => (find h.l.segs 0).any badEntry) ∧
    (let s := (coded goodEntry 1 0).state
     (s.core 0).loads.all (fun x => x.store = 3 && x.report && x.begun && (s.group (gkOf 0 x.slot)).any (fun g => g.held6 = [] && (g.queue 6).length < 32) &&
      (match s.codeWords (deviceAt 0 0) (entryVa x.entry).toNat (entryWords x.entry) with | .ok ws => decide (ws = [0, 0]) | .error _ => false)) = true ∧
     (s.core 0).loads.length = 1 ∧ badSects [] = false) := by
  refine ⟨meets_of ?_, meets_of ?_, meets_of ?_, meets_of ?_, meets_of ?_, meets_of ?_, meets_of ?_, meets_of ?_, ?_⟩ <;> decide +kernel
/-- Another image than the one asked for is loading into the store segment: the `cfetch` waits; and words that changes of the store replaced. -/
def otherImage : Scene :=
  { coded goodEntry 0 0 with more := fun s => { ((coded goodEntry 0 0).more s).modCore 0 (fun k =>
      { k with loads := [{ slot := 0, launch := 0, seg := 2, store := 3, entry := BitVec.ofNat 128 (goodEntry + 0x1000), begun := true, report := false, code := 0 }] }) with
        iold := [(32768 * 0 + 1024 * 3 + 16, [(4, 77)])] } }
theorem witness_SegmentsThatOthersLoad :
    Meets otherImage.state [1] [1] (fun h => let s := otherImage.state; decide (((s.core h.core).loads.filter (fun x => x.slot = h.slot)).length + h.g.held6.length < 4) &&
      (match (s.flushCore h.core).readVirtual (deviceAt h.core h.l.part) (h.l.field 64 64 + 16 * 0) 16 .read with
      | .ok v => (s.core h.core).loads.any (fun y => y.store = entryStore (BitVec.ofNat 128 v) && entryVa y.entry ≠ entryVa (BitVec.ofNat 128 v)) | .error _ => false)) ∧
    Meets { deep with group := fun g => { g with held6 := List.replicate 4 [(0, 1)] } : Scene }.state [1] [1] (fun h => decide (4 ≤ h.g.held6.length)) ∧
    (let s := { (taggedAs .loaded goodEntry).state with iold := [(32768 * 0 + 1024 * 3 + 16, [(4, 77)])] }
     find (s.launch 0).segs 0 = some (BitVec.ofNat 128 goodEntry) ∧ (s.tag 3).part = (s.launch 0).part ∧ (s.tag 3).va = entryVa (BitVec.ofNat 128 goodEntry) ∧ (s.tag 3).state = .loaded ∧
     getD [] s.iold (1024 * 3 + 16) ≠ [] ∧ (∃ p ∈ getD [] s.iold (1024 * 3 + 16), 3 ≤ p.1)) ∧
    (let s := (taggedAs .loading goodEntry).state; (s.tag 3).state = .loading) ∧
    (let s := (taggedAs .empty goodEntry).state; (s.tag 3).state = .empty ∧ (s.core 0).loads = [] ∧ badEntry (BitVec.ofNat 128 goodEntry) = false ∧ badEntry (0 : BitVec 128) = true ∧ 0 ∉ (s.launch 0).badSegs) := by
  refine ⟨meets_of ?_, meets_of ?_, ?_, ?_, ?_⟩ <;> decide +kernel
/-- A load that could not read its entry, and one whose entry is bad, alone in their core. -/
theorem witness_LoadsThatFail :
    ∀ p ∈ [((32 : Nat), (1 : Nat), true), (3, 0, true), (3, 0, false)], ∀ e ∈ [(0 : Nat), goodEntry],
      let x : Load := { slot := 0, launch := 0, seg := 0, store := p.1, entry := BitVec.ofNat 128 e, begun := p.2.2, report := true, code := p.2.1 }
      let s := (Scene.state {}).modCore 0 (fun k => { k with loads := [x] })
      (s.core 0).loads = [x] ∧ (s.group (gkOf 0 x.slot)).any (fun g => g.held6 = [] && (g.queue 6).length < 32) = true := by decide +kernel

/-- A copy operation of one row, started or not, with one job. -/
def copyOp (started : Bool) (num : Word) (fin : Option OpEnd) : CopyOp :=
  { CopyOp.start 0 1 2 true 1 with started := started, num := num, jobs := [{ wave := 0, lane := 0, x := 0, y := 0 }], fin := fin }
/-- Copies of the group; through records of the scratchpad. -/
def copying (os : List CopyOp) (cfg : Option (List Word)) : Scene := { pad with group := fun g => { g with shape := shapeOf 0 64 17 8 0, copies := os, copyNum := 5, cfg := cfg }, regs := [(0, 1, 1)] }
theorem witness_CopyInstructionsJoin :
    Meets (Scene.state { det with group := fun g => { g with shape := shapeOf 0 64 17 8 0 } }) [4, BitVec.ofNat 7 ((4 : Reg).toNat + 1)] [] (fun h => h.l.det && copyDetBad h.g 0 1 2 false && !copyDetBad h.g 0 1 1 false) ∧
    Meets (copying [] none).state [4, BitVec.ofNat 7 ((4 : Reg).toNat + 1)] [] (fun h => !h.handler && !h.l.det && decide (h.g.cfg = none) && !h.w.rfOpen && decide (h.g.copies.length < 8)) ∧
    Meets (copying (List.replicate 8 (copyOp true 5 none)) none).state [4, BitVec.ofNat 7 ((4 : Reg).toNat + 1)] [] (fun h => decide (8 < h.g.copies.length + 1)) ∧
    Meets (copying [{ CopyOp.start 1 1 2 false 1 with joined := [(1, 1)] }] none).state [4, BitVec.ofNat 7 ((4 : Reg).toNat + 1)] [] (fun h => h.lanes.any (fun l => h.g.copies.any (fun o => !o.solo && !o.started &&
      decide (o.k = ((copying [] none).state.thread (h.tk l)).copyCount + 1) && decide (o.fn ≠ 0)))) :=
  ⟨meets_of (by decide +kernel), meets_of (by decide +kernel), meets_of (by decide +kernel), meets_of (by decide +kernel)⟩
/-- Operations outstanding or not; a publish record that is refused, and an entry that is good. -/
def publishing (os : List CopyOp) : Scene :=
  { group := fun g => { g with shape := shapeOf 0 64 17 0 1, copies := os, copyNum := 5 }
    more := fun s => tables (1 + 2 ^ 496 + (s.reserveStart + 0x3000) * 2 ^ 576) s }
theorem witness_CopyWaitsAndPublication :
    Meets (copying [copyOp true 5 none, copyOp true 6 none] none).state [4, 1] [1] (fun h => !h.handler && decide (((copying [copyOp true 5 none, copyOp true 6 none] none).state.uniform h 1).toNat < h.g.copies.length) && decide (h.g.suspCopy = none)) ∧
    Meets (copying [copyOp true 5 none] none).state [4, 1] [1] (fun h => decide (h.g.copies.length ≤ ((copying [copyOp true 5 none] none).state.uniform h 1).toNat)) ∧
    Meets det.state [4] [] (fun h => h.l.det) ∧ Meets pad.state [4] [] (fun h => !h.l.det && decide ((h.g.shapeRec 1).publish = 0)) ∧
    Meets (publishing [copyOp true 5 none]).state [4] [] (fun h => !(publishing [copyOp true 5 none]).state.refused h.l.part (h.g.shapeRec 1) && decide ((h.g.shapeRec 1).publish ≠ 0) && decide (h.frag.wait = .none) &&
      h.g.copies.any (fun o => o.started && decide (o.num.toNat ≤ h.g.copyNum.toNat))) ∧
    Meets (publishing [copyOp false 0 none]).state [4] [] (fun h => !(publishing [copyOp false 0 none]).state.refused h.l.part (h.g.shapeRec 1) && h.g.copies.all (fun o => !o.started)) :=
  ⟨meets_of (by decide +kernel), meets_of (by decide +kernel), meets_of (by decide +kernel), meets_of (by decide +kernel), meets_of (by decide +kernel), meets_of (by decide +kernel)⟩
/-- A `publish` that waits, for an operation or no more; an entry of its record with a reserved bit. -/
def republishing (os : List CopyOp) : Scene := { publishing os with frag := fun f => { f with wait := .retry, t0 := 5, kept := some (wordRec 0 64 0 1, []) } }
theorem witness_PublicationsThatWait :
    Meets (republishing [copyOp true 5 none]).state [4] [] (fun h => !h.l.det && h.frag.kept.isSome && decide (h.frag.wait = .retry) && h.g.copies.any (fun o => o.started && decide (o.num.toNat ≤ h.frag.t0))) ∧
    Meets (republishing []).state [4] [] (fun h => h.frag.kept.isSome && h.g.copies.all (fun o => !o.started)) ∧ ((published 2).pubEntry 0 1).extractLsb' 193 31 ≠ 0 ∧
    ((publishing []).state.pubEntry 0 (wordRec 0 64 0 1).publish).extractLsb' 193 31 = 0 :=
  ⟨meets_of (by decide +kernel), meets_of (by decide +kernel), by decide +kernel, by decide +kernel⟩
/-- A state whose group has these operations, and whose copy engine holds the three quanta of a row of words. -/
def engine (os : List CopyOp) (beats : Nat) : State :=
  ((Scene.state { pad with group := fun g => { g with shape := shapeOf 0 64 17 8 0, copies := os, queues := if beats = 0 then [] else [(2, List.replicate beats [(0, 1)])] } }).modCluster 0 (fun c => { c with held := [{ core := 0, who := .copy, amount := 3, arrived := 0 }] }))
/-- The record of the scratchpad words from 0 or 256 on. -/
def rowOp : CopyOp := { copyOp true 5 none with src := wordRec 0 64 8 0, dst := wordRec 256 64 8 0 }
/-- An operation that starts, one without current, one that has ended with room for its beat and without, one that is suspended; rows of the scratchpad. -/
theorem witness_CopyOperationsRunAndEnd :
    ((engine [copyOp true 5 none] 0).group 0).any (fun g => g.copies = [copyOp true 5 none] && !g.frozen) = true ∧ (copyOp true 5 none).job < (copyOp true 5 none).jobs.length ∧
    (((engine [copyOp true 5 none] 0).cluster 0).held.any (fun x => x.core = 0 && x.who = .copy && x.amount = 3)) = true ∧ (copyOp true 5 none).stall = false ∧ (copyOp true 5 none).susp = none ∧ ((copying [copyOp true 5 none] none).state.cluster 0).held = [] ∧
    ((engine [copyOp true 5 (some { status := 1, done := 0, step := 1, addr := 64 })] 31).group 0).any (fun g => (g.queue 2).length < 32 && g.copies.all (fun o => o.started && o.fin.isSome && o.stream = [])) = true ∧
    ((engine [copyOp true 5 (some { status := 1, done := 0, step := 1, addr := 64 })] 32).group 0).any (fun g => 32 ≤ (g.queue 2).length) = true ∧
    ((engine [copyOp false 5 none] 0).group 0).any (fun g => g.copies.all (fun o => !o.started)) = true ∧
    (let s := pad.state
     (∀ g ∈ s.groups, s.pairing (me true) g.2 rowOp = 0) ∧ rowOp.toFifo = false ∧ rowOp.sparse = false ∧ rowOp.src.fmt = 17 ∧ rowOp.dst.fmt = 17 ∧ rowOp.src.rowlen = 16 ∧
     (∀ n < rowOp.src.rowlen, (match s.readUnit (me true) rowOp.src 0 n 4 with | .ok v => decide (v < 2 ^ 32) | .error _ => false) = true) ∧
     (match writeUnits (me true) rowOp 0 (List.replicate 16 0) 0 s rowOp.granules with | .ok _ => true | .error _ => false) = true ∧
     (match s.locateAt (me true) rowOp.dst 0 3 4 .write with | .ok (some ls) => !s.raced (me true) ls | _ => false) = true) := by decide +kernel
/-- A copy engine's write to four bytes of a scratchpad, with a write of a thread that it need not have seen and without one; the device's own write. -/
theorem witness_EngineWrites :
    let who := { me true with agent := .copy 0 5 }
    let ls := (List.range 4).map (fun k => Loc.chip 0 (4 + k))
    who.races ls = true ∧ (∀ x ∈ ls, x.isPad = true) ∧ ls.Nodup ∧ racy.state.raced who ls = true ∧ pad.state.raced who ls = false ∧ (me true).races ls = false := by decide +kernel
/-- The bursts of a job: an index that reads and one that does not, a row that reads and one that does not, a row of which 512 bytes are left or
more; a stream that holds a beat. -/
theorem witness_BurstsOfACopy :
    let s := pad.state
    let gather := { rowOp with fn := 1, idx := wordRec 0 64 8 0 }
    let j : Job := { wave := 0, lane := 0, x := 0, y := 0 }
    let buf : RowBuf := { row := 0, unit := 0, units := List.replicate 16 0, off := 0, scales := [], bytes := [], passed := 0, grs := [], ev := [] }
    gather.fn ≠ 0 ∧ gather.step ≠ 2 ∧ gather.buf = none ∧ gather.jobs[gather.job]? = some j ∧ (s.indexWord (me true) gather.idx 0 matches .ok _) = true ∧
    (s.indexWord (me true) gather.idx 16 matches .error _) = true ∧
    (∀ ls ∈ s.indexReads (me true) gather.idx 0 ++ s.jobReads (me true) rowOp 0, s.lacks (me true) ls = false) ∧
    (∀ g ∈ s.groups, (s.readJob (me true) g.2 rowOp 0 0 matches .ok _) = true ∧ (s.readJob (me true) g.2 rowOp 1 0 matches .error _) = true) ∧
    { rowOp with buf := some buf }.buf = some buf ∧ min buf.units.length (512 / unitSize rowOp.dst.fmt) = 16 ∧ min (List.replicate 256 0).length (512 / unitSize rowOp.dst.fmt) < 256 ∧
    { rowOp with b := 32, stream := List.replicate 128 0 }.toFifo = true ∧ 128 ≤ { rowOp with b := 32, stream := List.replicate 128 0 }.stream.length := by decide +kernel

/-- A configuration of one tile of 16 by 16 at base 0 (R215); formats A and B, the pair field, in word 0. -/
def cfg (w0 : Nat) : List Word := [wd w0, 0x11, 0, 0, 0]
theorem test_tile_of_the_configuration : badCfg (cfg 0x1111) = false ∧ tileM (descOf (cfg 0x1111) 0) = 16 ∧ present (descOf (cfg 0x1111) 1) = false := by decide +kernel
/-- A group with that configuration, `n` operations outstanding, and the licence or not. -/
def matrix (w0 n : Nat) (held : Bool) (k : Word) : Scene :=
  { group := fun g => { g with cfg := some (cfg w0) }, regs := [(0, 1, k)].filter (fun p => p.2.2 ≠ 0)
    more := fun s => { s.modCore 0 (fun c => { c with holder := some 0, ops := List.replicate n { MatOp.start .zero 0 1 (.mzero 1) with mask := 1 } }) with lics := if held then [(0, { holder := some 0, waiting := [], revoked := [] })] else [] } }
/-- The same registers hold a configuration to make, in registers 1 to 5. -/
def making (w0 w1 : Nat) (holder : Option Nat) (det : Bool) : Scene :=
  { regs := [(0, 1, wd w0), (0, 2, wd w1)].filter (fun p => p.2.2 ≠ 0), launch := fun l => { l with raw := if det then 2 ^ 156 else 0 }, more := fun s => s.modCore 0 (fun c => { c with holder := holder }) }
/-- The words that the scene's registers 1 to 5 hold. -/
def words (s : State) (h : Here) : List Word := (List.range 5).map (fun j => s.uniform h (BitVec.ofNat 7 (1 + j)))
/-- Free, held by another slot, paired under det, busy, bad and good configurations; tiles that are present and absent; outstanding operations 0 to 4; every
selector of `mstat`. -/
theorem witness_MatrixConfiguration :
    Meets (making 0x1111 0x11 none false).state ((List.range 5).map (fun j => BitVec.ofNat 7 (1 + j))) [] (fun h => let s := (making 0x1111 0x11 none false).state
      !h.handler && !h.l.det && !badCfg (words s h) && decide (h.g.cfg = none) && decide (h.g.copies = []) && decide ((s.core h.core).q0 = []) && decide ((s.core h.core).q1 = []) && decide ((s.core h.core).holder = none)) ∧
    Meets (making 0x1111 0x11 (some 3) false).state ((List.range 5).map (fun j => BitVec.ofNat 7 (1 + j))) [] (fun h => decide (((making 0x1111 0x11 (some 3) false).state.core h.core).holder ≠ some h.slot)) ∧
    Meets (making 0x11111 0x11 none true).state ((List.range 5).map (fun j => BitVec.ofNat 7 (1 + j))) [] (fun h => h.l.det && decide (cfgPair (words (making 0x11111 0x11 none true).state h) ≠ 0)) ∧
    Meets (making 0x1111 0 none false).state ((List.range 5).map (fun j => BitVec.ofNat 7 (1 + j))) [] (fun h => badCfg (words (making 0x1111 0 none false).state h)) ∧
    Meets (matrix 0x1111 1 true 0).state ((List.range 5).map (fun j => BitVec.ofNat 7 (1 + j))) [] (fun h => decide (h.g.cfg ≠ none) && decide (((matrix 0x1111 1 true 0).state.core h.core).holder = some h.slot) &&
      decide (0 < (((matrix 0x1111 1 true 0).state.core h.core).ops.filter (fun o => o.slot = h.slot)).length)) ∧
    Meets (matrix 0x1111 3 true 3).state [4, 1] [1] (fun h => let s := (matrix 0x1111 3 true 3).state; decide (h.g.cfg = some (cfg 0x1111)) && decide ((((s.core h.core).ops.filter (fun o => o.slot = h.slot)).length) = 3) && decide ((s.uniform h 1) = 3)) ∧
    Meets (matrix 0x1111 4 true 3).state [4, 1] [1] (fun h => let s := (matrix 0x1111 4 true 3).state; decide (4 ≤ ((s.core h.core).ops.filter (fun o => o.slot = h.slot)).length)) ∧
    (∃ t < 4, (2#4).getLsbD t = true ∧ (descOf (cfg 0x1111) t).extractLsb' 0 4 = 0) ∧ (¬∃ t < 4, (1#4).getLsbD t = true ∧ (descOf (cfg 0x1111) t).extractLsb' 0 4 = 0) ∧
    Meets deep.state [15] [] (fun h => decide (h.g.cfg = none)) := by
  refine ⟨meets_of ?_, meets_of ?_, meets_of ?_, meets_of ?_, meets_of ?_, meets_of ?_, meets_of ?_, ?_, ?_, meets_of ?_⟩ <;> decide +kernel
/-- A paired scene: the follower is slot 2 of core 1, with the pair field 2, its own licence and `n` operations outstanding. -/
def paired (n : Nat) : Scene :=
  { matrix 0x11111 0 true 64 with
    more := fun s => ((((matrix 0x11111 0 true 64).more s).setGroup 18 { s.newGroup 0 placedLaunch 1 1 0 0 with cfg := some (cfg 0x21111) }).modCore 1 (fun c =>
      { c with holder := some 2, ops := List.replicate n (MatOp.start .mma 2 1 .nop) })).setLicence 1 { holder := some 18, waiting := [], revoked := [] } }
/-- Drains to slot 1 with register 1 as their list; the tile that is present and the one that is absent. -/
theorem witness_MatrixOperationsIssue :
    Meets det.state [1] [1] (fun h => h.l.det && !h.handler && decide (h.slot < 16)) ∧
    Meets (matrix 0x1111 0 false 16).state [1] [1] (fun h => let s := (matrix 0x1111 0 false 16).state; decide ((s.licence (pairOf h.core)).holder ≠ some h.gk) && decide (h.gk ∉ (s.licence (pairOf h.core)).revoked)) ∧
    Meets (Scene.state { matrix 0x1111 0 false 16 with more := fun s => { s with lics := [(0, { holder := none, waiting := [(0, 0)], revoked := [0] })] } }) [1] [1] (fun h =>
      decide (h.gk ∈ ((Scene.state { matrix 0x1111 0 false 16 with more := fun s => { s with lics := [(0, { holder := none, waiting := [(0, 0)], revoked := [0] })] } }).licence (pairOf h.core)).revoked)) ∧
    Meets (Scene.state { matrix 0x1111 0 true 16 with group := id }) [1] [1] (fun h => decide (h.g.cfg = none)) ∧
    Meets (matrix 0x1111 3 true 16).state [1] [1] (fun h => let s := (matrix 0x1111 3 true 16).state; decide (s.uniform h 1 = 16) && decide ((s.licence (pairOf h.core)).holder = some h.gk) &&
      decide ((descOf (cfg 0x1111) 0).extractLsb' 0 4 ≠ 0) && !fmtScaled (cfgFmtA (cfg 0x1111)) && decide (cfgFmtA (cfg 0x1111) = 17) && decide (cfgFmtB (cfg 0x1111) = 17)) ∧
    Meets (matrix 0x1111 4 true 65536).state [1] [1] (fun h => decide ((matrix 0x1111 4 true 65536).state.uniform h 1 = 65536)) ∧ Meets (matrix 0x1111 0 true 17).state [1] [1] (fun _ => true) ∧
    Meets (paired 0).state [1] [1] (fun h => let s := (paired 0).state; !s.pairFails h (cfg 0x11111) 0 false 64 && decide ((s.follower h.core).isSome = true)) ∧
    Meets (paired 4).state [1] [1] (fun h => let s := (paired 4).state; !s.pairFails h (cfg 0x11111) 0 false 64 && decide (4 ≤ ((s.core (neighbour h.core)).ops.filter (fun o => o.slot = 2)).length)) ∧
    Meets (matrix 0x11111 0 true 64).state [1] [1] (fun h => (matrix 0x11111 0 true 64).state.pairFails h (cfg 0x11111) 0 false 64) ∧
    Meets (matrix 0x1111 3 true 0).state ((List.range 4).map (fun j => BitVec.ofNat 7 ((1 : Reg).toNat + j))) [] (fun h => decide (h.g.cfg = some (cfg 0x1111)) && !intFamily (cfgFmtA (cfg 0x1111))) ∧
    Meets (Scene.state { det with group := fun g => { g with shape := shapeOf 0x100000 64 17 4 0 } }) ((List.range 4).map (fun j => BitVec.ofNat 7 ((1 : Reg).toNat + j))) [] (fun h => h.l.det && (h.g.shapeRec 1).detBad false) := by
  refine ⟨meets_of ?_, meets_of ?_, meets_of ?_, meets_of ?_, meets_of ?_, meets_of ?_, meets_of ?_, meets_of ?_, meets_of ?_, meets_of ?_, meets_of ?_, meets_of ?_⟩ <;> decide +kernel

/-- A core whose array has operation `o` first, in a group with that configuration and the licence; the array holds an amount of current or none. -/
def running (o : MatOp) (power beats : Nat) : State :=
  ((Scene.state { group := fun g => { g with cfg := some (cfg 0x1111), queues := if beats = 0 then [] else [(3, List.replicate beats [(0, 1)])] }
                  more := fun s => { s.modCore 0 (fun c => { c with holder := some 0, ops := [o] }) with lics := [(0, { holder := some 0, waiting := [], revoked := [] })] } }).modCluster 0 (fun c => { c with held := if power = 0 then [] else [{ core := 0, who := .array, amount := power, arrived := 0 }] }))
/-- An `mma` of K = 16 with all its beats, with none, and after its last pass; a drain under way and ended. -/
def mma (beats g : Nat) : MatOp := { MatOp.start .mma 0 1 .nop with k := 16, g := g, abeats := List.replicate beats [], bbeats := List.replicate beats [] }
theorem witness_MatrixOperationsRunAndEnd :
    (let s := running (mma 8 0) 28 0; (s.core 0).ops = [mma 8 0] ∧ s.arrayRuns 0 0 = true ∧ s.licensed 0 = true ∧ s.mmaLicensed 0 (mma 8 0) = true ∧
      s.poweredFor 0 .array (s.workOf 0 (mma 8 0)).quanta = true ∧ (s.feed 0 (mma 8 0)).2.fed (s.workOf 0 (mma 8 0)) = true) ∧
    (let s := running (mma 7 0) 28 0; (s.feed 0 (mma 7 0)).2.fed ((s.feed 0 (mma 7 0)).1.workOf 0 (s.feed 0 (mma 7 0)).2) = false) ∧ (mma 8 1).peer = none ∧ (mma 8 1).k ≤ 16 * (mma 8 1).g ∧
    (let o := { MatOp.start .drain 0 1 .nop with fin := some { status := 0, done := 256, step := 0, addr := 0 } }
     ((running o 6 31).group 0).any (fun g => (g.queue 3).length < 32) = true ∧ ((running o 6 32).group 0).any (fun g => 32 ≤ (g.queue 3).length) = true ∧ (running o 6 0).arrayRuns 0 o.slot = true) ∧
    (MatOp.start .drain 0 1 .nop).fin = none ∧ (running (MatOp.start .zero 0 1 .nop) 2 0).poweredFor 0 .array 2 = true ∧ (running (MatOp.start .drain 0 1 .nop) 6 0).poweredFor 0 .array 6 = true ∧
    (running (MatOp.start .zero 0 1 .nop) 0 0).poweredFor 0 .array 2 = false := by decide +kernel
/-- A pair whose passes are over, the leader in core 0, and one whose follower has passes to run; the first row of a drain and its last; units of
the scratchpad and of device memory. -/
theorem witness_PairsAndDrains :
    let lead := { mma 0 1 with peer := some 1, lead := true }
    let after := fun (g : Nat) => { mma 0 g with peer := some 0, lead := false, slot := 2 }
    (∀ g ∈ [0, 1], let s := (running lead 28 0).modCore 1 (fun c => { c with ops := [after g] })
      (s.core 1).ops = [after g] ∧ s.arrayRuns 0 0 = true ∧ lead.k ≤ 16 * lead.g ∧ (decide ((after g).k ≤ 16 * (after g).g) = (g == 1))) ∧
    (let o := { MatOp.start .drain 0 1 .nop with dst := wordRec 0 1024 8 0 }
     let s := running o 6 0
     (∀ g ∈ s.groups, ((s.stepDrain 0 o g.2 (cfg 0x1111)).2.fin) = none ∧ ((s.stepDrain 0 { o with row := 15 } g.2 (cfg 0x1111)).2.fin).isSome = true)) ∧
    (match pad.state.locateAt (me true) (wordRec 0 64 8 0) 0 3 4 .write with | .ok (some ls) => ls.all Loc.isPad | _ => false) = true ∧
    (match dram.state.locateAt (me true) (wordRec 0 64 0 0) 0 3 4 .write with | .ok (some ls) => !ls.all Loc.isPad | _ => false) = true := by decide +kernel

/-- A licence as it stands: holder, waiting groups; operations of the slot; the launch's twin group beside it or saved. -/
def licensed (holder : Option Nat) (waiting : List Nat) (o : Option MatOp) : Scene :=
  { more := fun s => { s.modCore 0 (fun c => { c with ops := o.toList }) with lics := [(0, { holder := holder, waiting := waiting.map (·, 0), revoked := [] })] }, regs := [(0, 1, 9)] }
/-- The twin group saved. -/
def away : Scene := { group := fun g => { g with twin := some 1 }, more := fun s => { s with saves := [(s.reserveStart + 0x4000, { gen := 1, home := 2048, group := { s.newGroup 0 placedLaunch 1 128 1 0 with gid := 1 }, waves := [], threads := [], ops := [] })] } }
theorem witness_LicencesAndTheTwinWindow :
    Meets (licensed (some 0) [] none).state [4] [] (fun h => decide (((licensed (some 0) [] none).state.licence (pairOf h.core)).holder = some h.gk)) ∧
    Meets (licensed none [] none).state [4] [] (fun h => decide (((licensed none [] none).state.licence (pairOf h.core)).holder = none)) ∧
    Meets (licensed none [7] none).state [] [] (fun h => decide (((licensed none [7] none).state.licence (pairOf h.core)).waiting ≠ [])) ∧
    Meets (licensed (some 7) [0] none).state [4] [] (fun h => decide (((licensed (some 7) [0] none).state.licence (pairOf h.core)).holder ≠ some h.gk)) ∧
    Meets (licensed (some 0) [] (some (mma 0 0))).state [] [] (fun h => ((licensed (some 0) [] (some (mma 0 0))).state.core h.core).ops.any (fun o => o.slot = h.slot && o.kind = .mma)) ∧
    Meets det.state [4] [] (fun h => h.l.det) ∧ Meets deep.state [4, 1] [1] (fun h => !h.l.det && deep.state.twinState h == .missing) ∧ Meets away.state [4, 1] [1] (fun h => away.state.twinState h == .away) ∧
    Meets (twins deep).state [4, 1] [1] (fun h => let s := (twins deep).state; s.twinState h == .here && h.lanes.all (fun l => (s.thread (h.twinTk l)).wbase + (15#7).toNat < h.R) && h.lanes.any (fun l => h.R ≤ (s.thread (h.twinTk l)).wbase + (116#7).toNat)) := by
  refine ⟨meets_of ?_, meets_of ?_, meets_of ?_, meets_of ?_, meets_of ?_, meets_of ?_, meets_of ?_, meets_of ?_, meets_of ?_⟩ <;> decide +kernel

/-- A launch of two groups at level 2, and the calls of its groups. -/
def collective (cs ds : List Call) : Scene :=
  { launch := fun l => { l with raw := BitVec.ofNat 2048 (2 ^ 168 + 2 ^ 928 * 2), segs := [(0, 0)] }, group := fun g => { g with calls := cs }
    more := fun s => s.setGroup 16 { s.newGroup 0 placedLaunch 1 1 0 0 with calls := ds, gid := 1 } }
/-- A call of a barrier or of an all-reduce, made. -/
def call (fn : Nat) (d : Reg) (made : Bool) (beat : Option Beat) : Call := { Call.start 2 1 fn d 0 0 with made := made, beat := beat }
/-- What the groups of the unit have done, in order. -/
def unitMade (s : State) : List Made := (List.range ((s.launch 0).unitSize 2)).map (fun r => s.madeBy 0 (0 * (s.launch 0).unitSize 2 + r) r 2 1)
/-- Licences that are to be granted, held or asked for by none. -/
theorem witness_LicenceGrants :
    ∀ p ∈ [((none : Option Nat), [7]), (some 7, [0]), (none, [])], ((licensed p.1 p.2 none).state.licence 0).holder = p.1 ∧ ((licensed p.1 p.2 none).state.licence 0).waiting = p.2.map (·, 0) := by decide +kernel
/-- A call of group 0 that is suspended, alone and behind one of another level. -/
def suspendedCall (told : Option (Nat × Mask)) : Call := { call 4 0x10 true none with susp := some { cause := 2, va := 64, acc := 1, told := told } }
/-- The calls of a group that a suspended call holds up, themselves among them. -/
def delayedCalls (g : Group) : Nat :=
  ((List.range g.calls.length).filter (fun i => (g.calls.take (i + 1)).any (fun y => y.susp.isSome && (g.calls[i]?).map (·.level) = some y.level))).length
/-- Calls whose end the suspended one delays, and one whose end it does not; data collectives with units still to write, fewer than a burst and more, with
and without current. -/
theorem witness_SuspendedAndDataCalls :
    Meets (collective [suspendedCall none] []).state [4, 3] [3] (fun h => h.g.suspCall.isSome && decide (((collective [suspendedCall none] []).state.uniform h 3).toNat < delayedCalls h.g)) ∧
    Meets (collective [{ call 3 0x10 false none with level := 3 }, suspendedCall none] []).state [4, 1] [1] (fun h => decide (1 < h.g.calls.length) && h.g.suspCall.isSome && decide (delayedCalls h.g ≤ 1)) ∧
    (∀ ws ∈ [([] : List (List Loc × Nat)), List.replicate 200 ([Loc.chip 0 0], 7)],
      let s := (collective [{ call 0 0x10 true none with todo := some ws, dst := wordRec 0 64 8 0 }] []).state.modCluster 0 (fun c => { c with held := [{ core := 0, who := .copy, amount := 3, arrived := 0 }] })
      (s.bursting 0 0 0 2 1).isSome = true ∧ (decide (ws.drop (512 / unitSize (wordRec 0 64 8 0).fmt) ≠ []) = decide (ws ≠ []))) ∧
    ((collective [{ call 0 0x10 true none with todo := some [([Loc.chip 0 0], 7)] }] []).state.bursting 0 0 0 2 1).isNone = true ∧
    (let s := (collective [call 0 0x10 true none] [call 0 0x10 true none]).state; (allMade (unitMade s)).any (fun ps => ps.length = 2 && !disagree ps) = true ∧ (s.bursting 0 0 0 2 1).isNone = true) := by
  refine ⟨meets_of ?_, meets_of ?_, ?_, ?_, ?_⟩ <;> decide +kernel
theorem witness_Collectives :
    Meets det.state [] [] (fun h => h.l.det && !h.handler) ∧
    Meets (collective [] []).state [1] [1] (fun h => !h.l.det && decide ((1#3).toNat + 1 ≤ h.l.levels) && !h.w.rfOpen && decide (h.g.calls = [])) ∧
    Meets deep.state [1] [1] (fun h => decide (h.l.levels < (1#3).toNat + 1)) ∧
    Meets (collective (List.replicate 4 { call 3 0x10 false none with level := 3 }) []).state [1] [1] (fun h => decide (4 < h.g.calls.length + 1)) ∧
    Meets (collective [call 3 0x10 true none] []).state [4, 3] [3] (fun h => decide (((collective [call 3 0x10 true none] []).state.uniform h 3).toNat < h.g.calls.length) && decide (h.g.suspCall = none)) ∧
    Meets (collective [] []).state [4, 3] [3] (fun h => decide (h.g.calls.length ≤ ((collective [] []).state.uniform h 3).toNat)) ∧
    (let s := (collective [call 3 0x10 true none] [call 3 0x10 true none]).state; (allMade (unitMade s)).any (fun ps => ps.length = 2 && !disagree ps) = true ∧ Made.gone ∉ unitMade s) ∧
    (let s := (collective [call 4 0x10 true none] [call 4 0x12 true none]).state; (allMade (unitMade s)).any disagree = true) ∧
    (let s := { (collective [call 3 0x10 true none] []).state with launches := [(0, { (collective [] []).state.launch 0 with dead := [1] })] }
     (allMade (unitMade s)).any (fun ps => ps.length = 1) = true ∧ Made.gone ∈ unitMade s) ∧
    Made.open ∈ unitMade (collective [call 3 0x10 true none] []).state ∧ ([1, 2] : List Word) ≠ [] ∧
    ((collective [call 3 0x10 true (some [(0, 1)])] []).state.group 0).any (fun g => (g.calls.find? (fun c => c.level = 2)).any (fun c => c.beat.isSome) && (g.queue 4).length < 32) = true ∧
    ((collective [call 3 0x10 true none] []).state.group 0).any (fun g => (g.calls.find? (fun c => c.level = 2)).any (fun c => c.beat.isNone)) = true := by
  refine ⟨meets_of ?_, meets_of ?_, meets_of ?_, meets_of ?_, meets_of ?_, meets_of ?_, ?_⟩ <;> decide +kernel

/-! ### Privilege, traps, firmware -/

/-- Firmware runs, in a core that partition 0 owns. -/
def firmware (regs : List (Nat × Nat × Word)) (more : State → State) : Scene :=
  { launch := fun l => { l with firmware := true }, regs := regs, more := fun s => more { s with owners := [(0, 0), (1, 0)] } }
theorem witness_PrivilegeAndItsRegisters :
    Meets deep.state [15] [15] (fun h => decide (h.level = 0)) ∧ Meets inHandler.state [15] [15] (fun h => decide (h.level = 1)) ∧ Meets (firmware [] id).state [15] [15] (fun h => decide (h.level = 2)) :=
  ⟨meets_of (by decide +kernel), meets_of (by decide +kernel), meets_of (by decide +kernel)⟩
/-- A handler of a trap of kind `kind` of lanes 0 and 2 at offset `off`, with number `x` in register 1 of both lanes; another handler fragment of lane 4 beside it. -/
def handling (kind : Nat) (off : Nat) (x : Word) (other : Bool) : Scene :=
  { frag := fun f => { f with mode := .handler }, thread := fun t => { t with hregs := [(1, x)].filter (fun p => p.2 ≠ 0) }
    wave := fun w => { w with tkind := kind, tseq := 1, frags := w.frags ++ if other then [{ startFrag 0 { seg := 0, off := 3 } 16 with mode := .handler }] else [], record := [(0, wd kind), (1, 5), (6, wd off), (64, wd off), (66, 0), (192, wd off), (194, 0)] } }
/-- Numbers of registers, of a block, of the header, and none; a trap that `hskip` moves past, at the last word and before, and one that it does not; the last
handler fragment of a trap and one that waits; blocks that are good and bad. -/
theorem witness_HandlersReadAndResume :
    Meets (handling 9 16 3 false).state [2, 1] [1] (fun h => h.handler && decide (((handling 9 16 3 false).state.uniform h 1).toNat = 3)) ∧
    Meets (handling 9 16 0x13F false).state [1, 2] [1, 2] (fun h => decide (((handling 9 16 0x13F false).state.uniform h 1).toNat = 0x13F)) ∧
    Meets (handling 9 16 0x200 false).state [1, 2] [1, 2] (fun h => decide (((handling 9 16 0x200 false).state.uniform h 1).toNat = 0x200)) ∧
    Meets (handling 9 16 0x80 false).state [1, 2] [1, 2] (fun h => let x := ((handling 9 16 0x80 false).state.uniform h 1).toNat; decide (x = 0x80)) ∧
    Meets (handling 15 1023 0 false).state [] [] (fun h => decide (((getD 0 h.w.record 0).extractLsb' 0 8).toNat = 15) && decide ((getD 0 h.w.record 6).extractLsb' 0 10 = 1023#10)) ∧
    Meets (handling 16 16 0 false).state [] [] (fun h => decide (15 < ((getD 0 h.w.record 0).extractLsb' 0 8).toNat)) ∧
    Meets (handling 9 16 0 true).state [] [] (fun h => h.w.frags.any (fun f => decide (f.lanes ≠ h.frag.lanes) && decide (f.mode = .handler) && decide (f.wait ≠ .hret))) ∧
    Meets (handling 9 16 0 false).state [] [] (fun h => (lanesOf (getD 0 h.w.record 1)).all (fun l => !hretFails (handling 9 16 0 false).state h h.w l) && h.w.frags.all (fun f => decide (f.mode = .user) || f.nev == 0)) ∧
    Meets (handling 9 0x40000 0 false).state [] [] (fun h => (lanesOf (getD 0 h.w.record 1)).any (fun l => hretFails (handling 9 0x40000 0 false).state h h.w l)) := by
  refine ⟨meets_of ?_, meets_of ?_, meets_of ?_, meets_of ?_, meets_of ?_, meets_of ?_, meets_of ?_, meets_of ?_, meets_of ?_⟩ <;> decide +kernel
/-- A handler whose wave has a numeric-event trap due, in a core that lets it enter. -/
def dueNext : Scene :=
  { handling 9 16 0 false with frag := fun f => { f with mode := .handler, nev := 1 }, more := fun s => s.modCore 0 (fun c => { c with hmask := 0x10000 }) }
/-- Lanes that resume where they stood, and elsewhere. -/
theorem witness_HandlersThatResume :
    Meets dueNext.state [] [] (fun h => h.w.frags.any (fun f => f.mode ≠ .user && f.nev ≠ 0) && h.w.frags.all (fun f => decide (f.lanes = h.frag.lanes)) &&
      (lanesOf (getD 0 h.w.record 1)).all (fun l => !hretFails dueNext.state h h.w l && !(dueNext.state.thread (h.tk l)).killed) && (dueNext.state.core h.core).hmask.getLsbD 16) ∧
    Meets (handling 9 16 0 false).state [] [] (fun h => (lanesOf (getD 0 h.w.record 1)).all (fun l => getD 0 h.w.record (64 + 64 * l) ≠ ((handling 9 16 0 false).state.thread (h.tk l)).stood)) ∧
    Meets (handling 9 0 0 false).state [] [] (fun h => (lanesOf (getD 0 h.w.record 1)).all (fun l => decide (getD 0 h.w.record (64 + 64 * l) = ((handling 9 0 0 false).state.thread (h.tk l)).stood))) :=
  ⟨meets_of (by decide +kernel), meets_of (by decide +kernel), meets_of (by decide +kernel)⟩
/-- A core whose masks let kind 6 enter a handler, be held, or neither. -/
def masks (m f : Word) : Scene := { more := fun s => s.modCore 0 (fun c => { c with hmask := m, hfwd := f }) }
theorem witness_TrapsAreTaken :
    Meets inHandler.state [] [] (fun h => h.handler) ∧ Meets (firmware [] id).state [] [] (fun h => h.l.firmware && !h.handler) ∧
    Meets (handling 9 16 0 true).state [] [] (fun h => h.w.frags.any (fun f => decide (f.lanes ≠ h.frag.lanes) && decide (f.mode ≠ .user))) ∧
    Meets (masks 64 0).state [] [] (fun h => !h.handler && !h.l.firmware && ((masks 64 0).state.core h.core).hmask.getLsbD 6 && h.w.frags.all (fun f => decide (f.lanes = h.frag.lanes))) ∧
    Meets (masks 0 64).state [] [] (fun h => !((masks 0 64).state.core h.core).hmask.getLsbD 6 && ((masks 0 64).state.core h.core).hfwd.getLsbD 6) ∧
    Meets (masks 0 0).state [] [] (fun h => !((masks 0 0).state.core h.core).hmask.getLsbD 6 && !((masks 0 0).state.core h.core).hfwd.getLsbD 6) := by
  refine ⟨meets_of ?_, meets_of ?_, meets_of ?_, meets_of ?_, meets_of ?_, meets_of ?_⟩ <;> decide +kernel

/-- Firmware's list in registers 1 to 4: area, generation and target slot; a second group in slot 1, of the same partition or not yet there. -/
def saving (area : Nat) (target : Word) (other : Option Group) : Scene :=
  firmware [(0, 1, wd area), (2, 1, wd area), (0, 2, wd (area / 2 ^ 32)), (2, 2, wd (area / 2 ^ 32)), (0, 3, 7), (2, 3, 7), (0, 4, target), (2, 4, target)]
    (fun s => match other with | some g => s.setGroup 1 g | none => s)
/-- A group of launch 0 in slot 1. -/
def mate : Group := State.reset.newGroup 0 placedLaunch 1 0 0 1
/-- A save area in the device reserve. -/
def area : Nat := 0x8FD0100000
/-- The list of register 1 on. -/
def list : List Reg := (8 : Reg) :: (List.range 4).map (fun j => BitVec.ofNat 7 ((1 : Reg).toNat + j))
/-- What the area's words say: sealed with generation 7. -/
def sealed (c : Scene) : Scene := { c with more := fun s => ((c.more s).setDramBytes reserveKey area [7]).setDramBytes reserveKey (area + 0x44FFC) [7] }
/-- A wave with a hang-watchdog that has run out at clock `now`, in handler mode or not; an aggregation window; a save under way. -/
def late (mode : Mode) (hang : Option Mask) (now : Nat) : State :=
  (Scene.state { frag := fun f => { f with mode := mode }, wave := fun w => { w with hang := hang, agg := some { service := 1, opened := 0, lead := 5 } }, group := fun g => { g with saving := none }
                 more := fun s => { s with clocks := [(0, now * cyclePhase)] } })
theorem witness_FirmwareAndWatchdogs :
    Meets (saving area 9 none).state list [] (fun h => decide (h.level = 2) && decide (((saving area 9 none).state.group 9) = none)) ∧
    Meets (Scene.state { saving area 1 (some mate) with more := fun s => { s with groups := insert s.groups 1 mate } }) list [] (fun h => decide (0 ≠ (Scene.state { saving area 1 (some mate) with more := fun s => { s with groups := insert s.groups 1 mate } }).owner h.core)) ∧
    Meets (saving area 1 (some mate)).state list [] (fun h => let s := (saving area 1 (some mate)).state; decide (h.l.part = s.owner h.core) && !s.saveBlocked 1 && decide (1 ≠ h.gk) && s.saveReady 1 mate &&
      decide ((s.beginSave 1 area 7).areaBad area = none) && decide (area % 4096 = 0 ∧ area + 0x45000 ≤ s.towerCount * 72 * 2 ^ 30)) ∧
    Meets (saving (area + 64) 1 (some { mate with saving := some (0, true) })).state list [] (fun h => !(saving (area + 64) 1 (some { mate with saving := some (0, true) })).state.saveBlocked 1 && decide (h.level = 2)) ∧
    Meets (saving area 1 (some { mate with held6 := [[(0, 1)]] })).state list [] (fun _ => !(saving area 1 (some { mate with held6 := [[(0, 1)]] })).state.saveReady 1 { mate with held6 := [[(0, 1)]] }) ∧
    Meets (saving area 0 none).state list [] (fun h => let s := (saving area 0 none).state; decide (0 = h.gk) && s.saveReady 0 h.g && decide (s.areaBad area = none)) ∧
    Meets (saving area 0x4000 none).state list [] (fun _ => decide (1024 ≤ 0x4000 / 16)) ∧
    Meets (saving area 2 none).state list [] (fun h => let s := (saving area 2 none).state; s.slotOpen 0 2 && decide (s.owner 0 = s.owner h.core) && decide (s.areaWord area 0 ≠ 7)) ∧
    Meets (sealed (saving area 2 none)).state list [] (fun h => let s := (sealed (saving area 2 none)).state; decide (s.areaWord area 0 = 7) && decide (s.areaWord area (0x44FFC / 4) = 7) && s.badArea area h.l.part) ∧
    Meets (firmware [(0, 1, 1), (0, 2, 2)] id).state [1, BitVec.ofNat 7 ((1 : Reg).toNat + 1), 3] [3] (fun _ => true) ∧
    Meets (firmware [(0, 1, 3)] id).state [1] [1] (fun h => let s := (firmware [(0, 1, 3)] id).state; decide (s.owner 3 = s.owner h.core) && decide ((s.licence (pairOf 3)).holder = none) && decide (s.group (gkOf h.core 3) = none)) ∧
    Meets (firmware [(0, 1, 3)] (fun s => { s with lics := [(3, { holder := some 48, waiting := [], revoked := [] })] })).state [1] [1] (fun _ => true) ∧
    Meets (firmware [(0, 1, 1024)] id).state [1] [1] (fun _ => true) ∧
    (let s := late .user none 0x40000000; ((s.core 0).hwd.toNat % 2 ^ 16 ≠ 0 ∧ (s.wave 0).away = 0 ∧ (s.wave 0).dueFirst = false ∧ (s.wave 0).frags.any (fun f => f.retired + 65536 * ((s.core 0).hwd.toNat % 2 ^ 16) ≤ s.stamp 0 0) = true)) ∧
    (let s := late .handler none 0x40000000; (s.wave 0).frags.any (fun f => f.mode = .handler && f.retired + 65536 * ((s.core 0).hwd.toNat % 2 ^ 16) ≤ s.stamp 0 0) = true) ∧ (late .user (some 5) 0).groups ≠ [] ∧
    (let s := late .user none 64; ∀ g ∈ s.groups, 0 + s.aggWindow 0 ≤ s.now (s.hereAt 0 0 g.2)) := by
  refine ⟨meets_of ?_, meets_of ?_, meets_of ?_, meets_of ?_, meets_of ?_, meets_of ?_, meets_of ?_, meets_of ?_, meets_of ?_, meets_of ?_, meets_of ?_, meets_of ?_, meets_of ?_, ?_⟩ <;> decide +kernel
/-- An area of zeros but for its generation, version and seal, known as a save of group 0: it restores. -/
def restorable : State :=
  { (Scene.state { saving area 2 none with more := fun s => (((saving area 2 none).more s).setDramBytes reserveKey area [7, 0, 0, 0, 1]).setDramBytes reserveKey (area + 0x44FFC) [7] }) with
    saves := [(area, { gen := 7, home := 1, group := { mate with gid := 0 }, waves := [], threads := [], ops := [] })] }
theorem witness_FirmwareRestores : Meets restorable list [] (fun h => decide (h.level = 2) && restorable.slotOpen 0 2 && decide (restorable.areaWord area 0 = 7 ∧ restorable.areaWord area (0x44FFC / 4) = 7) &&
    (restorable.restorable area h.l.part).isSome && !restorable.badArea area h.l.part && decide (restorable.areaBad area = none)) := meets_of (by decide +kernel)
/-- A save of the own slot that must wait for a beat, or whose watchdog has stopped it. -/
def waitingSave (stopped : Bool) : Scene :=
  { saving area 0 none with group := fun g => { g with held6 := [[(0, 1)]], saving := if stopped then some (0, true) else none } }
theorem witness_OwnSaves :
    Meets (waitingSave false).state list [] (fun h => !(waitingSave false).state.saveBlocked 0 && !h.g.frozen && decide (h.g.saving = none) && !(waitingSave false).state.saveReady 0 h.g) ∧
    Meets (waitingSave true).state list [] (fun h => !(waitingSave true).state.saveBlocked 0 && decide (h.g.saving = some (0, true))) :=
  ⟨meets_of (by decide +kernel), meets_of (by decide +kernel)⟩
/-- An area whose first, second or last line cannot be read, sealed or not. -/
def torn (line : Nat) : State :=
  let s := (sealed (saving area 2 none)).state
  { s with bad := [(area / 128 + line, 1)], tags := put 0 s.tags (area / 128 + line) reserveKey }
theorem witness_TornAreas :
    (torn 0).badFor reserveKey area = true ∧ ((torn 2207).badFor reserveKey area = false ∧ (torn 2207).badFor reserveKey (area + 0x44FFC) = true) ∧
    (torn 1).badFor reserveKey area = false ∧ (torn 1).badFor reserveKey (area + 0x44FFC) = false ∧ (torn 1).areaBad area = some (area + 128) ∧
    (torn 1).areaWord area 0 = 7 ∧ (torn 1).areaWord area (0x44FFC / 4) = 7 := by decide +kernel
/-- Firmware with its doorbell at `b`; firmware of a core whose slot 3 a chained group is to take. -/
def bell (b : Word) : Scene := firmware [] (fun s => s.modCore 0 (fun c => { c with fwbell := b }))
def heired : Scene := firmware [(0, 1, 3)] (fun s => { s with heirs := [{ launch := 0, gid := 5, core := 0, slot := 3, pred := 0, lslot := 0, shape := [] }] })
/-- Modes of `tlbinv` in register 3; a slot that waits for a chained group; doorbells; the words of a save. -/
theorem witness_FirmwareControls :
    Meets (firmware [(0, 3, 2), (2, 3, 2)] id).state [1, BitVec.ofNat 7 ((1 : Reg).toNat + 1), 3] [3] (fun h => decide (2 ≤ ((firmware [(0, 3, 2), (2, 3, 2)] id).state.uniform h 3).toNat)) ∧
    Meets (firmware [] mapped).state [1, BitVec.ofNat 7 ((1 : Reg).toNat + 1), 3] [3] (fun h => decide ((firmware [] mapped).state.part ((firmware [] mapped).state.owner h.core) 512 64 % 4096 = 0)) ∧
    Meets heired.state [1] [1] (fun h => heired.state.heirs.any (fun x => decide (x.core = h.core) && decide (x.slot = 3))) ∧
    Meets (bell 0).state [] [] (fun h => !((bell 0).state.core h.core).fwbell.getLsbD 0) ∧ Meets (bell 1).state [] [] (fun h => ((bell 1).state.core h.core).fwbell.getLsbD 0) := by
  refine ⟨meets_of ?_, meets_of ?_, meets_of ?_, meets_of ?_, meets_of ?_⟩ <;> decide +kernel
theorem chunk_below {b n : Nat} {ws : List Word} (h : b + ws.length ≤ n) : ∀ p ∈ chunk b ws, p.1 < n := by
  intro p hp
  obtain ⟨h1, -⟩ := List.of_mem_zip (List.mem_filter.mp hp).1
  obtain ⟨k, hk, hp⟩ := List.mem_map.mp h1
  have := List.mem_range.mp hk
  omega
theorem areaWords_below {s : State} {gk : Nat} {g : Group} {gen : Word} {n : Nat} (hn : 25600 ≤ n)
    (h1 : (s.headWords gk g gen).all (fun p => p.1 < n) = true) (h2 : (s.queueWords gk g).all (fun p => p.1 < n) = true) : ∀ p ∈ s.areaWords gk g gen, p.1 < n := by
  intro p hp
  simp only [State.areaWords, List.mem_append] at hp
  rcases hp with (hp | hp) | hp
  · simpa using List.all_eq_true.mp h1 p hp
  · exact chunk_below (by simpa [State.padWords] using hn) p hp
  · simpa using List.all_eq_true.mp h2 p hp
theorem area_words_inside : (((saving area 1 (some mate)).state.flushCore 0).headWords 1 mate 7).all (fun p => p.1 < 0x44FFC / 4) = true ∧
    (((saving area 1 (some mate)).state.flushCore 0).queueWords 1 mate).all (fun p => p.1 < 0x44FFC / 4) = true := by decide +kernel
/-- The words of a save of a group lie before the area's seal. -/
theorem witness_WordsOfASave : (saving area 1 (some mate)).state.group 1 = some mate ∧ area % 4096 = 0 ∧
    ∀ p ∈ ((saving area 1 (some mate)).state.flushCore 0).areaWords 1 mate 7, p.1 < 0x44FFC / 4 :=
  ⟨by decide +kernel, by decide +kernel, areaWords_below (by omega) area_words_inside.1 area_words_inside.2⟩
/-- A group that is being saved since clock 0, by firmware or to make room. -/
def underSave (evict : Bool) (now : Nat) : State := (Scene.state { group := fun g => { g with saving := some (0, false), evict := evict }, more := fun s => { s with clocks := [(0, now * cyclePhase)] } })
/-- Watchdogs that have run out and that have not; a hang that is pending, with the wave in its trap and not; an aggregation window that is open. -/
theorem witness_WatchdogsExpire :
    (∀ e ∈ [false, true], ((underSave e 0).group 0).any (fun g => g.saving = some (0, false) && g.frozen) = true ∧ (underSave e 0).clockAt 0 < 65536 * max 1 (((underSave e 0).core 0).svwd.toNat % 2 ^ 16) ∧
      65536 * max 1 (((underSave e 0x40000000).core 0).svwd.toNat % 2 ^ 16) ≤ (underSave e 0x40000000).clockAt 0) ∧
    (((late .user none 0).group 0).any (fun g => g.saving = none && !g.frozen) = true ∧ ((late .user none 0).wave 0).frags.all (fun f => (late .user none 0).stamp 0 0 < f.retired + 65536 * (((late .user none 0).core 0).hwd.toNat % 2 ^ 16)) = true) ∧
    (let s := (late .user (some 5) 0); (s.wave 0).hang = some 5 ∧ (s.wave 0).away = 0 ∧ (s.wave 0).dueFirst = false) ∧
    (let s := (late .user (some 5) 0).modWave 0 (fun w => { w with frags := w.frags.map (fun f => { f with nev := 1 }) }); (s.wave 0).hang = some 5 ∧ (s.wave 0).dueFirst = true) ∧
    (let s := late .user none 0; (s.launch 0).firmware = false ∧ (s.wave 0).frags.all (fun f => f.lanes ≠ 0) = true) ∧
    (let s := (late .user none 0).modCore 0 (fun c => { c with hagg := 64 }); ∀ g ∈ s.groups, s.now (s.hereAt 0 0 g.2) < 0 + (s.core 0).hagg.toNat % 256 ∧ (s.wave 0).frags.any (fun f => f.wait ≠ .agg) = true) := by decide +kernel

/-! ### Launches, scheduling, power, fabric, management -/

/-- Partition 0 is valid and owns the cores of unit 0. -/
def owned (s : State) : State := tables 1 { s with owners := [(0, 0)] }
/-- A group of the phase queue: a phase record ready or waiting (state 0 or 1), or a saved group (state 2). -/
def waiting (state : Nat) (target : Word) (r : Rec) : Phased :=
  { launch := 0, gid := 0, lcore := 0, lslot := 0, state := state, fault := 0, threads := [(0, { pc := { seg := 0, off := 17 }, past := false, wbase := 0, carry := [], fences := [], reads := [] })], ended := [], waves := [], slots := [], pend := [], lseq := 0,
    wrec := r, target := target, order := 0, round := 0, area := area, gen := 7 }
/-- A launch that waits in its queue beside the running one; a launch record at address 0 of the partition. -/
def queue (n : Nat) (pends : List Pend) (orphans : List (Nat × BitVec 64)) (phased : List Phased) (mapping : Bool) : State :=
  Scene.state { group := fun g => { g with pend := pends },
                more := fun s => (if mapping then mapped else owned) { s with owners := [(0, 0)], launches := s.launches ++ (List.range n).map (fun k => (k + 1, { Launch.init with segs := [(0, 0)], queued := true })), orphans := orphans, phased := phased } }
/-- A pending launch whose record stands at address 0. -/
def pending : Pend := { addr := 0, seq := 1, launch := none, beat := none }
/-- All threads of a group at the phase boundary, as the functions change it. -/
def boundary (g : Group → Group) (t : Thread → Thread) (l : Launch → Launch) (more : State → State) : State :=
  Scene.state { lanes := 0xFFFFFFFF, frag := fun f => { f with wait := .phase }, group := g, thread := fun x => t { x with atPhase := true }, launch := l, more := more }
/-- The group at the boundary meets these conditions. -/
def stands (s : State) (p : Group → Bool) : Bool := (s.group (gkOf 0 0)).any (fun g => !g.frozen && s.allIn 0 1 (·.atPhase) && p g)

/-- A pending launch: a full queue, a record that cannot be read, one that can (its first and last byte are shown), and none; an orphan and none. -/
theorem witness_LaunchesStartAndEnd_accept :
    ((queue 256 [] [] [] false).queueLen 0 = 256 ∧ (queue 255 [] [] [] false).queueLen 0 = 255 ∧ (queue 1 [pending] [] [] false).queueLen 0 < 256 ∧ (nextPend ((queue 1 [pending] [] [] false).pendOf 0 0)).isSome = true) ∧
    (match (queue 1 [pending] [] [] false).readRecord 0 0 with | .error _ => true | .ok _ => false) = true ∧
    ([0, 255].all (fun a => match (queue 1 [pending] [] [] true).translate (deviceAt 0 0) a .read with | .ok x => !(queue 1 [pending] [] [] true).unreadable (deviceAt 0 0) x | .error _ => false)) = true ∧
    find (queue 1 [pending] [] [] true).launches (queue 1 [pending] [] [] true).launches.length = none ∧
    nextPend ((queue 1 [] [(0, 64)] [] false).pendOf 0 0) = none ∧
    ((queue 1 [] [(0, 64)] [] false).orphans.find? (fun o => o.1 = 0)).isSome = true ∧
    ((queue 1 [] [] [] false).orphans.find? (fun o => o.1 = 0)) = none := by decide +kernel
/-- A slot that is offered with an entry, with a ready record, and one that is not. -/
theorem witness_LaunchesStartAndEnd_admit :
    (let s := queue 1 [] [] [] false; s.offered 0 2 = true ∧ s.nextQueued 0 2 = none ∧ (s.nextEntry 0 2).any (fun p => p.1 = 1 && p.2.length = 1) = true ∧ (queue 0 [] [] [] false).nextEntry 0 2 = none ∧ s.offered 4 2 = false) ∧
    (let s := queue 0 [] [] [waiting 0 0 0] false; s.offered 0 2 = true ∧ (s.nextQueued 0 2).any (fun p => p.1.state = 0) = true ∧ s.group (gkOf 0 2) = none) := by decide +kernel
/-- A terminated group, busy and not; a boundary that is not reached, is refused, waits, fails, leaves a record, ends the group, and passes its slot on. -/
theorem witness_LaunchesStartAndEnd_boundary :
    (let s := boundary id id (fun l => { l with dead := [0] }) id; (s.group 0).any (fun g => (s.launch 0).dead.contains g.gid && !s.deadBusy 0 0 g) = true ∧ (∀ p ∈ s.launches, p.1 < s.launches.length)) ∧
    (let s := boundary (fun g => { g with copies := [copyOp true 1 none] }) id (fun l => { l with dead := [0] }) (fun s => s.modCore 0 (fun c => { c with loads := [{ slot := 0, launch := 0, seg := 0, store := 0, entry := 0, begun := true, report := true, code := 0 }] }));
      (s.group 0).any (fun g => s.deadBusy 0 0 g) = true) ∧
    (deep.state.group 0).any (fun _ => !deep.state.allIn 0 1 (·.atPhase)) = true ∧
    stands (boundary (fun g => { g with copies := [copyOp false 1 none] }) id id id) (fun g => g.copies.any (fun o => !o.started)) ∧
    stands (boundary (fun g => { g with copies := [copyOp true 1 none] }) id id id) (fun g => (boundary (fun g => { g with copies := [copyOp true 1 none] }) id id id).boundaryWaits 0 0 g && decide (g.suspCopy = none) && decide (g.suspCall = none)) ∧
    stands (boundary (fun g => { g with queues := [(8, [[]])] }) id id id) (fun g => let s := boundary (fun g => { g with queues := [(8, [[]])] }) id id id; !s.boundaryWaits 0 0 g && s.boundaryFails 0 1 g) ∧
    stands (boundary id id id id) (fun g => let s := boundary id id id id; !s.boundaryWaits 0 0 g && !s.boundaryFails 0 1 g && decide ((s.phaseRecord (s.launch 0) 0 g).threads ≠ [])) ∧
    stands (boundary id (fun t => { t with endFlag := true }) id id) (fun g => let s := boundary id (fun t => { t with endFlag := true }) id id; decide ((s.phaseRecord (s.launch 0) 0 g).threads = []) && decide ((s.launch 0).succ = none)) ∧
    stands (boundary id (fun t => { t with endFlag := true }) (fun l => { l with succ := some 1 }) (fun s => { s with launches := s.launches ++ [(1, { placedLaunch with pred := some 0 })] }))
      (fun _ => (find (boundary id (fun t => { t with endFlag := true }) (fun l => { l with succ := some 1 }) (fun s => { s with launches := s.launches ++ [(1, { placedLaunch with pred := some 0 })] })).launches 1).isSome) := by decide +kernel
/-- Conditions whose word stands at distance 0 and at 2^31 or more, and one that cannot be read; a launch that is over and one that is not. -/
theorem witness_LaunchesStartAndEnd_phasew :
    (let s := queue 0 [] [] [waiting 1 0 (wordRec 0 64 0 0)] true; (match s.condWord 0 (wordRec 0 64 0 0) with | .ok w => decide ((w - 0).toNat < 2 ^ 31) && decide (2 ^ 31 ≤ (w - 1).toNat) | .error _ => false) = true) ∧
    (let s := queue 0 [] [] [waiting 1 0 (wordRec 0 64 0 0)] false; (match s.condWord 0 (wordRec 0 64 0 0) with | .ok _ => false | .error _ => true) = true ∧ (s.phased.find? (fun p => p.launch = 0 && p.gid = 0 && p.state = 1)).isSome = true) ∧
    (let s := boundary id id (fun l => { l with ended := [0] }) id; (find s.launches 0).any (fun l => !l.done && decide (l.groups ≤ l.ended.length)) = true ∧ find s.launches 1 = none ∧ (find deep.state.launches 0).any (fun l => decide (l.ended.length < l.groups)) = true) := by decide +kernel
/-- A chained group that is to take slot 0 of core 0. -/
def heirOf (n : Nat) : Heir := { launch := n, gid := 0, core := 0, slot := 0, pred := 0, lslot := 0, shape := [] }
/-- A chain whose last group ends in a partition that admits groups and in one that does not; a successor's group that can take its slot, one whose
partition admits none, and one whose logical core stands in a round; operations that stand suspended at a boundary, told and not. -/
theorem witness_LaunchesStartAndEnd_chains :
    (let s := boundary id (fun t => { t with endFlag := true }) (fun l => { l with succ := some 1 }) (fun s => owned { s with launches := s.launches ++ [(1, { placedLaunch with pred := some 0 })] })
     stands s (fun _ => (find s.launches 1).isSome && !(s.launch 1).det && (s.freeSlot 0 0).partOk (s.launch 0).part) = true) ∧
    (let s := boundary id (fun t => { t with endFlag := true }) (fun l => { l with succ := some 1 }) (fun s => { s with launches := s.launches ++ [(1, { placedLaunch with pred := some 0 })] })
     stands s (fun _ => !(s.freeSlot 0 0).partOk (s.launch 0).part) = true) ∧
    (let s := owned { State.reset with launches := [(0, placedLaunch), (1, { placedLaunch with pred := some 0 })], heirs := [heirOf 1] }; s.heirGoes (heirOf 1) = true ∧ s.heirs.find? (fun x => x.core = 0 && x.slot = 0) = some (heirOf 1)) ∧
    ({ State.reset with launches := [(0, placedLaunch), (1, { placedLaunch with pred := some 0 })], heirs := [heirOf 1] }.heirGoes (heirOf 1) = false) ∧
    (∀ told ∈ [(none : Option (Nat × Mask)), some (0, 1)],
      let x : Susp := { cause := 2, va := 64, acc := 1, told := told }
      stands (boundary (fun g => { g with copies := [{ copyOp true 1 none with susp := some x }] }) id id id) (fun g => g.suspCopy.any (fun p => p.2.told = told)) = true ∧
      stands (boundary (fun g => { g with calls := [{ call 4 0x10 true none with susp := some x }] }) id id id) (fun g => decide (g.suspCopy = none) && g.suspCall.any (fun p => p.2.told = told)) = true) := by decide +kernel

/-- A core with `n` active groups and `m` pending ones beside them, those of slot `k` on stalled or not. -/
def crowd (n m : Nat) (stalled : Bool) : State :=
  Scene.state { more := fun s => { s with
    groups := (List.range (n + m)).map (fun k => (k, { (s.newGroup 0 placedLaunch k 0 0 k) with active := decide (k < n), hungry := decide (n ≤ k), moved := 0 }))
    waves := (List.range (n + m)).map (fun k => (4 * k, { Wave.init with frags := [{ startFrag 0 { seg := 0, off := 16 } 5 with wait := if stalled && decide (k < n) then .barrier else .none }] }))
    ptp := 65536000 * 2000 } }
/-- The groups of core 0 in one of the two sets. -/
def inSet (s : State) (a : Bool) : List (Nat × Group) := s.groups.filter (fun p => p.1 / 16 = 0 && p.2.active == a)
/-- A launch whose unit needs a whole cluster waits while a group, whose timeslice is over, holds a slot of each; the partition has one save
area, or none. -/
def rivals (areas : Nat) (rings : SMap Ring) (evict : Bool) (save : Option (Nat × Bool)) : State :=
  Scene.state { group := fun g => { g with evict := evict, saving := save },
                more := fun s => tables (1 + 2 ^ 480 * areas + 2 ^ 640 * area) { s with
    owners := [(0, 0)], groups := s.groups ++ [(gkOf 128 0, s.newGroup 0 placedLaunch 1 128 0 0)], launches := s.launches ++ [(1, { Launch.init with raw := BitVec.ofNat 2048 (2 ^ 168 + 2 ^ 928 * 64 + 2 ^ 952 * 3), queued := true, segs := [(0, 0)] })]
    ptp := 65536000 * 2000, rings := rings } }
/-- A logical core of launch 0 between two rounds or in one, on core 0, which a pre-emption vacates; core 1 is another of its launch. -/
def folding (turn : Nat) (vacate : List Nat) (other : List Nat) : State :=
  Scene.state { det with more := fun s => tables (1 + 2 ^ 480 + 2 ^ 640 * area) { s with owners := [(0, 0)]
                                                                                         lcores := (0, lcoreOn 0 turn vacate) :: other.map (fun c => (c, lcoreOn c 0 [])) } }
where
  /-- A logical core as it is made. -/
  lcoreOn (phys turn : Nat) (vacate : List Nat) : LCore :=
    { launch := 0, num := phys, phys := phys, retired := 0, round := 0, turn := turn, slots := [(0, 0)], rot := [], vacate := vacate, folded := false, h0 := 0, h1 := 0 }

theorem witness_SchedulingOfGroups_sets :
    (let s := crowd 7 0 false; s.activeOf 0 = 7 ∧ inSet s false = []) ∧ (let s := crowd 7 2 false; s.activeOf 0 = 7 ∧ (inSet s false).length = 2) ∧
    (let s := crowd 8 1 false; s.activeOf 0 = 8 ∧ (inSet s true).all (fun p => !s.stalled p.1) = true) ∧
    (let s := crowd 8 1 true; (inSet s true).all (fun p => s.stalled p.1) = true ∧ (inSet s false).all (fun p => s.maybeEligible p.1) = true ∧
      (s.group 8).any (fun g => !g.active && !g.frozen && g.hungry && decide (65536000 * (s.core 0).tslice.toNat ≤ s.ptp - g.waited)) = true) ∧
    (let l := { Launch.init with raw := BitVec.ofNat 2048 (2 ^ 168 + 2 ^ 928 * 2 + 2 ^ 952 * 3), queued := true, segs := [(0, 0)] }; l.gangLevel = 2 ∧ l.home l.gangLevel l.next = none ∧ l.gang = false) := by decide +kernel
theorem witness_SchedulingOfGroups_saves :
    (let s := rivals 1 [] false none; (s.group 0).any (fun g => (s.rivalOf 0 g).isSome && (s.unitGks g).all s.canSave && decide ((s.unitGks g).length ≤ (s.freeAreas 0).length) && decide (g.saving = none)) = true ∧ s.allReady [0] = true) ∧
    (let s := rivals 0 [] false none; (s.group 0).any (fun g => decide ((s.freeAreas 0).length < (s.unitGks g).length)) = true) ∧
    (let s := rivals 1 [] true (some (0, true)); (s.group 0).any (fun g => g.evict && decide (g.saving = some (0, true))) = true) ∧
    (let s := rivals 1 [] false (some (0, true)); (s.group 0).any (fun g => !g.evict && g.saving.isSome) = true) ∧
    (let s := rivals 1 [(0, { binding := 0, next := 0, drops := 0, landed := 0, q7 := [] })] false none; s.canSave 0 = false) ∧
    (let s := queue 0 [] [] [waiting 0 0 0] false; s.group 2 = none ∧ s.offered 0 2 = true ∧ (s.nextQueued 0 2).isSome = true) := by decide +kernel
theorem witness_SchedulingOfGroups_folds :
    (let s := folding 0 [0] [1]; (s.lcore 0).any (fun c => decide (c.vacate ≠ []) && decide (c.turn = 0)) = true ∧ s.canSave 0 = true ∧ (s.freeAreas 0).length = 1 ∧ s.allReady [0] = true ∧ (s.foldTarget 0 [0]).isSome = true) ∧
    (let s := folding 3 [0] []; (s.lcore 0).any (fun c => decide (c.turn ≠ 0)) = true) ∧ (let s := folding 0 [] []; (s.lcore 0).any (fun c => decide (c.vacate = [])) = true) ∧ (folding 0 [] []).lcore 5 = none ∧ (let s := { folding 0 [0] [] with owners := [] }; (s.lcore 0).any (fun c => decide (c.vacate ≠ []) && decide (c.turn = 0)) = true ∧ s.canSave 0 = true ∧ (s.freeAreas 0).length = 1 ∧ s.allReady [0] = true ∧ s.foldTarget 0 [0] = none) := by decide +kernel

/-- Cluster 0 at cycle 2,000 with requests of the vector pipe and the copy engine of core 0, a budget and a cycle of its last grant. -/
def yard (budget : Nat) (aged share : Bool) (granted : Option Nat) (held : List Current) : State :=
  { (engine [copyOp true 5 none] 0).modCluster 0 (fun c =>
      { c with share := share, budget := budget, granted := granted, held := held, waiting := if aged then [{ core := 0, who := .copy, amount := 3, arrived := 10 }] else [] }) with clocks := [(0, 2000 * cyclePhase)] }
/-- Requests that stand, one that has aged, one that does not fit; a cycle that has granted; share mode; current that its holder no longer needs. -/
theorem witness_SteelyardCycles :
    let gathered := fun (s : State) => s.gather s.fresh (s.clockAt 0) 0 (s.cluster 0)
    (let s := yard 64 false false none []; (gathered s).waiting ≠ [] ∧ (s.cluster 0).share = false ∧ (s.pipeNeed 0).isSome = true ∧ 3 ∈ s.copyNeeds 0 ∧ (gathered s).granted ≠ some (s.clockAt 0)) ∧
    (let s := yard 1 true false none []; (gathered s).waiting.any (fun x => x.arrived + (s.cluster 0).age ≤ s.clockAt 0) = true ∧ ((gathered s).held.map (·.amount)).sum + 3 > (s.cluster 0).budget) ∧
    (let s := yard 64 false false (some 2000) []; (gathered s).granted = some (s.clockAt 0)) ∧ (gathered (yard 64 false true none [])).share = true ∧
    (let s := yard 64 false false none [{ core := 0, who := .array, amount := 6, arrived := 0 }]; s.arrayNeed 0 = none ∧ (gathered s).held = [] ∧ quanta ((gathered s).freedIn (s.clockAt 0)) = 6) := by decide +kernel
/-- The pipe's window, over and not; a move of the operating point; sources of the throttle; reset; valid bits and units that change owner. -/
theorem witness_PowerAndBringUp :
    (let s := { (Scene.state {}).modCore 0 (fun c => { c with pipe := some 0 }) with clocks := [(0, 64 * cyclePhase)] }; (s.core 0).pipe = some 0 ∧ 0 + 64 ≤ s.clockAt 0) ∧
    (let s := { (Scene.state {}).modCore 0 (fun c => { c with pipe := some 0 }) with clocks := [(0, 63 * cyclePhase)] }; s.clockAt 0 < 0 + 64) ∧ ((Scene.state {}).core 0).pipe = none ∧
    (let s := (Scene.state {}).modCluster 0 (fun c => { c with busy := true, tgt := 7, goal := 6 }); (s.cluster 0).busy = true ∧ ratioOf (s.cluster 0).ratio ≠ ratioOf (s.cluster 0).tgt) ∧ ((Scene.state {}).cluster 0).busy = false ∧
    (let b := State.reset.throttle; b.on = false ∧ b.en &&& (b.src ||| 1#4) ≠ 0 ∧ (let b' := { b with en := 1 }; b'.en &&& (b'.src ||| 2#4) = 0)) ∧
    (let b := { State.reset.throttle with src := 3 }; b.on = false ∧ b.en &&& (b.src &&& ~~~1#4) ≠ 0) ∧
    (let b := { State.reset.throttle with on := true, since := 0 }; b.on = true ∧ b.en &&& b.src = 0 ∧ b.since + micro * b.hold.toNat ≤ micro * 100) ∧
    State.reset.boot = .held ∧ State.reset.image = [] ∧ (Scene.state {}).boot = .running ∧
    (let s := owned (Scene.state {}); s.part 0 0 1 = 1 ∧ getD false s.valids 0 = false) ∧ (let s := { Scene.state {} with valids := [(0, true)] }; s.part 0 0 1 ≠ 1 ∧ getD false s.valids 0 = true) ∧
    (let s := (Scene.state {}); (s.dramByte reserveKey (s.mm 192 64 + 3)).toNat = 0 ∧ getD 255 s.owners 3 ≠ 0 ∧ s.heirs = [] ∧ (unitCores 3).all (fun c => (List.range 16).all (fun slot => (s.group (gkOf c slot)).isNone)) = true) := by decide +kernel

/-- Group 0 has a landing ring: four entries of two granules, at entry `n`; granules of it are full, or its queue is. -/
def landing (n : Nat) (full : SMap Bool) (beats : Nat) : State :=
  Scene.state { more := fun s => { s with full := full, rings := [(0, { binding := 0x03010008, next := n, drops := 2, landed := 5, q7 := List.replicate beats [] })] } }
/-- The space that a body of `bytes` finds in the ring. -/
def landingFits (s : State) (n : Nat) (body : List Byte) : Bool :=
  (find s.rings 0).any (fun r => decide (body ≠ []) && (s.group 0).isSome && (List.range (ringSize r.binding)).all (fun k => getD false s.full (ringBase r.binding + n * ringSize r.binding + k) = false) && decide (r.q7.length < 64))
theorem witness_FabricTraffic_landing :
    find (landing 0 [] 0).rings 1 = none ∧ ringSize 0x03010008 = 2 ∧ ringCount 0x03010008 = 4 ∧ ringBase 0x03010008 = 8 ∧
    landingFits (landing 0 [] 0) 0 (List.replicate 33 1) = true ∧ landingFits (landing 3 [] 63) 3 [1] = true ∧
    landingFits (landing 3 [] 64) 3 [1] = false ∧ landingFits (landing 3 [(15, true)] 0) 3 [1] = false ∧ landingFits (landing 3 [(15, true)] 0) 2 [1] = true ∧
    landingFits (landing 0 [] 0) 0 [] = false ∧ (∀ n ∈ [0, 3], ringBase 0x03010008 + (n + 1) * ringSize 0x03010008 ≤ 2048) ∧
    ((landing 0 [] 0).engineOf 0 0 (.landing 0)).det = none ∧ ((landing 0 [] 0).engineOf 0 0 (.landing 0)).races [.chip 0 128] = true := by decide +kernel

/-- An Ethernet frame of a type, with a body. -/
def ether (etype : Nat) (body : List Byte) : List Byte := List.replicate 12 0 ++ [BitVec.ofNat 8 (etype / 256), BitVec.ofNat 8 etype] ++ body
/-- Entry 3 of the match table takes type 0x0806 on every port, for a slot of core 0. -/
def matching (slot : Nat) : State :=
  let e := 1 + 2 ^ 110 * slot + 2 ^ 142 * 0x3FFFF + 2 ^ 176 * 0x0806
  { landing 0 [] 0 with matchTable := (List.range 6).map (fun k => (24 + k, wd (e / 2 ^ (32 * k)))) }
/-- A write of no bytes in a transport frame of version 1 from node 2 to this one (R365). -/
def header : List Byte := bytesOf (2 ^ 236 * 2 + 2 ^ 252) 32
theorem witness_FabricTraffic_frames :
    frameNat (ether 0x88F7 [3]) 14 1 % 16 < 4 ∧ ¬frameNat (ether 0x88F7 [4]) 14 1 % 16 < 4 ∧ frameNat (ether 0x88F7 []) 12 2 = 0x88F7 ∧ frameNat (ether 0x88B5 []) 12 2 = 0x88B5 ∧
    (frameOf (ether 0x88B5 (header ++ List.replicate 16 0))).any (fun f => f.ver = 1 && f.src = 2 && f.tag.length = 16) = true ∧
    frameOf (ether 0x88B5 (header ++ List.replicate 15 0)) = none ∧
    ((List.range 64).all (fun e => !(matching 0).matches e 0 (ether 0x0807 [1]))) = true ∧
    ((matching 0).matches 3 0 (ether 0x0806 [1]) = true ∧ (matching 0).matches 3 17 (ether 0x0806 [1]) = true ∧ (List.range 3).all (fun e => !(matching 0).matches e 0 (ether 0x0806 [1])) = true) ∧
    ((matching 0).mt 3 114 10 = 0 ∧ (matching 0).mt 3 110 4 = 0 ∧ (find (matching 0).rings 0).isSome = true) ∧
    ((matching 1).matches 3 0 (ether 0x0806 [1]) = true ∧ (matching 1).mt 3 110 4 = 1 ∧ find (matching 1).rings 1 = none) ∧
    (17 < 18 ∧ 18 ≤ 18) ∧ (64 ≤ (List.replicate 60 (0 : Byte)).length + 4 ∧ (List.replicate 59 (0 : Byte)).length + 4 < 64) := by decide +kernel
/-- A pause frame and another MAC control frame; a read of 8,192 bytes, which is answered in two frames; an answer to a read that stands, and one that
is too short for it. -/
theorem witness_FabricTraffic_kinds :
    frameNat (ether 0x8808 [1, 1, 0, 3]) 12 2 = 0x8808 ∧ frameNat (ether 0x8808 [1, 1, 0, 3]) 14 2 = 0x0101 ∧ (frameNat (ether 0x8808 [1, 1, 0, 3]) 16 2).testBit 0 = true ∧
    frameNat (ether 0x8808 [0, 1]) 14 2 ≠ 0x0101 ∧ natOf (bytesOf 8192 4) = 8192 ∧ max 1 ((8192 + 4095) / 4096) = 2 ∧
    (let x : Ask := { node := 2, part := 3, addr := 64, len := 4, answer := none }; x.answer = none ∧ x.len ≤ [(0 : Byte), 0, 0, 0].length ∧ ¬x.len ≤ [(0 : Byte)].length) := by decide +kernel
/-- The longest frame, and one byte more. -/
theorem witness_FabricTraffic_length : (List.replicate 9212 (0 : Byte)).length + 4 ≤ 9216 ∧ 9216 < (List.replicate 9213 (0 : Byte)).length + 4 := by
  rw [List.length_replicate, List.length_replicate]; omega
/-- The roles of a port, a two-step Sync and a one-step one, a Follow_Up of a Sync, a Delay_Req, and a Delay_Resp (IEEE 1588 message types). -/
theorem witness_FabricTraffic_ptp :
    let msg := fun (type flags : Nat) => ether 0x88F7 (BitVec.ofNat 8 type :: List.replicate 5 0 ++ [BitVec.ofNat 8 flags] ++ List.replicate 40 0)
    let at3 := fun (r : PtpRole) => getD Port.init { Scene.state {} with ports := [(3, { Port.init with role := r, sync := some { seq := 0, carried := none, passed := 5 } })] }.ports 3
    Port.init.role = .passive ∧ (at3 .timeTransmitter).role = .timeTransmitter ∧ (at3 .timeReceiver).role = .timeReceiver ∧
    (∀ t < 16, frameNat (msg t 0) 14 1 % 16 = t) ∧ frameNat (msg 0 2) 20 1 / 2 % 2 = 1 ∧ frameNat (msg 0 0) 20 1 / 2 % 2 = 0 ∧
    frameNat (msg 8 0) 44 2 = 0 ∧ (at3 .timeReceiver).sync.any (fun x => x.seq = 0) = true := by decide +kernel

/-- A frame of a type to node 0 on connection 3, and a state that has its key. -/
def tframe (type : Nat) (seq ack : Word) (payload : List Byte) : TFrame :=
  { ver := 1, type := type, src := 2, dst := 0, keyid := 1, conn := 3, seq := seq, ack := ack, sack := 0, len := payload.length, addr := 64, payload := payload, tag := [] }
def linked (c : Conn) : State := { Scene.state {} with tkeys := [(1, 9)], conns := [(131075, c)] }
/-- A frame that waits for its acknowledgement. -/
def unacked (retries stamp : Nat) (marked : Bool) : Sent := { seq := 7, type := 0, addr := 64, payload := [1], retries := retries, marked := marked, stamp := stamp }
/-- Frames that are taken, in order, one again, out of order with seven owed and fewer, one 32 or more ahead, an acknowledgement; a payload that
ends at the usable top and past it; a line with an error under the frame's key and under another; a key that is there and one that is not; a
frame that is not taken. -/
theorem witness_FabricTraffic_transport :
    (let f := tframe 0 0 0 [1]; f.ver = 1 ∧ f.type ≤ 5 ∧ f.dst = (linked Conn.init).node ∧ f.len ≤ 4096 ∧ f.len = f.payload.length ∧ find (linked Conn.init).tkeys f.keyid = some 9 ∧
      f.seq = (getD Conn.init (linked Conn.init).conns 131075).expect ∧ Conn.init.early = [] ∧ f.addr.toNat % 2 ^ 40 + 1 ≤ (linked Conn.init).usableTop) ∧
    (let f := { tframe 0 0 0 [1] with addr := BitVec.ofNat 64 (linked Conn.init).usableTop }; (linked Conn.init).usableTop < f.addr.toNat % 2 ^ 40 + 1) ∧
    (Conn.init.early = [] ∧ natOf (bytesOf 4 4) = 4 ∧ ∀ j < 4, (linked Conn.init).badFor 1 (64 + j) = false) ∧
    (let s := { linked Conn.init with bad := [(0, 1)], tags := [(0, 1)] }; s.badFor 1 64 = true ∧ s.badFor 2 64 = false) ∧
    find (Scene.state {}).tkeys 1 = none ∧ ¬(tframe 6 0 0 []).type ≤ 5 ∧ ¬{ tframe 0 0 0 [] with len := 4097 }.len ≤ 4096 ∧
    32 ≤ ((0 : Word) - 1).toNat ∧ 32 ≤ ((32 : Word) - 0).toNat ∧ ((31 : Word) - 0).toNat < 32 ∧
    (let c := { Conn.init with early := [(5, 0, 0, [])], owed := 7 }; (∃ x ∈ c.early, x.1 = 5) ∧ (∀ x ∈ c.early, x.1 ≠ 31 ∧ x.1 ≠ c.expect) ∧ 7 ≤ c.owed ∧ Conn.init.owed < 7) ∧
    (∀ x ∈ [unacked 0 0 false], 2 ^ 31 ≤ ((7 : Word) - x.seq - 1).toNat ∧ ¬2 ^ 31 ≤ ((8 : Word) - x.seq - 1).toNat) ∧ (tframe 4 0 0 []).keyid ≠ 255 ∧ { tframe 4 0 0 [] with keyid := 255 }.keyid = 255 := by decide +kernel
/-- A tag that holds. -/
theorem witness_FabricTraffic_sealed :
    (let f := tframe 0 0 0 [1]; let p := gcmSeal 9 f.nonce f.header [1]; gcmOpen 9 f.nonce f.header p.1 p.2 == some [1]) = true := by decide +kernel
/-- A frame of a tag of no bytes. -/
theorem witness_FabricTraffic_forged : gcmOpen 9 (tframe 0 0 0 [1]).nonce (tframe 0 0 0 [1]).header [1] [] = none := by decide +kernel
/-- The standards' own examples: SHA-256 of `abc` (FIPS 180-4) and the CRC of `123456789` (IEEE 802.3). -/
theorem test_sha256_crc32 : bigNat (shaBytes [0x61, 0x62, 0x63]) = 0xba7816bf8f01cfea414140de5dae2223b00361a396177a9cb410ff61f20015ad ∧
    crc32 [0x31, 0x32, 0x33, 0x34, 0x35, 0x36, 0x37, 0x38, 0x39] = 0xCBF43926 := by decide +kernel
/-- AES-256 (FIPS 197, C.3). -/
theorem test_aes256 : bigNat (aesBlock (aesKeys (bigBytes 0x000102030405060708090a0b0c0d0e0f101112131415161718191a1b1c1d1e1f 32)) (bigBytes 0x00112233445566778899aabbccddeeff 16)) =
    0x8ea2b7ca516745bfeafc49904b496089 := by decide +kernel
/-- Acknowledgements owed for 2 µs, just less, and none; frames unanswered for their time on their first sending, their sixth retry and their seventh,
and one that is marked. -/
theorem witness_FabricTraffic_timers :
    (let c := { Conn.init with owed := 1, owedAt := 0 }; c.owed ≠ 0 ∧ c.owedAt + 2 * micro ≤ 2 * micro ∧ ¬c.owedAt + 2 * micro ≤ 2 * micro - 1 ∧ Conn.init.owed = 0) ∧
    ((unacked 0 0 false).late (16 * micro) = true ∧ (unacked 0 0 false).late (16 * micro - 1) = false ∧ (unacked 0 0 true).late (16 * micro) = false) ∧
    ((unacked 6 0 false).late (1024 * micro) = true ∧ (unacked 6 0 false).retries < 7) ∧ ((unacked 7 0 false).late (2048 * micro) = true ∧ 7 ≤ (unacked 7 0 false).retries) ∧
    (Scene.state {}).noticeTo = none := by decide +kernel

/-! ### Management, steps, memory -/

/-- A request of firmware, of the pins, and of a session of partition 0. -/
def firmReq : Req := { pins := false, firmware := true, part := 255, key := 255, node := 1, session := 1, tag := 3 }
def pinReq : Req := { firmReq with pins := true, firmware := false }
def partReq : Req := { firmReq with firmware := false, part := 0, key := 1 }
/-- Firmware runs, and partition 0's entry is as given. -/
def managed (entry : Nat) (s : State → State) : State := Scene.state { more := fun x => s (tables entry { x with owners := [(0, 0)] }) }
/-- The digest of the key that signs images is fused, an uninterpreted constant: both cases of `imageGood` are hypotheses that nothing decides. -/
theorem witness_ManagementCommands_rights :
    State.reset.boot = .held ∧ { State.reset with boot := .recovery }.boot = .recovery ∧ (managed 1 id).boot = .running ∧ firmReq.firm = true ∧ pinReq.firm = true ∧ partReq.firm = false ∧
    (managed 1 id).bound partReq = false ∧ (managed 5 id).bound partReq = true ∧ (managed 1 id).onlyOwn partReq 0 1 = false ∧ pinReq.pins = true ∧ firmReq.pins = false := by decide +kernel
theorem witness_ManagementCommands_records :
    (¬(0x0000000000000080 : BitVec 64).toNat % 256 = 0 ∧ (0x000FFFFFFFFFFF00 : BitVec 64).toNat % 256 = 0 ∧ (0x000FFFFFFFFFFF00 : BitVec 64).toNat < 2 ^ 52 ∧ ¬(0x0010000000000000 : BitVec 64).toNat < 2 ^ 52) ∧
    (queue 256 [] [] [] false).queueLen 0 = 256 ∧ (queue 255 [] [] [] false).queueLen 0 < 256 ∧
    (match (queue 0 [] [] [] false).readRecord 0 0 with | .error _ => true | .ok _ => false) = true ∧
    ([0, 255].all (fun a => match (queue 0 [] [] [] true).translate (deviceAt 0 0) a .read with | .ok x => !(queue 0 [] [] [] true).unreadable (deviceAt 0 0) x | .error _ => false)) = true ∧
    (2 ≤ (0x2000000000000000 : BitVec 64).toNat / 2 ^ 60 ∧ (0x4FFFFFFFFFFFFFFF : BitVec 64).toNat / 2 ^ 60 ≤ 4 ∧ ¬2 ≤ (0x1FFFFFFFFFFFFFFF : BitVec 64).toNat / 2 ^ 60) ∧
    (let a := (managed 1 id).usableTop - 8; (BitVec.ofNat 64 a).toNat % 4 = 0 ∧ (BitVec.ofNat 64 a).toNat + 4 * 2 ≤ (managed 1 id).usableTop ∧ ∀ k < 2, getD 0 (managed 1 id).tags (lineOf (a + 4 * k)) = 0 ∧ (managed 1 id).badFor 255 (a + 4 * k) = false) ∧
    (let s := { managed 1 id with bad := [(1, 1)], tags := [(0, 1), (1, 1)] }; s.badFor 1 124 = false ∧ s.badFor 1 128 = true) ∧
    (List.replicate 8 (0 : Word)).length = 8 ∧ (List.replicate 1016 (0 : Word)).length ≤ 1016 ∧ 1016 < (List.replicate 1017 (0 : Word)).length := by decide +kernel
/-- Firmware reads the first word of a phase record and its last, wherever the records are. -/
theorem witness_ManagementCommands_phases : ∀ x ∈ [0, 5119],
    let s := { State.reset with phased := [waiting 0 0 0] }
    let p := waiting 0 0 0
    let addr : BitVec 64 := BitVec.ofNat 64 (s.phaseAt p + 4 * x)
    s.reserveStart ≤ addr.toNat ∧ s.chanMapped addr.toNat = true ∧
      s.phased.find? (fun p => s.phaseAt p ≤ addr.toNat && addr.toNat < s.phaseAt p + 20480) = some p ∧ addr.toNat = s.phaseAt p + 4 * x := by
  have bound : Config.phasePool % 131072 < 131072 := Nat.mod_lt _ (by omega)
  have start : State.reset.reserveStart = 617669984256 := by decide +kernel
  have towers : State.reset.towerCount = 8 := by decide +kernel
  intro x hx s p addr
  have hx : x ≤ 5119 ∧ 4 * x % 4 = 0 := by
    simp only [List.mem_cons, List.not_mem_nil, or_false] at hx
    omega
  have place : s.phaseAt p = 617669984256 + 4096 * (1 + Config.phasePool % 131072) + 20480 * 0 := congrArg (· + 4096 * (1 + Config.phasePool % 131072) + 20480 * 0) start
  have value : addr.toNat = s.phaseAt p + 4 * x := (BitVec.toNat_ofNat _ _).trans (Nat.mod_eq_of_lt (by omega))
  have from_ : s.reserveStart = 617669984256 := start
  have count : s.towerCount = 8 := towers
  have found : (s.phaseAt p ≤ addr.toNat && addr.toNat < s.phaseAt p + 20480) = true := by simp only [Bool.and_eq_true, decide_eq_true_eq]; omega
  refine ⟨by omega, ?_, ?_, value⟩
  · simp only [State.chanMapped, Bool.and_eq_true, Bool.or_eq_true, decide_eq_true_eq, count, from_]
    omega
  · show List.find? (fun p => s.phaseAt p ≤ addr.toNat && addr.toNat < s.phaseAt p + 20480) [p] = some p
    rw [List.find?_cons, found]
/-- A transaction's bytes: good, of a wrong CRC, and with a wrong header; a command that they carry and one that none is. -/
theorem witness_ManagementCommands_bytes :
    let covered := bytesOf 4 2 ++ [(1 : Byte), 2, 3, 4]
    payloadOf pinReq (0x5A#8 :: covered) (crc32 covered) = some [1, 2, 3, 4] ∧ payloadOf pinReq (0x5A#8 :: covered) 0 = none ∧
    (0 : Word) ≠ crc32 covered ∧ payloadOf pinReq [0x2D] 0 = none ∧ payloadOf firmReq [7] 0 = some [7] ∧ decodeCommand firmReq [7] = none ∧
    (decodeCommand firmReq (bytesOf 2 4 ++ zeroBytes 12 ++ bytesOf 1 4)).isSome = true ∧ ({ State.reset with boot := .recovery }).boot = .recovery := by decide +kernel
/-- A reply that waits for the pins, and only one that does not. -/
theorem witness_ManagementCommands_replies :
    (let s := { State.reset with outbox := [{ pins := false, node := 0, notice := true, words := [] }, { pins := true, node := 0, notice := false, words := [1] }] }; (s.outbox.find? (·.pins)).isSome = true) ∧
    (let s := { State.reset with outbox := [{ pins := false, node := 0, notice := true, words := [] }] }; ∀ m ∈ s.outbox, m.pins = false) ∧
    (pinReq.pins = true ∧ State.reset.boot = .held) ∧ ¬(firmReq.pins = true) ∧ (partReq.firm = false ∧ (managed 1 id).boot = .running) := by decide +kernel
/-- A wave whose fragment is held, a group that no save excludes and one of a higher priority. -/
def heldWave (mode : Mode) : State := Scene.state { frag := fun f => { f with mode := mode } }
theorem witness_ManagementCommands_waves :
    (match (heldWave .held).heldAt 0x5000000000000000 with | .ok h => decide (h.frag.mode = .held) | .error _ => false) = true ∧
    (match (heldWave .user).heldAt 0x5000000000000000 with | .ok _ => false | .error e => decide (e = 3)) = true ∧
    (let s := managed 1 id; let named := s.launches.filter (fun p => p.2.addr = 0 && !p.2.done && p.2.refused.isNone)
      (named.filter (fun p => p.2.part = 0) ++ named).head?.any (fun p => p.1 = 0 && decide (p.2.prio < 1) && decide (0 ≤ p.2.prio)) = true ∧ (named.filter (fun p => p.2.part = 255) ++ named).head?.any (fun p => p.1 = 0) = true) ∧
    ((managed 1 id).launches.filter (fun p => p.2.addr = 256 && !p.2.done && p.2.refused.isNone)) = [] ∧
    canonical 0 (managed 1 id).flushAll.tags = true ∧
    ((heldWave .held).group (gkOf 0 0)).any (fun g => ((heldWave .held).launch g.launch).waves = 1) = true ∧ (∃ f ∈ ((heldWave .held).wave (wkOf 0 0)).frags, f.mode = .held) ∧
    (¬∃ f ∈ ((heldWave .user).wave (wkOf 0 0)).frags, f.mode = .held) ∧ (heldWave .held).group (gkOf 0 1) = none ∧ (0 < 64 ∧ 64 ≤ 2111 ∧ 2111 < 2112) := by decide +kernel
/-- A connection that uses key 1 and none; ring bindings that end at the slot's last granule and one past it. -/
theorem witness_ManagementCommands_tables :
    (∃ p ∈ (linked { Conn.init with key := 1 }).conns, p.2.key = 1 ∧ p.2 ≠ Conn.init) ∧ (∀ p ∈ (linked Conn.init).conns, ¬(p.2.key = 1 ∧ p.2 ≠ Conn.init)) ∧
    ((BitVec.extractLsb' 0 11 (0x01000000#32 + 2046)).toNat + ((BitVec.extractLsb' 24 8 (0x01000000#32 + 2046)).toNat + 1) * ((BitVec.extractLsb' 16 7 (0x01000000#32 + 2046)).toNat + 1) = 2048 ∧
      2048 < (BitVec.extractLsb' 0 11 (0x01000000#32 + 2047)).toNat + ((BitVec.extractLsb' 24 8 (0x01000000#32 + 2047)).toNat + 1) * ((BitVec.extractLsb' 16 7 (0x01000000#32 + 2047)).toNat + 1)) ∧
    (1023 + [(0 : Word)].length = 1024 ∧ 1024 < 1023 + [(0 : Word), 0].length) ∧ (63 + [(0 : Word)].length ≤ 64 ∧ [(0 : Word)] ≠ []) ∧ ((Scene.state {}).group (gkOf 0 1)).isNone = true ∧ ((Scene.state {}).group (gkOf 0 0)).isSome = true := by decide +kernel

/-- A placed word: the one move is its issue, nothing is due before it, and its segment is loaded. -/
def ready : State := State.reset.withFetchWord 32 0x400407F8
/-- The first step of a state is the issue of core 0, whose fragment meets these conditions. -/
def issues (s : State) (p : State → Here → Bool) : Bool :=
  let n := s.note s.looks
  match n.moves s.looks with
  | [.issue c] =>
    let passed := n.moved s.looks (.issue c)
    match passed.issue s.looks c with
    | some x => (match (passed.prepare x).here with | some h => decide (h.frag.after = none) && decide (h.nevDue = 0) && decide (h.frag.phw = 0) && p (passed.prepare x) h | none => false)
    | none => false
  | _ => false
theorem witness_StepRunsTheDecodedInstruction :
    issues ready (fun t h => !h.frag.past && !h.handler && (match t.segCopy h.core h.g.launch h.frag.pc.seg.toNat with
      | (s1, some e) => decide ((s1.tag (32 * h.core + entryStore e)).state = .loaded ∧ (s1.tag (32 * h.core + entryStore e)).part = (s1.launch h.g.launch).part ∧ (s1.tag (32 * h.core + entryStore e)).va = e.extractLsb' 0 52)
      | (_, none) => false)) = true := by decide +kernel
/-- The same fragment in the handler, and past its segment's end. -/
def readyWith (f : Frag → Frag) : State := { ready with waves := ready.waves.map (fun p => (p.1, { p.2 with frags := p.2.frags.map f })) }
theorem witness_StepRuns_handler : issues (readyWith (fun f => { f with mode := .handler })) (fun _ h => !h.frag.past && h.handler) = true := by decide +kernel
theorem witness_StepRuns_past : issues (readyWith (fun f => { f with past := true })) (fun _ h => h.frag.past) = true := by decide +kernel
/-- A device with no move, in reset and running; one with a move; one with more than one. -/
theorem witness_StepRuns_moves :
    (State.reset.note State.reset.looks).moves State.reset.looks = [] ∧ State.reset.boot = .held ∧
    (let s := { State.reset with boot := .running, owners := (List.range 128).map (fun u => (u, 0)) }; (s.note s.looks).moves s.looks = [] ∧ s.boot = .running) ∧
    (let s := { ready with inputs := [.ptpEventMessage 18 []] }; 1 < ((s.note s.looks).moves s.looks).length) := by decide +kernel
theorem witness_DecodeAndEncodeAgree : encode (.addi 1 0 (-8)) = some 0x400407F8 ∧ (Instr.addi 1 0 (-8)).wellFormed = true ∧ (Instr.addi 1 0 (-8)).isEvent = false ∧
    Instr.resetAssert.isEvent = true := by decide
theorem witness_StepsKeepTheFormOfMemory : ready.memOk = true ∧ (match step ready with | .next _ => true | _ => false) = true := by decide +kernel

end Sys2Proof.Machine.Slice0
end

/-!
# Bytes read as they were written (R9, R157, R166, R259, R344)

Every write beyond a store buffer, by whatever path, does three things: it notes what is no byte (`State.sansNotes`), it puts its bytes one by
one into the memories, and it leaves the device reserve alone, so that partitions keep their key ids. `Stored s t key ws` says this of a
change from `s` to `t`. Each operation is shown once to be of this form; the statement about reads follows from the form.
-/

namespace Sys2Proof.Machine

variable {s t u : State} {key : Nat} {ws vs : List (Byte × Loc)}

/-! ## Little-endian numbers (R9) -/

@[simp] theorem bytesOf_length (v n : Nat) : (bytesOf v n).length = n := by
  induction n generalizing v with
  | zero => rfl
  | succ n ih => simp [bytesOf, ih]

theorem natOf_bytesOf (v n : Nat) : natOf (bytesOf v n) = v % 256 ^ n := by
  induction n generalizing v with
  | zero => simp [bytesOf, natOf, Nat.mod_one]
  | succ n ih =>
    rw [bytesOf, natOf, ih, BitVec.toNat_ofNat]
    change v % 256 + 256 * (v / 256 % 256 ^ n) = v % 256 ^ (n + 1)
    rw [Nat.pow_succ', Nat.mod_mul]

theorem bytesOf_getElem? {n j : Nat} (v : Nat) (hj : j < n) : (bytesOf v n)[j]? = some (BitVec.ofNat 8 (v / 256 ^ j)) := by
  induction n generalizing v j with
  | zero => omega
  | succ n ih =>
    cases j with
    | zero => simp [bytesOf]
    | succ j => rw [bytesOf, List.getElem?_cons_succ, ih _ (by omega), Nat.div_div_eq_div_mul, Nat.pow_succ']

/-! ## What writes note beside the bytes -/

/-- The state without what a write notes beside the bytes: races and their releases, walks that caches hold, digests, notices. -/
def State.sansNotes (s : State) : State :=
  { s with races := [], writes := [], wnum := 0, walks := [], held := [], lcores := [], checks := [], outbox := [], conns := [], wire := [] }

theorem foldl_sansNotes {β : Type} {f : State → β → State} {bs : List β} (hf : ∀ s, ∀ b ∈ bs, (f s b).sansNotes = s.sansNotes) (s : State) :
    (bs.foldl f s).sansNotes = s.sansNotes := by
  induction bs generalizing s with
  | nil => rfl
  | cons b r ih => exact (ih (fun s b hb => hf s b (.tail _ hb)) _).trans (hf s b (.head _))

theorem noteEntry_sansNotes (s : State) (d : Nat) : (s.noteEntry d).sansNotes = s.sansNotes := by
  unfold State.noteEntry
  split <;> rfl

theorem noteEntries_sansNotes (s : State) (a n : Nat) : (s.noteEntries a n).sansNotes = s.sansNotes := by
  unfold State.noteEntries
  split
  · rfl
  · exact foldl_sansNotes (fun s _ _ => noteEntry_sansNotes s _) s

@[simp] theorem own_chip (c o : Nat) : (Loc.chip c o).own = true ↔ o < 0x80000 := by simp [Loc.own, Loc.isPad]

@[simp] theorem own_remote (n a : Nat) : ¬(Loc.remote n a).own = true := Bool.false_ne_true

/-- Only bytes of an instruction store, which are not in a scratchpad, note a change of code (R140). -/
theorem noteLocs_sansNotes {ls : List Loc} (hls : ∀ x ∈ ls, s.ownByte x) : (s.noteLocs ls).sansNotes = s.sansNotes := by
  refine foldl_sansNotes (fun s' l hl => ?_) s
  cases l with
  | dram a => exact noteEntry_sansNotes s' _
  | remote n a => rfl
  | chip c o =>
    have ho := (own_chip c o).1 (hls _ hl).1
    have hno : ¬(0xE0000 ≤ o ∧ o % 4 = 0) := by omega
    simp [hno]

theorem contain_sansNotes (s : State) (p a : Nat) : (s.contain p a).sansNotes = s.sansNotes := rfl

theorem containLines_sansNotes (s : State) (p : Nat) (ls : List Loc) : (s.containLines p ls).sansNotes = s.sansNotes := by
  unfold State.containLines
  split <;> rfl

theorem foldUnit_sansNotes (s : State) (who : Actor) (bs : List Byte) (ls : List Loc) : (s.foldUnit who bs ls).sansNotes = s.sansNotes := by
  unfold State.foldUnit
  split
  · rfl
  · split <;> rfl

theorem release_sansNotes (s : State) (h : Here) (l : Nat) (rel : Option Scope) : (s.release h l rel).sansNotes = s.sansNotes := by
  refine (foldl_sansNotes (f := fun (t : State) (x : Nat × Scope × Nat) => t.pass (· = .sync x.2.2) [.sync (s.wnum + 1 + x.1)]) (fun _ _ _ => rfl) _).trans ?_
  split <;> rfl

theorem enroll_sansNotes (s : State) (h : Here) (l : Nat) (kind : WriteKind) (rel : Option Scope) (ls : List Loc) :
    (s.enroll h l kind rel ls).sansNotes = s.sansNotes := by
  change State.sansNotes (if kind = .plain then { s with wnum := s.wnum + 1 } else s.release h l rel) = s.sansNotes
  split
  · rfl
  · exact release_sansNotes s h l rel

/-! ## A memory after byte writes -/

/-- A memory with one byte replaced. -/
def imagePut (m : Loc → Byte) (p : Byte × Loc) : Loc → Byte := fun x => if x = p.2 then p.1 else m x

theorem imagePut_same (m : Loc → Byte) (v : Byte) (x : Loc) : imagePut m (v, x) x = v := if_pos rfl

theorem imagePut_other (m : Loc → Byte) {p : Byte × Loc} {x : Loc} (h : p.2 ≠ x) : imagePut m p x = m x := if_neg (Ne.symm h)

/-- A memory after byte writes, the first one first. -/
def imageAfter (m : Loc → Byte) (ws : List (Byte × Loc)) : Loc → Byte := ws.foldl imagePut m

theorem imageAfter_cons (m : Loc → Byte) (p : Byte × Loc) (ws : List (Byte × Loc)) :
    imageAfter m (p :: ws) = imageAfter (imagePut m p) ws := rfl

theorem imageAfter_one_same (m : Loc → Byte) (v : Byte) (x : Loc) : imageAfter m [(v, x)] x = v := imagePut_same m v x

theorem imageAfter_one_other {m : Loc → Byte} {v : Byte} {l x : Loc} (h : l ≠ x) : imageAfter m [(v, l)] x = m x := imagePut_other m h

theorem imageAfter_append (m : Loc → Byte) (ws vs : List (Byte × Loc)) : imageAfter m (ws ++ vs) = imageAfter (imageAfter m ws) vs :=
  List.foldl_append

/-- A byte after writes depends on nothing of the memory before but that byte. -/
theorem imageAfter_congr {m n : Loc → Byte} {x : Loc} (h : m x = n x) (ws : List (Byte × Loc)) : imageAfter m ws x = imageAfter n ws x := by
  induction ws generalizing m n with
  | nil => exact h
  | cons p r ih => exact ih (by rw [imagePut, imagePut, h])

theorem imageAfter_other {m : Loc → Byte} {ws : List (Byte × Loc)} {x : Loc} (h : ∀ p ∈ ws, p.2 ≠ x) : imageAfter m ws x = m x := by
  induction ws generalizing m with
  | nil => rfl
  | cons p r ih =>
    rw [imageAfter_cons, ih (fun q hq => h q (.tail _ hq)), imagePut_other m (h p (.head _))]

theorem imageAfter_zip_other {m : Loc → Byte} {bs : List Byte} {ls : List Loc} {x : Loc} (h : x ∉ ls) : imageAfter m (bs.zip ls) x = m x :=
  imageAfter_other (fun _ hp he => h (he.subst (List.of_mem_zip hp).2))

/-- Writes to distinct locations read back. -/
theorem map_imageAfter_zip {bs : List Byte} {ls : List Loc} (m : Loc → Byte) (hn : ls.Nodup) (hlen : bs.length = ls.length) :
    ls.map (imageAfter m (bs.zip ls)) = bs := by
  induction ls generalizing bs m with
  | nil => exact (List.length_eq_zero_iff.1 hlen).symm
  | cons l r ih =>
    cases bs with
    | nil => cases hlen
    | cons b bs =>
      obtain ⟨hl, hr⟩ := List.nodup_cons.1 hn
      have hfirst : imageAfter (imagePut m (b, l)) (bs.zip r) l = b := by
        rw [imageAfter_zip_other hl, imagePut_same]
      rw [List.zip_cons_cons, List.map_cons, imageAfter_cons, hfirst, ih _ hr (Nat.succ.inj hlen)]

/-! ## Changes that put bytes into the memories -/

/-- From `s` to `t` the bytes `ws` are written, in turn, by an agent of key id `key`: the memories change in them alone, as agents of that key
id read them; the device reserve, the store buffers and everything that is no memory stay (R157, R169, R344). -/
structure Stored (s t : State) (key : Nat) (ws : List (Byte × Loc)) : Prop where
  rest : t.sansMemory = s.sansMemory
  sbuf : t.sbuf = s.sbuf
  reserve : ∀ k a, s.reserveStart ≤ a → t.dramByte k a = s.dramByte k a
  bytes : t.byteIn key = imageAfter (s.byteIn key) ws

theorem Stored.reserveStart (w : Stored s t key ws) : t.reserveStart = s.reserveStart :=
  reserveStart_congr ((congrArg State.towers w.rest :))

theorem Stored.ownByte (w : Stored s t key ws) (x : Loc) : t.ownByte x ↔ s.ownByte x := by
  unfold State.ownByte
  rw [w.reserveStart]

theorem Stored.trans (w : Stored s t key ws) (v : Stored t u key vs) : Stored s u key (ws ++ vs) where
  rest := v.rest.trans w.rest
  sbuf := v.sbuf.trans w.sbuf
  reserve k a ha := (v.reserve k a (by rwa [w.reserveStart])).trans (w.reserve k a ha)
  bytes := by rw [v.bytes, w.bytes, imageAfter_append]

/-- What a write notes beside the bytes is no byte. -/
theorem Stored.of_notes (h : t.sansNotes = s.sansNotes) (key : Nat) : Stored s t key [] := by
  have hd : t.dram = s.dram := (congrArg State.dram h :)
  have ht : t.tags = s.tags := (congrArg State.tags h :)
  refine ⟨(congrArg State.sansMemory h :), (congrArg State.sbuf h :), fun k a _ => dramByte_congr hd ht k a, ?_⟩
  funext x
  cases x with
  | dram a => exact dramByte_congr hd ht key a
  | remote n a => rfl
  | chip c o => exact (congrArg (fun s => s.chipByte c o) h :)

theorem Stored.after_notes (h : t.sansNotes = s.sansNotes) (w : Stored t u key ws) : Stored s u key ws := (of_notes h key).trans w

theorem Stored.then_notes (w : Stored s t key ws) (h : u.sansNotes = t.sansNotes) : Stored s u key ws :=
  List.append_nil ws ▸ w.trans (of_notes h key)

/-- A containment notice is no byte (R312). -/
theorem Stored.contained (w : Stored s t key ws) (c : Prop) [Decidable c] (p a : Nat) : Stored s (if c then t.contain p a else t) key ws := by
  split
  · exact w.then_notes (contain_sansNotes t p a)
  · exact w

/-! ### Key ids stay -/

/-- A number in the device reserve stays. -/
theorem Stored.dramNat (w : Stored s t key ws) (k : Nat) {a : Nat} (ha : s.reserveStart ≤ a) (n : Nat) : t.dramNat k a n = s.dramNat k a n := by
  induction n generalizing a with
  | zero => rfl
  | succ n ih => rw [State.dramNat, State.dramNat, w.reserve k a ha, ih (by omega)]

theorem Stored.mm (w : Stored s t key ws) (lo len : Nat) : t.mm lo len = s.mm lo len := by
  simp only [State.mm, State.dramField, w.reserveStart, w.dramNat _ (Nat.le_add_right _ _)]

/-- The partition table stands in the device reserve (R342). -/
theorem Stored.keyOf (w : Stored s t key ws) (hr : s.reserveStart ≤ s.mm 128 64) (p : Nat) : t.keyOf p = s.keyOf p := by
  have hp : s.reserveStart ≤ s.mm 128 64 + 128 * p + 440 / 8 := by omega
  simp only [State.keyOf, State.part, State.dramField, w.mm, w.dramNat _ hp]

/-! ## One byte -/

theorem chipByte_pad (s : State) (c : Nat) {o : Nat} (ho : o < 0x80000) : s.chipByte c o = Machine.getD 0 s.pad (524288 * c + o) := by
  have hk : regionKind o = (0, 0, 0x80000) := if_pos ho
  simp only [State.chipByte, hk]

/-- Scratchpads lie at offsets below 512 KiB of a core's region; the rest of the region is not held with them (R157). -/
theorem chipByte_sansPad (s : State) (m : List Host.Cell) (c : Nat) {o : Nat} (ho : ¬o < 0x80000) :
    ({ s with pad := m } : State).chipByte c o = s.chipByte c o := by
  by_cases hrf : o < 0xC0000
  · have hk : regionKind o = (1, 0x80000, 0x40000) := by rw [regionKind, if_neg ho, if_pos hrf]
    simp only [State.chipByte, hk]
  by_cases hacc : o < 0xE0000
  · have hk : regionKind o = (2, 0xC0000, 0x20000) := by rw [regionKind, if_neg ho, if_neg hrf, if_pos hacc]
    simp only [State.chipByte, hk]
  · have hk : regionKind o = (3, 0xE0000, 0x20000) := by rw [regionKind, if_neg ho, if_neg hrf, if_neg hacc]
    simp only [State.chipByte, hk]

/-- A write of a byte as agents of its key id read: the bytes of a line of another key id read as zero before and after it (R344). -/
theorem dramByte_putDram (s : State) (key a b : Nat) (v : Byte) : (s.putDram key a v).dramByte key b = if b = a then v else s.dramByte key b := by
  by_cases hb : b = a
  · rw [if_pos hb, hb, putDram_same]
  rw [if_neg hb]
  by_cases hl : lineOf b = lineOf a
  · by_cases hk : Machine.getD 0 s.tags (lineOf a) = key
    · exact putDram_other s key a b v hk hb key
    · have hin : 128 * lineOf a ≤ b ∧ b < 128 * lineOf a + 128 := by simp only [lineOf] at hl ⊢; omega
      simp [State.putDram, hk, State.dramByte, hl, getD_put_same, getD_put_ne _ _ _ hb, getD_dropRange, hin]
  · exact putDram_line s key a b v hl key

theorem putDram_sansMemory (s : State) (key a : Nat) (v : Byte) : (s.putDram key a v).sansMemory = s.sansMemory := by
  unfold State.putDram
  split <;> rfl

theorem putDram_sbuf (s : State) (key a : Nat) (v : Byte) : (s.putDram key a v).sbuf = s.sbuf := by
  unfold State.putDram
  split <;> rfl

theorem putDram_chipByte (s : State) (key a : Nat) (v : Byte) (c o : Nat) : (s.putDram key a v).chipByte c o = s.chipByte c o := by
  unfold State.putDram
  split <;> rfl

/-- The reserve starts at a whole line (R169). -/
theorem lineOf_ne_of_reserve {a b : Nat} (ha : a < s.reserveStart) (hb : s.reserveStart ≤ b) : lineOf b ≠ lineOf a := by
  have hd : s.reserveStart % 128 = 0 := by unfold State.reserveStart; omega
  unfold lineOf
  omega

theorem putDram_stored (key : Nat) (v : Byte) {a : Nat} (ha : a < s.reserveStart) : Stored s (s.putDram key a v) key [(v, .dram a)] where
  rest := putDram_sansMemory s key a v
  sbuf := putDram_sbuf s key a v
  reserve k b hb := putDram_line s key a b v (lineOf_ne_of_reserve ha hb) k
  bytes := by
    funext x
    cases x with
    | dram b =>
      by_cases hb : b = a
      · rw [hb, imageAfter_one_same]
        exact putDram_same s key a v
      · rw [imageAfter_one_other (fun he => hb (Loc.dram.inj he).symm)]
        exact (dramByte_putDram s key a b v).trans (if_neg hb)
    | remote n b => rfl
    | chip c o => exact putDram_chipByte s key a v c o

theorem putPad_stored (key : Nat) (v : Byte) (c : Nat) {o : Nat} (ho : o < 0x80000) :
    Stored s { s with pad := put 0 s.pad (524288 * c + o) v } key [(v, .chip c o)] where
  rest := rfl
  sbuf := rfl
  reserve _ _ _ := rfl
  bytes := by
    funext x
    cases x with
    | dram b => rfl
    | remote n b => rfl
    | chip c' o' =>
      by_cases ho' : o' < 0x80000
      · have hread := (chipByte_pad { s with pad := put 0 s.pad (524288 * c + o) v } c' ho').trans (getD_put 0 s.pad (524288 * c + o) (524288 * c' + o') v)
        by_cases hx : Loc.chip c o = .chip c' o'
        · cases hx
          rw [imageAfter_one_same]
          exact hread.trans (if_pos rfl)
        · have hkey : 524288 * c' + o' ≠ 524288 * c + o := fun hk =>
            hx (by rw [show c = c' by omega, show o = o' by omega])
          rw [imageAfter_one_other hx]
          exact hread.trans ((if_neg hkey).trans (chipByte_pad s c' ho').symm)
      · have hx : Loc.chip c o ≠ .chip c' o' := fun he => ho' ((Loc.chip.inj he).2 ▸ ho)
        rw [imageAfter_one_other hx]
        exact chipByte_sansPad s _ c' ho'

theorem putByte_stored (key : Nat) (v : Byte) {l : Loc} (hl : s.ownByte l) : Stored s (s.putByte key v l) key [(v, l)] := by
  cases l with
  | dram a => exact putDram_stored key v (hl.2 a rfl)
  | remote n a => exact absurd hl.1 (own_remote n a)
  | chip c o => exact putPad_stored key v c ((own_chip c o).1 hl.1)

/-- A write beyond the buffer puts its byte into its memory: a scratchpad has no accumulator words. -/
theorem writeByte_sansNotes (who : Actor) (v : Byte) {l : Loc} (hl : s.ownByte l) :
    (s.writeByte who v l).sansNotes = (s.putByte (s.keyOf who.part) v l).sansNotes := by
  cases l with
  | dram a => rfl
  | remote n a => exact absurd hl.1 (own_remote n a)
  | chip c o =>
    have ho := (own_chip c o).1 hl.1
    simp only [State.writeByte, State.setChip, State.ownWord, State.putByte, regionKind, ho, if_true] <;> rfl

/-! ## Units -/

/-- Bytes put one by one. -/
theorem putBytes_stored (key : Nat) (hws : ∀ p ∈ ws, s.ownByte p.2) : Stored s (ws.foldl (fun t p => t.putByte key p.1 p.2) s) key ws := by
  induction ws generalizing s with
  | nil => exact .of_notes rfl key
  | cons p r ih =>
    have w := putByte_stored key p.1 (hws p (.head _))
    exact w.trans (ih (fun q hq => (w.ownByte q.2).2 (hws q (.tail _ hq))))

theorem ownByte_of_mem_zip {bs : List Byte} {ls : List Loc} (hls : ∀ x ∈ ls, s.ownByte x) : ∀ p ∈ bs.zip ls, s.ownByte p.2 :=
  fun _ hp => hls _ (List.of_mem_zip hp).2

theorem span_loop_of_all {α : Type} {p : α → Bool} {l : List α} (h : ∀ x ∈ l, p x = true) (acc : List α) : List.span.loop p l acc = (acc.reverse ++ l, []) := by
  induction l generalizing acc with
  | nil => rw [List.span.loop, List.append_nil]
  | cons x r ih => rw [List.span.loop, h x (.head _), ih (fun y hy => h y (.tail _ hy)), List.reverse_cons, List.append_assoc, List.singleton_append]

theorem span_of_all {α : Type} {p : α → Bool} {l : List α} (h : ∀ x ∈ l, p x = true) : l.span p = (l, []) := span_loop_of_all h []

/-- A write that goes last in coherence order: all of its bytes reach memory (R259). -/
theorem placeUnit_stored (key id : Nat) (bs : List Byte) {ls : List Loc} (hls : ∀ x ∈ ls, s.ownByte x) :
    Stored s (s.placeUnit key id [] bs ls) key (bs.zip ls) := by
  have w : Stored s ((bs.zip ls).foldl (fun t p => t.putByte key p.1 p.2) (s.dropForeign key ls)) key (bs.zip ls) :=
    .after_notes (t := s.dropForeign key ls) rfl (putBytes_stored key (ownByte_of_mem_zip hls))
  have hspan : (s.dropForeign key ls).races.span (fun e => !(ls.contains e.loc && [].contains e.id)) = ((s.dropForeign key ls).races, []) :=
    span_of_all (fun e _ => by rw [List.contains_nil, Bool.and_false, Bool.not_false])
  refine w.then_notes ?_
  simp only [State.placeUnit, hspan, List.any_nil] <;> rfl

theorem writeEach_stored (who : Actor) (hr : s.reserveStart ≤ s.mm 128 64) (bs : List Byte) {ls : List Loc} (hls : ∀ x ∈ ls, s.ownByte x) :
    Stored s (s.writeEach who bs ls) (s.keyOf who.part) (bs.zip ls) := by
  induction bs generalizing s ls with
  | nil => exact .of_notes (by cases ls <;> rfl) _
  | cons v r ih =>
    cases ls with
    | nil => exact .of_notes rfl _
    | cons l q =>
      have w := (putByte_stored (s.keyOf who.part) v (hls l (.head _))).then_notes (writeByte_sansNotes who v (hls l (.head _)))
      have rest := ih (s := s.writeByte who v l) (ls := q) (by rw [w.reserveStart, w.mm]; exact hr) (fun x hx => (w.ownByte x).2 (hls x (.tail _ hx)))
      rw [w.keyOf hr] at rest
      exact w.trans rest

/-- A write of bytes of this device is a write of each. -/
theorem writeUnit_own (who : Actor) (bs : List Byte) {ls : List Loc} (hls : ∀ x ∈ ls, s.ownByte x) :
    s.writeUnit who bs ls = (((s.foldUnit who bs ls).noteLocs ls).containLines who.part ls).writeEach who bs ls := by
  unfold State.writeUnit
  split
  · exact absurd (hls _ (.head _)).1 (own_remote _ _)
  · rfl

theorem ownByte_of_notes (h : t.sansNotes = s.sansNotes) (x : Loc) : t.ownByte x ↔ s.ownByte x := (Stored.of_notes h 0).ownByte x

theorem writeNat_stored (who : Actor) (v : Nat) {ls : List Loc} (hls : ∀ x ∈ ls, s.ownByte x) (hr : s.reserveStart ≤ s.mm 128 64) :
    Stored s (s.writeNat who v ls) (s.keyOf who.part) ((bytesOf v ls.length).zip ls) := by
  unfold State.writeNat
  rw [writeUnit_own who _ hls]
  have hf := foldUnit_sansNotes s who (bytesOf v ls.length) ls
  have hn := (containLines_sansNotes _ who.part ls).trans ((noteLocs_sansNotes (fun x hx => (ownByte_of_notes hf x).2 (hls x hx))).trans hf)
  have w := Stored.of_notes hn 0
  rw [← w.keyOf hr]
  exact .after_notes hn (writeEach_stored who (by rw [w.reserveStart, w.mm]; exact hr) _ (fun x hx => (w.ownByte x).2 (hls x hx)))

theorem laneWrite_stored (h : Here) (l : Nat) (kind : WriteKind) (rel : Option Scope) (v : Nat) {ls : List Loc} (hls : ∀ x ∈ ls, s.ownByte x)
    (hr : s.reserveStart ≤ s.mm 128 64) : Stored s (s.laneWrite h l kind rel v ls) (s.keyOf h.actor.part) ((bytesOf v ls.length).zip ls) := by
  unfold State.laneWrite
  simp only
  split
  · exact writeNat_stored (h.lane l) v hls hr
  · have he := enroll_sansNotes s h l kind rel ls
    have hn := (containLines_sansNotes _ (h.lane l).part ls).trans ((noteLocs_sansNotes (fun x hx => (ownByte_of_notes he x).2 (hls x hx))).trans he)
    exact .after_notes hn (placeUnit_stored _ _ _ (fun x hx => (ownByte_of_notes hn x).2 (hls x hx)))

/-! ## Reads -/

theorem readByte_dram (s : State) (who : Actor) (a : Nat) :
    s.readByte who (.dram a) = (buffered who.core a s.sbuf).getD (s.dramByte (s.keyOf who.part) a) := by
  rw [State.readByte]
  cases buffered who.core a s.sbuf <;> rfl

theorem readByte_of_notes (h : t.sansNotes = s.sansNotes) (who : Actor) (x : Loc) : t.readByte who x = s.readByte who x := by
  have sans (s : State) : s.sansNotes.readByte who x = s.readByte who x := by
    cases x with
    | dram a => exact readByte_congr rfl rfl rfl rfl who a
    | remote n a => rfl
    | chip c o => rfl
  rw [← sans t, h, sans]

/-- What comes from another device no write of this one changes. -/
theorem Stored.readByte_remote (w : Stored s t key ws) (who : Actor) (n a : Nat) : t.readByte who (.remote n a) = s.readByte who (.remote n a) := by
  have ha : t.asks = s.asks := (congrArg State.asks w.rest :)
  have hf : t.fresh = s.fresh := (congrArg State.fresh w.rest :)
  simp only [State.readByte, State.askFor, ha, hf]

/-! ### Writes beyond an empty store buffer -/

/-- An agent whose core buffers no store of a byte reads what has been written to it. -/
theorem Stored.readByte {who : Actor} (w : Stored s t (s.keyOf who.part) ws) (hr : s.reserveStart ≤ s.mm 128 64) (hws : ∀ p ∈ ws, s.ownByte p.2)
    (hb : ∀ a, buffered who.core a s.sbuf = none) (x : Loc) : t.readByte who x = imageAfter (s.readByte who) ws x := by
  cases x with
  | dram a =>
    have hs : s.byteIn (s.keyOf who.part) (.dram a) = s.readByte who (.dram a) := by rw [readByte_dram, hb]; rfl
    rw [← imageAfter_congr hs, ← w.bytes, readByte_dram, w.sbuf, hb, w.keyOf hr]
    rfl
  | remote n a => rw [w.readByte_remote, imageAfter_other (fun p hp he => own_remote n a (by rw [← he]; exact (hws p hp).1))]
  | chip c o =>
    have hs : s.byteIn (s.keyOf who.part) (.chip c o) = s.readByte who (.chip c o) := rfl
    rw [← imageAfter_congr hs, ← w.bytes]
    rfl

/-- A store buffer holds a byte in one of its stores. -/
def Buffered.holds (b : Buffered) (core a : Nat) : Prop := b.core = core ∧ b.addr ≤ a ∧ a < b.addr + b.bytes.length

theorem buffered_cons (core a : Nat) (b : Buffered) (r : List Buffered) : buffered core a (b :: r) =
    (buffered core a r).or (if b.core = core ∧ b.addr ≤ a ∧ a < b.addr + b.bytes.length then b.bytes[a - b.addr]? else none) := by
  rw [buffered]
  cases buffered core a r <;> simp [and_assoc]

theorem buffered_cons_of_not_holds {core a : Nat} {b : Buffered} (h : ¬b.holds core a) (r : List Buffered) : buffered core a (b :: r) = buffered core a r :=
  (buffered_cons core a b r).trans ((congrArg _ (if_neg h)).trans Option.or_none)

theorem buffered_none {core a : Nat} {l : List Buffered} (h : ∀ b ∈ l, ¬b.holds core a) : buffered core a l = none := by
  induction l with
  | nil => rfl
  | cons b r ih => rw [buffered_cons_of_not_holds (h b (.head _)), ih (fun c hc => h c (.tail _ hc))]

/-- A unit of this device, written beyond a store buffer that holds nothing of the core, reads as written, and every other byte as before. -/
theorem Stored.readNat {who : Actor} {v : Nat} {ls : List Loc} (w : Stored s t (s.keyOf who.part) ((bytesOf v ls.length).zip ls)) (hn : ls.Nodup)
    (hls : ∀ x ∈ ls, s.ownByte x) (hr : s.reserveStart ≤ s.mm 128 64) (hb : ∀ b ∈ s.sbuf, b.core ≠ who.core) :
    t.readNat who ls = v % 256 ^ ls.length ∧ t.sansMemory = s.sansMemory ∧ ∀ x, x ∉ ls → t.readByte who x = s.readByte who x := by
  have reads := w.readByte hr (ownByte_of_mem_zip hls) (fun a => buffered_none (fun b hm hh => hb b hm hh.1))
  refine ⟨?_, w.rest, fun x hx => ?_⟩
  · rw [State.readNat, funext reads, map_imageAfter_zip _ hn (bytesOf_length _ _), natOf_bytesOf]
  · rw [reads, imageAfter_zip_other hx]

/-! ## Store buffers (R166) -/

/-- The `n` bytes of device memory from `a` up. -/
def bytesFrom (a n : Nat) : List Loc := (List.range n).map (fun k => .dram (a + k))

@[simp] theorem bytesFrom_length (a n : Nat) : (bytesFrom a n).length = n := by simp [bytesFrom]

theorem mem_bytesFrom {a n : Nat} {x : Loc} : x ∈ bytesFrom a n ↔ ∃ k < n, .dram (a + k) = x := by simp [bytesFrom]

theorem bytesFrom_succ (a n : Nat) : bytesFrom a (n + 1) = .dram a :: bytesFrom (a + 1) n := by
  simp [bytesFrom, List.range_succ_eq_map, Nat.add_right_comm, Nat.add_assoc]

theorem bytesFrom_nodup (a n : Nat) : (bytesFrom a n).Nodup :=
  List.Pairwise.map _ (fun _ _ hjk he => hjk (Nat.add_left_cancel (Loc.dram.inj he))) List.nodup_range

theorem ownByte_bytesFrom {a n : Nat} (h : a + n ≤ s.reserveStart) : ∀ x ∈ bytesFrom a n, s.ownByte x := by
  intro x hx
  obtain ⟨k, hk, rfl⟩ := mem_bytesFrom.1 hx
  exact ⟨rfl, fun b hb => by injection hb; omega⟩

/-- The byte writes of a buffered store. -/
def Buffered.writes (b : Buffered) : List (Byte × Loc) := b.bytes.zip (bytesFrom b.addr b.bytes.length)

theorem imageAfter_writes (m : Loc → Byte) (b : Buffered) (a : Nat) : imageAfter m b.writes (.dram a) =
    (if b.addr ≤ a ∧ a < b.addr + b.bytes.length then b.bytes[a - b.addr]? else none).getD (m (.dram a)) := by
  split
  next h =>
    have hloc : (bytesFrom b.addr b.bytes.length)[a - b.addr]? = some (.dram a) := by
      have hk : a - b.addr < b.bytes.length := by omega
      have ha : b.addr + (a - b.addr) = a := by omega
      simp [bytesFrom, hk, ha]
    have hread := congrArg (·[a - b.addr]?) (map_imageAfter_zip m (bytesFrom_nodup b.addr b.bytes.length) (bytesFrom_length _ _).symm)
    simp only [List.getElem?_map, hloc, Option.map_some] at hread
    rw [← hread]
    rfl
  next h =>
    refine imageAfter_zip_other (fun hx => h ?_)
    obtain ⟨k, hk, hka⟩ := mem_bytesFrom.1 hx
    injection hka with hka
    omega

/-- Performed in order, stores leave in memory the newest byte that the buffer held. -/
theorem imageAfter_performed {core : Nat} {bs : List Buffered} (hbs : ∀ b ∈ bs, b.core = core) (m : Loc → Byte) (a : Nat) :
    imageAfter m (bs.flatMap Buffered.writes) (.dram a) = (buffered core a bs).getD (m (.dram a)) := by
  induction bs generalizing m with
  | nil => rfl
  | cons b r ih =>
    rw [List.flatMap_cons, imageAfter_append, ih (fun c hc => hbs c (.tail _ hc)), buffered_cons, imageAfter_writes]
    cases buffered core a r <;> simp [hbs b (.head _)]

theorem setDramBytes_stored (key : Nat) (bs : List Byte) {a : Nat} (h : a + bs.length ≤ s.reserveStart) :
    Stored s (s.setDramBytes key a bs) key (bs.zip (bytesFrom a bs.length)) := by
  induction bs generalizing s a with
  | nil => exact .of_notes rfl key
  | cons v r ih =>
    rw [List.length_cons] at h
    have w : Stored s (s.setDram key a v) key [(v, .dram a)] := (putDram_stored key v (by omega)).then_notes rfl
    rw [List.length_cons, bytesFrom_succ]
    exact w.trans (ih (by rw [w.reserveStart]; omega))

theorem performStore_stored {b : Buffered} (hb : b.addr + b.bytes.length ≤ s.reserveStart) : Stored s (s.performStore b) b.key b.writes := by
  have hn := noteEntries_sansNotes s b.addr b.bytes.length
  have hb' : b.addr + b.bytes.length ≤ (s.noteEntries b.addr b.bytes.length).reserveStart := by rwa [(Stored.of_notes hn 0).reserveStart]
  unfold State.performStore State.performBytes
  simp only
  split
  · exact (Stored.after_notes hn (setDramBytes_stored b.key b.bytes hb')).contained _ _ _
  · exact (Stored.after_notes hn (placeUnit_stored b.key b.id b.bytes (ownByte_bytesFrom hb'))).contained _ _ _

theorem performStores_stored {bs : List Buffered} (hbs : ∀ b ∈ bs, b.key = key ∧ b.addr + b.bytes.length ≤ s.reserveStart) :
    Stored s (bs.foldl (fun s b => s.performStore b) s) key (bs.flatMap Buffered.writes) := by
  induction bs generalizing s with
  | nil => exact .of_notes rfl key
  | cons b r ih =>
    obtain ⟨hk, hb⟩ := hbs b (.head _)
    have w := performStore_stored hb
    rw [hk] at w
    exact w.trans (ih (fun c hc => by rw [w.reserveStart]; exact hbs c (.tail _ hc)))

/-! ### Performing some of the stores -/

/-- Perform the buffered stores that `q` names, oldest first. -/
def State.flush (s : State) (q : Buffered → Bool) : State :=
  (s.sbuf.filter q).foldl (fun s b => s.performStore b) { s with sbuf := s.sbuf.filter (fun b => !q b) }

theorem flushCore_eq (s : State) (core : Nat) : s.flushCore core = s.flush (fun b => b.core = core) := by
  simp only [State.flushCore, State.flush, decide_not]

theorem flushLine_eq (s : State) (core line : Nat) : s.flushLine core line = s.flush (fun b => b.core = core && lineOf b.addr = line) := rfl

theorem buffered_filter {core a : Nat} {q : Buffered → Bool} {l : List Buffered} (h : ∀ b ∈ l, b.holds core a → q b = true) :
    buffered core a (l.filter q) = buffered core a l := by
  induction l with
  | nil => rfl
  | cons b r ih =>
    have hr := ih (fun c hc => h c (.tail _ hc))
    rw [List.filter_cons]
    split
    next hq => rw [buffered_cons, buffered_cons, hr]
    next hq => rw [buffered_cons_of_not_holds (fun hh => hq (h b (.head _) hh)), hr]

theorem buffered_filter_none {core a : Nat} {q : Buffered → Bool} {l : List Buffered} (h : ∀ b ∈ l, b.holds core a → q b = false) :
    buffered core a (l.filter q) = none :=
  buffered_none (fun b hb hh => by
    obtain ⟨hm, hq⟩ := List.mem_filter.1 hb
    rw [h b hm hh] at hq
    cases hq)

theorem flush_stored {core part : Nat} (hok : s.buffersOk core part) {q : Buffered → Bool} (hcore : ∀ b ∈ s.sbuf, q b = true → b.core = core) :
    Stored { s with sbuf := s.sbuf.filter (fun b => !q b) } (s.flush q) (s.keyOf part) ((s.sbuf.filter q).flatMap Buffered.writes) :=
  performStores_stored (fun b hb => by
    obtain ⟨hm, hq⟩ := List.mem_filter.1 hb
    obtain ⟨hk, -, hres⟩ := hok.2 b hm (hcore b hm hq)
    exact ⟨hk, hres⟩)

/-- The core sees no difference when stores are performed: of each byte all of its stores, or none. -/
theorem flush_readByte {core part : Nat} (hok : s.buffersOk core part) {q : Buffered → Bool} (hcore : ∀ b ∈ s.sbuf, q b = true → b.core = core)
    (hq : ∀ a, (∀ b ∈ s.sbuf, b.holds core a → q b = true) ∨ ∀ b ∈ s.sbuf, b.holds core a → q b = false)
    {o : Actor} (hc : o.core = core) (hp : o.part = part) (x : Loc) : (s.flush q).readByte o x = s.readByte o x := by
  have w := flush_stored hok hcore
  cases x with
  | dram a =>
    have hkey : (s.flush q).keyOf part = s.keyOf part := w.keyOf hok.1 part
    have hmem : (s.flush q).dramByte (s.keyOf part) a = (buffered core a (s.sbuf.filter q)).getD (s.dramByte (s.keyOf part) a) :=
      (congrFun w.bytes (.dram a)).trans (imageAfter_performed (fun b hb => hcore b (List.mem_filter.1 hb).1 (List.mem_filter.1 hb).2) _ a)
    rw [readByte_dram, readByte_dram, w.sbuf, hc, hp, hkey, hmem]
    rcases hq a with hall | hnone
    · rw [buffered_filter_none (q := fun b => !q b) (fun b hb hh => by rw [hall b hb hh]; rfl), buffered_filter hall]
      rfl
    · rw [buffered_filter (q := fun b => !q b) (fun b hb hh => by rw [hnone b hb hh]; rfl), buffered_filter_none hnone]
      rfl
  | remote n a => exact w.readByte_remote o n a
  | chip c i =>
    refine (congrFun w.bytes (.chip c i)).trans (imageAfter_other (fun p hp he => ?_))
    obtain ⟨b, -, hb⟩ := List.mem_flatMap.1 hp
    obtain ⟨k, -, hk⟩ := mem_bytesFrom.1 (List.of_mem_zip hb).2
    cases hk.trans he

theorem flushCore_readByte {core part : Nat} (hok : s.buffersOk core part) {o : Actor} (hc : o.core = core) (hp : o.part = part) (x : Loc) :
    (s.flushCore core).readByte o x = s.readByte o x := by
  rw [flushCore_eq]
  exact flush_readByte hok (fun b _ hb => of_decide_eq_true hb) (fun a => .inl (fun b _ hh => decide_eq_true hh.1)) hc hp x

theorem flushCore_sbuf {core part : Nat} (hok : s.buffersOk core part) : ∀ b ∈ (s.flushCore core).sbuf, b.core ≠ core := by
  rw [flushCore_eq, (flush_stored hok (fun b _ hb => of_decide_eq_true hb)).sbuf]
  intro b hb
  simpa using (List.mem_filter.1 hb).2

/-- A buffered store lies in one line, so a byte has its stores in its own line. -/
theorem lineOf_of_holds {core part a : Nat} (hok : s.buffersOk core part) {b : Buffered} (hm : b ∈ s.sbuf) (hb : b.holds core a) : lineOf b.addr = lineOf a := by
  obtain ⟨hc, hlo, hhi⟩ := hb
  obtain ⟨-, hline, -⟩ := hok.2 b hm hc
  unfold lineOf
  omega

theorem flushLine_readByte {core part : Nat} (hok : s.buffersOk core part) (line : Nat) {o : Actor} (hc : o.core = core) (hp : o.part = part) (x : Loc) :
    (s.flushLine core line).readByte o x = s.readByte o x := by
  rw [flushLine_eq]
  refine flush_readByte hok (fun b _ hb => of_decide_eq_true (Bool.and_eq_true_iff.1 hb).1) (fun a => ?_) hc hp x
  by_cases hl : lineOf a = line
  · exact .inl (fun b hm hh => by simp [hh.1, lineOf_of_holds hok hm hh, hl])
  · exact .inr (fun b hm hh => by simp [lineOf_of_holds hok hm hh, hl])

/-! ### A store enters the buffer -/

/-- Make room in a core's store buffer for a store at `a`: with 32 lines of others in it, its oldest line is performed. -/
def State.roomFor (s : State) (core a : Nat) : State :=
  match s.bufLines core with
  | line :: _ => if 32 ≤ (s.bufLines core).length && !(s.bufLines core).contains (lineOf a) then s.flushLine core line else s
  | [] => s

/-- A store stands last in its core's buffer. -/
def State.append (s : State) (b : Buffered) : State := { s with sbuf := s.sbuf ++ [b] }

theorem bufferStore_eq (s : State) (who : Actor) (v a n id : Nat) : s.bufferStore who v a n id =
    let u := (s.foldUnit who (bytesOf v n) (bytesFrom a n)).roomFor who.core a
    u.append { id := id, core := who.core, part := who.part, key := u.keyOf who.part, addr := a, bytes := bytesOf v n } := by
  have hb : (s.foldUnit who (bytesOf v n) (bytesFrom a n)).sbuf = s.sbuf := (congrArg State.sbuf (foldUnit_sansNotes _ _ _ _) :)
  have hl : (s.foldUnit who (bytesOf v n) (bytesFrom a n)).bufLines who.core = s.bufLines who.core := by rw [State.bufLines, hb]; rfl
  simp only [State.roomFor, hl] <;> rfl

theorem roomFor_eq_self {core a : Nat} (h : (s.bufLines core).length < 32 ∨ lineOf a ∈ s.bufLines core) : s.roomFor core a = s := by
  unfold State.roomFor
  split
  · refine if_neg (fun hfull => ?_)
    simp only [Bool.and_eq_true, decide_eq_true_eq, Bool.not_eq_true', List.contains_eq_mem, decide_eq_false_iff_not] at hfull
    rcases h with h | h
    · omega
    · exact hfull.2 h
  · rfl

theorem roomFor_readByte {core part : Nat} (hok : s.buffersOk core part) (a : Nat) {o : Actor} (hc : o.core = core) (hp : o.part = part) (x : Loc) :
    (s.roomFor core a).readByte o x = s.readByte o x := by
  unfold State.roomFor
  split
  · split
    · exact flushLine_readByte hok _ hc hp x
    · rfl
  · rfl

theorem buffersOk_of_notes {core part : Nat} (h : t.sansNotes = s.sansNotes) (hok : s.buffersOk core part) : t.buffersOk core part := by
  have w := Stored.of_notes h 0
  obtain ⟨hr, hb⟩ := hok
  refine ⟨by rwa [w.reserveStart, w.mm], ?_⟩
  rwa [w.sbuf, w.reserveStart, w.keyOf hr]

theorem buffered_append (core a : Nat) (l : List Buffered) (b : Buffered) : buffered core a (l ++ [b]) =
    (buffered core a [b]).or (buffered core a l) := by
  induction l with
  | nil => simp [buffered]
  | cons c r ih => rw [List.cons_append, buffered_cons, ih, Option.or_assoc, ← buffered_cons]

theorem append_keyOf (s : State) (b : Buffered) (p : Nat) : (s.append b).keyOf p = s.keyOf p := keyOf_congr rfl rfl rfl p

theorem append_readByte_held {b : Buffered} {who : Actor} (hc : b.core = who.core) {k : Nat} {v : Byte} (hk : b.bytes[k]? = some v) :
    (s.append b).readByte who (.dram (b.addr + k)) = v := by
  obtain ⟨hlt, -⟩ := List.getElem?_eq_some_iff.1 hk
  have hnew : buffered who.core (b.addr + k) [b] = some v := by simpa [buffered, hc, hlt] using hk
  rw [readByte_dram, State.append, buffered_append, hnew]
  rfl

theorem append_readByte_other {b : Buffered} {who : Actor} {x : Loc} (h : ∀ a, x = .dram a → ¬b.holds who.core a) :
    (s.append b).readByte who x = s.readByte who x := by
  cases x with
  | dram a =>
    have hnew : buffered who.core a [b] = none := buffered_none (by simpa using h a rfl)
    rw [readByte_dram, readByte_dram, append_keyOf, State.append, buffered_append, hnew]
    rfl
  | remote n a => rfl
  | chip c o => rfl

/-- A buffered store reads back for its core. -/
theorem bufferStore_readByte_held (s : State) (who : Actor) (v a id : Nat) {n j : Nat} (hj : j < n) :
    ((s.bufferStore who v a n id).readByte who (.dram (a + j))).toNat = v / 256 ^ j % 256 := by
  rw [bufferStore_eq, append_readByte_held rfl (bytesOf_getElem? v hj), BitVec.toNat_ofNat]

theorem bufferStore_readByte_other {who : Actor} (hok : s.buffersOk who.core who.part) (v a n id : Nat) {x : Loc} (hx : ∀ j < n, x ≠ .dram (a + j)) :
    (s.bufferStore who v a n id).readByte who x = s.readByte who x := by
  have hn := foldUnit_sansNotes s who (bytesOf v n) (bytesFrom a n)
  rw [bufferStore_eq, append_readByte_other, roomFor_readByte (buffersOk_of_notes hn hok) a rfl rfl, readByte_of_notes hn]
  rintro b rfl ⟨-, hlo, hhi⟩
  simp only [bytesOf_length] at hlo hhi
  exact hx (b - a) (by omega) (congrArg Loc.dram (by omega))

/-- Another core does not see a store enter the buffer, unless a line has to leave. -/
theorem bufferStore_readByte_elsewhere {who o : Actor} (v n id : Nat) {a : Nat} (hroom : (s.bufLines who.core).length < 32 ∨ lineOf a ∈ s.bufLines who.core)
    (ho : o.core ≠ who.core) (x : Loc) : (s.bufferStore who v a n id).readByte o x = s.readByte o x := by
  have hn := foldUnit_sansNotes s who (bytesOf v n) (bytesFrom a n)
  have hb : (s.foldUnit who (bytesOf v n) (bytesFrom a n)).sbuf = s.sbuf := (congrArg State.sbuf hn :)
  have hself := roomFor_eq_self (s := s.foldUnit who (bytesOf v n) (bytesFrom a n)) (core := who.core) (a := a) (by rwa [State.bufLines, hb])
  rw [bufferStore_eq, append_readByte_other (fun b _ hh => ho hh.1.symm), hself, readByte_of_notes hn]

/-! ## The obligation -/

/-- Settles O30: a write beyond the buffers is `Stored`, and a store buffer is its newest bytes over the memories. -/
theorem bytesReadAsWritten : Obligations.BytesReadAsWritten := by
  refine ⟨fun s h l v kind rel ls hn hls hr hb => ?_, fun s who v => ⟨fun ls hn hls hr hb => ?_,
    fun a n id hok => ⟨fun j hj => ?_, fun x hx => ?_, fun hroom o ho x => ?_⟩,
    fun core part hok => ⟨flushCore_sbuf hok, fun o hc hp x => flushCore_readByte hok hc hp x⟩⟩⟩
  · exact (laneWrite_stored h l kind rel v hls hr).readNat hn hls hr hb
  · exact (writeNat_stored who v hls hr).readNat hn hls hr hb
  · exact bufferStore_readByte_held s who v a id hj
  · exact bufferStore_readByte_other hok v a n id hx
  · exact bufferStore_readByte_elsewhere v n id hroom ho x

end Sys2Proof.Machine

/-!
# Special registers, wave controls and arrivals at a phase boundary (R26, R28, R32, R43, R47, R60, R61, R190-R192, R195, R351)

Each instruction here is one of two shared operations applied to a state in which its own effect has already happened: `State.produce` with
`State.retire`, or `State.leave`. The lemmas `gives_of_produce` and `passes_of_leave` say what these leave, so that each clause names the effect alone.
-/

namespace Sys2Proof.Machine

variable {s : State} {h : Here}

/-! ## Guards of an instruction -/

theorem withHere_of_here (hs : s.here = some h) (k : Here → Out) : withHere s k = k h := by simp [withHere, hs]

theorem notInHandler_of_user (hh : h.handler = false) (k : Out) : notInHandler s h k = k := by simp [notInHandler, hh]

theorem notInRegion_of_open (ho : h.w.rfOpen = true) (k : Out) : notInRegion s h k = trap s h kState := by simp [notInRegion, ho]

theorem notInRegion_of_closed (ho : h.w.rfOpen = false) (k : Out) : notInRegion s h k = k := by simp [notInRegion, ho]

theorem detStop_of_det (hd : h.l.det = true) (k : Out) : detStop s h true k = trap s h kDet := by simp [detStop, hd]

theorem detStop_of_free (hd : h.l.det = false) (k : Out) : detStop s h true k = k := by simp [detStop, hd]

/-- A condition on the active threads, read off a Bool. -/
theorem anyLane_iff {p : Thread → Bool} : s.anyLane h p = true ↔ ∃ l ∈ h.lanes, p (s.thread (h.tk l)) = true := by
  simp [State.anyLane]

theorem anyLane_eq_false_iff {p : Thread → Bool} : s.anyLane h p = false ↔ ∀ l ∈ h.lanes, p (s.thread (h.tk l)) = false := by
  simp [State.anyLane]

/-! ## The two shared endings -/

/-- An instruction that acts, reaching `s1`, and then leaves in sequence. -/
theorem passes_of_leave {i : Instr} {s1 : State} {reads : List Reg} (hx : exec i s = .next (s1.leave h reads onward)) :
    Passes i s s1 h reads onward :=
  ⟨_, hx, leave_spec s1 h reads onward⟩

/-- An instruction that acts, reaching `s1`, and then produces `v` without reading a register or raising an event. -/
theorem gives_of_produce {i : Instr} {s1 : State} {d : Reg} {v : Nat → Word} (hx : exec i s = .next ((s1.produce h d false v).retire h [])) :
    Gives i s s1 h [] d v quiet :=
  ⟨_, hx, produce_retire_spec s1 h [] d v [] .nil⟩

/-! ## Window base, yield, frequency request and nop (R26, R47, R192, R351) -/

theorem exec_nop (hs : s.here = some h) : exec .nop s = .next (s.leave h [] onward) := withHere_of_here hs _

theorem exec_wbase (hs : s.here = some h) (hh : h.handler = false) (imm : BitVec 11) :
    exec (.wbase imm) s = if h.R < imm.toNat + 4 then trap s h kRange else if s.anyLane h (·.isOpen) then trap s h kState
      else .next ((s.modLanes h (fun t => { t with wbase := imm.toNat })).leave h [] onward) :=
  (withHere_of_here hs _).trans (notInHandler_of_user hh _)

theorem exec_yield (hs : s.here = some h) (hh : h.handler = false) :
    exec .yield s = .next (if h.l.det || !h.w.progress then s.leave h [] onward
      else (s.leave h [] onward).modWave h.wk (fun w => { w with yielded := h.frag.lanes })) :=
  (withHere_of_here hs _).trans (notInHandler_of_user hh _)

theorem exec_setperf {a : Reg} (r : Ready s h [a] [a]) (hh : h.handler = false) :
    exec (.setperf a) s = if 8 ≤ (s.uniform h a).toNat then trap s h kState
      else .next (if s.fixedPart h.l.part then s.leave h [a] onward
        else ((s.leave h [a] onward).modGroup h.gk (fun g => { g with perf := some ((s.uniform h a).setWidth 3) })).retarget (clusterOf h.core)) :=
  ((withHere_of_ready r _).trans (checked_of_ready r _)).trans (notInHandler_of_user hh _)

theorem wbase_results (hs : s.here = some h) (hh : h.handler = false) (imm : BitVec 11) :
    (h.R < imm.toNat + 4 → exec (.wbase imm) s = trap s h kRange) ∧
    (imm.toNat + 4 ≤ h.R → (∃ l ∈ h.lanes, (s.thread (h.tk l)).isOpen = true) → exec (.wbase imm) s = trap s h kState) ∧
    (imm.toNat + 4 ≤ h.R → (∀ l ∈ h.lanes, (s.thread (h.tk l)).isOpen = false) →
      ∃ s1, EachThread s s1 h (fun _ t => { t with wbase := imm.toNat }) ∧ Passes (.wbase imm) s s1 h [] onward) := by
  rw [exec_wbase hs hh]
  refine ⟨fun hR => if_pos hR, fun hR ho => ?_, fun hR ho => ⟨_, modThreads_each s h _, passes_of_leave ?_⟩⟩
  · rw [if_neg (by omega), if_pos (anyLane_iff.2 ho)]
  · rw [exec_wbase hs hh, if_neg (by omega), if_neg (by simp [anyLane_eq_false_iff.2 ho])]
    rfl

theorem yield_results (hs : s.here = some h) (hh : h.handler = false) :
    (h.l.det = true ∨ h.w.progress = false → Passes .yield s s h [] onward) ∧
    (h.l.det = false → h.w.progress = true → ∃ t, Retired s t h [] onward ∧
      exec .yield s = .next (t.modWave h.wk (fun w => { w with yielded := h.frag.lanes }))) := by
  refine ⟨fun hq => passes_of_leave ?_, fun hd hp => ⟨_, leave_spec s h [] onward, ?_⟩⟩
  · rw [exec_yield hs hh, if_pos (by simpa using hq)]
  · rw [exec_yield hs hh, if_neg (by simp [hd, hp])]

theorem setperf_results {a : Reg} (r : Ready s h [a] [a]) (hh : h.handler = false) :
    (8 ≤ (s.uniform h a).toNat → exec (.setperf a) s = trap s h kState) ∧
    ((s.uniform h a).toNat < 8 → s.fixedPart h.l.part = true → Passes (.setperf a) s s h [a] onward) ∧
    ((s.uniform h a).toNat < 8 → s.fixedPart h.l.part = false → ∃ t, Retired s t h [a] onward ∧
      exec (.setperf a) s = .next ((t.modGroup h.gk (fun g => { g with perf := some (BitVec.ofNat 3 (s.uniform h a).toNat) })).retarget (h.core / 4))) := by
  refine ⟨fun hv => ?_, fun hv hf => passes_of_leave ?_, fun hv hf => ⟨_, leave_spec s h [a] onward, ?_⟩⟩
  · rw [exec_setperf r hh, if_pos hv]
  · rw [exec_setperf r hh, if_neg (by omega), if_pos hf]
  · rw [exec_setperf r hh, if_neg (by omega), if_neg (by simp [hf])]
    rfl

/-- Settles O24, instruction by instruction. -/
theorem threadAndWaveControls : Obligations.ThreadAndWaveControls := fun _ _ _ imm hs =>
  ⟨passes_of_leave (exec_nop hs), fun hh =>
    have ⟨hrange, hopen, hset⟩ := wbase_results hs hh imm
    have ⟨hplain, hyields⟩ := yield_results hs hh
    ⟨hrange, hopen, hset, hplain, hyields, fun r => setperf_results r hh⟩⟩

/-! ## Special registers (R28, R43, R60, R61, R195) -/

theorem exec_rdsr {d : Reg} (r : Ready s h [d] []) (x : SReg) :
    exec (.rdsr d x) s = .next (((s.sregFix h x).produce h d false (s.sreg h x)).retire h []) :=
  (withHere_of_ready r _).trans (checked_of_ready r _)

theorem exec_wrsr {a : Reg} (r : Ready s h [a] [a]) (x : SReg) : exec (.wrsr x a) s = .next ((s.setSreg h x a).leave h [a] onward) :=
  (withHere_of_ready r _).trans (checked_of_ready r _)

/-- A read that fixes no other register gives each active lane the register's value. -/
theorem writes_rdsr {d : Reg} (r : Ready s h [d] []) {x : SReg} (hfix : s.sregFix h x = s) : Writes (.rdsr d x) s h [] d (s.sreg h x) quiet :=
  gives_of_produce (by rw [exec_rdsr r, hfix])

/-- A write leaves the state that `assignSreg` names. -/
theorem passes_wrsr {a : Reg} (r : Ready s h [a] [a]) (x : SReg) : Passes (.wrsr x a) s (s.setSreg h x a) h [a] onward :=
  passes_of_leave (exec_wrsr r x)

theorem sreg_cluster : s.sreg h .cluster = fun _ => if h.l.det then 0 else wd (h.core / 4 % 32) :=
  funext fun _ => apply_ite wd _ _ _

theorem sreg_die : s.sreg h .die = fun _ => if h.l.det then 0 else wd (h.core / 128) :=
  funext fun _ => apply_ite wd _ _ _

/-- `%pstate`: the open flag over the bank number (R61). -/
theorem flag_append_bank (o : Bool) (b : BitVec 3) : (0#28 ++ (BitVec.ofBool o ++ b) : Word) = wd ((if o then 8 else 0) + b.toNat) := by
  revert o b
  decide

theorem sreg_pstate : s.sreg h .pstate = fun l => wd ((if (s.thread (h.tk l)).isOpen then 8 else 0) + (s.thread (h.tk l)).bank.toNat) :=
  funext fun _ => flag_append_bank _ _

/-- `%fair` keeps the low half of what is written, and at least 16 (R28). -/
theorem fairOf_eq (u : Word) : fairOf u = BitVec.ofNat 16 (max 16 (u.toNat % 2 ^ 16)) := by
  have hlow : (u.setWidth 16).toNat = u.toNat % 2 ^ 16 := BitVec.toNat_setWidth 16 u
  change (if (u.setWidth 16).toNat < 16 then 16 else u.setWidth 16) = _
  rw [← hlow]
  split
  · rw [Nat.max_eq_left (by omega)]
    rfl
  · rw [Nat.max_eq_right (by omega), BitVec.ofNat_toNat, BitVec.setWidth_eq]

/-- What each register that a read leaves as it is gives in lane `l` (R60, R61). -/
def readValues (s : State) (h : Here) : List (SReg × (Nat → Word)) :=
  let thr := fun l => s.thread (h.tk l)
  [(.lane, fun l => wd l), (.wave, fun _ => wd h.wave), (.group, fun _ => wd h.g.gid), (.role, fun _ => wd (h.l.field (144 + 2 * h.wave) 2)),
    (.core, fun _ => wd (if h.l.det then h.g.lcore else h.core % 4)), (.cluster, fun _ => if h.l.det then 0 else wd (h.core / 4 % 32)),
    (.die, fun _ => if h.l.det then 0 else wd (h.core / 128)), (.det, fun _ => if h.l.det then 1 else 0), (.iter, fun l => (thr l).iter),
    (.prop, fun l => (thr l).prop), (.acpt, fun l => (thr l).acpt),
    (.pstate, fun l => wd ((if (thr l).isOpen then 8 else 0) + (thr l).bank.toNat)), (.wbase, fun l => wd (thr l).wbase),
    (.clockh, fun l => (thr l).clockh), (.ptph, fun l => (thr l).ptph), (.progress, fun _ => if (s.wave h.wk).progress then 1 else 0),
    (.fair, fun _ => (s.wave h.wk).fair.setWidth 32), (.gkeyl, fun _ => h.g.gkeyl), (.gkeyh, fun _ => h.g.gkeyh), (.dkeyl, fun _ => h.g.dkeyl),
    (.dkeyh, fun _ => h.g.dkeyh)]

/-- A read of one of these changes nothing and gives its value. -/
theorem sreg_of_readValues : ∀ p ∈ readValues s h, s.sregFix h p.1 = s ∧ s.sreg h p.1 = p.2 := by
  simp only [readValues, List.forall_mem_cons]
  refine ⟨?lane, ?wave, ?group, ?role, ?core, ?cluster, ?die, ?det, ?iter, ?prop, ?acpt, ?pstate, ?wbase, ?clockh, ?ptph, ?progress, ?fair, ?gkeyl, ?gkeyh,
    ?dkeyl, ?dkeyh, List.forall_mem_nil _⟩
  case cluster => exact ⟨rfl, sreg_cluster⟩
  case die => exact ⟨rfl, sreg_die⟩
  case pstate => exact ⟨rfl, sreg_pstate⟩
  all_goals exact ⟨rfl, rfl⟩

/-- What a write of `u` leaves in each writable register of wave or group scope but the shapes (R60). -/
def writtenStates (s : State) (h : Here) (u : Word) : List (SReg × State) :=
  [(.progress, s.modWave h.wk (fun w => { w with progress := u.getLsbD 0 })),
    (.fair, s.modWave h.wk (fun w => { w with fair := BitVec.ofNat 16 (max 16 (u.toNat % 2 ^ 16)) })),
    (.gkeyl, s.modGroup h.gk (fun g => { g with gkeyl := u })), (.gkeyh, s.modGroup h.gk (fun g => { g with gkeyh := u })),
    (.dkeyl, s.modGroup h.gk (fun g => { g with dkeyl := u })), (.dkeyh, s.modGroup h.gk (fun g => { g with dkeyh := u }))]

theorem setSreg_of_writtenStates (a : Reg) : ∀ p ∈ writtenStates s h (s.uniform h a), s.setSreg h p.1 a = p.2 := by
  simp only [writtenStates, List.forall_mem_cons, ← fairOf_eq]
  exact ⟨rfl, rfl, rfl, rfl, rfl, rfl, List.forall_mem_nil _⟩

/-- Settles O23: a read gives `sreg` over the state that `sregFix` leaves, a write leaves what `setSreg` names. -/
theorem specialRegisters : Obligations.SpecialRegisters := fun s h _ a _ =>
  ⟨fun r => ⟨fun p hp => (sreg_of_readValues p hp).2 ▸ writes_rdsr r (sreg_of_readValues p hp).1, fun _ => writes_rdsr r rfl,
      fun _ _ => writes_rdsr r rfl, fun _ => writes_rdsr r rfl, ⟨_, modThreads_each s h _, gives_of_produce (exec_rdsr r .clock)⟩,
      ⟨_, modThreads_each s h _, gives_of_produce (exec_rdsr r .ptpl)⟩⟩,
    fun r => ⟨fun p hp => setSreg_of_writtenStates a p hp ▸ passes_wrsr r p.1, fun n j => passes_wrsr r (.shape n j),
      ⟨_, modThreads_each s h _, passes_wrsr r .prop⟩, ⟨_, modThreads_each s h _, passes_wrsr r .acpt⟩⟩⟩

/-! ## Arriving at the phase boundary (R32, R190, R191) -/

/-- The fragment at the cursor stands in its wave. -/
theorem here_frag_mem (hs : s.here = some h) : h.frag ∈ (s.wave h.wk).frags := by
  simp only [State.here] at hs
  split at hs
  · contradiction
  · split at hs
    · contradiction
    · next hf =>
      obtain rfl := Option.some.inj hs
      exact List.mem_of_find?_eq_some hf

/-- The threads that arrive take the end flag from register `a`. -/
def State.markArrivals (s : State) (h : Here) (a : Reg) : State :=
  h.lanes.foldl (fun t l => t.modThread (h.tk l) (fun th => { th with endFlag := s.reg h l a ≠ 0, atPhase := true })) s

theorem markArrivals_each (s : State) (h : Here) (a : Reg) :
    EachThread s (s.markArrivals h a) h (fun l th => { th with endFlag := s.reg h l a ≠ 0, atPhase := true }) :=
  modThreads_each s h _

/-- The arrival, counted as a retirement; the fragment does not move yet. -/
def State.countArrival (s : State) (h : Here) (a : Reg) (latch : Bool) : State := (((s.markArrivals h a).unproduce h latch).retireCount h []).2

/-- The fragment as it waits at the boundary from now on, with the classes of a numeric-event trap that its count has raised. -/
def State.arrivedFrag (s : State) (h : Here) (a : Reg) (latch : Bool) (f : Frag) : Frag :=
  { f with wait := .phase, retired := s.now h, since := (s.countArrival h a latch).sinceNow h,
           nev := f.nev ||| (((s.markArrivals h a).unproduce h latch).retireCount h []).1, xfer := 0, kept := none }

/-- An arrival is that count, with the fragment put to wait where it stands. -/
theorem arrivePhase_eq (s : State) (h : Here) (a : Reg) (latch : Bool) :
    s.arrivePhase h a latch = ((s.countArrival h a latch).modFrag h (s.arrivedFrag h a latch)).modWave h.wk
      (fun w => { w with issued := s.now h, yielded := 0 }) := rfl

/-- What no change of threads touches stays. -/
theorem EachThread.field {t : State} {f : Nat → Thread → Thread} (e : EachThread s t h f) {β : Type} (π : State → β)
    (hπ : ∀ x : State, π x = π { x with threads := [] }) : π t = π s := by rw [hπ, e.rest, ← hπ]

section arrive
variable (s : State) (h : Here) (a : Reg) (latch : Bool)

theorem unproduce_field {β : Type} (π : State → β) (hπ : ∀ x : State, π x = π { x with threads := [] }) : π (s.unproduce h latch) = π s := by
  rw [hπ, unproduce_else, ← hπ]

/-- Beside threads, the counts of the group and its logical core, and notices, counting changes nothing. -/
theorem countArrival_field {β : Type} (π : State → β) (hthreads : ∀ x : State, π x = π { x with threads := [] })
    (hcounts : ∀ x : State, π x = π { x with groups := [], lcores := [], outbox := [], conns := [], wire := [] }) :
    π (s.countArrival h a latch) = π s := by
  rw [State.countArrival, retireCount_field _ _ _ π hcounts, unproduce_field _ _ _ π hthreads, (markArrivals_each s h a).field π hthreads]

theorem arrivePhase_thread_eq (k : Nat) : (s.arrivePhase h a latch).thread k = ((s.markArrivals h a).unproduce h latch).thread k := by
  rw [arrivePhase_eq]
  exact retireCount_thread _ h [] k

theorem arrivePhase_thread {l : Nat} (hl : l ∈ h.lanes) :
    (s.arrivePhase h a latch).thread (h.tk l) = { s.thread (h.tk l) with
      endFlag := decide (s.reg h l a ≠ 0), atPhase := true, depth := if latch then (s.thread (h.tk l)).depth else 0 } := by
  rw [arrivePhase_thread_eq, unproduce_thread _ h latch hl, (markArrivals_each s h a).lane l hl]
  cases latch <;> rfl

theorem arrivePhase_thread_other {k : Nat} (hk : ∀ l ∈ h.lanes, k ≠ h.tk l) : (s.arrivePhase h a latch).thread k = s.thread k := by
  rw [arrivePhase_thread_eq, unproduce_thread_other _ h latch hk, (markArrivals_each s h a).others k hk]

theorem arrivePhase_group (k : Nat) : (s.arrivePhase h a latch).group k = (s.countArrival h a latch).group k := by
  rw [arrivePhase_eq]
  rfl

theorem marked_group (k : Nat) : ((s.markArrivals h a).unproduce h latch).group k = s.group k := by
  rw [unproduce_field _ _ _ (fun x => x.group k) (fun _ => rfl), (markArrivals_each s h a).field (fun x => x.group k) (fun _ => rfl)]

theorem arrivePhase_counted : Counted s (s.arrivePhase h a latch) h quiet := by
  intro g hg
  obtain ⟨g', hg', -, hsame, hcount⟩ := retireCount_group ((s.markArrivals h a).unproduce h latch) h [] ((marked_group s h a latch h.gk).trans hg)
  refine ⟨g', (arrivePhase_group s h a latch h.gk).trans hg', fun hh => ⟨(hcount hh).1, fun k _ => ?_⟩, hsame⟩
  rw [(hcount hh).2, count_evtc g [] .nil]
  rfl

theorem arrivePhase_group_other {k : Nat} (hk : k ≠ h.gk) : (s.arrivePhase h a latch).group k = s.group k := by
  rw [arrivePhase_group, State.countArrival, retireCount_group_other _ h [] hk, marked_group]

theorem modWave_kept (k : Nat) (f : Wave → Wave) : (s.modWave k f).kept = s.kept := rfl

theorem arrivePhase_kept : (s.arrivePhase h a latch).kept = s.kept := by
  rw [arrivePhase_eq, modWave_kept, State.modFrag, modWave_kept, countArrival_field s h a latch State.kept (fun _ => rfl) (fun _ => rfl)]

theorem arrivePhase_rf : (s.arrivePhase h a latch).rf = s.rf := by
  rw [arrivePhase_eq, modWave_rf, modFrag_rf, countArrival_field s h a latch State.rf (fun _ => rfl) (fun _ => rfl)]

theorem countArrival_wave (k : Nat) : (s.countArrival h a latch).wave k = s.wave k :=
  countArrival_field s h a latch (fun x => x.wave k) (fun _ => rfl) (fun _ => rfl)

theorem arrivePhase_wave_other {k : Nat} (hk : k ≠ h.wk) : (s.arrivePhase h a latch).wave k = s.wave k := by
  rw [arrivePhase_eq, modWave_other _ _ _ _ hk, State.modFrag, modWave_other _ _ _ _ hk, countArrival_wave]

theorem arrivePhase_waits (hs : s.here = some h) :
    ∃ f ∈ ((s.arrivePhase h a latch).wave h.wk).frags, f.lanes = h.frag.lanes ∧ f.pc = h.frag.pc ∧ f.wait = .phase := by
  refine ⟨s.arrivedFrag h a latch h.frag, ?_, rfl, rfl, rfl⟩
  rw [arrivePhase_eq, modWave_same, State.modFrag, modWave_same, countArrival_wave]
  exact List.mem_map.2 ⟨h.frag, here_frag_mem hs, if_pos rfl⟩

/-- From `s` to `t` the fragment has arrived at the phase boundary by an instruction that reads a latch or none (R32, R190). -/
def PhaseReached (s t : State) (h : Here) (a : Reg) (latch : Bool) : Prop :=
  (∀ l ∈ h.lanes, t.thread (h.tk l) = { s.thread (h.tk l) with
    endFlag := decide (s.reg h l a ≠ 0), atPhase := true, depth := if latch then (s.thread (h.tk l)).depth else 0 }) ∧
  (∀ k, (∀ l ∈ h.lanes, k ≠ h.tk l) → t.thread k = s.thread k) ∧ Counted s t h quiet ∧ t.kept = s.kept ∧ t.rf = s.rf ∧
  (∀ k, k ≠ h.gk → t.group k = s.group k) ∧ (∀ k, k ≠ h.wk → t.wave k = s.wave k) ∧
  ∃ f ∈ (t.wave h.wk).frags, f.lanes = h.frag.lanes ∧ f.pc = h.frag.pc ∧ f.wait = .phase

theorem arrivePhase_reached (hs : s.here = some h) : PhaseReached s (s.arrivePhase h a latch) h a latch :=
  ⟨fun _ hl => arrivePhase_thread s h a latch hl, fun _ hk => arrivePhase_thread_other s h a latch hk, arrivePhase_counted s h a latch,
    arrivePhase_kept s h a latch, arrivePhase_rf s h a latch,
    fun _ hk => arrivePhase_group_other s h a latch hk, fun _ hk => arrivePhase_wave_other s h a latch hk, arrivePhase_waits s h a latch hs⟩

end arrive

theorem exec_phase {a : Reg} (r : Ready s h [a] [a]) (hh : h.handler = false) :
    exec (.phase a) s = notInRegion s h (.next (s.arrivePhase h a (readsLatch [a]))) :=
  ((withHere_of_ready r _).trans (checked_of_ready r _)).trans (notInHandler_of_user hh _)

section phasew
variable {a b : Reg} {slot : BitVec 5}

/-- The checks of `phasew` before its record (R191). -/
theorem exec_phasew (q : Ready s h [a, b] [a, b]) (hh : h.handler = false) :
    ∃ located : Out, exec (.phasew slot a b) s = detStop s h true (notInRegion s h located) ∧
      (∀ f, s.spot h (h.g.shapeRec slot.toNat) 0 .read (fmtWord (h.g.shapeRec slot.toNat).fmt) false = .error f →
        located = trapLoc s h (lowest h.frag.lanes, f) 0) ∧
      (∀ ls, s.spot h (h.g.shapeRec slot.toNat) 0 .read (fmtWord (h.g.shapeRec slot.toNat).fmt) false = .ok ls →
        located = if (h.g.shapeRec slot.toNat).space ≠ 0 then trap s h kState
          else .next ((s.arrivePhase h a (readsLatch [a, b])).modGroup h.gk (fun g =>
            { g with phasew := h.lanes.foldl (fun m l => insert m (32 * h.wave + l) (h.g.shapeRec slot.toNat, s.uniform h b)) g.phasew }))) := by
  refine ⟨_, ((withHere_of_ready q _).trans (checked_of_ready q _)).trans (notInHandler_of_user hh _), fun f hf => ?_, fun ls hls => ?_⟩
  · simp only [hf]
  · simp only [hls]

end phasew

/-- Settles O27: both words arrive by `arrivePhase`; `phasew` keeps its condition beside. -/
theorem phaseArrivals : Obligations.PhaseArrivals := by
  intro s h slot a b hh arrived r
  refine ⟨fun q => ⟨fun ho => ?_, fun ho => ⟨_, ?_, arrivePhase_reached s h a _ q.here⟩⟩, fun q => ?_⟩
  · rw [exec_phase q hh, notInRegion_of_open ho]
  · rw [exec_phase q hh, notInRegion_of_closed ho]
  obtain ⟨located, hx, herror, hok⟩ := exec_phasew (slot := slot) q hh
  rw [hx]
  refine ⟨fun hd => detStop_of_det hd _, fun hd ho => ?_, fun hd ho ⟨ls, hls⟩ => ⟨fun hsp => ?_, fun hsp => ⟨_, arrivePhase_reached s h a _ q.here, ?_⟩⟩,
    fun f hd ho hf => ?_⟩
  · rw [detStop_of_free hd, notInRegion_of_open ho]
  · rw [detStop_of_free hd, notInRegion_of_closed ho, hok ls hls, if_pos hsp]
  · rw [detStop_of_free hd, notInRegion_of_closed ho, hok ls hls, if_neg (fun hne => hne hsp)]
  · rw [detStop_of_free hd, notInRegion_of_closed ho, herror f hf]

end Sys2Proof.Machine

/-!
# A launch number listed twice (R35, R313)

`Obligations.LaunchesStartAndEnd` speaks of every `State`, also of one whose map of launches lists a number more than once. `State.launch` reads the
first entry of a number, but `State.queueLen` counts them all, and a write of a launch keeps one entry of its number (`State.setLaunch`). In
`crowdedState` the queue of partition 0 is full by repetition alone. The statement judges whether the heir of the slot can go on by the queue
before the group's end is noted in its launch; `endGroup` asks after that write, which has made room.
-/

namespace Sys2Proof.Machine

/-- The launch whose only group ends; launch 1 succeeds it. -/
def endingLaunch : Launch := { Launch.init with succ := some 1 }

/-- A chained launch that no group has entered, whose record names a successor (`inherit.next`, bits 320 to 383) that needs an entry of the queue. -/
def linkingLaunch : Launch := { Launch.init with raw := 1#2048 <<< 328, chained := true }

/-- The group of launch 0 in slot 0 of core 0. -/
def endingGroup : Group := Group.blank 0 0 0 0 0

/-- Every thread of the group of launch 0 stands at the phase boundary with its end flag set; partition 0 is valid, and number 0 is listed 257 times,
256 of them as entries of the queue. -/
def crowdedState : State :=
  { State.reset with
    dram := [(0, 1)], tags := [(0, reserveKey)]
    launches := (0, endingLaunch) :: (1, linkingLaunch) :: List.replicate 256 (0, { Launch.init with queued := true })
    groups := [(0, endingGroup)]
    threads := (List.range 32).map (fun k => (k, { Thread.init with endFlag := true, atPhase := true })) }

/-- The slot of key `gk` holds a group in the state that an outcome answers. -/
def holdsGroup (gk : Nat) (o : Out) : Bool := match o with | .next t => (t.group gk).isSome | _ => false

/-- The boundary has occurred, and nothing holds it back or makes it fail. -/
theorem crowdedState_at_boundary :
    (crowdedState.launch 0).dead.contains endingGroup.gid = false ∧
    ¬(endingGroup.frozen = true ∨ crowdedState.allIn 0 (crowdedState.launch 0).waves (·.atPhase) = false) ∧
    crowdedState.boundaryWaits 0 0 endingGroup = false ∧ crowdedState.boundaryFails 0 (crowdedState.launch 0).waves endingGroup = false ∧
    (crowdedState.phaseRecord (crowdedState.launch 0) 0 endingGroup).threads = [] := by decide +kernel

/-- Every listed number lies below the length of the list, and the launch of the group and its successor are listed. -/
theorem crowdedState_listed : (∀ p ∈ crowdedState.launches, p.1 < crowdedState.launches.length) ∧ (find crowdedState.launches 0).isSome = true ∧
    ∀ m, (crowdedState.launch 0).succ = some m → (find crowdedState.launches m).isSome = true := by decide +kernel

theorem crowdedState_queue_full : crowdedState.queueLen (crowdedState.launch 1).part = 256 := by decide +kernel

/-- Before the end is noted the queue has no entry for the successor that launch 1 names. -/
theorem crowdedState_heir_blocked : ¬((crowdedState.launch 1).chained = false ∨ (crowdedState.launch 1).admitted = true ∨
    (crowdedState.launch 1).field 320 64 = 0 ∨ crowdedState.queueLen (crowdedState.launch 1).part < 256) := by
  rw [crowdedState_queue_full]
  decide +kernel

/-- The model passes the slot on at once. -/
theorem crowdedState_heir_goes : holdsGroup 0 (exec (.phaseBoundary 0 0) crowdedState) = true := by decide +kernel

/-- Refutes O51: at the end of the group of `crowdedState` the slot must stay empty by the statement, and launch 1 takes it. -/
theorem not_launchesStartAndEnd : ¬ Obligations.LaunchesStartAndEnd := by
  rintro ⟨-, -, -, -, -, hboundary, -⟩
  obtain ⟨hdead, hstands, hwaits, hfails, hthreads⟩ := crowdedState_at_boundary
  obtain ⟨-, -, -, -, -, hleaves⟩ := hboundary crowdedState 0 0 endingGroup (by decide) rfl
  obtain ⟨-, -, hends⟩ := hleaves hdead hstands (List.forall_mem_nil _) rfl rfl
  obtain ⟨t, hrun, -, hended⟩ := hends hwaits hfails crowdedState_listed
  obtain ⟨-, -, hheir⟩ := hended hthreads
  obtain ⟨hempty, -⟩ := (hheir 1 rfl).1 (fun hnow => crowdedState_heir_blocked hnow.2.2)
  have hgoes := crowdedState_heir_goes
  rw [hrun, holdsGroup, show t.group 0 = none from hempty] at hgoes
  exact Bool.false_ne_true hgoes

end Sys2Proof.Machine

/-!
# The checks of register fields, and what reset leaves (R46, R51, R63, R73, R294, R301)

Every instruction word is checked before it acts: its privilege, then its register fields, then the latches that it reads. `ChecksFirst` says this of
one instruction and `exec_checks` of all, so that the two traps follow from what `checked` answers.
-/

namespace Sys2Proof.Machine

variable {s : State} {h : Here}

/-! ## The checks of a word's register fields (R46, R51, R73) -/

/-- The privilege that an instruction needs before the checks of its fields (R73, R293). -/
def Granted (h : Here) : Instr → Prop
  | .rdpr _ _ | .wrpr _ _ | .hwr _ _ | .hrd _ _ => h.level ≠ 0
  | .ctxsv _ _ | .ctxld _ _ | .tlbinv _ _ | .mlicgv _ | .slotclr _ => h.level = 2
  | _ => True

/-- The instruction goes through the checks of its fields before anything else, or it has no field to check. -/
def ChecksFirst (s : State) (h : Here) (i : Instr) : Prop :=
  (∃ k, exec i s = checked s h i.named i.sources k) ∨ (i.named = [] ∧ i.sources = [])

theorem checked_of_range (k : Out) {named reads : List Reg} (hr : s.rangeFails h named ≠ 0) :
    checked s h named reads k = trapIn s h kRange (s.rangeFails h named) := if_pos hr

theorem checked_of_latch (k : Out) {named reads : List Reg} (hr : s.rangeFails h named = 0) (hl : s.latchFails h reads ≠ 0) :
    checked s h named reads k = trapIn s h kLatch (s.latchFails h reads) := by
  rw [checked, if_neg (fun hn => hn hr), if_pos hl]

/-- A window register is no latch. -/
theorem latchFails_window {a : Reg} (ha : windowOk a = true) : s.latchFails h [a] = 0 := by
  have : a.toNat ≤ 123 := by simpa [windowOk] using ha
  exact maskWhere_eq_zero (fun l _ => by simp; omega)

theorem latchFails_nil : s.latchFails h [] = 0 := maskWhere_eq_zero (fun _ _ => rfl)

theorem rangeFails_nil : s.rangeFails h [] = 0 := maskWhere_eq_zero (fun _ _ => rfl)

/-- The checks of `mcfg` name no source: its field is a window register. -/
theorem checked_window {a : Reg} (ha : windowOk a = true) (named : List Reg) (k : Out) : checked s h named [] k = checked s h named [a] k := by
  rw [checked, checked, latchFails_window ha, latchFails_nil]

theorem regRange_two (d : Reg) : regRange d 2 = [d, regPlus d 1] := by
  simp [regRange, regPlus, List.range_succ]

theorem needsLevel_of_granted (hg : h.level ≠ 0) (k : Out) : needsLevel s h k = k := if_neg hg

theorem handlerOnly_of_granted (hg : h.level ≠ 0) (named reads : List Reg) (k : Out) :
    handlerOnly s h named reads k = checked s h named reads (if h.level = 2 then trap s h kState else k) := if_neg hg

theorem firmwareOnly_of_granted (hg : h.level = 2) (k : Out) : firmwareOnly s h k = k := if_neg (fun hn => hn hg)

/-- The list of fields may be written in another way. -/
theorem checksFirst_of_named {i : Instr} {named : List Reg} {k : Out} (hn : i.named = named) (hx : exec i s = checked s h named i.sources k) :
    ChecksFirst s h i := .inl ⟨k, hn ▸ hx⟩

/-- The fields of `popen` are the registers of its bank (R153). -/
theorem popen_named {k : BitVec 11} (hk : k.toNat ≤ 6) :
    (Instr.popen k).named = (List.range 16).map (fun j => BitVec.ofNat 7 (16 * k.toNat + j)) := by
  rw [Instr.named, regRange, BitVec.toNat_ofNat, Nat.mod_eq_of_lt (by omega)]

/-- Every instruction checks its fields first (R73), once its privilege is granted (R293). -/
theorem exec_checks (hs : s.here = some h) {i : Instr} (hi : i.wellFormed = true) (hg : Granted h i) : ChecksFirst s h i := by
  cases i
  case licenceGrant | mmaOperationEnd | mdrainOperationEnd | copyOperationStart | copyOperationEnd | wneTimeout | codeLoadEnd | collectiveRun
      | collectiveEnd | hangWatchdogExpiry | scallAggregationExpiry | saveWatchdogExpiry | pendingLaunchAccept | groupAdmission | phaseBoundary
      | groupReadmission | phasewEvaluation | launchCompletion | activeSetSwap | pendingLimitExpiry | preemptionSave | contextRestore
      | detPreemptionFold | steelyardGrant | operatingPointStepEnd | packetLanding | transportFrameReceive | transportAckTimer
      | transportRetryTimeout | ptpEventMessage | mgmtSubmitLaunch | mgmtRead | mgmtWrite | mgmtResume | mgmtKill | mgmtSpatialPreemption
      | mgmtScrub | mgmtExtend | mgmtAttestationReport | mgmtDoorbell | mgmtLoadFirmwareImage | mgmtLoadTransportKey | partitionValidSet
      | unitOwnerChange | matrixPassEnd | mzeroOperationEnd | vectorPipeWindowEnd | illegalInstructionWord | fetchFault | malformedCommand
      | gangWaitTimeslice | throttleAssert | frameReceive | clockControlWrite | steelyardControlWrite | throttleControlWrite | handlerStoreWrite
      | landingRingBindingWrite | fullEmptyTableWrite | trapRecordWrite | throttleSourceDeassert | throttleHoldExpiry | mgmtPinReplyRead
      | resetRelease | resetAssert => exact .inr ⟨rfl, rfl⟩
  case nop | bar | tbar | fence | wbase | yield | pcommit | pdrop | mlic | mlicr | mrelc | mzero | hskip | hkill | hret | idle =>
    exact .inr ⟨rfl, rfl⟩
  case rdpr | wrpr => exact .inl ⟨_, (withHere_of_here hs _).trans (needsLevel_of_granted hg _)⟩
  case hwr | hrd => exact .inl ⟨_, (withHere_of_here hs _).trans (handlerOnly_of_granted hg _ _ _)⟩
  case ctxsv | ctxld | mlicgv | slotclr => exact .inl ⟨_, (withHere_of_here hs _).trans (firmwareOnly_of_granted hg _)⟩
  case tlbinv a b =>
    exact checksFirst_of_named (congrArg (· ++ [b]) (regRange_two a)) ((withHere_of_here hs _).trans (firmwareOnly_of_granted hg _))
  case popen k =>
    have hk : k.toNat ≤ 6 := by simpa [Instr.wellFormed, Instr.illFormed, require] using hi
    exact checksFirst_of_named (popen_named hk) (withHere_of_here hs _)
  case mcfg a =>
    have ha : windowOk a = true := by
      simp [Instr.wellFormed, Instr.illFormed, require] at hi
      exact hi.1
    exact .inl ⟨_, (withHere_of_here hs _).trans (checked_window ha _ _)⟩
  case cpy d _ _ _ _ | cpyg d _ _ _ | cpys d _ _ _ => exact checksFirst_of_named (regRange_two d) (withHere_of_here hs _)
  case launch d a => exact checksFirst_of_named (congrArg (d :: ·) (regRange_two a)) (withHere_of_here hs _)
  all_goals exact .inl ⟨_, withHere_of_here hs _⟩

theorem rangeFails_eq (s : State) (h : Here) (rs : List Reg) :
    s.rangeFails h rs = maskWhere h.frag.lanes (fun l => rs.any (fun r => decide (r.toNat ≤ 123) &&
      decide (if h.handler then 16 ≤ r.toNat else h.R ≤ (s.thread (h.tk l)).wbase + r.toNat))) := by
  cases hh : h.handler <;> simp [State.rangeFails, hh]

/-- Settles O21: the fields are checked first, the allocation before the latches. -/
theorem operandChecksTrap : Obligations.OperandChecksTrap := by
  intro s h i hs hi granted past stale hg
  have hpast : ∀ rs, maskWhere h.frag.lanes (past rs) = s.rangeFails h rs := fun rs => (rangeFails_eq s h rs).symm
  have hstale : ∀ rs, maskWhere h.frag.lanes (stale rs) = s.latchFails h rs := fun _ => rfl
  rw [hpast, hstale]
  rcases exec_checks hs hi hg with ⟨k, hx⟩ | ⟨hn, hr⟩
  · exact ⟨fun hr => hx.trans (checked_of_range k hr), fun hr hl => hx.trans (checked_of_latch k hr hl)⟩
  · rw [hn, hr]
    exact ⟨fun hne => absurd rangeFails_nil hne, fun _ hne => absurd latchFails_nil hne⟩

/-! ## What reset leaves (R63, R294, R343, R350, R355, R359) -/

/-- Reset lists no core, so that each holds the values of the register table (R294). -/
theorem reset_core (c : Nat) : State.reset.core c = Core.init := rfl

theorem reset_cluster (k : Nat) : State.reset.cluster k = Cluster.init := rfl

theorem reset_thread (k : Nat) : State.reset.thread k = Thread.init := rfl

theorem reset_licence (p : Nat) : State.reset.licence p = Licence.init := rfl

theorem reset_tag (k : Nat) : State.reset.tag k = SegTag.init := rfl

/-- Settles O56: a component that reset does not list holds its initial value. -/
theorem resetLeaves : Obligations.ResetLeaves := by
  refine ⟨rfl, rfl, rfl, rfl, rfl, rfl, rfl, rfl, rfl, rfl, rfl, rfl, rfl, rfl, rfl, rfl, rfl, rfl, rfl, rfl, rfl, rfl, rfl,
    fun c => ?core, fun k => ?cluster, rfl, rfl, rfl, rfl, rfl, fun _ => rfl, fun _ => rfl, reset_licence, reset_tag, fun _ => rfl,
    reset_thread, fun _ => rfl⟩
  case core =>
    rw [reset_core]
    rfl
  case cluster =>
    rw [reset_cluster]
    rfl

end Sys2Proof.Machine

/-!
# Queues (R53-R55, R193, R210, R243)

`qpush` leaves, `qpop` and `qlen` produce, and `qtry` writes two registers: its result in `d` and then its flag in `a`. The model writes them in that
order, the statement names the state with the flag first. Maps may list the two writes in another order, so that the states need not be equal:
`Placed` says what a retirement and a claim about its result can see of them, and `flagged_placed` that it is the same.
-/

namespace Sys2Proof.Machine

variable {s t : State} {h : Here}

/-! ## One register of each active lane -/

/-- Register `r` of each active lane holds `v`. -/
def State.setRegs (s : State) (h : Here) (r : Reg) (v : Nat → Word) : State := h.lanes.foldl (fun s l => s.setReg h l r (v l)) s

theorem written_setRegs (s : State) (h : Here) (r : Reg) (v : Nat → Word) : Written s (s.setRegs h r v) h r v := setRegs_written s h r v

theorem setRegs_thread (s : State) (r : Reg) (v : Nat → Word) {l : Nat} (hl : l ∈ h.lanes) :
    (s.setRegs h r v).thread (h.tk l) = (s.thread (h.tk l)).wrote h.handler r (v l) :=
  foldl_thread_own (fun s l _ hk => setReg_thread_other s h l r (v l) hk) (φ := fun l t => t.wrote h.handler r (v l))
    (fun s l => setReg_own s h l r (v l)) _ (lanesOf_nodup _) s hl

/-- Beside threads and the register file nothing changes. -/
theorem setRegs_else (s : State) (h : Here) (r : Reg) (v : Nat → Word) :
    { s.setRegs h r v with threads := [], rf := [] } = { s with threads := [], rf := [] } :=
  foldl_keeps (f := fun s l => s.setReg h l r (v l)) (fun s : State => ({ s with threads := [], rf := [] } : State))
    (fun s l => setReg_else s h l r (v l)) _ s

/-- A register write leaves what places a thread's registers. -/
theorem setReg_thread_kept (s : State) (h : Here) (l : Nat) (r : Reg) (v : Word) (k : Nat) :
    ((s.setReg h l r v).thread k).kept = (s.thread k).kept := by
  by_cases hk : k = h.tk l
  · rw [hk, setReg_own, Thread.wrote_kept]
  · rw [setReg_thread_other s h l r v hk]

theorem inBank_congr {t u : Thread} (hkept : t.kept = u.kept) (n : Nat) : t.inBank n = u.inBank n := by
  have hopen : t.isOpen = u.isOpen := (congrArg Thread.isOpen hkept :)
  have hbank : t.bank = u.bank := (congrArg Thread.bank hkept :)
  simp only [Thread.inBank, hopen, hbank]

/-- Which word of the register file a register write changes depends on what places the thread's registers alone. -/
theorem setReg_rf_congr {x y : State} {l : Nat} (r : Reg) (v : Word) (hkept : (x.thread (h.tk l)).kept = (y.thread (h.tk l)).kept) {k : Nat}
    (hk : getD 0 x.rf k = getD 0 y.rf k) : getD 0 (x.setReg h l r v).rf k = getD 0 (y.setReg h l r v).rf k := by
  have hbase : (x.thread (h.tk l)).wbase = (y.thread (h.tk l)).wbase := (congrArg Thread.wbase hkept :)
  unfold State.setReg
  simp only [inBank_congr hkept, hbase]
  split
  · exact hk
  split
  · exact hk
  split
  · exact hk
  · simp only [State.setFront, getD_put, hk]

theorem setRegs_thread_kept (s : State) (h : Here) (r : Reg) (v : Nat → Word) (k : Nat) : ((s.setRegs h r v).thread k).kept = (s.thread k).kept :=
  foldl_keeps (f := fun s l => s.setReg h l r (v l)) (fun s : State => (s.thread k).kept) (fun s l => setReg_thread_kept s h l r (v l) k) _ s

theorem setRegs_wbase (s : State) (h : Here) (r : Reg) (v : Nat → Word) (k : Nat) : ((s.setRegs h r v).thread k).wbase = (s.thread k).wbase :=
  (congrArg Thread.wbase (setRegs_thread_kept s h r v k) :)

theorem setRegs_bank (s : State) (h : Here) (r : Reg) (v : Nat → Word) (k : Nat) : ((s.setRegs h r v).thread k).bank = (s.thread k).bank :=
  (congrArg Thread.bank (setRegs_thread_kept s h r v k) :)

/-- Which word of the file a result goes to stays too. -/
theorem produce_thread_kept (s : State) (h : Here) (d : Reg) (latch : Bool) (v : Nat → Word) (k : Nat) :
    ((s.produce h d latch v).thread k).kept = (s.thread k).kept := by
  by_cases hk : ∃ l ∈ h.lanes, k = h.tk l
  · obtain ⟨l, hl, rfl⟩ := hk
    rw [produce_thread s h d latch v hl, Thread.produce_kept, Thread.wrote_kept]
  · rw [produce_thread_other s h d latch v (fun l hl e => hk ⟨l, hl, e⟩)]

theorem setRegs_rf_congr {x y : State} (r : Reg) (v : Nat → Word) (hkept : ∀ k, (x.thread k).kept = (y.thread k).kept) {k : Nat}
    (hk : getD 0 x.rf k = getD 0 y.rf k) : getD 0 (x.setRegs h r v).rf k = getD 0 (y.setRegs h r v).rf k := by
  unfold State.setRegs
  generalize h.lanes = ls
  induction ls generalizing x y with
  | nil => exact hk
  | cons l ls ih =>
    exact ih (fun j => by rw [setReg_thread_kept, setReg_thread_kept, hkept]) (setReg_rf_congr r (v l) (hkept _) hk)

theorem wrote_shadow_congr {t u : Thread} (b : Bool) (r : Reg) (v : Word) (hkept : t.kept = u.kept) {j : Nat}
    (hj : getD 0 t.shadow j = getD 0 u.shadow j) : getD 0 (t.wrote b r v).shadow j = getD 0 (u.wrote b r v).shadow j := by
  have hbank : t.bank = u.bank := (congrArg Thread.bank hkept :)
  unfold Thread.wrote
  rw [inBank_congr hkept]
  split
  · exact hj
  split
  · exact hj
  split
  · simp only [getD_put, hj, hbank]
  · exact hj

theorem wrote_hregs_congr {t u : Thread} (b : Bool) (r : Reg) (v : Word) (hkept : t.kept = u.kept) {j : Nat}
    (hj : getD 0 t.hregs j = getD 0 u.hregs j) : getD 0 (t.wrote b r v).hregs j = getD 0 (u.wrote b r v).hregs j := by
  unfold Thread.wrote
  rw [inBank_congr hkept]
  split
  · exact hj
  split
  · simp only [getD_put, hj]
  split
  · exact hj
  · exact hj

/-- A register write leaves latches, chain depth and loop levels. -/
theorem wrote_other (t : Thread) (b : Bool) (r : Reg) (v : Word) :
    { t.wrote b r v with shadow := [], hregs := [] } = { t with shadow := [], hregs := [] } := by
  unfold Thread.wrote
  split
  · rfl
  split
  · rfl
  split
  · rfl
  · rfl

/-! ## Retiring after a result -/

/-- From `s` to `t` registers and threads have changed as those of an instruction whose only destination is register `d` (R50); it has not
retired yet. -/
structure Placed (s t : State) (h : Here) (d : Reg) : Prop where
  rest : { t with threads := [], rf := [] } = { s with threads := [], rf := [] }
  registers : ∀ l, l < 32 → ∀ r : Reg, r.toNat ≤ 123 → (l ∈ h.lanes → r ≠ d) → t.reg h l r = s.reg h l r
  file : ∀ k, (∀ l ∈ h.lanes, d.toNat ≤ 123 → k ≠ rfKey h.core h.slot h.R h.wave ((s.thread (h.tk l)).wbase + d.toNat) l) →
    getD 0 t.rf k = getD 0 s.rf k
  shadows : ∀ l ∈ h.lanes, ∀ j, (d.toNat ≤ 123 → j + 16 * (s.thread (h.tk l)).bank.toNat ≠ d.toNat) →
    getD 0 (t.thread (h.tk l)).shadow j = getD 0 (s.thread (h.tk l)).shadow j
  handlers : ∀ l ∈ h.lanes, ∀ j, (d.toNat ≤ 123 → j ≠ d.toNat) → getD 0 (t.thread (h.tk l)).hregs j = getD 0 (s.thread (h.tk l)).hregs j
  threads : ∀ k, (∀ l ∈ h.lanes, k ≠ h.tk l) → t.thread k = s.thread k
  thread : ∀ l ∈ h.lanes, (t.thread (h.tk l)).kept = (s.thread (h.tk l)).kept

section placed
variable {d : Reg} (p : Placed s t h d)
include p

/-- What neither threads nor registers hold stands as before. -/
theorem Placed.field {β : Type} (π : State → β) (hπ : ∀ x : State, π x = π { x with threads := [], rf := [] }) : π t = π s := by
  rw [hπ, p.rest, ← hπ]

theorem Placed.frame (ev : SMap Nat) : Frame s (t.retire h ev) h d :=
  have g : Frame t (t.retire h ev) h 127 := retireTo_frame t h ev none _
  have hm : SameMemory s t := sameMemory_of (p.field (·.dram) fun _ => rfl) (p.field (·.tags) fun _ => rfl) (p.field (·.towers) fun _ => rfl)
    (p.field (·.sbuf) fun _ => rfl) (p.field (·.pad) fun _ => rfl) (p.field (·.acc) fun _ => rfl) (p.field (·.istore) fun _ => rfl)
  { device := g.device.trans (p.field State.kept fun _ => rfl)
    wire := fun ho =>
      have ⟨hconns, hwire⟩ := g.wire (ho.trans (p.field (·.outbox) fun _ => rfl).symm)
      ⟨hconns.trans (p.field (·.conns) fun _ => rfl), hwire.trans (p.field (·.wire) fun _ => rfl)⟩
    memory := ⟨fun who a => (g.memory.1 who a).trans (hm.1 who a), fun c o ho => (g.memory.2 c o ho).trans (hm.2 c o ho)⟩
    registers := fun l hl r hr hne => (retireTo_reg t h ev none _ hr).trans (p.registers l hl r hr hne)
    file := fun k hk => (g.file k (fun _ _ hd => by simp at hd)).trans (p.file k hk)
    shadows := fun l hl j hj => (g.shadows l hl j (fun hd => by simp at hd)).trans (p.shadows l hl j hj)
    handlers := fun l hl j hj => (g.handlers l hl j (fun hd => by simp at hd)).trans (p.handlers l hl j hj)
    threads := fun k hk => (g.threads k hk).trans (p.threads k hk)
    thread := fun l hl => (g.thread l hl).trans (p.thread l hl)
    waves := fun k hk => (g.waves k hk).trans (p.field (·.wave k) fun _ => rfl)
    wave := g.wave.trans (congrArg Wave.kept (p.field (·.wave h.wk) fun _ => rfl))
    fragments := fun x hx hne => g.fragments x ((p.field (·.wave h.wk) fun _ => rfl) ▸ hx) hne
    groups := fun k hk => (g.groups k hk).trans (p.field (·.group k) fun _ => rfl)
    group := g.group.trans (congrArg (Option.map Group.kept) (p.field (·.group h.gk) fun _ => rfl)) }

/-- A result that is placed and then retired, without an event. -/
theorem Placed.resulted {reads : List Reg} {v : Nat → Word} (hp : Produced s t h reads d v)
    (hloops : ∀ l ∈ h.lanes, (t.thread (h.tk l)).loops = (s.thread (h.tk l)).loops) : Resulted s (t.retire h []) h reads d v quiet where
  produced :=
    have hth : ∀ l ∈ h.lanes, (t.retire h []).thread (h.tk l) =
        { t.thread (h.tk l) with loops := (advance h.frag.pc (t.thread (h.tk l)).loops .seq).1 } := fun l hl =>
      retireTo_thread t h [] none _ hl
    { written := fun l hl hd => (retireTo_reg t h [] none _ hd).trans (hp.written l hl hd)
      first := fun l hl => (congrArg Thread.y0 (hth l hl)).trans (hp.first l hl)
      second := fun l hl => (congrArg Thread.y1 (hth l hl)).trans (hp.second l hl)
      third := fun l hl => (congrArg Thread.y2 (hth l hl)).trans (hp.third l hl)
      fourth := fun l hl => (congrArg Thread.y3 (hth l hl)).trans (hp.fourth l hl)
      depth := fun l hl => (congrArg Thread.depth (hth l hl)).trans (hp.depth l hl) }
  counted := fun g hg => retireTo_counted t h [] none _ .nil g ((p.field (·.group h.gk) fun _ => rfl).trans hg)
  sequence := fun l hl hgo => by
    obtain ⟨hlevels, f, hf⟩ := retireTo_continues t h [] none (fun _ => .seq) l hl hgo
    rw [hloops l hl] at hlevels hf
    exact ⟨hlevels, f, hf⟩
  frame := p.frame []

end placed

/-! ## A result in `d`, then a flag in `a` (R193) -/

section flagged
variable (s : State) (h : Here) (d a : Reg) (v w : Nat → Word)

/-- What `qtry` leaves before it retires. -/
def State.flagged (s : State) (h : Here) (d a : Reg) (v w : Nat → Word) : State := (s.produce h d false v).setRegs h a w

/-- The thread of an active lane, in the order in which the two registers are written. -/
theorem flagged_thread {l : Nat} (hl : l ∈ h.lanes) : (s.flagged h d a v w).thread (h.tk l) =
    (((s.thread (h.tk l)).wrote h.handler d (v l)).produce false (v l)).wrote h.handler a (w l) := by
  rw [State.flagged, setRegs_thread _ _ _ hl, produce_thread s h d false v hl]

/-- Beside the words of registers an active thread differs from that of a flag alone by its latches and its chain depth. -/
theorem flagged_thread_other {l : Nat} (hl : l ∈ h.lanes) : { (s.flagged h d a v w).thread (h.tk l) with shadow := [], hregs := [] } =
    ({ (s.setRegs h a w).thread (h.tk l) with shadow := [], hregs := [] } : Thread).produce false (v l) := by
  rw [flagged_thread s h d a v w hl, wrote_other, setRegs_thread s a w hl, wrote_other]
  exact congrArg (fun x : Thread => x.produce false (v l)) (wrote_other (s.thread (h.tk l)) h.handler d (v l))

theorem flagged_rest : { s.flagged h d a v w with threads := [], rf := [] } = { s.setRegs h a w with threads := [], rf := [] } := by
  rw [State.flagged, setRegs_else, produce_else, setRegs_else]

theorem flagged_registers {l : Nat} (hl : l < 32) {r : Reg} (hr : r.toNat ≤ 123) (hne : l ∈ h.lanes → r ≠ d) :
    (s.flagged h d a v w).reg h l r = (s.setRegs h a w).reg h l r := by
  have hresult : Written (s.produce h d false v) (s.flagged h d a v w) h a w := written_setRegs _ h a w
  have hflag : Written s (s.setRegs h a w) h a w := written_setRegs s h a w
  by_cases ha : l ∈ h.lanes ∧ r = a
  · obtain ⟨hlane, rfl⟩ := ha
    rw [hresult.value l hlane hr, hflag.value l hlane hr]
  · have hother : l ∈ h.lanes → r ≠ a := fun hlane e => ha ⟨hlane, e⟩
    rw [hresult.frame.registers l hl r hr hother, hflag.frame.registers l hl r hr hother, produce_reg_other s h d false v hl hr hne]

theorem flagged_file {k : Nat}
    (hk : ∀ l ∈ h.lanes, d.toNat ≤ 123 → k ≠ rfKey h.core h.slot h.R h.wave ((s.thread (h.tk l)).wbase + d.toNat) l) :
    getD 0 (s.flagged h d a v w).rf k = getD 0 (s.setRegs h a w).rf k := by
  refine setRegs_rf_congr a w (produce_thread_kept s h d false v) ?_
  by_cases hd : d.toNat ≤ 123
  · exact produce_file s h d false v (fun l hl => hk l hl hd)
  · rw [produce_latch_file s h d false v (by omega)]

theorem flagged_placed : Placed (s.setRegs h a w) (s.flagged h d a v w) h d where
  rest := flagged_rest s h d a v w
  registers := fun _ hl _ hr hne => flagged_registers s h d a v w hl hr hne
  file := fun k hk => flagged_file s h d a v w (fun l hl => (setRegs_wbase s h a w (h.tk l)) ▸ hk l hl)
  shadows := fun l hl j hj => by
    rw [flagged_thread s h d a v w hl, setRegs_thread s a w hl]
    refine wrote_shadow_congr _ a (w l) (by simp) (wrote_shadow _ _ d (v l) ?_)
    rwa [setRegs_bank] at hj
  handlers := fun l hl j hj => by
    rw [flagged_thread s h d a v w hl, setRegs_thread s a w hl]
    exact wrote_hregs_congr _ a (w l) (by simp) (wrote_hregs _ _ d (v l) hj)
  threads := fun k hk => by
    rw [(written_setRegs s h a w).frame.threads k hk, State.flagged, (written_setRegs _ h a w).frame.threads k hk,
      produce_thread_other s h d false v hk]
  thread := fun l hl => by
    rw [flagged_thread s h d a v w hl, setRegs_thread s a w hl]
    simp

variable {d a} in
theorem flagged_produced (hne : a ≠ d) : Produced (s.setRegs h a w) (s.flagged h d a v w) h [] d v := by
  have hth : ∀ {l}, l ∈ h.lanes → ∀ {β : Type} (π : Thread → β), (∀ x : Thread, π x = π { x with shadow := [], hregs := [] }) →
      π ((s.flagged h d a v w).thread (h.tk l)) = π (({ (s.setRegs h a w).thread (h.tk l) with shadow := [], hregs := [] } : Thread).produce false (v l)) :=
    fun hl β π hπ => by rw [hπ, flagged_thread_other s h d a v w hl]
  have hw : Written (s.produce h d false v) (s.flagged h d a v w) h a w := written_setRegs _ h a w
  exact {
    written := fun l hl hd => (hw.frame.registers l (Here.lt_of_mem hl) d hd (fun _ => Ne.symm hne)).trans (produce_reg s h d false v hl hd)
    first := fun l hl => hth hl Thread.y0 fun _ => rfl
    second := fun l hl => hth hl Thread.y1 fun _ => rfl
    third := fun l hl => hth hl Thread.y2 fun _ => rfl
    fourth := fun l hl => hth hl Thread.y3 fun _ => rfl
    depth := fun l hl => hth hl Thread.depth fun _ => rfl }

variable {d a} in
/-- The result and the flag, seen from a state in which the flag alone is written. -/
theorem flagged_resulted (hne : a ≠ d) : Resulted (s.setRegs h a w) ((s.flagged h d a v w).retire h []) h [] d v quiet :=
  (flagged_placed s h d a v w).resulted (flagged_produced s h v w hne) (fun _ hl =>
    (congrArg Thread.loops (flagged_thread_other s h d a v w hl) :))

end flagged

/-! ## Beats (R53) -/

/-- A listed key keeps its value where the words that are 0 are dropped. -/
theorem getD_nonzero (ls : List Nat) (f : Nat → Word) (l : Nat) :
    getD 0 ((ls.map (fun k => (k, f k))).filter (fun p => p.2 ≠ 0)) l = if l ∈ ls then f l else 0 := by
  induction ls with
  | nil => rfl
  | cons k ls ih =>
    rw [List.map_cons, List.filter_cons]
    by_cases hl : l = k
    · subst hl
      split
      · simp [getD, find]
      · next hz =>
        have hzero : f l = 0 := by simpa using hz
        rw [ih, if_pos List.mem_cons_self, hzero, ite_self]
    · have hskip : ∀ (x : Word) (m : SMap Word), getD 0 ((k, x) :: m) l = getD 0 m l := fun x m => by simp [getD, find, Ne.symm hl]
      simp only [List.mem_cons, hl, false_or, ← ih]
      split
      · exact hskip _ _
      · rfl

theorem beat_word (s : State) (h : Here) (a : Reg) (l : Nat) : getD 0 (s.beat h a) l = if l ∈ h.lanes then s.reg h l a else 0 :=
  getD_nonzero h.lanes (fun k => s.reg h k a) l

/-! ## Waiting behind a suspended operation (R210, R243) -/

/-- A suspended call is one of those that cannot end. -/
theorem stuckCalls_pos {c : Call} (hc : c.susp.isSome = true) (levels : List Nat) {calls : List Call} (hmem : c ∈ calls) :
    0 < stuckCalls levels calls := by
  induction calls generalizing levels with
  | nil => exact absurd hmem List.not_mem_nil
  | cons x r ih =>
    rw [stuckCalls]
    split
    · exact Nat.succ_pos _
    · next hx =>
      rcases List.mem_cons.1 hmem with rfl | hr
      · exact absurd (by rw [hc, Bool.or_true]) hx
      · exact ih levels hr

theorem suspCall_stuck {g : Group} {p : Call × Susp} (hp : g.suspCall = some p) : 0 < stuckCalls [] g.calls := by
  obtain ⟨c, hfind, -⟩ := Option.bind_eq_some_iff.1 hp
  have hsusp := List.find?_some hfind
  exact stuckCalls_pos hsusp [] (List.mem_of_find?_eq_some hfind)

theorem waitCopy_of_suspended {o : CopyOp} {x : Susp} (hp : h.g.suspCopy = some (o, x)) :
    s.waitCopy h = s.meetSusp h x (copyCause h o x) Group.setSuspCopy := by
  rw [State.waitCopy, hp]

theorem waitCopy_of_free (hp : h.g.suspCopy = none) : s.waitCopy h = s.await h := by
  rw [State.waitCopy, hp]

theorem waitCall_of_suspended {c : Call} {x : Susp} (hp : h.g.suspCall = some (c, x)) :
    s.waitCall h 0 = s.meetSusp h x (callCause h c x) (fun g y => g.setSuspCall c y) := by
  rw [State.waitCall, hp]
  exact if_neg (Nat.not_le_of_gt (suspCall_stuck hp))

theorem waitCall_of_free (n : Nat) (hp : h.g.suspCall = none) : s.waitCall h n = s.await h := by
  rw [State.waitCall, hp]

/-- A pop that finds its queue empty waits, unless it stands behind a suspension. -/
theorem waitPop_of_free {n : Nat} (hn : h.stuck n = none) : s.waitPop h n = s.await h := by
  simp only [Here.stuck] at hn
  unfold State.waitPop
  split at hn
  · next hq =>
    rw [if_pos hq, waitCopy_of_free (Option.map_eq_none_iff.1 hn)]
  · next hq =>
    rw [if_neg hq]
    split at hn
    · next hq =>
      rw [if_pos hq, waitCall_of_free 0 (Option.map_eq_none_iff.1 hn)]
    · next hq => rw [if_neg hq]

theorem waitPop_of_stuck {n : Nat} {x : Susp} {c : Cause} {set : Group → Option Susp → Group} (hn : h.stuck n = some (x, c, set)) :
    s.waitPop h n = s.meetSusp h x c set := by
  simp only [Here.stuck] at hn
  unfold State.waitPop
  split at hn
  · next hq =>
    obtain ⟨p, hp, he⟩ := Option.map_eq_some_iff.1 hn
    obtain ⟨rfl, rfl, rfl⟩ : p.2 = x ∧ copyCause h p.1 p.2 = c ∧ Group.setSuspCopy = set := by simpa using he
    rw [if_pos hq, waitCopy_of_suspended hp]
  · next hq =>
    rw [if_neg hq]
    split at hn
    · next hq =>
      obtain ⟨p, hp, he⟩ := Option.map_eq_some_iff.1 hn
      obtain ⟨rfl, rfl, rfl⟩ : p.2 = x ∧ callCause h p.1 p.2 = c ∧ (fun g y => Group.setSuspCall g p.1 y) = set := by simpa using he
      rw [if_pos hq, waitCall_of_suspended hp]
    · contradiction

/-! ## The queue instructions (R193) -/

section queue
variable {d a : Reg} {q : BitVec 4}

theorem exec_qpush (r : Ready s h [a] [a]) (hh : h.handler = false) :
    exec (.qpush a q) s = if !canPush h q.toNat then trap s h kState
      else .next (if queueCap q.toNat ≤ (s.beatsOf h q.toNat).length then s.await h
        else ((s.pass h.owns [.queue h.gk q.toNat]).setBeats h q.toNat (s.beatsOf h q.toNat ++ [s.beat h a])).leave h [a] onward) :=
  ((withHere_of_ready r _).trans (checked_of_ready r _)).trans (notInHandler_of_user hh _)

theorem qpush_results (r : Ready s h [a] [a]) (hh : h.handler = false) :
    (canPush h q.toNat = true → (s.beatsOf h q.toNat).length < queueCap q.toNat → ∃ b : Beat,
      (∀ l, getD 0 b l = if l ∈ h.lanes then s.reg h l a else 0) ∧
      Passes (.qpush a q) s ((s.pass h.owns [.queue h.gk q.toNat]).setBeats h q.toNat (s.beatsOf h q.toNat ++ [b])) h [a] onward) ∧
    (canPush h q.toNat = true → queueCap q.toNat ≤ (s.beatsOf h q.toNat).length → exec (.qpush a q) s = .next (s.await h)) ∧
    (canPush h q.toNat = false → exec (.qpush a q) s = trap s h kState) := by
  refine ⟨fun hc hroom => ⟨s.beat h a, beat_word s h a, passes_of_leave ?_⟩, fun hc hfull => ?_, fun hc => ?_⟩
  · rw [exec_qpush r hh, if_neg (by simp [hc]), if_neg (Nat.not_le_of_gt hroom)]
  · rw [exec_qpush r hh, if_neg (by simp [hc]), if_pos hfull]
  · rw [exec_qpush r hh, if_pos (by simp [hc])]

/-- `qpop` of a queue that holds some beats. -/
def State.popBeats (s : State) (h : Here) (d : Reg) (n : Nat) : List Beat → Out
  | [] => .next (s.waitPop h n)
  | b :: rest => .next ((((s.pass (· = .queue h.gk n) h.agents).setBeats h n rest).produce h d false (fun l => getD 0 b l)).retire h [])

theorem exec_qpop (r : Ready s h [d] []) (hh : h.handler = false) :
    exec (.qpop d q) s = if q.toNat ≤ 1 then trap s h kState else s.popBeats h d q.toNat (s.beatsOf h q.toNat) :=
  ((withHere_of_ready r _).trans (checked_of_ready r _)).trans (notInHandler_of_user hh _)

theorem exec_qlen (r : Ready s h [d] []) (hh : h.handler = false) :
    exec (.qlen d q) s = .next ((s.produce h d false (fun _ => wd (s.beatsOf h q.toNat).length)).retire h []) :=
  ((withHere_of_ready r _).trans (checked_of_ready r _)).trans (notInHandler_of_user hh _)

theorem qpop_results (r : Ready s h [d] []) (hh : h.handler = false) :
    (2 ≤ q.toNat → ∀ b rest, s.beatsOf h q.toNat = b :: rest →
      Gives (.qpop d q) s ((s.pass (· = .queue h.gk q.toNat) h.agents).setBeats h q.toNat rest) h [] d (fun l => getD 0 b l) quiet) ∧
    (2 ≤ q.toNat → h.stuck q.toNat = none → s.beatsOf h q.toNat = [] → exec (.qpop d q) s = .next (s.await h)) ∧
    (∀ x c set, 2 ≤ q.toNat → h.stuck q.toNat = some (x, c, set) → s.beatsOf h q.toNat = [] → exec (.qpop d q) s = .next (s.meetSusp h x c set)) ∧
    (q.toNat ≤ 1 → exec (.qpop d q) s = trap s h kState) := by
  rw [exec_qpop r hh]
  refine ⟨fun hn b rest hb => gives_of_produce ?_, fun hn hfree hb => ?_, fun x c set hn hstuck hb => ?_, fun hn => if_pos hn⟩
  · rw [exec_qpop r hh, if_neg (by omega), hb]
    rfl
  · rw [if_neg (by omega), hb, State.popBeats, waitPop_of_free hfree]
  · rw [if_neg (by omega), hb, State.popBeats, waitPop_of_stuck hstuck]

/-- `qtry` of an empty queue, by the suspension that it stands behind. -/
def State.tryBehind (s : State) (h : Here) (d a : Reg) : Option (Susp × Cause × (Group → Option Susp → Group)) → Out
  | none => .next (s.tryEmpty h d a)
  | some (x, c, set) => match x.told with
    | none => .next (s.meetSusp h x c set)
    | some (w, m) => .next ((if (s.wave (wkOf h.gk w)).away &&& m ≠ 0 then s else s.modGroup h.gk (fun g => set g none)).tryEmpty h d a)

/-- `qtry` of a queue that holds some beats. -/
def State.tryBeats (s : State) (h : Here) (d a : Reg) (n : Nat) : List Beat → Out
  | [] => s.tryBehind h d a (h.stuck n)
  | b :: rest => .next ((((s.pass (· = .queue h.gk n) h.agents).setBeats h n rest).flagged h d a (fun l => getD 0 b l) (fun _ => 1)).retire h [])

theorem exec_qtry (r : Ready s h [d, a] []) (hh : h.handler = false) :
    exec (.qtry d a q) s = if q.toNat ≤ 1 then trap s h kState else s.tryBeats h d a q.toNat (s.beatsOf h q.toNat) :=
  ((withHere_of_ready r _).trans (checked_of_ready r _)).trans (notInHandler_of_user hh _)

theorem exec_qtry_empty (r : Ready s h [d, a] []) (hh : h.handler = false) (hn : 2 ≤ q.toNat) (hb : s.beatsOf h q.toNat = []) :
    exec (.qtry d a q) s = s.tryBehind h d a (h.stuck q.toNat) := by
  rw [exec_qtry r hh, if_neg (by omega), hb]
  rfl

theorem tryEmpty_eq (s : State) (h : Here) (d a : Reg) :
    s.tryEmpty h d a = (s.flagged h d a (fun l => s.reg h l d) (fun _ => 0)).retire h [] := rfl

/-- An instruction that acts, reaching `s0`, and then produces `v` in `d` and writes `w` to `a`. -/
theorem gives_of_flagged {i : Instr} {s0 : State} {v w : Nat → Word} (hne : a ≠ d)
    (hx : exec i s = .next ((s0.flagged h d a v w).retire h [])) : ∃ s1, Written s0 s1 h a w ∧ Gives i s s1 h [] d v quiet :=
  ⟨s0.setRegs h a w, written_setRegs s0 h a w, _, hx, flagged_resulted s0 h v w hne⟩

theorem reg_of_same {l : Nat} {r : Reg} (hthreads : t.threads = s.threads) (hrf : t.rf = s.rf) : t.reg h l r = s.reg h l r := by
  have hth : t.thread (h.tk l) = s.thread (h.tk l) := by rw [State.thread, State.thread, hthreads]
  have hfront : ∀ x, t.front h l x = s.front h l x := fun x => by rw [State.front, State.front, hrf]
  unfold State.reg
  simp only [hth, hfront]

/-- The try that finds its trap taken leaves `d` as it was, also where it resumes the operation (R210). -/
theorem resumed_reg (p : Prop) [Decidable p] (f : Group → Group) (l : Nat) (r : Reg) :
    (if p then s else s.modGroup h.gk f).reg h l r = s.reg h l r := by
  split
  · rfl
  · exact reg_of_same (modGroup_threads s _ _) (modGroup_rf s _ _)

theorem qtry_results (r : Ready s h [d, a] []) (hh : h.handler = false) (hne : a ≠ d) :
    (2 ≤ q.toNat → ∀ b rest, s.beatsOf h q.toNat = b :: rest →
      ∃ s1, Written ((s.pass (· = .queue h.gk q.toNat) h.agents).setBeats h q.toNat rest) s1 h a (fun _ => 1) ∧
        Gives (.qtry d a q) s s1 h [] d (fun l => getD 0 b l) quiet) ∧
    (∀ x c set, 2 ≤ q.toNat → h.stuck q.toNat = some (x, c, set) → x.told = none → s.beatsOf h q.toNat = [] →
      exec (.qtry d a q) s = .next (s.meetSusp h x c set)) ∧
    (∀ x c set w m, 2 ≤ q.toNat → h.stuck q.toNat = some (x, c, set) → x.told = some (w, m) → s.beatsOf h q.toNat = [] → ∃ s1,
      Written (if (s.wave (wkOf h.gk w)).away &&& m ≠ 0 then s else s.modGroup h.gk (fun g => set g none)) s1 h a (fun _ => 0) ∧
      Gives (.qtry d a q) s s1 h [] d (fun l => s.reg h l d) quiet) ∧
    (2 ≤ q.toNat → h.stuck q.toNat = none → s.beatsOf h q.toNat = [] →
      ∃ s1, Written s s1 h a (fun _ => 0) ∧ Gives (.qtry d a q) s s1 h [] d (fun l => s.reg h l d) quiet) ∧
    (q.toNat ≤ 1 → exec (.qtry d a q) s = trap s h kState) := by
  refine ⟨fun hn b rest hb => gives_of_flagged hne ?_, fun x c set hn hstuck htold hb => ?_, fun x c set w m hn hstuck htold hb => gives_of_flagged hne ?_,
    fun hn hfree hb => gives_of_flagged hne ?_, fun hn => ?_⟩
  · rw [exec_qtry r hh, if_neg (by omega), hb]
    rfl
  · rw [exec_qtry_empty r hh hn hb, hstuck]
    simp only [State.tryBehind, htold]
  · rw [exec_qtry_empty r hh hn hb, hstuck]
    simp only [State.tryBehind, htold, tryEmpty_eq, resumed_reg]
  · rw [exec_qtry_empty r hh hn hb, hfree]
    rfl
  · rw [exec_qtry r hh, if_pos hn]

end queue

theorem canPush_iff (n : Nat) : canPush h n = true ↔ 8 ≤ n ∨ (n ≤ 1 ∧ h.g.cfg.isSome = true) := by
  simp [canPush]

theorem queueCap_eq (n : Nat) : queueCap n = if n ≤ 1 ∨ n = 7 then 64 else if n ≤ 6 then 32 else 16 := by
  unfold queueCap
  by_cases hlow : n ≤ 1
  · rw [if_pos hlow, if_pos (.inl hlow)]
  · by_cases hring : n = 7
    · subst hring
      rfl
    · simp only [hlow, hring, or_self, if_false]

/-- Settles O22, instruction by instruction. -/
theorem queueInstructions : Obligations.QueueInstructions := fun _ _ _ _ q hh =>
  ⟨fun r => qpush_results r hh,
    fun r =>
      have ⟨hbeat, hwaits, hmeets, htrap⟩ := qpop_results r hh
      ⟨hbeat, hwaits, hmeets, htrap, gives_of_produce (exec_qlen r hh)⟩,
    fun r hne _ => qtry_results r hh hne, canPush_iff q.toNat, queueCap_eq q.toNat⟩

end Sys2Proof.Machine

/-!
# What a configuration forgets beside its tiles (R63, R216)

`Obligations.MatrixConfiguration` lets `mcfg` change groups, cores and accumulator words, and nothing else. The tiles that it zeroes were perhaps
written by the copy engine; `State.accBy` remembers the slot of those words, and `State.zeroTiles` drops the tiles' entries there together with
their words. In `claimedState` one such word lies in the tile that `mcfg` configures, so that `accBy` changes too.
-/

namespace Sys2Proof.Machine

/-- The group in slot 0 of core 0 has no configuration and no operation. -/
def claimingGroup : Group := Group.blank 0 0 0 0 0

/-- The fragment of lane 0. -/
def claimingFrag : Frag := startFrag 0 { seg := 0, off := 16 } 1

/-- Registers 1 to 5 of lane 0 hold a configuration of formats 17 and 17 with tile 0 alone, of one row and one column at word 0. The copy engine of
slot 0 has written word 0 of the accumulators. -/
def claimedState : State :=
  { State.reset with
    cur := { core := 0, slot := 0, wave := 0, lanes := 1 }, launches := [(0, Launch.init)], groups := [(0, claimingGroup)]
    waves := [(0, { Wave.init with frags := [claimingFrag] })]
    rf := [(rfKey 0 0 16 0 1 0, 0x1111), (rfKey 0 0 16 0 2 0, 0x11)], accBy := [(0, gkOf 0 0 + 1)] }

/-- The fragment at the cursor of `claimedState`. -/
def claimingHere : Here :=
  { core := 0, slot := 0, wave := 0, frag := claimingFrag, w := { Wave.init with frags := [claimingFrag] }, g := claimingGroup, l := Launch.init }

theorem claimedState_here : claimedState.here = some claimingHere := rfl

/-- The registers that `mcfg` names lie in the allocation. -/
theorem claimedState_ready : Ready claimedState claimingHere ((List.range 5).map (fun j => BitVec.ofNat 7 ((1 : Reg).toNat + j))) [] where
  here := claimedState_here
  range := by decide +kernel
  latch := fun _ _ => List.forall_mem_nil _

/-- The array is free and idle, and the configuration is good. -/
theorem claimedState_free : (claimedState.core 0).holder = none ∧ claimingHere.l.det = false ∧ claimingGroup.cfg = none ∧ claimingGroup.copies = [] ∧
    (claimedState.core 0).q0 = [] ∧ (claimedState.core 0).q1 = [] ∧
    badCfg ((List.range 5).map (fun j => claimedState.uniform claimingHere (BitVec.ofNat 7 ((1 : Reg).toNat + j)))) = false := by decide +kernel

/-- The marks of the copy engine in the state that an outcome answers. -/
def marksOf (o : Out) : SMap Nat := match o with | .next t => t.accBy | _ => []

/-- `mcfg` zeroes the tile and forgets who wrote it. -/
theorem claimedState_forgets : marksOf (exec (.mcfg 1) claimedState) = [] := by decide +kernel

/-- Refutes O42: by the statement `mcfg` keeps `accBy`, and in `claimedState` it empties it. -/
theorem not_matrixConfiguration : ¬ Obligations.MatrixConfiguration := by
  intro hall
  obtain ⟨hmcfg, -⟩ := hall claimedState claimingHere 0 1 0 0 rfl
  obtain ⟨hholder, hdet, hcfg, hcopies, hq0, hq1, hgood⟩ := claimedState_free
  obtain ⟨-, -, -, hmakes⟩ := hmcfg claimedState_ready
  obtain ⟨s1, ⟨t, hrun, hretired⟩, -, -, -, -, hrest⟩ := hmakes (.inl hholder) (.inl hdet) (by
    rintro (⟨hne, -⟩ | ⟨c, hc, -⟩ | hne | hne)
    · exact hne hcfg
    · exact List.not_mem_nil (hcopies ▸ hc)
    · exact hne hq0
    · exact hne hq1) hgood
  have hretire : t.accBy = s1.accBy := (congrArg State.accBy hretired.frame.device :)
  have hkeeps : s1.accBy = claimedState.accBy := (congrArg State.accBy hrest :)
  have hforgets : t.accBy = [] := by
    have := claimedState_forgets
    rwa [hrun] at this
  exact List.cons_ne_nil _ _ ((hretire.trans hkeeps).symm.trans hforgets)

end Sys2Proof.Machine

/-!
# Words and instructions (R66 to R78)

`encode` puts fields together and `decodeFields` takes them apart, so both directions rest on two facts about each format: a word made of fields
has these fields, and a word is the word of its fields. On top of them come the codes of sub-fields (`of_eq_some` and `code_of`), then
`decodeFields_of_encode` by instruction and `encode_of_decodeFields` by major opcode. The checks of R72 stand apart from both, in `decode_eq_ok`.
-/

namespace Sys2Proof

open BitVec (extractLsb'_append_eq_left extractLsb'_append_eq_right extractLsb'_append_eq_of_add_le extractLsb'_append_eq_of_le
  extractLsb'_append_extractLsb')

/-! ## Adjacent fields -/

section adjacent

variable {m n o p q : Nat}

theorem append_extractLsb'_zero (w : BitVec o) : w.extractLsb' n m ++ w.extractLsb' 0 n = w.extractLsb' 0 (m + n) :=
  BitVec.extractLsb'_append_extractLsb'_eq_extractLsb' (Nat.zero_add n).symm

theorem three_fields (w : BitVec (m + (n + o))) : w.extractLsb' (n + o) m ++ (w.extractLsb' o n ++ w.extractLsb' 0 o) = w := by
  rw [append_extractLsb'_zero, extractLsb'_append_extractLsb']

theorem four_fields (w : BitVec (m + (n + (o + p)))) :
    w.extractLsb' (n + (o + p)) m ++ (w.extractLsb' (o + p) n ++ (w.extractLsb' p o ++ w.extractLsb' 0 p)) = w := by
  rw [append_extractLsb'_zero, three_fields]

theorem five_fields (w : BitVec (m + (n + (o + (p + q))))) :
    w.extractLsb' (n + (o + (p + q))) m ++
      (w.extractLsb' (o + (p + q)) n ++ (w.extractLsb' (p + q) o ++ (w.extractLsb' q p ++ w.extractLsb' 0 q))) = w := by
  rw [append_extractLsb'_zero, four_fields]

theorem append_low {x : BitVec (m + n)} {y : BitVec m} (h : x.extractLsb' n m = y) : y ++ x.extractLsb' 0 n = x := by
  rw [← h, extractLsb'_append_extractLsb']

theorem append_high {x : BitVec (m + n)} {y : BitVec n} (h : x.extractLsb' 0 n = y) : x.extractLsb' n m ++ y = x := by
  rw [← h, extractLsb'_append_extractLsb']

theorem append_low_right {w : BitVec (m + (n + o))} {x : BitVec m} {y : BitVec n} (hx : w.extractLsb' (n + o) m = x) (hy : w.extractLsb' o n = y) :
    x ++ (y ++ w.extractLsb' 0 o) = w := by
  rw [← hx, ← hy, three_fields]

theorem append_low_left {w : BitVec (m + n + o)} {x : BitVec m} {y : BitVec n} (hx : w.extractLsb' (n + o) m = x) (hy : w.extractLsb' o n = y) :
    x ++ y ++ w.extractLsb' 0 o = w := by
  rw [← hx, ← hy, BitVec.extractLsb'_append_extractLsb'_eq_extractLsb' (Nat.add_comm n o), extractLsb'_append_extractLsb']

theorem eq_ofNat {x : BitVec n} {k : Nat} (h : x.toNat = k) : x = BitVec.ofNat n k := by
  rw [← h, BitVec.ofNat_toNat, BitVec.setWidth_eq]

/-- The low field of what is put together. -/
theorem extractLsb'_low {k len : Nat} {x : BitVec m} {y : BitVec n} {z : BitVec len} (h : y.extractLsb' k len = z) (hk : k + len ≤ n := by decide) :
    (x ++ y).extractLsb' k len = z := (extractLsb'_append_eq_of_add_le hk).trans h

end adjacent

/-! ## Formats (R67 to R71) -/

section formats

variable (op : BitVec 7) (d a b : Reg) (fn : BitVec 4) (i : BitVec 11) (x : BitVec 18) (s : BitVec 5) (q : BitVec 6)

@[simp] theorem opOf_fmtA : opOf (fmtA op d a b fn) = op := extractLsb'_append_eq_left
@[simp] theorem dOf_fmtA : dOf (fmtA op d a b fn) = d := extractLsb'_low extractLsb'_append_eq_left
@[simp] theorem aOf_fmtA : aOf (fmtA op d a b fn) = a := extractLsb'_low (extractLsb'_low extractLsb'_append_eq_left)
@[simp] theorem bOf_fmtA : bOf (fmtA op d a b fn) = b := extractLsb'_low (extractLsb'_low (extractLsb'_low extractLsb'_append_eq_left))
@[simp] theorem fnOf_fmtA : fnOf (fmtA op d a b fn) = fn := extractLsb'_low (extractLsb'_low (extractLsb'_low extractLsb'_append_eq_right))

@[simp] theorem opOf_fmtI : opOf (fmtI op d a i) = op := extractLsb'_append_eq_left
@[simp] theorem dOf_fmtI : dOf (fmtI op d a i) = d := extractLsb'_low extractLsb'_append_eq_left
@[simp] theorem aOf_fmtI : aOf (fmtI op d a i) = a := extractLsb'_low (extractLsb'_low extractLsb'_append_eq_left)
@[simp] theorem immOf_fmtI : immOf (fmtI op d a i) = i := extractLsb'_low (extractLsb'_low extractLsb'_append_eq_right)

@[simp] theorem opOf_fmtL : opOf (fmtL op d x) = op := extractLsb'_append_eq_left
@[simp] theorem dOf_fmtL : dOf (fmtL op d x) = d := extractLsb'_low extractLsb'_append_eq_left
@[simp] theorem imm18Of_fmtL : imm18Of (fmtL op d x) = x := extractLsb'_low extractLsb'_append_eq_right

@[simp] theorem opOf_fmtM : opOf (fmtM op d a s q) = op := extractLsb'_append_eq_left
@[simp] theorem dOf_fmtM : dOf (fmtM op d a s q) = d := extractLsb'_low extractLsb'_append_eq_left
@[simp] theorem aOf_fmtM : aOf (fmtM op d a s q) = a := extractLsb'_low (extractLsb'_low extractLsb'_append_eq_left)
@[simp] theorem slotOf_fmtM : slotOf (fmtM op d a s q) = s := extractLsb'_low (extractLsb'_low (extractLsb'_low extractLsb'_append_eq_left))
@[simp] theorem qOf_fmtM : qOf (fmtM op d a s q) = q := extractLsb'_low (extractLsb'_low (extractLsb'_low extractLsb'_append_eq_right))

end formats

theorem fmtA_fields (w : Word) : fmtA (opOf w) (dOf w) (aOf w) (bOf w) (fnOf w) = w :=
  five_fields (m := 7) (n := 7) (o := 7) (p := 7) (q := 4) w
theorem fmtI_fields (w : Word) : fmtI (opOf w) (dOf w) (aOf w) (immOf w) = w := four_fields (m := 7) (n := 7) (o := 7) (p := 11) w
theorem fmtL_fields (w : Word) : fmtL (opOf w) (dOf w) (imm18Of w) = w := three_fields (m := 7) (n := 7) (o := 18) w
theorem fmtM_fields (w : Word) : fmtM (opOf w) (dOf w) (aOf w) (slotOf w) (qOf w) = w :=
  five_fields (m := 7) (n := 7) (o := 7) (p := 5) (q := 6) w

section words

variable {w : Word} {n : Nat}

/-- A word of major `n`, by the fields of each format. -/
theorem eq_fmtA (h : (opOf w).toNat = n) : ∃ d a b fn, w = fmtA (BitVec.ofNat 7 n) d a b fn :=
  ⟨_, _, _, _, eq_ofNat h ▸ (fmtA_fields w).symm⟩
theorem eq_fmtI (h : (opOf w).toNat = n) : ∃ d a i, w = fmtI (BitVec.ofNat 7 n) d a i := ⟨_, _, _, eq_ofNat h ▸ (fmtI_fields w).symm⟩
theorem eq_fmtL (h : (opOf w).toNat = n) : ∃ d x, w = fmtL (BitVec.ofNat 7 n) d x := ⟨_, _, eq_ofNat h ▸ (fmtL_fields w).symm⟩
theorem eq_fmtM (h : (opOf w).toNat = n) : ∃ d a s q, w = fmtM (BitVec.ofNat 7 n) d a s q :=
  ⟨_, _, _, _, eq_ofNat h ▸ (fmtM_fields w).symm⟩

end words

/-! ## Codes of sub-fields -/

@[simp] theorem LdFe.of_eq_some {c : BitVec 2} {x : LdFe} : LdFe.of c = some x ↔ c = x.code := by cases x <;> decide +revert
@[simp] theorem StFe.of_eq_some {c : BitVec 2} {x : StFe} : StFe.of c = some x ↔ c = x.code := by cases x <;> decide +revert
@[simp] theorem StOrd.of_eq_some {c : BitVec 2} {x : StOrd} : StOrd.of c = some x ↔ c = x.code := by cases x <;> decide +revert
@[simp] theorem AtomFn.of_eq_some {c : BitVec 4} {x : AtomFn} : AtomFn.of c = some x ↔ c = x.code := by cases x <;> decide +revert
@[simp] theorem FenceKind.of_eq_some {c : BitVec 2} {x : FenceKind} : FenceKind.of c = some x ↔ c = x.code := by cases x <;> decide +revert
@[simp] theorem RedOp.of_eq_some {c : BitVec 4} {x : RedOp} : RedOp.of c = some x ↔ c = x.code := by cases x <;> decide +revert
@[simp] theorem LdOrd.of_code (x : LdOrd) : LdOrd.of x.code = x := by cases x <;> rfl
@[simp] theorem LdOrd.code_of (c : BitVec 2) : (LdOrd.of c).code = c := by decide +revert
@[simp] theorem Scope.of_code (x : Scope) : Scope.of x.code = x := by cases x <;> rfl
@[simp] theorem Scope.code_of (c : BitVec 2) : (Scope.of c).code = c := by decide +revert


theorem CopyDest.of_code (x : CopyDest) : CopyDest.of x.code = some x := by
  cases x with
  | slot t => simp [CopyDest.of, CopyDest.code, extractLsb'_append_eq_left, extractLsb'_append_eq_right, -Nat.reduceAdd]
  | fifoA | fifoB => rfl

theorem CopyDest.code_of {b : Reg} {x : CopyDest} (h : CopyDest.of b = some x) : x.code = b := by
  unfold CopyDest.of at h
  split at h
  next hslot =>
    obtain rfl := Option.some.inj h
    exact append_low hslot
  next =>
    split at h
    next hA => cases h; exact hA.symm
    next =>
      split at h
      next hB => cases h; exact hB.symm
      next => cases h

@[simp] theorem CopyDest.of_eq_some {b : Reg} {x : CopyDest} : CopyDest.of b = some x ↔ b = x.code :=
  ⟨fun h => (code_of h).symm, fun h => h ▸ of_code x⟩

theorem SReg.of_code (r : SReg) : SReg.of r.code = some r := by
  cases r with
  | shape s j => simp [SReg.of, SReg.code, extractLsb'_append_eq_left, extractLsb'_append_eq_of_add_le, -Nat.reduceAdd]
  | coord k | evtc k => decide +revert
  | _ => rfl

theorem SReg.code_of {n : BitVec 11} {r : SReg} (h : SReg.of n = some r) : r.code = n := by
  unfold SReg.of at h
  split at h
  next hshape =>
    obtain rfl := Option.some.inj h
    rw [SReg.code, ← hshape]
    exact three_fields (m := 3) (n := 5) (o := 3) n
  next =>
    split at h
    next hcoord =>
      obtain rfl := Option.some.inj h
      rw [SReg.code, ← hcoord]
      exact extractLsb'_append_extractLsb' (w := 8) (len := 3)
    next =>
      split at h
      next hevtc =>
        obtain rfl := Option.some.inj h
        rw [SReg.code, ← hevtc]
        exact extractLsb'_append_extractLsb' (w := 8) (len := 3)
      next =>
        split at h <;> cases h <;> exact (eq_ofNat ‹_›).symm

@[simp] theorem SReg.of_eq_some {n : BitVec 11} {r : SReg} : SReg.of n = some r ↔ n = r.code :=
  ⟨fun h => (code_of h).symm, fun h => h ▸ of_code r⟩

theorem PReg.of_code (r : PReg) : PReg.of r.codeA r.codeB = some r := by
  cases r with
  | nev k => decide +revert
  | _ => rfl

theorem PReg.code_of {a b : Reg} {r : PReg} (h : PReg.of a b = some r) : r.codeA = a ∧ r.codeB = b := by
  unfold PReg.of at h
  split at h
  next => cases h
  next ha =>
    refine ⟨(Decidable.of_not_not ha).symm, ?_⟩
    split at h
    next hnev =>
      obtain rfl := Option.some.inj h
      rw [PReg.codeB, ← hnev]
      exact extractLsb'_append_extractLsb' (w := 4) (len := 3)
    next => split at h <;> cases h <;> exact (eq_ofNat ‹_›).symm

@[simp] theorem PReg.of_eq_some {a b : Reg} {r : PReg} : PReg.of a b = some r ↔ a = r.codeA ∧ b = r.codeB :=
  ⟨fun h => ⟨(code_of h).1.symm, (code_of h).2.symm⟩, fun ⟨ha, hb⟩ => ha ▸ hb ▸ of_code r⟩

/-! ## Single bits: fields d of `mma` and `mdrain`, field a of a copy (R200, R219, R223) -/

section bits

variable {t : BitVec 2} {z p x y : Bool} {s : BitVec 5} {d : Reg}

@[simp] theorem extractLsb'_mmaField : (mmaField t z p x y).extractLsb' 0 2 = t := by decide +revert
@[simp] theorem flag_mmaField : flag (mmaField t z p x y) 2 = z ∧ flag (mmaField t z p x y) 3 = p ∧ flag (mmaField t z p x y) 4 = x ∧
    flag (mmaField t z p x y) 5 = y ∧ flag (mmaField t z p x y) 6 = false := by decide +revert

theorem mmaField_flags (h : flag d 6 = false) : mmaField (d.extractLsb' 0 2) (flag d 2) (flag d 3) (flag d 4) (flag d 5) = d := by
  decide +revert

@[simp] theorem extractLsb'_drainField {r : Option (BitVec 2)} :
    (drainField t r x y).extractLsb' 0 2 = t ∧ (drainField t r x y).extractLsb' 2 2 = r.getD 0 := by
  cases r <;> decide +revert
@[simp] theorem flag_drainField {r : Option (BitVec 2)} :
    flag (drainField t r x y) 4 = r.isSome ∧ flag (drainField t r x y) 5 = x ∧ flag (drainField t r x y) 6 = y := by
  cases r <;> decide +revert

/-- The residual tile of field d of `mdrain`: bits 3:2, where bit 4 says that there is one. -/
theorem drainField_flags (h : (flag d 4 || d.extractLsb' 2 2 = 0#2) = true) :
    drainField (d.extractLsb' 0 2) (if flag d 4 then some (d.extractLsb' 2 2) else none) (flag d 5) (flag d 6) = d := by decide +revert

@[simp] theorem extractLsb'_sourceField : (sourceField x y s).extractLsb' 0 5 = s := by decide +revert
@[simp] theorem flag_sourceField : flag (sourceField x y s) 6 = x ∧ flag (sourceField x y s) 5 = y := by decide +revert

theorem sourceField_flags : sourceField (flag d 6) (flag d 5) (d.extractLsb' 0 5) = d := by decide +revert
theorem sourceField_solo (h : flag d 6 = false) : sourceField false (flag d 5) (d.extractLsb' 0 5) = d := h ▸ sourceField_flags

end bits

/-! ## What a decoder of a group accepts (R72, R76) -/

section accepts

variable {α : Type} {w : Word} {ok : Bool} {i j : Instr} {r : Reject} {c : Option α} {k₀ : α → Instr}

@[simp] theorem zeroIf_eq_ok : zeroIf ok i = .ok j ↔ ok = true ∧ i = j := by cases ok <;> simp [zeroIf]
@[simp] theorem named_eq_ok : named r c ok k₀ = .ok j ↔ ∃ x, c = some x ∧ ok = true ∧ k₀ x = j := by cases c <;> simp [named]
@[simp] theorem dab_eq_ok {k : Reg → Reg → Reg → Instr} : dab w k = .ok j ↔ k (dOf w) (aOf w) (bOf w) = j := by simp [dab]
@[simp] theorem da_eq_ok {k : Reg → Reg → Instr} : da w k = .ok j ↔ bOf w = 0 ∧ k (dOf w) (aOf w) = j := by simp [da]
@[simp] theorem aOnly_eq_ok {k : Reg → Instr} : aOnly w k = .ok j ↔ (dOf w = 0 ∧ bOf w = 0) ∧ k (aOf w) = j := by simp [aOnly]
@[simp] theorem noField_eq_ok : noField w i = .ok j ↔ ((dOf w = 0 ∧ aOf w = 0) ∧ bOf w = 0) ∧ i = j := by simp [noField]
@[simp] theorem imm_eq_ok {k : Reg → Reg → BitVec 11 → Instr} : imm w k = .ok j ↔ k (dOf w) (aOf w) (immOf w) = j := by simp [imm]
@[simp] theorem imm5_eq_ok {k : Reg → Reg → BitVec 5 → Instr} :
    imm5 w k = .ok j ↔ (immOf w).extractLsb' 5 6 = 0#6 ∧ k (dOf w) (aOf w) ((immOf w).extractLsb' 0 5) = j := by simp [imm5]
@[simp] theorem decodeLd_eq_ok : decodeLd w = .ok j ↔ ∃ f, (qOf w).extractLsb' 4 2 = f.code ∧
    .ld (dOf w) (aOf w) (slotOf w) f (LdOrd.of ((qOf w).extractLsb' 2 2)) (Scope.of ((qOf w).extractLsb' 0 2)) = j := by simp [decodeLd]
@[simp] theorem decodeAtom_eq_ok {k : Reg → Reg → BitVec 5 → AtomFn → Scope → Instr} : decodeAtom w k = .ok j ↔
    ∃ f, (qOf w).extractLsb' 2 4 = f.code ∧ k (dOf w) (aOf w) (slotOf w) f (Scope.of ((qOf w).extractLsb' 0 2)) = j := by simp [decodeAtom]
@[simp] theorem decodeSt_eq_ok : decodeSt w = .ok j ↔ ∃ f o, (qOf w).extractLsb' 4 2 = f.code ∧ (qOf w).extractLsb' 2 2 = o.code ∧
    .st (dOf w) (aOf w) (slotOf w) f o (Scope.of ((qOf w).extractLsb' 0 2)) = j := by
  simp only [← StFe.of_eq_some, ← StOrd.of_eq_some, decodeSt]
  cases StFe.of ((qOf w).extractLsb' 4 2) <;> cases StOrd.of ((qOf w).extractLsb' 2 2) <;> simp

end accepts

/-! ## The group of a major opcode (R75) -/

section majors

variable {d a b : Reg} {fn : BitVec 4}

@[simp] theorem decodeFields_int1 : decodeFields (fmtA 1#7 d a b fn) = decodeInt1 (fmtA 1 d a b fn) := by rw [decodeFields, opOf_fmtA]; rfl
@[simp] theorem decodeFields_int2 : decodeFields (fmtA 2#7 d a b fn) = decodeInt2 (fmtA 2 d a b fn) := by rw [decodeFields, opOf_fmtA]; rfl
@[simp] theorem decodeFields_int3 : decodeFields (fmtA 3#7 d a b fn) = decodeInt3 (fmtA 3 d a b fn) := by rw [decodeFields, opOf_fmtA]; rfl
@[simp] theorem decodeFields_fp1 : decodeFields (fmtA 4#7 d a b fn) = decodeFp1 (fmtA 4 d a b fn) := by rw [decodeFields, opOf_fmtA]; rfl
@[simp] theorem decodeFields_fp2 : decodeFields (fmtA 5#7 d a b fn) = decodeFp2 (fmtA 5 d a b fn) := by rw [decodeFields, opOf_fmtA]; rfl
@[simp] theorem decodeFields_cvt : decodeFields (fmtA 6#7 d a b fn) = decodeCvt (fmtA 6 d a b fn) := by rw [decodeFields, opOf_fmtA]; rfl
@[simp] theorem decodeFields_pk : decodeFields (fmtA 7#7 d a b fn) = decodePk (fmtA 7 d a b fn) := by rw [decodeFields, opOf_fmtA]; rfl
@[simp] theorem decodeFields_lane : decodeFields (fmtA 8#7 d a b fn) = decodeLane (fmtA 8 d a b fn) := by rw [decodeFields, opOf_fmtA]; rfl
@[simp] theorem decodeFields_queue : decodeFields (fmtA 9#7 d a b fn) = decodeQueue (fmtA 9 d a b fn) := by rw [decodeFields, opOf_fmtA]; rfl
@[simp] theorem decodeFields_prop : decodeFields (fmtA 10#7 d a b fn) = decodeProp (fmtA 10 d a b fn) := by rw [decodeFields, opOf_fmtA]; rfl
@[simp] theorem decodeFields_twin : decodeFields (fmtA 12#7 d a b fn) = decodeTwin (fmtA 12 d a b fn) := by rw [decodeFields, opOf_fmtA]; rfl
@[simp] theorem decodeFields_matrix : decodeFields (fmtA 13#7 d a b fn) = decodeMatrix (fmtA 13 d a b fn) := by rw [decodeFields, opOf_fmtA]; rfl
@[simp] theorem decodeFields_copy : decodeFields (fmtA 14#7 d a b fn) = decodeCopy (fmtA 14 d a b fn) := by rw [decodeFields, opOf_fmtA]; rfl
@[simp] theorem decodeFields_sync : decodeFields (fmtA 26#7 d a b fn) = decodeSync (fmtA 26 d a b fn) := by rw [decodeFields, opOf_fmtA]; rfl
@[simp] theorem decodeFields_code : decodeFields (fmtA 27#7 d a b fn) = decodeCode (fmtA 27 d a b fn) := by rw [decodeFields, opOf_fmtA]; rfl
@[simp] theorem decodeFields_coll : decodeFields (fmtA 30#7 d a b fn) = decodeColl (fmtA 30 d a b fn) := by rw [decodeFields, opOf_fmtA]; rfl
@[simp] theorem decodeFields_priv : decodeFields (fmtA 64#7 d a b fn) = decodePriv (fmtA 64 d a b fn) := by rw [decodeFields, opOf_fmtA]; rfl
@[simp] theorem decodeFields_fe {s : BitVec 5} {q : BitVec 6} : decodeFields (fmtM 22#7 d a s q) = decodeFe (fmtM 22 d a s q) := by
  rw [decodeFields, opOf_fmtM]; rfl

end majors

/-! ## The word of an instruction decodes to it (R75 to R78) -/

theorem decodeFields_of_encode {i : Instr} {w : Word} (h : encode i = some w) : decodeFields w = .ok i := by
  cases i with
  | add | sub | mul | mulhs | mulhz | and | or | xor | andn | shl | shrz | shrs | mins | maxs | minz | maxz =>
    cases h; simp [decodeInt1]
  | seq | sne | slts | sltz | sles | slez | sel | clz | popc | brev | bfxs | bfxz | bfi | addss | subss | mac =>
    cases h; simp [decodeInt2]
  | addmin | addmax | absd | divs | divz | rems | remz => cases h; simp [decodeInt3]
  | fadd | fsub | fmul | ffma | ffms | fmin | fmax | fabs | fneg | fseq | fslt | fsle | fsun | fclass | faddmin | fcopysign =>
    cases h; simp [decodeFp1]
  | fsqrt | frcp | frsq | fexp2 | flog2 | fdiv => cases h; simp [decodeFp2]
  | cvtfs | cvtfz | cvtsfRz | cvtzfRz | cvtsfRn | cvtzfRn | frintRn | frintRz | frintDn | frintUp | cvtbf2 | cvth2 | cvtbfl | cvtbfh | cvthl
  | cvthh => cases h; simp [decodeCvt]
  | bfadd2 | bfmul2 | bffma2 | bfmin2 | bfmax2 | hadd2 | hmul2 | hfma2 => cases h; simp [decodePk]
  | lshup | lshdn | lrot | lbc | lperm | lsum | lmin | lmax | lfsum | lscan | ballot | vany | vall | lfirst | lcount | lmatch =>
    cases h; simp [decodeLane]
  | qpush | qpop | qtry | qlen =>
    cases h; simp [decodeQueue, extractLsb'_append_eq_left, extractLsb'_append_eq_right, -Nat.reduceAdd]
  | accept | pcommit | pdrop | rngu | rngf | gkey | rbegin | rindex => cases h; simp [decodeProp]
  | tget | tset | tbar | mlic | mlicr | mlictry => cases h; simp [decodeTwin]
  | mcfg | mma | mwait | mrelc | mstat => cases h; simp [decodeMatrix]
  | mzero => cases h; simp [decodeMatrix, extractLsb'_append_eq_left, extractLsb'_append_eq_right, -Nat.reduceAdd]
  | mdrain t r =>
    cases h
    cases r <;> simp [decodeMatrix, extractLsb'_append_eq_left, extractLsb'_append_eq_right, -Nat.reduceAdd]
  | cpy | cpyg | cpys | cwait | publish =>
    cases h; simp [decodeCopy, extractLsb'_append_eq_left, extractLsb'_append_eq_right, -Nat.reduceAdd]
  | ld | st => cases h; simp [decodeFields, extractLsb'_append_eq_of_le, extractLsb'_append_eq_right, -Nat.reduceAdd]
  | ldm | stm | popen | wbase => cases h; simp [decodeFields]
  | atom | atoma | wne => cases h; simp [decodeFields, extractLsb'_append_eq_left, extractLsb'_append_eq_right, -Nat.reduceAdd]
  | feset | feclr | fetest => cases h; simp [decodeFe, extractLsb'_append_eq_left, extractLsb'_append_eq_right, -Nat.reduceAdd]
  | rdsr d r | wrsr r a => cases h; simp [decodeFields]
  | bar | barsArrive | barsWait | phase | yield | setperf | scall | trap | launch | nop => cases h; simp [decodeSync]
  | fence k c =>
    cases h; simp [decodeSync, extractLsb'_append_eq_left, extractLsb'_append_eq_of_add_le, -Nat.reduceAdd]
  | phasew => cases h; simp [decodeSync, extractLsb'_append_eq_left, extractLsb'_append_eq_right, -Nat.reduceAdd]
  | cfetch | cwaits | jr | fjr | callr => cases h; simp [decodeCode]
  | rgive | rclaim => cases h; simp [decodeFields, extractLsb'_append_eq_left, extractLsb'_append_eq_right, -Nat.reduceAdd]
  | cagat | crsc | ca2a | cbar | cred | cwaitc =>
    cases h; simp [decodeColl, extractLsb'_append_eq_left, extractLsb'_append_eq_right, -Nat.reduceAdd]
  | addi | muli | andi | ori | xori | sltsi | sltzi | seqi | minsi | maxsi | addmini =>
    cases h; rw [decodeFields, opOf_fmtI]; exact imm_eq_ok.mpr (by simp)
  | shli | shrzi | shrsi =>
    cases h; rw [decodeFields, opOf_fmtI]
    exact imm5_eq_ok.mpr (by simp [extractLsb'_append_eq_left, extractLsb'_append_eq_right, -Nat.reduceAdd])
  | li | lih | bnz | bz | call | hloop | refill =>
    cases h; rw [decodeFields, opOf_fmtL]; exact congrArg Except.ok (by simp)
  | br | fjmp => cases h; rw [decodeFields, opOf_fmtL]; exact zeroIf_eq_ok.mpr (by simp)
  | hret | ctxsv | ctxld | tlbinv | mlicgv | slotclr | hwr | hrd | hskip | hkill | idle => cases h; simp [decodePriv]
  | rdpr d r | wrpr r d => cases h; simp [decodePriv]
  | _ => cases h

/-! ## A word is the word of what it decodes to (R72, R75 to R78) -/

/-- What a decoder accepts is an instruction of the word `w`. -/
def NamesOf (e : Except Reject Instr) (w : Word) : Prop := ∀ i, e = .ok i → encode i = some w

section names

variable {α : Type} {v w : Word} {ok : Bool} {i : Instr} {r : Reject} {c : Option α} {k₀ : α → Instr}

@[simp] theorem namesOf_error : NamesOf (.error r) w := fun _ h => nomatch h
@[simp] theorem namesOf_ok : NamesOf (.ok i) w ↔ encode i = some w := by simp [NamesOf]
@[simp] theorem namesOf_zeroIf : NamesOf (zeroIf ok i) w ↔ (ok = true → encode i = some w) := by simp [NamesOf]
@[simp] theorem namesOf_named : NamesOf (named r c ok k₀) w ↔ ∀ x, c = some x → ok = true → encode (k₀ x) = some w := by
  simpa [NamesOf] using ⟨fun h x hx hok => h _ x hx hok rfl, fun h _ x hx hok hi => hi ▸ h x hx hok⟩
@[simp] theorem namesOf_ite {p : Prop} [Decidable p] {e f : Except Reject Instr} :
    NamesOf (if p then e else f) w ↔ (p → NamesOf e w) ∧ (¬p → NamesOf f w) := by split <;> simp [*]
@[simp] theorem namesOf_dab {k : Reg → Reg → Reg → Instr} : NamesOf (dab v k) w ↔ encode (k (dOf v) (aOf v) (bOf v)) = some w := by
  simp [NamesOf]
@[simp] theorem namesOf_da {k : Reg → Reg → Instr} : NamesOf (da v k) w ↔ (bOf v = 0 → encode (k (dOf v) (aOf v)) = some w) := by
  simp [da]
@[simp] theorem namesOf_aOnly {k : Reg → Instr} : NamesOf (aOnly v k) w ↔ (dOf v = 0 → bOf v = 0 → encode (k (aOf v)) = some w) := by
  simp [aOnly]
@[simp] theorem namesOf_noField : NamesOf (noField v i) w ↔ (dOf v = 0 → aOf v = 0 → bOf v = 0 → encode i = some w) := by
  simp [noField]

end names

/-- The sixteen function codes. -/
def fnCodes : List (BitVec 4) := [0#4, 1#4, 2#4, 3#4, 4#4, 5#4, 6#4, 7#4, 8#4, 9#4, 10#4, 11#4, 12#4, 13#4, 14#4, 15#4]

theorem mem_fnCodes (fn : BitVec 4) : fn ∈ fnCodes := by decide +revert

theorem forall_fn {P : BitVec 4 → Prop} :
    (∀ fn, P fn) ↔
      P 0#4 ∧ P 1#4 ∧ P 2#4 ∧ P 3#4 ∧ P 4#4 ∧ P 5#4 ∧ P 6#4 ∧ P 7#4 ∧
      P 8#4 ∧ P 9#4 ∧ P 10#4 ∧ P 11#4 ∧ P 12#4 ∧ P 13#4 ∧ P 14#4 ∧ P 15#4 := by
  have hcodes : (∀ fn, P fn) ↔ ∀ fn ∈ fnCodes, P fn := ⟨fun h fn _ => h fn, fun h fn => h fn (mem_fnCodes fn)⟩
  rw [hcodes]
  simp only [fnCodes, List.forall_mem_cons, List.not_mem_nil, false_imp_iff, implies_true, and_true]

section groups

variable (d a b : Reg)

theorem decodeInt1_names : ∀ fn, NamesOf (decodeInt1 (fmtA 1#7 d a b fn)) (fmtA 1#7 d a b fn) := by
  simp [forall_fn, decodeInt1]
  and_intros <;> rfl

theorem decodeInt2_names : ∀ fn, NamesOf (decodeInt2 (fmtA 2#7 d a b fn)) (fmtA 2#7 d a b fn) := by
  simp +contextual [forall_fn, decodeInt2]
  and_intros <;> intros <;> rfl

theorem decodeInt3_names : ∀ fn, NamesOf (decodeInt3 (fmtA 3#7 d a b fn)) (fmtA 3#7 d a b fn) := by
  simp [forall_fn, decodeInt3]
  and_intros <;> rfl

theorem decodeFp1_names : ∀ fn, NamesOf (decodeFp1 (fmtA 4#7 d a b fn)) (fmtA 4#7 d a b fn) := by
  simp +contextual [forall_fn, decodeFp1]
  and_intros <;> intros <;> rfl

theorem decodeFp2_names : ∀ fn, NamesOf (decodeFp2 (fmtA 5#7 d a b fn)) (fmtA 5#7 d a b fn) := by
  simp +contextual [forall_fn, decodeFp2]
  and_intros <;> intros <;> rfl

theorem decodeCvt_names : ∀ fn, NamesOf (decodeCvt (fmtA 6#7 d a b fn)) (fmtA 6#7 d a b fn) := by
  simp +contextual [forall_fn, decodeCvt]
  and_intros <;> intros <;> rfl

theorem decodePk_names : ∀ fn, NamesOf (decodePk (fmtA 7#7 d a b fn)) (fmtA 7#7 d a b fn) := by
  simp [forall_fn, decodePk]
  and_intros <;> rfl

theorem decodeLane_names : ∀ fn, NamesOf (decodeLane (fmtA 8#7 d a b fn)) (fmtA 8#7 d a b fn) := by
  simp +contextual [forall_fn, decodeLane]
  and_intros <;> intros <;> rfl

theorem decodeQueue_names : ∀ fn, NamesOf (decodeQueue (fmtA 9#7 d a b fn)) (fmtA 9#7 d a b fn) := by
  simp [forall_fn, decodeQueue]
  and_intros <;> intros <;> exact congrArg some (by simp [*, append_low, -Nat.reduceAdd])

theorem decodeProp_names : ∀ fn, NamesOf (decodeProp (fmtA 10#7 d a b fn)) (fmtA 10#7 d a b fn) := by
  simp +contextual [forall_fn, decodeProp]
  and_intros <;> intros <;> rfl

theorem decodeTwin_names : ∀ fn, NamesOf (decodeTwin (fmtA 12#7 d a b fn)) (fmtA 12#7 d a b fn) := by
  simp +contextual [forall_fn, decodeTwin]
  and_intros <;> intros <;> rfl

theorem decodeMatrix_names : ∀ fn, NamesOf (decodeMatrix (fmtA 13#7 d a b fn)) (fmtA 13#7 d a b fn) := by
  simp [forall_fn, decodeMatrix]
  and_intros <;> intros <;>
    exact congrArg some (by simp [*, append_low, mmaField_flags, drainField_flags, -Nat.reduceAdd])

theorem decodeCopy_names : ∀ fn, NamesOf (decodeCopy (fmtA 14#7 d a b fn)) (fmtA 14#7 d a b fn) := by
  simp [forall_fn, decodeCopy]
  and_intros <;> intros <;>
    exact congrArg some (by simp [*, append_low, sourceField_flags, sourceField_solo, -Nat.reduceAdd])

theorem decodeSync_names : ∀ fn, NamesOf (decodeSync (fmtA 26#7 d a b fn)) (fmtA 26#7 d a b fn) := by
  simp [forall_fn, decodeSync]
  and_intros <;> intros <;> exact congrArg some (by simp [*, append_low, append_low_right, -Nat.reduceAdd])

theorem decodeCode_names : ∀ fn, NamesOf (decodeCode (fmtA 27#7 d a b fn)) (fmtA 27#7 d a b fn) := by
  simp +contextual [forall_fn, decodeCode]
  and_intros <;> intros <;> rfl

theorem decodeColl_names : ∀ fn, NamesOf (decodeColl (fmtA 30#7 d a b fn)) (fmtA 30#7 d a b fn) := by
  simp [forall_fn, decodeColl]
  and_intros <;> intros <;> exact congrArg some (by simp [*, append_low, append_high, -Nat.reduceAdd])

theorem decodePriv_names : ∀ fn, NamesOf (decodePriv (fmtA 64#7 d a b fn)) (fmtA 64#7 d a b fn) := by
  simp +contextual [forall_fn, decodePriv]
  and_intros <;> intros <;> rfl

end groups

theorem decodeFe_names {d a : Reg} {s : BitVec 5} {q : BitVec 6} : NamesOf (decodeFe (fmtM 22#7 d a s q)) (fmtM 22#7 d a s q) := by
  simp only [decodeFe, qOf_fmtM, dOf_fmtM, aOf_fmtM, slotOf_fmtM]
  split
  case h_4 => exact namesOf_error
  all_goals
    have hq := append_low (m := 4) (n := 2) (eq_ofNat ‹_›)
    simp only [namesOf_zeroIf, namesOf_ok, decide_eq_true_eq]
    intros
    exact congrArg some (by simp [*, -Nat.reduceAdd])

/-- A decoder of format A is good for a word of major `n` if it is so for all fields. -/
theorem names_fmtA {w : Word} {n : Nat} {f : Word → Except Reject Instr} (h : (opOf w).toNat = n)
    (hf : ∀ d a b fn, NamesOf (f (fmtA (BitVec.ofNat 7 n) d a b fn)) (fmtA (BitVec.ofNat 7 n) d a b fn)) : NamesOf (f w) w := by
  obtain ⟨d, a, b, fn, rfl⟩ := eq_fmtA h
  exact hf d a b fn

theorem decodeFields_names (w : Word) : NamesOf (decodeFields w) w := by
  unfold decodeFields
  split
  -- the groups of function codes (R76)
  case h_1 h => exact names_fmtA h decodeInt1_names
  case h_2 h => exact names_fmtA h decodeInt2_names
  case h_3 h => exact names_fmtA h decodeInt3_names
  case h_4 h => exact names_fmtA h decodeFp1_names
  case h_5 h => exact names_fmtA h decodeFp2_names
  case h_6 h => exact names_fmtA h decodeCvt_names
  case h_7 h => exact names_fmtA h decodePk_names
  case h_8 h => exact names_fmtA h decodeLane_names
  case h_9 h => exact names_fmtA h decodeQueue_names
  case h_10 h => exact names_fmtA h decodeProp_names
  case h_12 h => exact names_fmtA h decodeTwin_names
  case h_13 h => exact names_fmtA h decodeMatrix_names
  case h_14 h => exact names_fmtA h decodeCopy_names
  case h_25 h => exact names_fmtA h decodeSync_names
  case h_26 h => exact names_fmtA h decodeCode_names
  case h_29 h => exact names_fmtA h decodeColl_names
  case h_54 h => exact names_fmtA h decodePriv_names
  -- loads, stores and atomics (R71, R78)
  case h_15 h =>
    obtain ⟨d, a, s, q, rfl⟩ := eq_fmtM h
    intro i hi
    obtain ⟨f, hf, rfl⟩ := decodeLd_eq_ok.mp hi
    exact congrArg some (by simp_all [append_low_left, -Nat.reduceAdd])
  case h_16 h =>
    obtain ⟨d, a, s, q, rfl⟩ := eq_fmtM h
    intro i hi
    obtain ⟨f, o, hf, ho, rfl⟩ := decodeSt_eq_ok.mp hi
    exact congrArg some (by simp_all [append_low_left, -Nat.reduceAdd])
  case h_19 h | h_20 h =>
    obtain ⟨d, a, s, q, rfl⟩ := eq_fmtM h
    intro i hi
    obtain ⟨f, hf, rfl⟩ := decodeAtom_eq_ok.mp hi
    exact congrArg some (by simp_all [append_low, -Nat.reduceAdd])
  case h_21 h => obtain ⟨d, a, s, q, rfl⟩ := eq_fmtM h; exact decodeFe_names
  case h_22 h =>
    obtain ⟨d, a, s, q, rfl⟩ := eq_fmtM h
    exact namesOf_zeroIf.mpr fun hq => congrArg some (by simp_all [append_low, -Nat.reduceAdd])
  case h_17 h | h_18 h =>
    obtain ⟨d, a, s, q, rfl⟩ := eq_fmtM h
    exact namesOf_ok.mpr (congrArg some (by simp))
  -- format I (R68), then formats L and B (R69, R70)
  case h_11 h | h_27 h =>
    obtain ⟨d, a, i, rfl⟩ := eq_fmtI h
    exact namesOf_zeroIf.mpr fun h0 => congrArg some (by simp_all)
  case h_23 h | h_24 h =>
    obtain ⟨d, a, i, rfl⟩ := eq_fmtI h
    exact namesOf_named.mpr fun r hr h0 => congrArg some (by simp_all)
  case h_28 h | h_30 h | h_36 h | h_37 h | h_38 h =>
    obtain ⟨d, a, i, rfl⟩ := eq_fmtI h
    exact namesOf_zeroIf.mpr fun h0 => congrArg some (by simp_all [append_low, -Nat.reduceAdd])
  case h_31 h | h_32 h | h_33 h | h_34 h | h_35 h | h_39 h | h_40 h | h_41 h | h_42 h | h_43 h | h_44 h =>
    obtain ⟨d, a, i, rfl⟩ := eq_fmtI h
    exact namesOf_ok.mpr (congrArg some (by simp))
  case h_47 h | h_51 h =>
    obtain ⟨d, x, rfl⟩ := eq_fmtL h
    exact namesOf_zeroIf.mpr fun h0 => congrArg some (by simp_all)
  case h_45 h | h_46 h | h_48 h | h_49 h | h_50 h | h_52 h | h_53 h =>
    obtain ⟨d, x, rfl⟩ := eq_fmtL h
    exact namesOf_ok.mpr (congrArg some (by simp))
  case h_55 => exact namesOf_error

theorem encode_of_decodeFields {i : Instr} {w : Word} (h : decodeFields w = .ok i) : encode i = some w := decodeFields_names w i h

/-! ## Decoding and encoding (R66 to R78) -/

/-- A word decodes to the instruction that its fields name, where that passes the checks of R72. -/
theorem decode_eq_ok {i : Instr} {w : Word} : decode w = .ok i ↔ decodeFields w = .ok i ∧ i.wellFormed = true := by
  unfold decode Instr.wellFormed
  cases decodeFields w with
  | error r => simp
  | ok j =>
    cases hj : j.illFormed with
    | none => simpa [hj] using fun h => h ▸ hj
    | some r => simpa [hj] using fun h hi => by simp [← h, hj] at hi

theorem decode_eq_ok_iff_encode {i : Instr} {w : Word} : decode w = .ok i ↔ i.wellFormed = true ∧ encode i = some w :=
  decode_eq_ok.trans ⟨fun ⟨h, hi⟩ => ⟨hi, encode_of_decodeFields h⟩, fun ⟨hi, h⟩ => ⟨decodeFields_of_encode h, hi⟩⟩

/-- Exactly the events have no word. -/
theorem isNone_encode (i : Instr) : (encode i).isNone = i.isEvent := by cases i <;> rfl

theorem encode_eq_none {i : Instr} : encode i = none ↔ i.isEvent = true := by rw [← isNone_encode, Option.isNone_iff_eq_none]

end Sys2Proof

namespace Sys2Proof.Machine

/-- Settles O59: a word decodes to a well-formed instruction exactly where it is its word, and only events have none. -/
theorem decodeAndEncodeAgree : Obligations.DecodeAndEncodeAgree := by
  unfold Obligations.DecodeAndEncodeAgree
  refine ⟨fun i hi hev => ?_, fun i => encode_eq_none.mpr, fun i w hw hi => decode_eq_ok_iff_encode.mpr ⟨hi, hw⟩,
    fun w i => decode_eq_ok_iff_encode.mp⟩
  obtain ⟨w, hw⟩ := Option.ne_none_iff_exists'.mp fun h => Bool.false_ne_true (hev.symm.trans (encode_eq_none.mp h))
  exact ⟨w, hw, decode_eq_ok_iff_encode.mpr ⟨hi, hw⟩⟩

/-- Settles O58: the words of the first list are those of their instructions, which are well formed, and so decode to them. -/
theorem wordsDecode : Obligations.WordsDecode := by
  unfold Obligations.WordsDecode
  constructor
  · intro p hp
    have h : encode p.2 = some p.1 ∧ p.2.wellFormed = true := by
      revert p
      decide
    exact ⟨decode_eq_ok_iff_encode.mpr h.symm, h.1⟩
  · simp only [List.forall_mem_cons, List.not_mem_nil, false_imp_iff, implies_true, and_true]
    exact ⟨⟨_, rfl⟩, ⟨_, rfl⟩, ⟨_, rfl⟩, ⟨_, rfl⟩, ⟨_, rfl⟩, ⟨_, rfl⟩⟩

end Sys2Proof.Machine

/-!
# Privilege levels and the privileged registers (R72, R73, R104, R293 to R295)

Three guards give each privileged instruction its level: `needsLevel`, `handlerOnly` and `firmwareOnly`. Below its level an instruction is
their trap; at its level `rdpr` and `wrpr` end as `rdsr` and `wrsr` do, in `State.produce` and `State.leave`.
-/

namespace Sys2Proof.Machine

variable {s : State} {h : Here}

/-! ## The guards below the level that they ask for (R293) -/

theorem level_ne {n m : Nat} (hl : h.level = n) (hnm : n ≠ m := by decide) : h.level ≠ m := hl ▸ hnm

theorem needsLevel_of_user (hu : h.level = 0) (k : Out) : needsLevel s h k = trap s h kPriv := if_pos hu

theorem handlerOnly_of_user (hu : h.level = 0) (named reads : List Reg) (k : Out) : handlerOnly s h named reads k = trap s h kPriv := if_pos hu

theorem firmwareOnly_of_denied (hd : h.level ≠ 2) (k : Out) : firmwareOnly s h k = trap s h kPriv := if_pos hd

/-- A handler's instruction in firmware traps once its fields are checked (R73). -/
theorem handlerOnly_of_firmware {named reads : List Reg} (hf : h.level = 2) (r : Ready s h named reads) (k : Out) :
    handlerOnly s h named reads k = trap s h kState := by
  rw [handlerOnly_of_granted (by omega), checked_of_ready r, if_pos hf]

/-- A word without register fields passes the checks of fields. -/
theorem ready_of_noFields (hs : s.here = some h) : Ready s h [] [] where
  here := hs
  range := fun _ _ => List.forall_mem_nil _
  latch := fun _ _ => List.forall_mem_nil _

/-- The level-2 instructions. -/
def firmwareInstrs (d a b : Reg) : List Instr := [.ctxsv d a, .ctxld d a, .tlbinv a b, .mlicgv a, .slotclr a, .idle]

theorem exec_firmwareInstrs_denied (hs : s.here = some h) (hd : h.level ≠ 2) (d a b : Reg) :
    ∀ i ∈ firmwareInstrs d a b, exec i s = trap s h kPriv := by
  simp only [firmwareInstrs, List.forall_mem_cons]
  refine ⟨?ctxsv, ?ctxld, ?tlbinv, ?mlicgv, ?slotclr, ?idle, List.forall_mem_nil _⟩
  all_goals exact (withHere_of_here hs _).trans (firmwareOnly_of_denied hd _)

/-- In a user program every privileged instruction traps. -/
theorem exec_privileged_of_user (hs : s.here = some h) (hu : h.level = 0) (d a b : Reg) (r : PReg) :
    ∀ i ∈ [Instr.rdpr d r, .wrpr r d] ++ firmwareInstrs d a b ++ [.hwr a b, .hrd d a, .hskip, .hkill, .hret], exec i s = trap s h kPriv := by
  simp only [List.forall_mem_append, List.forall_mem_cons]
  refine ⟨⟨⟨?rdpr, ?wrpr, List.forall_mem_nil _⟩, exec_firmwareInstrs_denied hs (by omega) d a b⟩, ?hwr, ?hrd, ?hskip, ?hkill, ?hret,
    List.forall_mem_nil _⟩
  case rdpr | wrpr => exact (withHere_of_here hs _).trans (needsLevel_of_user hu _)
  all_goals exact (withHere_of_here hs _).trans (handlerOnly_of_user hu _ _ _)

theorem exec_hwr_of_firmware {a b : Reg} (hf : h.level = 2) (r : Ready s h [a, b] [a, b]) : exec (.hwr a b) s = trap s h kState :=
  (withHere_of_ready r _).trans (handlerOnly_of_firmware hf r _)

theorem exec_hrd_of_firmware {d a : Reg} (hf : h.level = 2) (r : Ready s h [d, a] [a]) : exec (.hrd d a) s = trap s h kState :=
  (withHere_of_ready r _).trans (handlerOnly_of_firmware hf r _)

theorem exec_handlerEnds_of_firmware (hs : s.here = some h) (hf : h.level = 2) : ∀ i ∈ [Instr.hskip, .hkill, .hret], exec i s = trap s h kState := by
  simp only [List.forall_mem_cons]
  refine ⟨?hskip, ?hkill, ?hret, List.forall_mem_nil _⟩
  all_goals exact (withHere_of_here hs _).trans (handlerOnly_of_firmware hf (ready_of_noFields hs) _)

/-! ## Reads and writes of privileged registers (R104, R294) -/

theorem exec_rdpr {d : Reg} (hl : h.level ≠ 0) (r : Ready s h [d] []) (x : PReg) :
    exec (.rdpr d x) s = .next ((s.produce h d false (fun _ => s.privReg h.core h.level (some h.g) h.w x)).retire h []) :=
  ((withHere_of_ready r _).trans (needsLevel_of_granted hl _)).trans (checked_of_ready r _)

theorem writes_rdpr {d : Reg} (hl : h.level ≠ 0) (r : Ready s h [d] []) (x : PReg) :
    Writes (.rdpr d x) s h [] d (fun _ => s.privReg h.core h.level (some h.g) h.w x) quiet :=
  gives_of_produce (exec_rdpr hl r x)

theorem exec_wrpr {d : Reg} (hl : h.level ≠ 0) (r : Ready s h [d] [d]) (x : PReg) :
    exec (.wrpr x d) s = if h.level = 1 && !handlerWrites x then trap s h kPriv
      else .next ((s.setPrivReg h.core h.gk x (s.uniform h d)).leave h [d] onward) :=
  ((withHere_of_ready r _).trans (needsLevel_of_granted hl _)).trans (checked_of_ready r _)

/-- A handler writes the event control registers alone. -/
theorem exec_wrpr_of_handler {d : Reg} (hl : h.level = 1) (r : Ready s h [d] [d]) {x : PReg} (hx : handlerWrites x = false) :
    exec (.wrpr x d) s = trap s h kPriv := by
  rw [exec_wrpr (by omega) r, if_pos (by simp [hl, hx])]

theorem passes_wrpr {d : Reg} (hl : h.level ≠ 0) (r : Ready s h [d] [d]) {x : PReg} (hx : h.level = 2 ∨ handlerWrites x = true) :
    Passes (.wrpr x d) s (s.setPrivReg h.core h.gk x (s.uniform h d)) h [d] onward := by
  refine passes_of_leave ((exec_wrpr hl r x).trans (if_neg ?_))
  rcases hx with hf | hx
  · simp [hf]
  · simp [hx]

theorem low16_eq (v : Word) : low16 v = 0#16 ++ v.extractLsb' 0 16 := BitVec.setWidth_eq_append (by decide)

/-- What a write of `v` leaves for each register that a handler may not write; the first four are read-only. -/
def privWrites (s : State) (core : Nat) (v : Word) : List (PReg × State) :=
  let low : Word := 0#16 ++ v.extractLsb' 0 16
  let set := fun (f : Core → Core) => s.modCore core f
  [(.priv, s), (.tkind, s), (.tseq, s), (.part, s), (.hmask, set (fun c => { c with hmask := v })), (.hfwd, set (fun c => { c with hfwd := v })),
    (.hagg, set (fun c => { c with hagg := 0#24 ++ v.extractLsb' 0 8 })), (.hwd, set (fun c => { c with hwd := low })),
    (.svwd, set (fun c => { c with svwd := low })), (.tslice, set (fun c => { c with tslice := if low = 0 then c.tslice else low })),
    (.fwbell, set (fun c => { c with fwbell := if v.getLsbD 0 then c.fwbell else 0 }))]

theorem setPrivReg_of_privWrites (core gk : Nat) (v : Word) :
    ∀ p ∈ privWrites s core v, handlerWrites p.1 = false ∧ s.setPrivReg core gk p.1 v = p.2 := by
  have hagg : ((v.extractLsb' 0 8).setWidth 32 : Word) = 0#24 ++ v.extractLsb' 0 8 := BitVec.setWidth_eq_append (by decide)
  simp only [privWrites, List.forall_mem_cons, ← low16_eq, ← hagg]
  exact ⟨⟨rfl, rfl⟩, ⟨rfl, rfl⟩, ⟨rfl, rfl⟩, ⟨rfl, rfl⟩, ⟨rfl, rfl⟩, ⟨rfl, rfl⟩, ⟨rfl, rfl⟩, ⟨rfl, rfl⟩, ⟨rfl, rfl⟩, ⟨rfl, rfl⟩, ⟨rfl, rfl⟩,
    List.forall_mem_nil _⟩

/-- What a read of each register but the event control registers gives. -/
def privValues (s : State) (h : Here) : List (PReg × Word) :=
  [(.priv, BitVec.ofNat 32 h.level), (.tkind, BitVec.ofNat 32 h.w.tkind), (.tseq, h.w.tseq), (.hmask, (s.core h.core).hmask),
    (.hfwd, (s.core h.core).hfwd), (.hagg, (s.core h.core).hagg), (.hwd, (s.core h.core).hwd), (.svwd, (s.core h.core).svwd),
    (.tslice, (s.core h.core).tslice), (.part, BitVec.ofNat 32 (s.owner h.core)), (.fwbell, (s.core h.core).fwbell)]

theorem privReg_of_privValues : ∀ p ∈ privValues s h, s.privReg h.core h.level (some h.g) h.w p.1 = p.2 := by
  simp only [privValues, List.forall_mem_cons]
  exact ⟨rfl, rfl, rfl, rfl, rfl, rfl, rfl, rfl, rfl, rfl, rfl, List.forall_mem_nil _⟩

/-! ## Words that are no instruction (R72, R132) -/

theorem exec_illegalInstructionWord (hs : s.here = some h) (w : Word) :
    exec (.illegalInstructionWord w) s = trap s h (if h.level = 0 ∧ w.extractLsb' 25 7 = 0x40#7 then kPriv else kIllegal) :=
  (withHere_of_here hs _).trans (congrArg (trap s h) (by simp))

theorem exec_fetchFault (hs : s.here = some h) (detail : Nat) :
    exec (.fetchFault detail) s = .next (s.takeTrap h (h.cause kFetch detail)) := withHere_of_here hs _

/-- Settles O47: the guards decide who may run each instruction, and `privReg` and `setPrivReg` what a register gives and takes. -/
theorem privilegeAndItsRegisters : Obligations.PrivilegeAndItsRegisters := fun s h d a b r w detail hs =>
  ⟨rfl, fun hu => exec_privileged_of_user hs hu d a b r, fun hh => exec_firmwareInstrs_denied hs (level_ne hh) d a b,
    fun hf => ⟨exec_hwr_of_firmware hf, exec_hrd_of_firmware hf, exec_handlerEnds_of_firmware hs hf⟩,
    fun hl q => ⟨fun p hp => privReg_of_privValues p hp ▸ writes_rdpr hl q p.1, fun k => writes_rdpr hl q (.nev k)⟩,
    fun q => ⟨fun hh p hp => exec_wrpr_of_handler hh q (setPrivReg_of_privWrites h.core h.gk _ p hp).1,
      fun hf p hp => (setPrivReg_of_privWrites h.core h.gk _ p hp).2 ▸ passes_wrpr (level_ne hf) q (.inl hf),
      fun hl k => passes_wrpr hl q (x := .nev k) (.inr rfl)⟩,
    exec_illegalInstructionWord hs w, exec_fetchFault hs detail⟩

end Sys2Proof.Machine
